-- ==== Sys2Proof/Word.lean ====
section
/-! DEFINITION. The machine's word, the byte of a packed string, and the register number (00_scope.md R5, R8). -/

namespace Sys2Proof

/-- A register, a memory location, an address: 32 bits (R5, R8). -/
abbrev Word := BitVec 32

/-- One of the four parts a word has in the string numbering (R76). -/
abbrev Byte := BitVec 8

/-- The number of a general register, 0 to 15 (R20). -/
abbrev Reg := Fin 16

end Sys2Proof
end

