-- ==== Sys2Proof/Syntax.lean ====
section
/-! DEFINITION. The abstract syntax: one constructor for each row of spec/opcode_table.json, in the table's order (30_encoding.md
R120, R121, R125, R130). Fields an instruction does not use are no part of its term (R128). -/

namespace Sys2Proof

/-- The operand fields of an instruction word (R121): the indirect bit, the index register (0 means none, R124) and the signed
numeric operand (R123). -/
structure Operand where
  indirect : Bool
  index : Reg
  number : BitVec 16
deriving DecidableEq, Repr

/-- The instructions (R130). `main` is the main register field; JCOND's `cond` stands in its place (R126). -/
inductive Instr where
  | halt
  | load (main : Reg) (o : Operand)
  | loadh (main : Reg) (o : Operand)
  | store (main : Reg) (o : Operand)
  | inc (o : Operand)
  | dec (o : Operand)
  | add (main : Reg) (o : Operand)
  | sub (main : Reg) (o : Operand)
  | mul (main : Reg) (o : Operand)
  | div (main : Reg) (o : Operand)
  | mod (main : Reg) (o : Operand)
  | rsub (main : Reg) (o : Operand)
  | rdiv (main : Reg) (o : Operand)
  | rmod (main : Reg) (o : Operand)
  | and (main : Reg) (o : Operand)
  | or (main : Reg) (o : Operand)
  | xor (main : Reg) (o : Operand)
  | not (main : Reg) (o : Operand)
  | shl (main : Reg) (o : Operand)
  | shr (main : Reg) (o : Operand)
  | comp (main : Reg) (o : Operand)
  | compz (o : Operand)
  | tbit (main : Reg) (o : Operand)
  | sbit (main : Reg) (o : Operand)
  | cbit (main : Reg) (o : Operand)
  | jump (o : Operand)
  | jzer (main : Reg) (o : Operand)
  | jpos (main : Reg) (o : Operand)
  | jneg (main : Reg) (o : Operand)
  | jcond (cond : Fin 16) (o : Operand)
  | getfl (main : Reg) (o : Operand)
  | setfl (main : Reg) (o : Operand)
  | getsr (main : Reg) (o : Operand)
  | setsr (main : Reg) (o : Operand)
  | push (o : Operand)
  | pop (o : Operand)
  | call (o : Operand)
  | ret
  | ldch (main : Reg) (o : Operand)
  | stch (main : Reg) (o : Operand)
  | peri (main : Reg) (o : Operand)
  | flagsj (main : Reg) (o : Operand)
  | pause (o : Operand)
  | breakpoint
  | iret
  | syscall (main : Reg) (o : Operand)
  | atas (main : Reg) (o : Operand)
  | phload (main : Reg) (o : Operand)
  | phstore (main : Reg) (o : Operand)
  | vtran (main : Reg) (o : Operand)
  | move (main : Reg) (o : Operand)
  | sign (main : Reg) (o : Operand)
  | fadd (main : Reg) (o : Operand)
  | fsub (main : Reg) (o : Operand)
  | fmul (main : Reg) (o : Operand)
  | fdiv (main : Reg) (o : Operand)
  | fcomp (main : Reg) (o : Operand)
  | fcompz (o : Operand)
  | fix (main : Reg) (o : Operand)
  | frnd (main : Reg) (o : Operand)
  | float (main : Reg) (o : Operand)
  | flog (main : Reg) (o : Operand)
  | fexp (main : Reg) (o : Operand)
  | fsqrt (main : Reg) (o : Operand)
  | fsin (main : Reg) (o : Operand)
  | fcos (main : Reg) (o : Operand)
  | fatan (main : Reg) (o : Operand)
  | fabs (main : Reg) (o : Operand)
  | floor (main : Reg) (o : Operand)
  | fsign (main : Reg) (o : Operand)
  | ffo (main : Reg) (o : Operand)
  | flz (main : Reg) (o : Operand)
  | rand (main : Reg)
  | trace (main : Reg) (o : Operand)
  | type (o : Operand)
  | inch (o : Operand)
  | andn (main : Reg) (o : Operand)
  | orn (main : Reg) (o : Operand)
  | neg (main : Reg) (o : Operand)
  | fneg (main : Reg) (o : Operand)
  | rotl (main : Reg) (o : Operand)
  | rotr (main : Reg) (o : Operand)
  | asr (main : Reg) (o : Operand)
  | exbr (main : Reg) (o : Operand)
  | exbrv (main : Reg) (o : Operand)
  | dpbr (main : Reg) (o : Operand)
  | dpbrv (main : Reg) (o : Operand)
  | adjs (main : Reg) (o : Operand)
  | uexbr (main : Reg) (o : Operand)
  | uexbrv (main : Reg) (o : Operand)
  | ucomp (main : Reg) (o : Operand)
  | umul (main : Reg) (o : Operand)
  | udiv (main : Reg) (o : Operand)
  | umod (main : Reg) (o : Operand)
  | clrpp (o : Operand)
  | zero (main : Reg) (o : Operand)
  | lbitf (main : Reg) (o : Operand)
  | lbito (main : Reg) (o : Operand)
  | sbitf (main : Reg) (o : Operand)
  | sbito (main : Reg) (o : Operand)
  | pmemr (main : Reg) (o : Operand)
  | ffnz (main : Reg) (o : Operand)
  | nop
  | sext (main : Reg) (o : Operand)
  | intr (main : Reg) (o : Operand)
  | mpush (o : Operand)
  | mpop (o : Operand)
  | fgood (o : Operand)
  | nalt
deriving DecidableEq, Repr

end Sys2Proof
end

