-- ==== Sys2Proof/Decode.lean ====
section
/-! DEFINITION. The decoder, total on any 32-bit word, and the encoder (30_encoding.md R120, R121, R130, R131, R134). Both read the
same table, a row per opcode. -/

namespace Sys2Proof

/-- Why a word is no instruction: its opcode field is one of 108 to 126 (R131). -/
inductive DecodeRefusal where
  | unimplementedOpcode (opcode : Nat)
deriving DecidableEq, Repr

/-! ### The fields of an instruction word (R121) -/

def opcodeField (w : Word) : Nat := (w.extractLsb' 25 7).toNat
def mainField (w : Word) : Reg := (w.extractLsb' 20 4).toFin
def operandField (w : Word) : Operand :=
  ⟨w.getLsbD 24, (w.extractLsb' 16 4).toFin, w.extractLsb' 0 16⟩

/-- One row of the opcode map (R130): the opcode, and the instruction its fields make. -/
structure OpcodeRow where
  opcode : Nat
  build : Reg → Operand → Instr

/-- Opcodes 0 to 24 (R130). -/
def coreRows : List OpcodeRow := [
  ⟨0, fun _ _ => .halt⟩,
  ⟨1, .load⟩,
  ⟨2, .loadh⟩,
  ⟨3, .store⟩,
  ⟨4, fun _ o => .inc o⟩,
  ⟨5, fun _ o => .dec o⟩,
  ⟨6, .add⟩,
  ⟨7, .sub⟩,
  ⟨8, .mul⟩,
  ⟨9, .div⟩,
  ⟨10, .mod⟩,
  ⟨11, .rsub⟩,
  ⟨12, .rdiv⟩,
  ⟨13, .rmod⟩,
  ⟨14, .and⟩,
  ⟨15, .or⟩,
  ⟨16, .xor⟩,
  ⟨17, .not⟩,
  ⟨18, .shl⟩,
  ⟨19, .shr⟩,
  ⟨20, .comp⟩,
  ⟨21, fun _ o => .compz o⟩,
  ⟨22, .tbit⟩,
  ⟨23, .sbit⟩,
  ⟨24, .cbit⟩]

/-- Opcodes 25 to 37 (R130). -/
def controlRows : List OpcodeRow := [
  ⟨25, fun _ o => .jump o⟩,
  ⟨26, .jzer⟩,
  ⟨27, .jpos⟩,
  ⟨28, .jneg⟩,
  ⟨29, .jcond⟩,
  ⟨30, .getfl⟩,
  ⟨31, .setfl⟩,
  ⟨32, .getsr⟩,
  ⟨33, .setsr⟩,
  ⟨34, fun _ o => .push o⟩,
  ⟨35, fun _ o => .pop o⟩,
  ⟨36, fun _ o => .call o⟩,
  ⟨37, fun _ _ => .ret⟩]

/-- Opcodes 38 to 50 (R130). -/
def stringIoRows : List OpcodeRow := [
  ⟨38, .ldch⟩,
  ⟨39, .stch⟩,
  ⟨40, .peri⟩,
  ⟨41, .flagsj⟩,
  ⟨42, fun _ o => .pause o⟩,
  ⟨43, fun _ _ => .breakpoint⟩,
  ⟨44, fun _ _ => .iret⟩,
  ⟨45, .syscall⟩,
  ⟨46, .atas⟩,
  ⟨47, .phload⟩,
  ⟨48, .phstore⟩,
  ⟨49, .vtran⟩,
  ⟨50, .move⟩]

/-- Opcodes 51 to 69 (R130). -/
def floatRows : List OpcodeRow := [
  ⟨51, .sign⟩,
  ⟨52, .fadd⟩,
  ⟨53, .fsub⟩,
  ⟨54, .fmul⟩,
  ⟨55, .fdiv⟩,
  ⟨56, .fcomp⟩,
  ⟨57, fun _ o => .fcompz o⟩,
  ⟨58, .fix⟩,
  ⟨59, .frnd⟩,
  ⟨60, .float⟩,
  ⟨61, .flog⟩,
  ⟨62, .fexp⟩,
  ⟨63, .fsqrt⟩,
  ⟨64, .fsin⟩,
  ⟨65, .fcos⟩,
  ⟨66, .fatan⟩,
  ⟨67, .fabs⟩,
  ⟨68, .floor⟩,
  ⟨69, .fsign⟩]

/-- Opcodes 70 to 93 (R130). -/
def extendedRows : List OpcodeRow := [
  ⟨70, .ffo⟩,
  ⟨71, .flz⟩,
  ⟨72, fun m _ => .rand m⟩,
  ⟨73, .trace⟩,
  ⟨74, fun _ o => .type o⟩,
  ⟨75, fun _ o => .inch o⟩,
  ⟨76, .andn⟩,
  ⟨77, .orn⟩,
  ⟨78, .neg⟩,
  ⟨79, .fneg⟩,
  ⟨80, .rotl⟩,
  ⟨81, .rotr⟩,
  ⟨82, .asr⟩,
  ⟨83, .exbr⟩,
  ⟨84, .exbrv⟩,
  ⟨85, .dpbr⟩,
  ⟨86, .dpbrv⟩,
  ⟨87, .adjs⟩,
  ⟨88, .uexbr⟩,
  ⟨89, .uexbrv⟩,
  ⟨90, .ucomp⟩,
  ⟨91, .umul⟩,
  ⟨92, .udiv⟩,
  ⟨93, .umod⟩]

/-- Opcodes 94 to 107, and 127 (R130). -/
def blockRows : List OpcodeRow := [
  ⟨94, fun _ o => .clrpp o⟩,
  ⟨95, .zero⟩,
  ⟨96, .lbitf⟩,
  ⟨97, .lbito⟩,
  ⟨98, .sbitf⟩,
  ⟨99, .sbito⟩,
  ⟨100, .pmemr⟩,
  ⟨101, .ffnz⟩,
  ⟨102, fun _ _ => .nop⟩,
  ⟨103, .sext⟩,
  ⟨104, .intr⟩,
  ⟨105, fun _ o => .mpush o⟩,
  ⟨106, fun _ o => .mpop o⟩,
  ⟨107, fun _ o => .fgood o⟩,
  ⟨127, fun _ _ => .nalt⟩]

/-- The opcode map (R130). -/
def opcodeMap : List OpcodeRow :=
  coreRows ++ controlRows ++ stringIoRows ++ floatRows ++ extendedRows ++ blockRows

/-- The row of an opcode in a list of rows. -/
def findOpcode (op : Nat) : List OpcodeRow → Option OpcodeRow
  | [] => none
  | row :: rest => if row.opcode = op then some row else findOpcode op rest

/-- The decode procedure of R134. -/
def decode (w : Word) : Except DecodeRefusal Instr :=
  match findOpcode (opcodeField w) opcodeMap with
  | some row => .ok (row.build (mainField w) (operandField w))
  | none => .error (.unimplementedOpcode (opcodeField w))

/-- The decoder on an instruction given as a number, its bits numbered as spec/opcode_table.json numbers them: an instruction is
one word, so only its low 32 bits count. -/
def decodeTableWord (nbits w : Nat) : Option Instr :=
  match decode (BitVec.ofNat 32 (w % 2 ^ nbits)) with
  | .ok i => some i
  | .error _ => none

/-! ### The encoder -/

/-- An operand field left at zero by an instruction that does not use it (R128). -/
def Operand.unused : Operand := ⟨false, 0, 0⟩

/-- Opcode, main register field and operand fields of an instruction; a field the instruction does not use is 0 (R128, R130). -/
def Instr.parts : Instr → Nat × Reg × Operand
  | .halt => (0, 0, .unused)
  | .load m o => (1, m, o)
  | .loadh m o => (2, m, o)
  | .store m o => (3, m, o)
  | .inc o => (4, 0, o)
  | .dec o => (5, 0, o)
  | .add m o => (6, m, o)
  | .sub m o => (7, m, o)
  | .mul m o => (8, m, o)
  | .div m o => (9, m, o)
  | .mod m o => (10, m, o)
  | .rsub m o => (11, m, o)
  | .rdiv m o => (12, m, o)
  | .rmod m o => (13, m, o)
  | .and m o => (14, m, o)
  | .or m o => (15, m, o)
  | .xor m o => (16, m, o)
  | .not m o => (17, m, o)
  | .shl m o => (18, m, o)
  | .shr m o => (19, m, o)
  | .comp m o => (20, m, o)
  | .compz o => (21, 0, o)
  | .tbit m o => (22, m, o)
  | .sbit m o => (23, m, o)
  | .cbit m o => (24, m, o)
  | .jump o => (25, 0, o)
  | .jzer m o => (26, m, o)
  | .jpos m o => (27, m, o)
  | .jneg m o => (28, m, o)
  | .jcond m o => (29, m, o)
  | .getfl m o => (30, m, o)
  | .setfl m o => (31, m, o)
  | .getsr m o => (32, m, o)
  | .setsr m o => (33, m, o)
  | .push o => (34, 0, o)
  | .pop o => (35, 0, o)
  | .call o => (36, 0, o)
  | .ret => (37, 0, .unused)
  | .ldch m o => (38, m, o)
  | .stch m o => (39, m, o)
  | .peri m o => (40, m, o)
  | .flagsj m o => (41, m, o)
  | .pause o => (42, 0, o)
  | .breakpoint => (43, 0, .unused)
  | .iret => (44, 0, .unused)
  | .syscall m o => (45, m, o)
  | .atas m o => (46, m, o)
  | .phload m o => (47, m, o)
  | .phstore m o => (48, m, o)
  | .vtran m o => (49, m, o)
  | .move m o => (50, m, o)
  | .sign m o => (51, m, o)
  | .fadd m o => (52, m, o)
  | .fsub m o => (53, m, o)
  | .fmul m o => (54, m, o)
  | .fdiv m o => (55, m, o)
  | .fcomp m o => (56, m, o)
  | .fcompz o => (57, 0, o)
  | .fix m o => (58, m, o)
  | .frnd m o => (59, m, o)
  | .float m o => (60, m, o)
  | .flog m o => (61, m, o)
  | .fexp m o => (62, m, o)
  | .fsqrt m o => (63, m, o)
  | .fsin m o => (64, m, o)
  | .fcos m o => (65, m, o)
  | .fatan m o => (66, m, o)
  | .fabs m o => (67, m, o)
  | .floor m o => (68, m, o)
  | .fsign m o => (69, m, o)
  | .ffo m o => (70, m, o)
  | .flz m o => (71, m, o)
  | .rand m => (72, m, .unused)
  | .trace m o => (73, m, o)
  | .type o => (74, 0, o)
  | .inch o => (75, 0, o)
  | .andn m o => (76, m, o)
  | .orn m o => (77, m, o)
  | .neg m o => (78, m, o)
  | .fneg m o => (79, m, o)
  | .rotl m o => (80, m, o)
  | .rotr m o => (81, m, o)
  | .asr m o => (82, m, o)
  | .exbr m o => (83, m, o)
  | .exbrv m o => (84, m, o)
  | .dpbr m o => (85, m, o)
  | .dpbrv m o => (86, m, o)
  | .adjs m o => (87, m, o)
  | .uexbr m o => (88, m, o)
  | .uexbrv m o => (89, m, o)
  | .ucomp m o => (90, m, o)
  | .umul m o => (91, m, o)
  | .udiv m o => (92, m, o)
  | .umod m o => (93, m, o)
  | .clrpp o => (94, 0, o)
  | .zero m o => (95, m, o)
  | .lbitf m o => (96, m, o)
  | .lbito m o => (97, m, o)
  | .sbitf m o => (98, m, o)
  | .sbito m o => (99, m, o)
  | .pmemr m o => (100, m, o)
  | .ffnz m o => (101, m, o)
  | .nop => (102, 0, .unused)
  | .sext m o => (103, m, o)
  | .intr m o => (104, m, o)
  | .mpush o => (105, 0, o)
  | .mpop o => (106, 0, o)
  | .fgood o => (107, 0, o)
  | .nalt => (127, 0, .unused)

/-- The bits of its word that an instruction uses; the others are ignored (R128, R130). -/
def Instr.usedMask : Instr → Word
  | .halt | .ret | .breakpoint | .iret | .nop | .nalt => 0xFE000000
  | .inc _ | .dec _ | .compz _ | .jump _ | .push _ | .pop _ | .call _ | .pause _ | .fcompz _ | .type _ | .inch _ | .clrpp _
  | .fgood _ | .mpush _ | .mpop _ => 0xFF0FFFFF
  | .rand _ => 0xFEF00000
  | _ => 0xFFFFFFFF

/-- The instruction word made of its fields, most significant first (R121). -/
def assemble (op : Nat) (main : Reg) (o : Operand) : Word :=
  BitVec.ofNat 7 op ++ BitVec.ofBool o.indirect ++ BitVec.ofFin (w := 4) main ++ BitVec.ofFin (w := 4) o.index ++ o.number

/-- The word of an instruction (R121, R130). -/
def encode (i : Instr) : Word :=
  assemble i.parts.1 i.parts.2.1 i.parts.2.2

end Sys2Proof
end

