-- ==== Sys2Proof/Config.lean ====
section
/-! DEFINITION. The parameters of 00_scope.md R6 as plain data (`Config`, held in State and changed by no step), the names they
number, and the free values: constants without a body for what the spec leaves open (93_implementation_defined.md). -/

namespace Sys2Proof

/-- The eight one-bit flags (R30; ERR by C2). -/
inductive Flag where
  | r | z | n | err | sys | em | int | vm
deriving DecidableEq, Repr

/-- The fifteen special registers (R40; C1). -/
inductive SpecialReg where
  | flags | pdbr | intvec | cgbr | cglen | debug | timer | syssp | sysfp | usrsp | usrfp
  | watch | exitcode | ipl | emgret
deriving DecidableEq, Repr

/-- The 21 peripheral operations (R392, R400 to R420). -/
inductive PeriOp where
  | discCheck | discRead | discWrite | discClear
  | tapeCheck | tapeRewind | tapeLoad | tapeLength | tapeUnload | tapeRead | tapeWrite | tapeLoadFile
  | termIn | termOut
  | netSS | netSend | netRecv
  | seconds | useconds | dateTime | floatFormat
deriving DecidableEq, Repr

/-- How SDIV rounds a quotient that is not an integer: the parameter SDIV (R187; entry 12). `other` is any function that R187
allows. -/
inductive Rounding where
  | truncate | floor | euclid | other
deriving DecidableEq, Repr

/-- The parameter FP32: the default of R342, or any other set of functions (R6, D31; entry 22). -/
inductive FloatFunctions where
  | binary32 | other
deriving DecidableEq, Repr

/-- The parameter ADJS_FN: the default of R335, or any other function (R6, D32; entry 26). -/
inductive AdjsFunction where
  | packedArray | other
deriving DecidableEq, Repr

/-- Which PC a synchronous fault saves: the parameter FAULT_PC (R473, D14). -/
inductive FaultPc where
  | faulting | following
deriving DecidableEq, Repr

/-- Which address WATCH is compared with: the parameter WATCH_SPACE (R84, D36, U17). -/
inductive WatchSpace where
  | logical | physical
deriving DecidableEq, Repr

/-- An inclusive range of physical addresses (R71). -/
structure Area where
  first : Word
  last : Word
deriving DecidableEq, Repr

/-- The bit number of each flag in the FLAGS word: the parameter FLAGNUM (R31, D3). -/
structure FlagNumbers where
  r : Nat
  z : Nat
  n : Nat
  err : Nat
  sys : Nat
  em : Nat
  int : Nat
  vm : Nat
deriving DecidableEq, Repr

/-- The parameters of R6 that are data. -/
structure Config where
  /-- MEMAREAS: the physical addresses that exist, in ascending order (R71, D8). -/
  memAreas : List Area
  /-- LOADAREA: where the program was loaded (R71, R257). -/
  loadArea : Area
  /-- ENTRY: the first PC (R65, R522). -/
  entry : Word
  /-- SRNUM: the special registers in the order of their numbers, from 0 (R40, D2). -/
  srNum : List SpecialReg
  /-- FLAGNUM (R31, D3). -/
  flagNum : FlagNumbers
  /-- JCOND_ERR: the condition code of the ERR test (R205, D12). -/
  jcondErr : Fin 16
  /-- PERI_<NAME>: the operation codes (R392, D33). -/
  periCodes : List (PeriOp × Word)
  /-- SDIV and SMOD (R187, D7). -/
  rounding : Rounding
  /-- FP32 (R342, D31). -/
  fp32 : FloatFunctions
  /-- ADJS_FN (R335, D32). -/
  adjs : AdjsFunction
  /-- FAULT_PC (R473, D14). -/
  faultPc : FaultPc
  /-- FP_BANKED (R24, D16). -/
  fpBanked : Bool
  /-- WATCH_SPACE (R84, D36). -/
  watchSpace : WatchSpace
deriving DecidableEq, Repr

/-- The eight flags in the order of R31. -/
def Flag.all : List Flag := [.r, .z, .n, .err, .sys, .em, .int, .vm]

/-- The bit number of a flag (R31). -/
def FlagNumbers.of (k : FlagNumbers) : Flag → Nat
  | .r => k.r
  | .z => k.z
  | .n => k.n
  | .err => k.err
  | .sys => k.sys
  | .em => k.em
  | .int => k.int
  | .vm => k.vm

/-- What the source fixes of FLAGNUM whatever the parameter (R31): R is bit 5, INT is bit 11, every number is at least 5, and
eight bits of one word are eight different bits. -/
def FlagNumbers.wf (k : FlagNumbers) : Bool :=
  k.r == 5 && k.int == 11 && (Flag.all.map k.of).all (fun n => 5 ≤ n && n < 32)
    && decide (Flag.all.map k.of).Nodup

/-- What the rules ask of a configuration: disjoint ascending areas with the load area and the entry inside (R71, R522),
FLAGNUM as R31 fixes it, fifteen different special registers (R40), an ERR condition beside the six printed ones (R205), and 21
pairwise distinct operation codes (R392). -/
def Config.wf (c : Config) : Bool :=
  c.memAreas.all (fun a => decide (a.first ≤ a.last))
    && decide (c.memAreas.Pairwise fun a b => a.last < b.first)
    && c.memAreas.any (fun a => decide (a.first ≤ c.loadArea.first) && decide (c.loadArea.last ≤ a.last))
    && decide (c.loadArea.first ≤ c.entry) && decide (c.entry ≤ c.loadArea.last)
    && c.flagNum.wf
    && c.srNum.length == 15 && decide c.srNum.Nodup
    && decide (6 ≤ c.jcondErr.val)
    && c.periCodes.length == 21 && decide (c.periCodes.map (·.1)).Nodup && decide (c.periCodes.map (·.2)).Nodup

/-! ### Free values (entry 8): no body, so nothing can be proved of the value drawn. -/

/-- The n-th free word of a run: every `any value` of 93_implementation_defined.md that is a word, or a bit or a number made from
one. -/
opaque Config.freeWord : Nat → Word

/-- The n-th free run of characters of a run: what the host supplies as a file's contents or a printed text (U23, U35). -/
opaque Config.freeBytes : Nat → List Byte

/-! ### The parameters of R6 that are functions: constants without a body stand for every value but the default. -/

/-- The record FP32 (R6, R342): functions on words, `none` where the result is left open. `order` is the comparison of R354, `good`
the test of R369. -/
structure Fp32 where
  add : Word → Word → Option Word
  sub : Word → Word → Option Word
  mul : Word → Word → Option Word
  div : Word → Word → Option Word
  sqrt : Word → Option Word
  fix : Word → Option Word
  float : Word → Option Word
  round : Word → Option Word
  floor : Word → Option Word
  ln : Word → Option Word
  logb : Word → Word → Option Word
  exp : Word → Option Word
  pow : Word → Word → Option Word
  sin : Word → Option Word
  cos : Word → Option Word
  atan : Word → Option Word
  order : Word → Word → Option Ordering
  good : Word → Bool
deriving Inhabited

/-- FP32 where it is not the default. -/
opaque Config.otherFp32 : Fp32

/-- ADJS_FN where it is not the default: selector, value; none outside its domain. -/
opaque Config.otherAdjs : Word → Word → Option Word

/-- SDIV where it is none of the three named roundings: whether a quotient that is not an integer is rounded up. -/
opaque Config.quotientUp : Word → Word → Bool

/-! ### The functions of the default FP32 that stay uninterpreted (R342, D31; entry 25). -/

opaque Config.fln : Word → Word
opaque Config.flogb : Word → Word → Word
opaque Config.fexp : Word → Word
opaque Config.fpow : Word → Word → Word
opaque Config.fsin : Word → Word
opaque Config.fcos : Word → Word
opaque Config.fatan : Word → Word

/-! ### A floating division by zero (R345, U37; entry 24): DIVZERO or a result, and neither may be assumed. -/

opaque Config.fdivZeroTraps : Word → Word → Bool
opaque Config.fdivByZero : Word → Word → Word

end Sys2Proof
end

