-- ==== Sys2Proof/Machine/Bits.lean ====
section
/-! DEFINITION. The arithmetic of the integer instructions on words: division, shifts, find-bit, bit ranges (40_core_integer.md R186
to R188, 44_integer_ext.md R311 to R337). A function answers `none` where the spec states no result. -/

namespace Sys2Proof.Machine

/-! ### Division (R187) -/

/-- The one signed division the spec gives no result: 0x80000000 by -1 (U3). -/
def divisionOverflows (a b : Word) : Bool := a == 0x80000000#32 && b == 0xFFFFFFFF#32

/-- A quotient rounded as `Config.quotientUp` chooses: exact where it is an integer, down for a dividend that is not negative and a
positive divisor, where R187 has every convention agree, else down or up (entry 12). -/
def chosenQuotient (a b : Word) : Int :=
  let q := a.toInt.fdiv b.toInt
  if 0 ≤ a.toInt ∧ 0 < b.toInt ∨ q * b.toInt = a.toInt then q else if Config.quotientUp a b then q + 1 else q

/-- SDIV: the quotient of two signed words, rounded as the configuration says (R187). -/
def sdivWord (r : Rounding) (a b : Word) : Word :=
  BitVec.ofInt 32 <| match r with
    | .truncate => a.toInt.tdiv b.toInt
    | .floor => a.toInt.fdiv b.toInt
    | .euclid => a.toInt / b.toInt
    | .other => chosenQuotient a b

/-- SMOD: what SDIV leaves, `a - SDIV(a, b) * b` (R187). -/
def smodWord (r : Rounding) (a b : Word) : Word := a - sdivWord r a b * b

/-! ### Shifts and single bits (R188): defined for counts and bit numbers 0 to 31 -/

/-- A shift count or bit number inside 0 .. 31 (R188). -/
def bitNumber (v : Word) : Option Nat := if v.toNat < 32 then some v.toNat else none

/-- ROTL (R316). -/
def rotateLeftWord (x : Word) (n : Nat) : Word := x <<< n ||| x >>> (32 - n)

/-- ROTR (R317). -/
def rotateRightWord (x : Word) (n : Nat) : Word := x >>> n ||| x <<< (32 - n)

/-- Bit k copied into every bit to its left (R323). -/
def signExtendFrom (x : Word) (k : Nat) : Word := (x.extractLsb' 0 (k + 1)).signExtend 32

/-- One bit as a word, 0 or 1. -/
def bitWord (b : Bool) : Word := if b then 1 else 0

/-- A word with bit k replaced. -/
def withBit (x : Word) (k : Nat) (b : Bool) : Word := if b then x ||| 1#32 <<< k else x &&& ~~~(1#32 <<< k)

/-! ### Finding a bit (R311, R312) -/

/-- The number of the leftmost 1 bit (R311). -/
def leftmostOne (v : Word) : Option Nat := (List.range 32).reverse.find? fun k => v.getLsbD k

/-- The number of the rightmost 0 bit (R312). -/
def rightmostZero (v : Word) : Option Nat := (List.range 32).find? fun k => !v.getLsbD k

/-! ### Bit ranges (R330) -/

/-- A bit range selector taken apart: number of bits, bits to the right of the range, whole words to skip. -/
structure BitRange where
  count : Nat
  low : Nat
  skip : Word
deriving DecidableEq, Repr

def bitRange (sel : Word) : BitRange :=
  let n := (sel.extractLsb' 0 5).toNat
  ⟨if n = 0 then 32 else n, (sel.extractLsb' 5 5).toNat, sel >>> 10⟩

/-- The range lies within a single word (R330). -/
def BitRange.fits (r : BitRange) : Bool := decide (r.low + r.count ≤ 32)

/-- The range of a word, its top bit giving the sign (R331). -/
def BitRange.signed (r : BitRange) (w : Word) : Option Word :=
  if r.fits then some ((w.extractLsb' r.low r.count).signExtend 32) else none

/-- The range of a word, unsigned (R336). -/
def BitRange.unsigned (r : BitRange) (w : Word) : Option Word :=
  if r.fits then some ((w.extractLsb' r.low r.count).setWidth 32) else none

/-- The range of `w` replaced by the low bits of `x` (R333). -/
def BitRange.deposit (r : BitRange) (w x : Word) : Option Word :=
  if r.fits then
    let mask := (BitVec.allOnes r.count).setWidth 32 <<< r.low
    some ((w &&& ~~~mask) ||| (x <<< r.low &&& mask))
  else none

/-- ADJS_FN, the default: a selector of one element of a packed array of n-bit elements, `32 div n` to a word, moved by `v` elements
(R335, D32). No result outside its domain (U24). -/
def adjustSelector (sel v : Word) : Option Word :=
  let r := bitRange sel
  let per := 32 / r.count
  if r.low % r.count = 0 ∧ r.low / r.count < per then
    let p : Int := (r.skip.toNat * per + r.low / r.count : Nat) + v.toInt
    if 0 ≤ p ∧ p.toNat / per < 2 ^ 22 then
      some ((sel &&& 31#32) ||| BitVec.ofNat 32 (p.toNat % per * r.count) <<< 5 ||| BitVec.ofNat 32 (p.toNat / per) <<< 10)
    else none
  else none

/-- ADJS_FN: selector, value (R335). -/
def adjsFunction : AdjsFunction → Word → Word → Option Word
  | .packedArray => adjustSelector
  | .other => Config.otherAdjs

/-! ### Characters of a word (R76) -/

/-- Character k of a word, k in 0 .. 3. -/
def charOf (w : Word) (k : Nat) : Byte := w.extractLsb' (8 * k) 8

/-- A word with character k replaced. -/
def withChar (w : Word) (k : Nat) (c : Byte) : Word :=
  (w &&& ~~~(0xFF#32 <<< (8 * k))) ||| c.setWidth 32 <<< (8 * k)

end Sys2Proof.Machine
end

