-- ==== Sys2Proof/Machine/Forms.lean ====
section
/-! DEFINITION. The forms of an operand (30_encoding.md R125) and the register choices of the loop instructions that the source
never contemplates (93_implementation_defined.md U19). -/

namespace Sys2Proof

/-- The operand `I = 0, idx = 0, num = 0`: the constant 0, to which INC and DEC have no meaning (R156, R165, U6). -/
def Operand.isConstantZero (o : Operand) : Bool :=
  !o.indirect && o.index == 0 && o.number == 0

/-- The operand is just a register (R125, second row). -/
def Operand.isRegister (o : Operand) : Bool :=
  !o.indirect && o.index != 0 && o.number == 0

/-- The operand names a destination: a memory word or just a register (R12, R125). -/
def Operand.isWritable (o : Operand) : Bool :=
  o.indirect || o.isRegister

/-- One of SP, FP, PC, which U19 keeps out of the loop instructions. -/
def Reg.isSpecialPurpose (r : Reg) : Bool := decide (13 ≤ r.val)

/-- The registers of MOVE that U19 excludes: the same one twice, R0 as the source address, or SP, FP, PC. -/
def moveRegistersBad (main index : Reg) : Bool :=
  main == index || main == 0 || Reg.isSpecialPurpose main || Reg.isSpecialPurpose index

/-- The registers of ZERO that U19 excludes: the same one twice, or SP, FP, PC. -/
def zeroRegistersBad (main index : Reg) : Bool :=
  main == index || Reg.isSpecialPurpose main || Reg.isSpecialPurpose index

end Sys2Proof
end

