-- ==== Sys2Proof/Machine/Memory.lean ====
section
/-! DEFINITION. Memory as data: byte cells in one canonical form, four cells to a word (20_memory.md R70, R76; entries 5, 6). -/

namespace Sys2Proof.Machine

/-- The cells that do not read as `Memory.unlisted`, by rising address. Byte k of word a is the cell 4a + k (R76). -/
abbrev Memory := List Host.Cell

/-- What a cell that is not listed reads as. DESIGN CHOICE (entry 5): the spec leaves memory outside the program image
unspecified (R65). Unsafe. -/
def Memory.unlisted : Byte := 0

/-- How many cells the address space has: four for each of 2^32 words (R70). -/
def Memory.cellCount : Nat := 4 * 2 ^ 32

/-- The canonical form: addresses strictly rising and inside the address space, no cell listed that reads as an unlisted one. -/
def Memory.wf (m : Memory) : Bool :=
  decide (m.Pairwise fun a b => a.1 < b.1) && m.all (fun c => c.2 != Memory.unlisted && decide (c.1 < Memory.cellCount))

/-- One byte of memory. -/
def Memory.readByte : Memory → Nat → Byte
  | [], _ => Memory.unlisted
  | (k, b) :: rest, a => if k = a then b else Memory.readByte rest a

/-- The cells without the one at an address. -/
def Memory.erase (m : Memory) (a : Nat) : Memory := m.filter (fun c => c.1 != a)

/-- A cell put at its place by address. -/
def Memory.insert (a : Nat) (b : Byte) : Memory → Memory
  | [] => [(a, b)]
  | (k, c) :: rest => if a < k then (a, b) :: (k, c) :: rest else (k, c) :: Memory.insert a b rest

/-- One byte written; writing what an unlisted cell reads as removes the cell. -/
def Memory.writeByte (m : Memory) (a : Nat) (b : Byte) : Memory :=
  if b = Memory.unlisted then m.erase a else Memory.insert a b (m.erase a)

/-- The cell that holds byte k of a word. -/
def cellOf (a : Word) (k : Nat) : Nat := 4 * a.toNat + k

/-- One word of memory: byte 0 is its least significant (R76). -/
def Memory.readWord (m : Memory) (a : Word) : Word :=
  m.readByte (cellOf a 3) ++ m.readByte (cellOf a 2) ++ m.readByte (cellOf a 1) ++ m.readByte (cellOf a 0)

/-- One word written whole (R76, R77). -/
def Memory.writeWord (m : Memory) (a v : Word) : Memory :=
  (((m.writeByte (cellOf a 0) (v.extractLsb' 0 8)).writeByte (cellOf a 1) (v.extractLsb' 8 8)).writeByte
    (cellOf a 2) (v.extractLsb' 16 8)).writeByte (cellOf a 3) (v.extractLsb' 24 8)

end Sys2Proof.Machine
end

