-- ==== Sys2Proof/Machine/Params.lean ====
section
/-! DEFINITION. The values the parameters have at reset: the spec's default where 00_scope.md R6 gives one, else the choice of
entries 1 and 30. -/

namespace Sys2Proof.Machine

/-- The default of FLAGNUM (R31, D3). -/
def defaultFlagNum : FlagNumbers :=
  { r := 5, z := 6, n := 7, err := 8, sys := 9, em := 10, int := 11, vm := 12 }

/-- The default of SRNUM: the listed order (R40, D2). -/
def defaultSrNum : List SpecialReg :=
  [.flags, .pdbr, .intvec, .cgbr, .cglen, .debug, .timer, .syssp, .sysfp, .usrsp, .usrfp, .watch, .exitcode, .ipl, .emgret]

/-- Operation codes for PERI. DESIGN CHOICE (entry 30): the source gives none (R392, D33); the order of 46_peri_io.md, from 1. -/
def chosenPeriCodes : List (PeriOp × Word) :=
  [(.discCheck, 1), (.discRead, 2), (.discWrite, 3), (.discClear, 4), (.tapeCheck, 5), (.tapeRewind, 6), (.tapeLoad, 7),
   (.tapeLength, 8), (.tapeUnload, 9), (.tapeRead, 10), (.tapeWrite, 11)] ++
  [(.tapeLoadFile, 12), (.termIn, 13), (.termOut, 14), (.netSS, 15), (.netSend, 16), (.netRecv, 17), (.seconds, 18),
   (.useconds, 19), (.dateTime, 20), (.floatFormat, 21)]

/-- The configuration at reset. MEMAREAS, LOADAREA, ENTRY and WATCH_SPACE are OPEN in R6: DESIGN CHOICE (entry 1), after the
start states of 95_test_vectors.md. -/
def resetConfig : Config :=
  { memAreas := [⟨0, 65535⟩]
    loadArea := ⟨1000, 2000⟩
    entry := 1000
    srNum := defaultSrNum
    flagNum := defaultFlagNum
    jcondErr := 6
    periCodes := chosenPeriCodes
    rounding := .truncate
    fp32 := .binary32
    adjs := .packedArray
    faultPc := .faulting
    fpBanked := true
    watchSpace := .logical }

end Sys2Proof.Machine
end

