-- ==== Sys2Proof/Machine/State.lean ====
section
/-! DEFINITION. The state of the machine as plain data: every piece of state 10_state.md, 46_peri_io.md and 60_exceptions.md give
it, the model's own fields (inputs, draws, cfg), the reasons a step can stop, and the state after reset (R65). -/

namespace Sys2Proof.Machine

/-- The 22 interrupts (R455). -/
inductive Interrupt where
  | halt | timer | keybd | privop | pagepriv | divzero | memory | unimpop | unwrop | badop | badcall
  | pagefault | pagefault2 | watch | debug | sysstkfl | intrfault | fltneg | usrint1 | usrint2 | usrint3 | rterror
deriving DecidableEq, Repr

/-- Why the machine has no next state. Each stands where 93_implementation_defined.md says `stuck`. -/
inductive Fault where
  /-- DIV, MOD, RDIV, RMOD of 0x80000000 by -1 (U3). Safe: the model stops where the spec promises nothing. -/
  | divisionOverflow
  /-- A synchronous interrupt whose code is not above IPL: the instruction can neither complete nor report (R461, U4). Raised by
  the delivery of any such interrupt. Safe. -/
  | ignoredInterrupt (code : Interrupt)
  /-- LDCH, STCH, LBITF, SBITF with a negative index (U9). Safe. -/
  | negativeIndex
  /-- VTRAN of an address whose walk fails (U18). Safe. -/
  | translationFailed
  /-- FFNZ with an address not below 0x80000000 (R289): one on each side of it, where the signed and the unsigned reading of the
  comparison differ (U36), or, DESIGN CHOICE (entry 52), both. Safe. -/
  | ambiguousComparison
deriving DecidableEq, Repr

/-- Why an instruction is outside the modelled machine. Each but the first stands where 93_implementation_defined.md says `refuse`,
or where the rule leaves a form unspecified and gives no effect. -/
inductive Refusal where
  /-- An instruction that has no meaning yet: raised by exec only. Safe. -/
  | notModelled (mnemonic : String)
  /-- JCOND with a condition code that has no test (U5). Safe. -/
  | undefinedCondition
  /-- INC or DEC of the constant 0, to which the source gives two meanings (U6). Safe. -/
  | ambiguousIncrement
  /-- MPUSH or MPOP with a mask bit that names no pushable register (U11). Safe. -/
  | undefinedStackMask
  /-- SETFL with a number that is no flag's (U12). Safe. -/
  | notAFlag
  /-- A translation while PDBR is not a multiple of 1024 (R93, U13): raised by any translated access and by VTRAN. Safe. -/
  | misalignedPageDirectory
  /-- SETSR with a number that is no special register's (U14). Safe. -/
  | notASpecialRegister
  /-- MOVE or ZERO with registers the source never contemplates (U19). Safe. -/
  | degenerateLoopRegisters
  /-- INTR with code 0 or above 22 (U31). Safe. -/
  | undefinedInterruptCode
  /-- PMEMR whose operand is just a register (R257 calls it unspecified). Safe. -/
  | pmemrRegisterOperand
deriving DecidableEq, Repr

/-- Whether the processor runs, and how the run ended (R61). -/
inductive RunStatus where
  | running
  | halted
  | stopped (code : Interrupt)
  | debugger
deriving DecidableEq, Repr

/-- The flags of the FLAGS word; IPL is a field of State (R30 to R32). -/
structure Flags where
  r : Bool
  z : Bool
  n : Bool
  err : Bool
  sys : Bool
  em : Bool
  int : Bool
  vm : Bool
deriving DecidableEq, Repr

/-- A disc: its size in blocks, whether it was erased whole (a block not listed then reads as zeros, R403), and the blocks written
since, 128 words each (R394). -/
structure Disc where
  size : Nat
  erased : Bool
  blocks : List (Nat × Vector Word 128)
deriving DecidableEq, Repr

/-- The mode a tape is loaded in (R406). -/
inductive TapeMode where
  | read | write
deriving DecidableEq, Repr

/-- A loaded tape: mode, host file name, the file's bytes, and the position in bytes (R394). -/
structure Tape where
  mode : TapeMode
  name : List Byte
  contents : List Byte
  position : Nat
deriving DecidableEq, Repr

/-- A datagram: the two words of its source address and its bytes (R416). -/
structure Packet where
  source : Word × Word
  data : List Byte
deriving DecidableEq, Repr

/-- A network unit that is on: its simulated address and the packets received, oldest first (R394, R414, R416). -/
structure NetUnit where
  address : Word × Word
  received : List Packet
deriving DecidableEq, Repr

/-- What the host observes (R528): characters printed, TRACE and BREAK, packets sent, device operations and their result codes. -/
inductive HostEvent where
  | consoleOut (c : Word)
  | trace (pc reg value : Word)
  | breakEntered (pc : Word)
  | packetSent (number : Nat) (destination : Word × Word) (data : List Byte)
  | deviceOperation (op : PeriOp) (result : Word)
deriving DecidableEq, Repr

/-- One thing the host does between two instructions (R484, D45, R416): a key, control-c, a packet for network unit 1 or 2. -/
inductive HostInput where
  | key (c : Byte)
  | controlC
  | packet (number : Nat) (p : Packet)
deriving DecidableEq, Repr

/-- The state of the machine. INVENTORY.md lists each field with its rule. -/
structure State where
  /-- R0 to R12 (R20 to R22). -/
  regs : Vector Word 13
  /-- The program counter, register 15 (R25). -/
  pc : Word
  /-- The system stack pointer: register 13 in system mode (R23). -/
  sysSp : Word
  /-- The user stack pointer: register 13 in user mode (R23). -/
  usrSp : Word
  /-- The system frame pointer: register 14 in system mode when FP_BANKED (R24). -/
  sysFp : Word
  /-- The user frame pointer: register 14 in user mode when FP_BANKED (R24). -/
  usrFp : Word
  /-- Register 14 when FP_BANKED is false (R24). -/
  plainFp : Word
  /-- The one-bit flags (R30). -/
  flags : Flags
  /-- The interrupt processing level, FLAGS[4:0] (R32). -/
  ipl : BitVec 5
  pdbr : Word
  intVec : Word
  cgBr : Word
  cgLen : Word
  debug : Word
  timer : Word
  watch : Word
  exitCode : Word
  emgRet : Word
  /-- Physical memory (R70, R71). -/
  mem : Memory
  /-- pending[TIMER] (R60). -/
  timerPending : Bool
  /-- The hardware keyboard buffer, oldest character first (R60). -/
  keyboard : List Byte
  /-- Run status (R61). -/
  status : RunStatus
  /-- What the host has observed so far, oldest first (R528). -/
  events : List HostEvent
  /-- Disc drives 1 to 8 (R394). -/
  discs : Vector (Option Disc) 8
  /-- Tape units 1 to 8 (R394). -/
  tapes : Vector (Option Tape) 8
  /-- Network units 1 and 2 (R394). -/
  nets : Vector (Option NetUnit) 2
  /-- The last number of seconds read from the host clock (R417). -/
  clock : BitVec 31
  /-- What the host does before each of the next steps, in order; afterwards nothing (entry 9). -/
  inputs : List (List HostInput)
  /-- How many free values have been drawn (entry 8). -/
  draws : Nat
  /-- The parameters of R6; no step changes them (entry 1). -/
  cfg : Config
deriving DecidableEq, Repr

/-- Words stored from an address upward. -/
def Memory.load (m : Memory) (a : Word) : List Word → Memory
  | [] => m
  | v :: vs => Memory.load (m.writeWord a v) (a + 1) vs

/-- The machine at start-up for a configuration and a program image, loaded from the first address of LOADAREA upward (R65, R521, R522;
entry 7): the five flags the source states, IPL, pending bits and keyboard buffer as R65 decides, PC at ENTRY; everything the spec
leaves unspecified at the value entries 1 to 5, 8, 9, 29, 36 name. -/
def State.startUp (c : Config) (image : List Word) : State :=
  { regs := Vector.replicate 13 0
    pc := c.entry
    sysSp := 0
    usrSp := 0
    sysFp := 0
    usrFp := 0
    plainFp := 0
    flags := { r := true, z := false, n := false, err := false, sys := true, em := false, int := false, vm := false }
    ipl := 0
    pdbr := 0
    intVec := 0
    cgBr := 0
    cgLen := 0
    debug := 0xFFFFFFFF
    timer := 0
    watch := 0xFFFFFFFF
    exitCode := 0
    emgRet := 0
    mem := Memory.load [] c.loadArea.first image
    timerPending := false
    keyboard := []
    status := .running
    events := []
    discs := #v[some { size := 6000, erased := false, blocks := [] }, none, none, none, none, none, none, none]
    tapes := Vector.replicate 8 none
    nets := Vector.replicate 2 none
    clock := 0
    inputs := []
    draws := 0
    cfg := c }

/-- The machine right after reset: start-up with the parameters of entry 1 and no program placed (entry 7). -/
def State.reset : State := State.startUp resetConfig []

end Sys2Proof.Machine
end

