-- ==== Sys2Proof/Machine/Flags.lean ====
section
/-! DEFINITION. The FLAGS word, the single flags and the special registers (10_state.md R30 to R49, R56). -/

namespace Sys2Proof.Machine

/-! ### Single flags -/

def Flags.get (f : Flags) : Flag → Bool
  | .r => f.r
  | .z => f.z
  | .n => f.n
  | .err => f.err
  | .sys => f.sys
  | .em => f.em
  | .int => f.int
  | .vm => f.vm

def Flags.set (f : Flags) (b : Bool) : Flag → Flags
  | .r => { f with r := b }
  | .z => { f with z := b }
  | .n => { f with n := b }
  | .err => { f with err := b }
  | .sys => { f with sys := b }
  | .em => { f with em := b }
  | .int => { f with int := b }
  | .vm => { f with vm := b }

def State.setZ (s : State) (b : Bool) : State := { s with flags := { s.flags with z := b } }
def State.setN (s : State) (b : Bool) : State := { s with flags := { s.flags with n := b } }
def State.setErr (s : State) (b : Bool) : State := { s with flags := { s.flags with err := b } }

/-- The flag a number names, if it names one (R31, R210). -/
def flagOfNumber (c : Config) (n : Word) : Option Flag :=
  Flag.all.find? fun f => c.flagNum.of f == n.toNat

/-- The flags that user mode may not change with SETFL (R34, R211, R481; C16). -/
def flagProtected : Flag → Bool
  | .r | .sys | .em | .int | .vm => true
  | .z | .n | .err => false

/-! ### The flag computations of the integer instructions (the floating-point ones are in Float.lean) -/

/-- Z of SHL: the n most significant bits are all 0, so no 1 bit is shifted out (R179). -/
def zOfShiftLeft (x : Word) (n : Nat) : Bool := x >>> (32 - n) == 0

/-- Z of SHR and ASR: the n least significant bits are all 0 (R180, R318). -/
def zOfShiftRight (x : Word) (n : Nat) : Bool := x &&& (1#32 <<< n - 1#32) == 0

/-- Z and N of a signed comparison: equal, less (R181). -/
def State.setSignedCompare (s : State) (a b : Word) : State := (s.setZ (a == b)).setN (a.slt b)

/-- Z and N of an unsigned comparison (R319). -/
def State.setUnsignedCompare (s : State) (a b : Word) : State := (s.setZ (a == b)).setN (a.ult b)

/-- ERR after PERI: the result code is negative (R390). -/
def errOfResult (r : Word) : Bool := r.msb

/-! ### The FLAGS word (R31) -/

/-- A word with one bit. -/
def bitAt (b : Bool) (n : Nat) : Word := if b then 1#32 <<< n else 0#32

/-- The whole FLAGS word: IPL in bits 4:0, each flag at its number, every other bit 0 (R31, D4). -/
def State.flagsWord (s : State) : Word :=
  let k := s.cfg.flagNum
  s.ipl.setWidth 32 ||| bitAt s.flags.r k.r ||| bitAt s.flags.z k.z ||| bitAt s.flags.n k.n ||| bitAt s.flags.err k.err
    ||| bitAt s.flags.sys k.sys ||| bitAt s.flags.em k.em ||| bitAt s.flags.int k.int ||| bitAt s.flags.vm k.vm

/-- The flags a written FLAGS word sets; bits that are no field are ignored (R31, D4). -/
def flagsOfWord (k : FlagNumbers) (w : Word) : Flags :=
  { r := w.getLsbD k.r
    z := w.getLsbD k.z
    n := w.getLsbD k.n
    err := w.getLsbD k.err
    sys := w.getLsbD k.sys
    em := w.getLsbD k.em
    int := w.getLsbD k.int
    vm := w.getLsbD k.vm }

/-- A write that has cleared R halts as HALT does (R41, R61, D41). -/
def State.noteHalt (s : State) : State :=
  if s.flags.r then s else { s with status := .halted }

/-- The FLAGS word replaced: IPL and every flag at once (R41). -/
def State.writeFlagsWord (s : State) (w : Word) : State :=
  State.noteHalt { s with flags := flagsOfWord s.cfg.flagNum w, ipl := w.extractLsb' 0 5 }

/-- One flag written (R211). -/
def State.writeFlag (s : State) (f : Flag) (b : Bool) : State :=
  State.noteHalt { s with flags := s.flags.set b f }

/-- The processor halted: R cleared, status halted (R61, R160). -/
def State.halt (s : State) : State :=
  { s with flags := { s.flags with r := false }, status := .halted }

/-! ### The special registers (R40) -/

/-- The special register a number names, if it names one (R40, D2). -/
def specialOfNumber (c : Config) (n : Word) : Option SpecialReg := c.srNum[n.toNat]?

/-- What GETSR reads (R212, R41, R32). -/
def State.readSpecial (s : State) : SpecialReg → Word
  | .flags => s.flagsWord
  | .pdbr => s.pdbr
  | .intvec => s.intVec
  | .cgbr => s.cgBr
  | .cglen => s.cgLen
  | .debug => s.debug
  | .timer => s.timer
  | .syssp => s.sysSp
  | .sysfp => s.sysFp
  | .usrsp => s.usrSp
  | .usrfp => s.usrFp
  | .watch => s.watch
  | .exitcode => s.exitCode
  | .ipl => s.ipl.setWidth 32
  | .emgret => s.emgRet

/-- What SETSR writes (R213, R56): all 32 bits, but for FLAGS (R31) and IPL (R32). -/
def State.writeSpecial (s : State) (v : Word) : SpecialReg → State
  | .flags => s.writeFlagsWord v
  | .pdbr => { s with pdbr := v }
  | .intvec => { s with intVec := v }
  | .cgbr => { s with cgBr := v }
  | .cglen => { s with cgLen := v }
  | .debug => { s with debug := v }
  | .timer => { s with timer := v }
  | .syssp => { s with sysSp := v }
  | .sysfp => { s with sysFp := v }
  | .usrsp => { s with usrSp := v }
  | .usrfp => { s with usrFp := v }
  | .watch => { s with watch := v }
  | .exitcode => { s with exitCode := v }
  | .ipl => { s with ipl := v.extractLsb' 0 5 }
  | .emgret => { s with emgRet := v }

end Sys2Proof.Machine
end

