-- ==== Sys2Proof/Machine/Ops.lean ====
section
/-! DEFINITION. The named operations over registers, memory and stacks, taking an interrupt and returning from one
(10_state.md R20 to R26, 20_memory.md R70 to R98, 60_exceptions.md R455 to R474). -/

namespace Sys2Proof.Machine

/-! ### Registers (R9, R20 to R26) -/

/-- Register 13 in the current mode (R23). -/
def State.readSp (s : State) : Word := if s.flags.sys then s.sysSp else s.usrSp

def State.writeSp (s : State) (v : Word) : State :=
  if s.flags.sys then { s with sysSp := v } else { s with usrSp := v }

/-- Register 14 in the current mode (R24). -/
def State.readFp (s : State) : Word :=
  if s.cfg.fpBanked then if s.flags.sys then s.sysFp else s.usrFp else s.plainFp

def State.writeFp (s : State) (v : Word) : State :=
  if s.cfg.fpBanked then
    if s.flags.sys then { s with sysFp := v } else { s with usrFp := v }
  else { s with plainFp := v }

/-- A general register read (R9, R25: register 15 is the PC, already advanced). -/
def State.readReg (s : State) (r : Reg) : Word :=
  if h : r.val < 13 then s.regs[r.val]
  else if r.val = 13 then s.readSp
  else if r.val = 14 then s.readFp
  else s.pc

/-- A general register written; a write to register 15 is a jump (R9, R25). -/
def State.writeReg (s : State) (r : Reg) (v : Word) : State :=
  if h : r.val < 13 then { s with regs := s.regs.set r.val v }
  else if r.val = 13 then s.writeSp v
  else if r.val = 14 then s.writeFp v
  else { s with pc := v }

/-- The address of the instruction being executed: PC is already one past it (R26, R470 d). -/
def State.this (s : State) : Word := s.pc - 1

/-! ### Free values (entry 8) -/

/-- The k-th free word not yet drawn. -/
def State.free (s : State) (k : Nat := 0) : Word := Config.freeWord (s.draws + k)

/-- A free bit made of the k-th free word not yet drawn. -/
def State.freeBit (s : State) (k : Nat := 0) : Bool := (s.free k).getLsbD 0

/-- A free number in 0 .. n made of the k-th free word not yet drawn. -/
def State.freeUpTo (s : State) (n : Nat) (k : Nat := 0) : Nat := (s.free k).toNat % (n + 1)

/-- The state after k free values were drawn. -/
def State.drawn (s : State) (k : Nat := 1) : State := { s with draws := s.draws + k }

/-! ### Why an instruction stops short -/

/-- An interrupt raised with its cause address and information, `none` where the source defines none (R13, R455). -/
structure Raised where
  code : Interrupt
  address : Option Word
  info : Option Word
deriving DecidableEq, Repr

inductive Stop where
  | raised (e : Raised)
  | fault (f : Fault)
  | refused (r : Refusal)
deriving DecidableEq, Repr

/-- What part of an instruction answers. -/
abbrev Res (α : Type) := Except Stop α

/-- `raise NAME(addr)` of R13. -/
def raise {α : Type} (code : Interrupt) (address : Option Word) : Res α :=
  .error (.raised ⟨code, address, none⟩)

def refuse {α : Type} (r : Refusal) : Res α := .error (.refused r)

/-! ### Interrupt codes (R455) -/

/-- The code of an interrupt: its position in the vector and its priority (R455, R461). -/
def Interrupt.code : Interrupt → Nat
  | .halt => 1
  | .timer => 2
  | .keybd => 3
  | .privop => 4
  | .pagepriv => 5
  | .divzero => 6
  | .memory => 7
  | .unimpop => 8
  | .unwrop => 9
  | .badop => 10
  | .badcall => 11
  | .pagefault => 12
  | .pagefault2 => 13
  | .watch => 14
  | .debug => 15
  | .sysstkfl => 16
  | .intrfault => 17
  | .fltneg => 18
  | .usrint1 => 19
  | .usrint2 => 20
  | .usrint3 => 21
  | .rterror => 22

/-- The interrupts by code, from 1. -/
def interruptList : List Interrupt :=
  [.halt, .timer, .keybd, .privop, .pagepriv, .divzero, .memory, .unimpop, .unwrop, .badop, .badcall] ++
  [.pagefault, .pagefault2, .watch, .debug, .sysstkfl, .intrfault, .fltneg, .usrint1, .usrint2, .usrint3, .rterror]

/-- The interrupt of a code; none for 0 and above 22 (R455). -/
def interruptOfCode : Nat → Option Interrupt
  | 0 => none
  | n + 1 => interruptList[n]?

/-- An interrupt is ignored when its code is not above IPL (R461). -/
def State.ignores (s : State) (code : Interrupt) : Bool := decide (code.code ≤ s.ipl.toNat)

/-! ### Physical memory (R71, R74) -/

/-- The physical address exists (R71). -/
def memExists (c : Config) (p : Word) : Bool :=
  c.memAreas.any fun a => decide (a.first ≤ p) && decide (p ≤ a.last)

/-- The address, or MEMORY if it does not exist (R74). -/
def existing (s : State) (p : Word) : Res Word :=
  if memExists s.cfg p then .ok p else raise .memory (some p)

/-- PhysRead of R74. -/
def physRead (s : State) (p : Word) : Res Word :=
  if memExists s.cfg p then .ok (s.mem.readWord p) else raise .memory (some p)

/-- A word stored at a physical address that exists. -/
def State.poke (s : State) (p v : Word) : State := { s with mem := s.mem.writeWord p v }

/-- A write to this address trips the watch-point: it is WATCH's address and WATCH is not ignored (R84, R461). -/
def watchHit (s : State) (a : Word) : Bool := a == s.watch && !s.ignores .watch

/-- The physical address, if the write to it is made: the watch check on address `a` comes last (R84, R470 j, D48; entry 15). -/
def watched (s : State) (a p : Word) : Res Word :=
  if watchHit s a then raise .watch (some a) else .ok p

/-- PhysWrite of R74 with the watch check of R84. -/
def physWrite (s : State) (p v : Word) : Res State := do
  let p ← existing s p
  let p ← watched s p p
  .ok (s.poke p v)

/-! ### Translation (R90 to R98) -/

/-- The table walk of R90, whatever VM is. -/
def pageWalk (s : State) (a : Word) : Res Word :=
  if s.pdbr &&& 0x3FF#32 != 0 then refuse .misalignedPageDirectory
  else do
    let ptAddr ← physRead s ((a >>> 22) + s.pdbr)
    if ptAddr = 0 then raise .pagefault (some a)
    else do
      let pgAddr ← physRead s ((ptAddr &&& 0xFFFFF800#32) + ((a >>> 11) &&& 0x7FF#32))
      if !pgAddr.getLsbD 0 then raise .pagefault (some a)
      else if pgAddr.getLsbD 1 && !s.flags.sys then raise .pagepriv (some a)
      else .ok ((pgAddr &&& 0xFFFFF800#32) + (a &&& 0x7FF#32))

/-- Translate of R90. -/
def translateAddress (s : State) (a : Word) : Res Word :=
  if s.flags.vm then pageWalk s a else .ok a

/-- MemRead of R10, R90. -/
def memRead (s : State) (a : Word) : Res Word := do
  let p ← translateAddress s a
  physRead s p

/-- The address WATCH is compared with when a logical address translates to a physical one: WATCH_SPACE says which (R84, U17). -/
def watchAddress (c : Config) (logical physical : Word) : Word :=
  match c.watchSpace with
  | .logical => logical
  | .physical => physical

/-- The physical address a logical write goes to, or what it raises: translation, then existence, as a read's, then the watch check
(R470 j, D48; entry 15). -/
def storeTarget (s : State) (a : Word) : Res Word := do
  let p ← translateAddress s a
  let p ← existing s p
  watched s (watchAddress s.cfg a p) p

/-- MemWrite of R10, R90. -/
def memWrite (s : State) (a v : Word) : Res State := do
  let p ← storeTarget s a
  .ok (s.poke p v)

/-! ### The stack (R23, R220) -/

/-- Words written below `top` one after another, each at the next lower address and through the tables as the words before left them
(R98). A word that cannot be written ends it with nothing written (R290, R471). The stack pointer is the caller's to move. -/
def pushWords (s : State) (top : Word) : List Word → Res State
  | [] => .ok s
  | v :: vs => do
    let s' ← memWrite s (top - 1) v
    pushWords s' (top - 1) vs

/-- Where n words below `top` go, the first from `top - 1`, the next from `top - 2`, and so on: their physical addresses as far as the
words can be stored, and what the first that cannot be raises: the writes of an interrupt's frame are all checked before any takes effect
(D22; entry 47). -/
def targetsBelow (s : State) (top : Word) : Nat → List Word × Option Stop
  | 0 => ([], none)
  | n + 1 =>
    match storeTarget s (top - 1) with
    | .error e => ([], some e)
    | .ok p => (p :: (targetsBelow s (top - 1) n).1, (targetsBelow s (top - 1) n).2)

/-- Words stored at physical addresses, one after another. -/
def pokeAll (s : State) : List (Word × Word) → State
  | [] => s
  | (p, v) :: rest => pokeAll (s.poke p v) rest

/-- Words read from `at` upward, as many as asked. -/
def popWords (s : State) (at' : Word) : Nat → Res (List Word)
  | 0 => .ok []
  | n + 1 => do
    let v ← memRead s at'
    let vs ← popWords s (at' + 1) n
    .ok (v :: vs)

/-! ### Taking an interrupt (R460 to R468) -/

/-- What delivering an interrupt answers. -/
inductive Delivery where
  /-- The handler entered, the emergency procedure done, or the run ended. -/
  | taken (s : State)
  /-- Ignored: the code is not above IPL (R461). -/
  | ignored
  /-- TIMER or KEYBD while interrupts are not processed (R462). -/
  | dropped
  /-- A translation the model refuses (U13). -/
  | refused (r : Refusal)
deriving DecidableEq, Repr

/-- "Will stop a running program" (R466). -/
def State.stopProgram (s : State) (code : Interrupt) : State :=
  { s with flags := { s.flags with r := false }, status := .stopped code }

/-- The end of a run in the emulator's debugger (R61, R251, R468). -/
def State.enterDebugger (s : State) : State :=
  { s with flags := { s.flags with r := false }, status := .debugger }

def State.asSystem (s : State) : State := { s with flags := { s.flags with sys := true } }

/-- The 21 words of a frame in the order they are pushed, R0 first (R463, R233): the registers, SP and FP of the interrupted
context, the three words `info`, `address`, `code`, its FLAGS word, the constant 38, the return address. -/
def frameWords (s : State) (info address code retpc : Word) : List Word :=
  s.regs.toList ++ [s.readSp, s.readFp, info, address, code, s.flagsWord, 38, retpc]

/-- The handler's address for a code: the vector entry, if its physical address exists and it is not zero (R460 step 4, R464). -/
def vectorEntry (s : State) (code : Interrupt) : Option Word :=
  let a := s.intVec + BitVec.ofNat 32 code.code
  if memExists s.cfg a && s.mem.readWord a != 0 then some (s.mem.readWord a) else none

/-- What is left of a frame whose pushing failed (R468, U22): each word before the failing write may be there or not, a free choice
per word (entry 27). -/
def keepSomeWords (s : State) : List (Word × Word) → State
  | [] => s
  | (p, v) :: rest => keepSomeWords (if s.freeBit then (s.poke p v).drawn else s.drawn) rest

/-- The emergency procedure (R468): SYSSTKFL's handler, else INTRFAULT's, jumped to without a frame; else the debugger. `written` are
the frame words before the one that failed, each with its address. -/
def emergency (s : State) (code : Interrupt) (retpc : Word) (written : List (Word × Word)) : State :=
  let kept := keepSomeWords s written
  let jump := fun (h : Word) =>
    { kept with
      emgRet := retpc
      flags := { kept.flags with em := true, sys := true }
      ipl := BitVec.ofNat 5 code.code
      pc := h }
  match vectorEntry kept .sysstkfl with
  | some h => jump h
  | none =>
    match vectorEntry kept .intrfault with
    | some h => jump h
    | none => kept.enterDebugger

/-- Steps 5 and 6 of R460: the frame on the system stack, its 21 writes checked as system-mode accesses before any takes effect (D22),
then SYS, IPL, SYSSP and PC; the emergency procedure if a frame word cannot be written. An undefined `address` or `info` word is a free
value (R455, U16). -/
def enterHandler (s : State) (code : Interrupt) (address info : Option Word) (retpc h : Word) : Delivery :=
  let frame := frameWords s (info.getD (s.free 1)) (address.getD (s.free 0)) (BitVec.ofNat 32 code.code) retpc
  let s := s.drawn 2
  match targetsBelow s.asSystem s.sysSp 21 with
  | (ps, none) =>
    .taken { pokeAll s.asSystem (ps.zip frame) with ipl := BitVec.ofNat 5 code.code, sysSp := s.sysSp - 21, pc := h }
  | (_, some (.refused r)) => .refused r
  | (ps, some _) => .taken (emergency s code retpc (ps.zip frame))

/-- INTRFAULT in place of an interrupt whose vector entry is bad: a fresh delivery with the same address and the original code as
information (R464). -/
def deliverIntrFault (s : State) (original : Interrupt) (address : Option Word) (retpc : Word) : Delivery :=
  if s.ignores .intrfault then .ignored
  else
    match vectorEntry s .intrfault with
    | some h => enterHandler s .intrfault address (some (BitVec.ofNat 32 original.code)) retpc h
    | none => .taken (s.stopProgram .intrfault)

/-- The code under which an interrupt is delivered: a page fault while one is being handled is PAGEFAULT2 (R465). -/
def deliveredCode (s : State) (code : Interrupt) : Interrupt :=
  if code = .pagefault ∧ s.ipl = 12 then .pagefault2 else code

/-- Interrupts are being processed (R462). -/
def State.processesInterrupts (s : State) : Bool := s.flags.int && s.intVec != 0

/-- Delivering an interrupt (R460). The flag EM decides nothing, as R460 and R468 have it where R33 lists it as read by delivery: DEDUCED
(entry 57). -/
def deliver (s : State) (e : Raised) (retpc : Word) : Delivery :=
  let code := deliveredCode s e.code
  if s.ignores code then .ignored
  else if !s.processesInterrupts then
    if code = .timer ∨ code = .keybd then .dropped else .taken (s.stopProgram code)
  else
    match vectorEntry s code with
    | some h => enterHandler s code e.address e.info retpc h
    | none => if code = .intrfault then .taken (s.stopProgram .intrfault) else deliverIntrFault s code e.address retpc

/-- The PC a synchronous fault of the instruction being executed saves (R473, FAULT_PC). -/
def State.faultPc (s : State) : Word :=
  match s.cfg.faultPc with
  | .faulting => s.this
  | .following => s.pc

/-- The step's outcome for an instruction that stopped short in state `s`: an interrupt is delivered; if it is ignored the
instruction can neither complete nor report (R461, U4). -/
def stopOutcome (s : State) (retpc : Word) : Stop → Host.Outcome State Fault Refusal
  | .raised e =>
    match deliver s e retpc with
    | .taken s' => .next s'
    | .ignored => .fault (.ignoredInterrupt (deliveredCode s e.code))
    | .dropped => .next s
    | .refused r => .refused r
  | .fault f => .fault f
  | .refused r => .refused r

/-- The step's outcome for an instruction started in state `s`: its next state, or what its stop leads to from `s`, since an
instruction that raises an interrupt changes nothing of its own (R471). -/
def conclude (s : State) : Res State → Host.Outcome State Fault Refusal
  | .ok s' => .next s'
  | .error stop => stopOutcome s s.faultPc stop

/-! ### Returning from an interrupt (R232, R469) -/

/-- The words IRET reads from the frame at `b`, in the order of R232: PC, FLAGS, FP, SP, then R0 to R12. -/
structure SavedContext where
  pc : Word
  flags : Word
  fp : Word
  sp : Word
  regs : Vector Word 13
deriving DecidableEq, Repr

/-- R0 to R12 read from a frame, R0 at `b + 20`, R12 at `b + 8` (R232). -/
def readSavedRegs (s : State) (b : Word) : Res (Vector Word 13) := do
  let r0 ← memRead s (b + 20)
  let r1 ← memRead s (b + 19)
  let r2 ← memRead s (b + 18)
  let r3 ← memRead s (b + 17)
  let r4 ← memRead s (b + 16)
  let r5 ← memRead s (b + 15)
  let r6 ← memRead s (b + 14)
  let r7 ← memRead s (b + 13)
  let r8 ← memRead s (b + 12)
  let r9 ← memRead s (b + 11)
  let r10 ← memRead s (b + 10)
  let r11 ← memRead s (b + 9)
  let r12 ← memRead s (b + 8)
  .ok #v[r0, r1, r2, r3, r4, r5, r6, r7, r8, r9, r10, r11, r12]

def readSavedContext (s : State) (b : Word) : Res SavedContext := do
  let pc ← memRead s b
  let flags ← memRead s (b + 2)
  let fp ← memRead s (b + 6)
  let sp ← memRead s (b + 7)
  let regs ← readSavedRegs s b
  .ok ⟨pc, flags, fp, sp, regs⟩

/-- The saved context put back: the frame off the system stack, then FLAGS, the registers, and FP and SP in the bank of the restored
mode. In system mode the saved SP must be the stack above the frame; where it is not, SYSSP is one of the two, a free choice
(R232, D15, U8). -/
def restoreContext (s : State) (c : SavedContext) : State :=
  let above := s.sysSp + 21
  let s := State.writeFlagsWord { s with sysSp := above } c.flags
  let s := State.writeFp { s with regs := c.regs, pc := c.pc } c.fp
  if s.flags.sys && c.sp != above then
    if s.freeBit then (s.writeSp c.sp).drawn else s.drawn
  else s.writeSp c.sp

end Sys2Proof.Machine
end

