-- ==== Sys2Proof/Machine/Operands.lean ====
section
/-! DEFINITION. The operand of an instruction: total, value, destination (00_scope.md R11, R12; 30_encoding.md R125), and the shapes
most instructions share. -/

namespace Sys2Proof.Machine

/-- `total` of R11: the sign-extended numeric operand plus the index register, if there is one. -/
def operandTotal (s : State) (o : Operand) : Word :=
  o.number.signExtend 32 + if o.index = 0 then 0 else s.readReg o.index

/-- `value` of R11: total, or the memory word it addresses. -/
def operandValue (s : State) (o : Operand) : Res Word :=
  if o.indirect then memRead s (operandTotal s o) else .ok (operandTotal s o)

/-- The operand form check of an instruction that writes its destination (R12, R470 g). -/
def checkWritable (s : State) (o : Operand) : Res Unit :=
  if o.isWritable then .ok () else raise .unwrop (some s.this)

/-- `destination <- v` of R12. -/
def writeDest (s : State) (o : Operand) (v : Word) : Res State :=
  if o.indirect then memWrite s (operandTotal s o) v
  else if o.isRegister then .ok (s.writeReg o.index v)
  else raise .unwrop (some s.this)

/-- A privileged operation: PRIVOP in user mode, before the operand is evaluated (R481, R470 f). -/
def privileged (s : State) (k : Res State) : Res State :=
  if s.flags.sys then k else raise .privop (some s.this)

/-- A register written with a result, or with a free value where the spec states none (U1, U2, U10, U20, U24, U32). -/
def State.put (s : State) (r : Reg) : Option Word → State
  | some v => s.writeReg r v
  | none => (s.writeReg r s.free).drawn

/-- `reg <- f(reg, value)`. -/
def regOp (f : Word → Word → Word) (main : Reg) (o : Operand) (s : State) : Host.Outcome State Fault Refusal :=
  conclude s do
    let v ← operandValue s o
    .ok (s.writeReg main (f (s.readReg main) v))

/-- `reg <- f(reg, value)`, where f states no result for some operands. -/
def regOpOpen (f : Word → Word → Option Word) (main : Reg) (o : Operand) (s : State) : Host.Outcome State Fault Refusal :=
  conclude s do
    let v ← operandValue s o
    .ok (s.put main (f (s.readReg main) v))

/-- A division `reg <- f(dividend, divisor)` of register and value in the order `pick` gives: DIVZERO for a zero divisor, no next
state for the operands `bad` names (R170, R187, U3). -/
def divideOp (pick : Word → Word → Word × Word) (bad : Word → Word → Bool) (f : Word → Word → Word)
    (main : Reg) (o : Operand) (s : State) : Host.Outcome State Fault Refusal :=
  conclude s do
    let v ← operandValue s o
    let (a, b) := pick (s.readReg main) v
    if b = 0 then raise .divzero (some s.this)
    else if bad a b then .error (.fault .divisionOverflow)
    else .ok (s.writeReg main (f a b))

/-- `if cond(state) PC <- value`, the operand evaluated whether or not the jump is taken (R201, D25). -/
def jumpIf (cond : Bool) (o : Operand) (s : State) : Host.Outcome State Fault Refusal :=
  conclude s do
    let v ← operandValue s o
    .ok (if cond then { s with pc := v } else s)

/-- `destination <- f(value)`: the operand is read and written (R165). -/
def updateOp (f : Word → Word) (o : Operand) (s : State) : Host.Outcome State Fault Refusal :=
  conclude s do
    checkWritable s o
    let v ← operandValue s o
    writeDest s o (f v)

/-- `destination <- result`, or a free value where the spec states none (U2, U10). -/
def writeDestOpen (s : State) (o : Operand) : Option Word → Res State
  | some v => writeDest s o v
  | none => do
    let s' ← writeDest s o s.free
    .ok s'.drawn

end Sys2Proof.Machine
end

