-- ==== Sys2Proof/Machine/Blocks.lean ====
section
/-! DEFINITION. Opcodes 38, 39, 50, 95 to 99, 101, 105, 106: characters, blocks, bit arrays, multiple registers
(43_strings_blocks_bits.md). -/

namespace Sys2Proof.Machine

/-- An array element's index, which must not be negative (R280 b, U9). -/
def elementIndex (k : Word) : Res Nat :=
  if k.msb then .error (.fault .negativeIndex) else .ok k.toNat

/-- LDCH (R281). -/
def execLdch (main : Reg) (o : Operand) (s : State) : Host.Outcome State Fault Refusal :=
  conclude s do
    let v ← operandValue s o
    let k ← elementIndex (s.readReg main)
    let w ← memRead s (v + BitVec.ofNat 32 (k / 4))
    .ok (s.writeReg main ((charOf w (k % 4)).setWidth 32))

/-- STCH (R282): the low 8 bits of R0. -/
def execStch (main : Reg) (o : Operand) (s : State) : Host.Outcome State Fault Refusal :=
  conclude s do
    let v ← operandValue s o
    let k ← elementIndex (s.readReg main)
    let a := v + BitVec.ofNat 32 (k / 4)
    let w ← memRead s a
    memWrite s a (withChar w (k % 4) ((s.readReg 0).setWidth 8))

/-! ### Loop instructions: each iteration is kept before the next starts (R280 c) -/

/-- MOVE's iterations (R283), as many as asked: what was done, and what stopped it. -/
def moveLoop (main index : Reg) (s : State) : Nat → State × Option Stop
  | 0 => (s, none)
  | n + 1 =>
    match memRead s (s.readReg main) with
    | .error e => (s, some e)
    | .ok w =>
      match memWrite s (s.readReg index) w with
      | .error e => (s, some e)
      | .ok s' =>
        let s' := s'.writeReg index (s'.readReg index + 1)
        let s' := s'.writeReg main (s'.readReg main + 1)
        moveLoop main index (s'.writeReg 0 (s'.readReg 0 - 1)) n

/-- ZERO's iterations (R284). -/
def zeroLoop (main index : Reg) (s : State) : Nat → State × Option Stop
  | 0 => (s, none)
  | n + 1 =>
    match memWrite s (s.readReg index) 0 with
    | .error e => (s, some e)
    | .ok s' =>
      let s' := s'.writeReg index (s'.readReg index + 1)
      zeroLoop main index (s'.writeReg main (s'.readReg main - 1)) n

/-- FFNZ's iterations (R289): stops at the first word that is not zero; the register is -1 when all are. -/
def findNonZeroLoop (main : Reg) (s : State) : Nat → State × Option Stop
  | 0 => (s.writeReg main 0xFFFFFFFF, none)
  | n + 1 =>
    match memRead s (s.readReg main) with
    | .error e => (s, some e)
    | .ok w =>
      if w != 0 then (s, none)
      else findNonZeroLoop main (s.writeReg main (s.readReg main + 1)) n

/-- A loop instruction that started in state `s`: an interrupt keeps the progress and saves the instruction's own address, whatever
FAULT_PC says (R280 c, R471, D30; entry 42). -/
def concludeLoop (s : State) : State × Option Stop → Host.Outcome State Fault Refusal
  | (s', none) => .next s'
  | (s', some e) => stopOutcome s' s.this e

/-- How many times a loop with this signed count runs. -/
def loopCount (v : Word) : Nat := if v.msb then 0 else v.toNat

/-- MOVE (R283): BADOP unless the operand is just a register; refused for the registers of U19. -/
def execMove (main : Reg) (o : Operand) (s : State) : Host.Outcome State Fault Refusal :=
  if !o.isRegister then conclude s (raise .badop (some s.this))
  else if moveRegistersBad main o.index then .refused .degenerateLoopRegisters
  else concludeLoop s (moveLoop main o.index s (loopCount (s.readReg 0)))

/-- ZERO (R284): the main register is the count. -/
def execZero (main : Reg) (o : Operand) (s : State) : Host.Outcome State Fault Refusal :=
  if !o.isRegister then conclude s (raise .badop (some s.this))
  else if zeroRegistersBad main o.index then .refused .degenerateLoopRegisters
  else concludeLoop s (zeroLoop main o.index s (loopCount (s.readReg main)))

/-- LBITF (R285). -/
def execLbitf (main : Reg) (o : Operand) (s : State) : Host.Outcome State Fault Refusal :=
  conclude s do
    let v ← operandValue s o
    let k ← elementIndex (s.readReg main)
    let w ← memRead s (v + BitVec.ofNat 32 (k / 32))
    .ok (s.writeReg main (bitWord (w.getLsbD (k % 32))))

/-- LBITO (R286): a bit of the value itself. -/
def execLbito (main : Reg) (o : Operand) (s : State) : Host.Outcome State Fault Refusal :=
  regOpOpen (fun r v => (bitNumber r).map fun k => bitWord (v.getLsbD k)) main o s

/-- SBITF (R287): bit 0 of R0. -/
def execSbitf (main : Reg) (o : Operand) (s : State) : Host.Outcome State Fault Refusal :=
  conclude s do
    let v ← operandValue s o
    let k ← elementIndex (s.readReg main)
    let a := v + BitVec.ofNat 32 (k / 32)
    let w ← memRead s a
    memWrite s a (withBit w (k % 32) ((s.readReg 0).getLsbD 0))

/-- SBITO (R288). -/
def execSbito (main : Reg) (o : Operand) (s : State) : Host.Outcome State Fault Refusal :=
  conclude s do
    checkWritable s o
    let v ← operandValue s o
    writeDestOpen s o ((bitNumber (s.readReg main)).map fun k => withBit v k ((s.readReg 0).getLsbD 0))

/-- FFNZ (R289): addresses `reg` to `value`, both below 0x80000000. One on each side of it has no next state (U36). DESIGN CHOICE
(entry 52): two addresses not below it have none either, and after the last address 0x7FFFFFFF the register is -1. -/
def execFfnz (main : Reg) (o : Operand) (s : State) : Host.Outcome State Fault Refusal :=
  match operandValue s o with
  | .error e => conclude s (.error e)
  | .ok v =>
    let first := s.readReg main
    if first.msb || v.msb then .fault .ambiguousComparison
    else concludeLoop s (findNonZeroLoop main s (v.toNat + 1 - first.toNat))

/-- The registers a mask names, in ascending order: R0 to R12 and FP (R290). -/
def maskRegisters (m : Word) : List Reg :=
  (List.finRange 16).filter fun r => m.getLsbD r.val

/-- A mask with a bit that has no stated meaning: 13, 15, or 16 to 31 (R290, U11). -/
def maskUndefined (m : Word) : Bool := m &&& 0xFFFFA000#32 != 0

/-- MPUSH (R290). -/
def execMpush (o : Operand) (s : State) : Host.Outcome State Fault Refusal :=
  conclude s do
    let m ← operandValue s o
    if maskUndefined m then refuse .undefinedStackMask
    else do
      let rs := maskRegisters m
      let s' ← pushWords s s.readSp (rs.map s.readReg)
      .ok (s'.writeSp (s.readSp - BitVec.ofNat 32 rs.length))

/-- Registers written one after another. -/
def writeRegs (s : State) : List (Reg × Word) → State
  | [] => s
  | (r, v) :: rest => writeRegs (s.writeReg r v) rest

/-- MPOP (R291): every read before any register changes. -/
def execMpop (o : Operand) (s : State) : Host.Outcome State Fault Refusal :=
  conclude s do
    let m ← operandValue s o
    if maskUndefined m then refuse .undefinedStackMask
    else do
      let rs := (maskRegisters m).reverse
      let vs ← popWords s s.readSp rs.length
      .ok ((writeRegs s (rs.zip vs)).writeSp (s.readSp + BitVec.ofNat 32 rs.length))

end Sys2Proof.Machine
end

