-- ==== Sys2Proof/Machine/Control.lean ====
section
/-! DEFINITION. Opcodes 25 to 37, 41, 44, 45: jumps, flag and special-register access, stack, FLAGSJ, IRET, SYSCALL
(41_control_flags_stack.md). -/

namespace Sys2Proof.Machine

/-- JUMP (R200). -/
def execJump (o : Operand) (s : State) : Host.Outcome State Fault Refusal := jumpIf true o s

/-- JZER (R201). -/
def execJzer (main : Reg) (o : Operand) (s : State) : Host.Outcome State Fault Refusal :=
  jumpIf (s.readReg main == 0) o s

/-- JPOS (R202): zero counts as positive. -/
def execJpos (main : Reg) (o : Operand) (s : State) : Host.Outcome State Fault Refusal :=
  jumpIf (!(s.readReg main).msb) o s

/-- JNEG (R203). -/
def execJneg (main : Reg) (o : Operand) (s : State) : Host.Outcome State Fault Refusal :=
  jumpIf (s.readReg main).msb o s

/-- The test a condition code selects (R205); none for a code without one (U5). -/
def jumpCondition (s : State) (cond : Fin 16) : Option Bool :=
  match cond.val with
  | 0 => some s.flags.z
  | 1 => some (!s.flags.z)
  | 2 => some s.flags.n
  | 3 => some (s.flags.z || s.flags.n)
  | 4 => some (!s.flags.z && !s.flags.n)
  | 5 => some (!s.flags.n)
  | _ => if cond = s.cfg.jcondErr then some s.flags.err else none

/-- JCOND (R205). -/
def execJcond (cond : Fin 16) (o : Operand) (s : State) : Host.Outcome State Fault Refusal :=
  match jumpCondition s cond with
  | some b => jumpIf b o s
  | none => .refused .undefinedCondition

/-- GETFL (R210): 0 or 1; for a number that is no flag's, a free one of the two (U12). -/
def execGetfl (main : Reg) (o : Operand) (s : State) : Host.Outcome State Fault Refusal :=
  conclude s do
    let n ← operandValue s o
    match flagOfNumber s.cfg n with
    | some f => .ok (s.writeReg main (bitWord (s.flags.get f)))
    | none => .ok (s.writeReg main (bitWord s.freeBit)).drawn

/-- SETFL (R211): non-zero sets the flag; PRIVOP for the protected flags in user mode (R34, R481). -/
def execSetfl (main : Reg) (o : Operand) (s : State) : Host.Outcome State Fault Refusal :=
  conclude s do
    let n ← operandValue s o
    match flagOfNumber s.cfg n with
    | some f =>
      if flagProtected f && !s.flags.sys then raise .privop (some s.this)
      else .ok (s.writeFlag f (s.readReg main != 0))
    | none => refuse .notAFlag

/-- GETSR (R212): a free value for a number that is no special register's (U14). -/
def execGetsr (main : Reg) (o : Operand) (s : State) : Host.Outcome State Fault Refusal :=
  conclude s do
    let n ← operandValue s o
    .ok (s.put main ((specialOfNumber s.cfg n).map s.readSpecial))

/-- SETSR (R213, R56). -/
def execSetsr (main : Reg) (o : Operand) (s : State) : Host.Outcome State Fault Refusal :=
  conclude s <| privileged s do
    let n ← operandValue s o
    match specialOfNumber s.cfg n with
    | some r => .ok (s.writeSpecial (s.readReg main) r)
    | none => refuse .notASpecialRegister

/-- PUSH (R220): the value is computed with the old SP, and the write attempted before SP changes. -/
def execPush (o : Operand) (s : State) : Host.Outcome State Fault Refusal :=
  conclude s do
    let v ← operandValue s o
    let s' ← pushWords s s.readSp [v]
    .ok (s'.writeSp (s.readSp - 1))

/-- POP (R221): the destination is found with the old SP; SP is free after `POP SP` (U7). -/
def execPop (o : Operand) (s : State) : Host.Outcome State Fault Refusal :=
  conclude s do
    checkWritable s o
    let v ← memRead s s.readSp
    let s' ← writeDest s o v
    if o.isRegister && o.index == 13 then .ok (s.writeSp s.free).drawn
    else .ok (s'.writeSp (s.readSp + 1))

/-- CALL (R222). -/
def execCall (o : Operand) (s : State) : Host.Outcome State Fault Refusal :=
  conclude s do
    let v ← operandValue s o
    let s' ← pushWords s s.readSp [s.pc]
    .ok { s'.writeSp (s.readSp - 1) with pc := v }

/-- RET (R223). -/
def execRet (s : State) : Host.Outcome State Fault Refusal :=
  conclude s do
    let t ← memRead s s.readSp
    .ok { s.writeSp (s.readSp + 1) with pc := t }

/-- FLAGSJ (R231): the value is evaluated under the old flags. -/
def execFlagsj (main : Reg) (o : Operand) (s : State) : Host.Outcome State Fault Refusal :=
  conclude s <| privileged s do
    let v ← operandValue s o
    .ok { s.writeFlagsWord (s.readReg main) with pc := v }

/-- IRET (R232): every read before any change. -/
def execIret (s : State) : Host.Outcome State Fault Refusal :=
  conclude s <| privileged s do
    let c ← readSavedContext s s.sysSp
    .ok (restoreContext s c)

/-- SYSCALL (R233): BADCALL for a code outside the gates, the gate read physically, then the frame on the system stack. -/
def execSyscall (main : Reg) (o : Operand) (s : State) : Host.Outcome State Fault Refusal :=
  conclude s do
    let code ← operandValue s o
    if code.toInt < 0 ∨ s.cgLen.toInt ≤ code.toInt then
      .error (.raised ⟨.badcall, some s.this, some code⟩)
    else do
      let target ← physRead s (s.cgBr + code)
      let s' ← pushWords s.asSystem s.sysSp (frameWords s (BitVec.ofNat 32 main.val) code 0 s.pc)
      .ok { s' with sysSp := s.sysSp - 21, pc := target }

end Sys2Proof.Machine
end

