-- ==== Sys2Proof/Machine/CoreInteger.lean ====
section
/-! DEFINITION. Opcodes 0 to 24 (40_core_integer.md). -/

namespace Sys2Proof.Machine

/-- HALT and NALT (R160, R264): in user mode the interrupt HALT, in system mode the processor halts. -/
def haltOp (s : State) : Host.Outcome State Fault Refusal :=
  conclude s (if s.flags.sys then .ok s.halt else raise .halt (some s.this))

/-- HALT (R160). -/
def execHalt (s : State) : Host.Outcome State Fault Refusal := haltOp s

/-- LOAD (R161). -/
def execLoad (main : Reg) (o : Operand) (s : State) : Host.Outcome State Fault Refusal :=
  regOp (fun _ v => v) main o s

/-- LOADH (R162). -/
def execLoadh (main : Reg) (o : Operand) (s : State) : Host.Outcome State Fault Refusal :=
  regOp (fun r v => r &&& 0x0000FFFF#32 ||| v <<< 16) main o s

/-- STORE (R163): no operand is read. -/
def execStore (main : Reg) (o : Operand) (s : State) : Host.Outcome State Fault Refusal :=
  conclude s (writeDest s o (s.readReg main))

/-- INC (R165); the constant 0 as operand has no meaning (U6). -/
def execInc (o : Operand) (s : State) : Host.Outcome State Fault Refusal :=
  if o.isConstantZero then .refused .ambiguousIncrement else updateOp (fun v => v + 1) o s

/-- DEC (R166). -/
def execDec (o : Operand) (s : State) : Host.Outcome State Fault Refusal :=
  if o.isConstantZero then .refused .ambiguousIncrement else updateOp (fun v => v - 1) o s

/-- ADD (R167). -/
def execAdd (main : Reg) (o : Operand) (s : State) : Host.Outcome State Fault Refusal :=
  regOp (fun r v => r + v) main o s

/-- SUB (R168). -/
def execSub (main : Reg) (o : Operand) (s : State) : Host.Outcome State Fault Refusal :=
  regOp (fun r v => r - v) main o s

/-- MUL (R169): the low 32 bits of the product. -/
def execMul (main : Reg) (o : Operand) (s : State) : Host.Outcome State Fault Refusal :=
  regOp (fun r v => r * v) main o s

/-- DIV (R170). -/
def execDiv (main : Reg) (o : Operand) (s : State) : Host.Outcome State Fault Refusal :=
  divideOp (fun r v => (r, v)) divisionOverflows (sdivWord s.cfg.rounding) main o s

/-- MOD (R171). -/
def execMod (main : Reg) (o : Operand) (s : State) : Host.Outcome State Fault Refusal :=
  divideOp (fun r v => (r, v)) divisionOverflows (smodWord s.cfg.rounding) main o s

/-- RSUB (R172). -/
def execRsub (main : Reg) (o : Operand) (s : State) : Host.Outcome State Fault Refusal :=
  regOp (fun r v => v - r) main o s

/-- RDIV (R173): the divisor is the register. -/
def execRdiv (main : Reg) (o : Operand) (s : State) : Host.Outcome State Fault Refusal :=
  divideOp (fun r v => (v, r)) divisionOverflows (sdivWord s.cfg.rounding) main o s

/-- RMOD (R174). -/
def execRmod (main : Reg) (o : Operand) (s : State) : Host.Outcome State Fault Refusal :=
  divideOp (fun r v => (v, r)) divisionOverflows (smodWord s.cfg.rounding) main o s

/-- AND (R175). -/
def execAnd (main : Reg) (o : Operand) (s : State) : Host.Outcome State Fault Refusal :=
  regOp (fun r v => r &&& v) main o s

/-- OR (R176). -/
def execOr (main : Reg) (o : Operand) (s : State) : Host.Outcome State Fault Refusal :=
  regOp (fun r v => r ||| v) main o s

/-- XOR (R177). -/
def execXor (main : Reg) (o : Operand) (s : State) : Host.Outcome State Fault Refusal :=
  regOp (fun r v => r ^^^ v) main o s

/-- NOT (R178): the old register is not used. -/
def execNot (main : Reg) (o : Operand) (s : State) : Host.Outcome State Fault Refusal :=
  regOp (fun _ v => ~~~v) main o s

/-- A shift that sets Z from the bits shifted out; a count outside 0 .. 31 leaves the flags and gives a free result (R179, R188,
U1). -/
def shiftOp (z : Word → Nat → Bool) (f : Word → Nat → Word) (main : Reg) (o : Operand) (s : State) :
    Host.Outcome State Fault Refusal :=
  conclude s do
    let v ← operandValue s o
    match bitNumber v with
    | some n => .ok ((s.setZ (z (s.readReg main) n)).writeReg main (f (s.readReg main) n))
    | none => .ok (s.put main none)

/-- SHL (R179). -/
def execShl (main : Reg) (o : Operand) (s : State) : Host.Outcome State Fault Refusal :=
  shiftOp zOfShiftLeft (fun x n => x <<< n) main o s

/-- SHR (R180): zeros come in at the left. -/
def execShr (main : Reg) (o : Operand) (s : State) : Host.Outcome State Fault Refusal :=
  shiftOp zOfShiftRight (fun x n => x >>> n) main o s

/-- COMP (R181). -/
def execComp (main : Reg) (o : Operand) (s : State) : Host.Outcome State Fault Refusal :=
  conclude s do
    let v ← operandValue s o
    .ok (s.setSignedCompare (s.readReg main) v)

/-- COMPZ (R182). -/
def execCompz (o : Operand) (s : State) : Host.Outcome State Fault Refusal :=
  conclude s do
    let v ← operandValue s o
    .ok (s.setSignedCompare v 0)

/-- TBIT (R183): Z receives the bit itself; a bit number outside 0 .. 31 gives a free Z (U2). -/
def execTbit (main : Reg) (o : Operand) (s : State) : Host.Outcome State Fault Refusal :=
  conclude s do
    let v ← operandValue s o
    match bitNumber v with
    | some n => .ok (s.setZ ((s.readReg main).getLsbD n))
    | none => .ok (s.setZ s.freeBit).drawn

/-- SBIT (R184). -/
def execSbit (main : Reg) (o : Operand) (s : State) : Host.Outcome State Fault Refusal :=
  regOpOpen (fun r v => (bitNumber v).map fun n => withBit r n true) main o s

/-- CBIT (R185). -/
def execCbit (main : Reg) (o : Operand) (s : State) : Host.Outcome State Fault Refusal :=
  regOpOpen (fun r v => (bitNumber v).map fun n => withBit r n false) main o s

end Sys2Proof.Machine
end

