-- ==== Sys2Proof/Machine/ExtInteger.lean ====
section
/-! DEFINITION. Opcodes 51, 70, 71, 76 to 78, 80 to 93, 103: extended integer, unsigned, rotate and bit-range instructions
(44_integer_ext.md). -/

namespace Sys2Proof.Machine

/-- -1, 0 or 1 (R310). -/
def signWord (v : Word) : Word := if v.msb then 0xFFFFFFFF else if v = 0 then 0 else 1

/-- SIGN (R310). -/
def execSign (main : Reg) (o : Operand) (s : State) : Host.Outcome State Fault Refusal :=
  regOp (fun _ v => signWord v) main o s

/-- FFO and FLZ (R311, R312): not found, the register is -1 and Z and N are set; found, the register is the bit's number and Z and N
are free (U26). -/
def findBitOp (find : Word → Option Nat) (main : Reg) (o : Operand) (s : State) : Host.Outcome State Fault Refusal :=
  conclude s do
    let v ← operandValue s o
    match find v with
    | none => .ok (((s.setZ true).setN true).writeReg main 0xFFFFFFFF)
    | some k => .ok (((s.setZ s.freeBit).setN (s.freeBit 1)).writeReg main (BitVec.ofNat 32 k)).drawn.drawn

/-- FFO (R311). -/
def execFfo (main : Reg) (o : Operand) (s : State) : Host.Outcome State Fault Refusal := findBitOp leftmostOne main o s

/-- FLZ (R312). -/
def execFlz (main : Reg) (o : Operand) (s : State) : Host.Outcome State Fault Refusal := findBitOp rightmostZero main o s

/-- ANDN (R313). -/
def execAndn (main : Reg) (o : Operand) (s : State) : Host.Outcome State Fault Refusal :=
  regOp (fun r v => r &&& ~~~v) main o s

/-- ORN (R314). -/
def execOrn (main : Reg) (o : Operand) (s : State) : Host.Outcome State Fault Refusal :=
  regOp (fun r v => r ||| ~~~v) main o s

/-- NEG (R315). -/
def execNeg (main : Reg) (o : Operand) (s : State) : Host.Outcome State Fault Refusal :=
  regOp (fun _ v => 0 - v) main o s

/-- ROTL (R316). -/
def execRotl (main : Reg) (o : Operand) (s : State) : Host.Outcome State Fault Refusal :=
  regOpOpen (fun r v => (bitNumber v).map fun n => rotateLeftWord r n) main o s

/-- ROTR (R317). -/
def execRotr (main : Reg) (o : Operand) (s : State) : Host.Outcome State Fault Refusal :=
  regOpOpen (fun r v => (bitNumber v).map fun n => rotateRightWord r n) main o s

/-- ASR (R318). -/
def execAsr (main : Reg) (o : Operand) (s : State) : Host.Outcome State Fault Refusal :=
  shiftOp zOfShiftRight (fun x n => x.sshiftRight n) main o s

/-- UCOMP (R319). -/
def execUcomp (main : Reg) (o : Operand) (s : State) : Host.Outcome State Fault Refusal :=
  conclude s do
    let v ← operandValue s o
    .ok (s.setUnsignedCompare (s.readReg main) v)

/-- UMUL (R320). -/
def execUmul (main : Reg) (o : Operand) (s : State) : Host.Outcome State Fault Refusal :=
  regOp (fun r v => r * v) main o s

/-- UDIV (R321). -/
def execUdiv (main : Reg) (o : Operand) (s : State) : Host.Outcome State Fault Refusal :=
  divideOp (fun r v => (r, v)) (fun _ _ => false) (fun a b => a.udiv b) main o s

/-- UMOD (R322). -/
def execUmod (main : Reg) (o : Operand) (s : State) : Host.Outcome State Fault Refusal :=
  divideOp (fun r v => (r, v)) (fun _ _ => false) (fun a b => a.umod b) main o s

/-- SEXT (R323). -/
def execSext (main : Reg) (o : Operand) (s : State) : Host.Outcome State Fault Refusal :=
  regOpOpen (fun r v => (bitNumber v).map fun k => signExtendFrom r k) main o s

/-! ### Bit ranges: the selector is in the main register, the datum is R0 (R330) -/

/-- EXBR (R331). -/
def execExbr (main : Reg) (o : Operand) (s : State) : Host.Outcome State Fault Refusal :=
  conclude s do
    let v ← operandValue s o
    .ok (s.put 0 ((bitRange (s.readReg main)).signed v))

/-- EXBRV (R332). -/
def execExbrv (main : Reg) (o : Operand) (s : State) : Host.Outcome State Fault Refusal :=
  conclude s do
    let v ← operandValue s o
    let range := bitRange (s.readReg main)
    let w ← memRead s (v + range.skip)
    .ok (s.put 0 (range.signed w))

/-- DPBR (R333): the operand is read and written. -/
def execDpbr (main : Reg) (o : Operand) (s : State) : Host.Outcome State Fault Refusal :=
  conclude s do
    checkWritable s o
    let v ← operandValue s o
    writeDestOpen s o ((bitRange (s.readReg main)).deposit v (s.readReg 0))

/-- DPBRV (R334). -/
def execDpbrv (main : Reg) (o : Operand) (s : State) : Host.Outcome State Fault Refusal :=
  conclude s do
    let v ← operandValue s o
    let range := bitRange (s.readReg main)
    let a := v + range.skip
    let w ← memRead s a
    match range.deposit w (s.readReg 0) with
    | some d => memWrite s a d
    | none => do
      let s' ← memWrite s a s.free
      .ok s'.drawn

/-- ADJS (R335). -/
def execAdjs (main : Reg) (o : Operand) (s : State) : Host.Outcome State Fault Refusal :=
  regOpOpen (adjsFunction s.cfg.adjs) main o s

/-- UEXBR (R336). -/
def execUexbr (main : Reg) (o : Operand) (s : State) : Host.Outcome State Fault Refusal :=
  conclude s do
    let v ← operandValue s o
    .ok (s.put 0 ((bitRange (s.readReg main)).unsigned v))

/-- UEXBRV (R337). -/
def execUexbrv (main : Reg) (o : Operand) (s : State) : Host.Outcome State Fault Refusal :=
  conclude s do
    let v ← operandValue s o
    let range := bitRange (s.readReg main)
    let w ← memRead s (v + range.skip)
    .ok (s.put 0 (range.unsigned w))

end Sys2Proof.Machine
end

