-- ==== Sys2Proof/Machine/Float.lean ====
section
/-! DEFINITION. The default of the parameter FP32, functions on words: IEEE 754 binary32, round to nearest even (45_float.md R340, R342, D31; entry 22). A
function answers `none` where 93_implementation_defined.md leaves the result open (U20, U32): a NaN or an infinity among the
operands, an overflow, a tie of FRND, FIX out of range. -/

namespace Sys2Proof.Machine

/-- What a word denotes, `F(w)` of R340: a finite number is `(-1)^neg * m * 2^e`. -/
inductive FloatValue where
  | nan
  | infinity (neg : Bool)
  | finite (neg : Bool) (m : Nat) (e : Int)
deriving DecidableEq, Repr

def floatExponent (w : Word) : Nat := (w.extractLsb' 23 8).toNat
def floatFraction (w : Word) : Nat := (w.extractLsb' 0 23).toNat

/-- `F(w)` (R340). -/
def floatValue (w : Word) : FloatValue :=
  if floatExponent w = 255 then if floatFraction w = 0 then .infinity w.msb else .nan
  else if floatExponent w = 0 then .finite w.msb (floatFraction w) (-149)
  else .finite w.msb (floatFraction w + 2 ^ 23) (floatExponent w - 150)

/-- A proper float: neither an infinity nor a NaN (R369). -/
def floatProper (w : Word) : Bool := floatExponent w != 255

/-- `F(w) = 0`: either zero (R355). -/
def floatZero (w : Word) : Bool := w &&& 0x7FFFFFFF#32 == 0

/-- Where `F(w)` stands in the order of the numbers and infinities; none for a NaN. The two zeros stand together (R354). -/
def floatRank (w : Word) : Option Int :=
  match floatValue w with
  | .nan => none
  | _ => some (if w.msb then -(w &&& 0x7FFFFFFF#32).toNat else (w &&& 0x7FFFFFFF#32).toNat)

/-- `F(w) < 0`: false of a NaN and of -0.0 (R344, R355). -/
def floatNegative (w : Word) : Bool :=
  match floatRank w with
  | some k => decide (k < 0)
  | none => false

/-- `m / 2^k` rounded to the nearest integer, a tie to the even one. -/
def shiftRightNearestEven (m k : Nat) : Nat :=
  let q := m >>> k
  let r := m % 2 ^ k
  if 2 * r < 2 ^ k then q else if 2 ^ k < 2 * r then q + 1 else q + q % 2

/-- `R((-1)^neg * m * 2^e)`: the nearest binary32, subnormals included; none on overflow (R340, R342, U20). -/
def roundFloat (neg : Bool) (m : Nat) (e : Int) : Option Word :=
  let sign := if neg then 0x80000000#32 else 0#32
  if m = 0 then some sign
  else
    let quantum : Int := max (m.log2 + e - 23) (-149)
    let n := if e < quantum then shiftRightNearestEven m (quantum - e).toNat else m <<< (e - quantum).toNat
    let bits := n + (quantum + 149).toNat * 2 ^ 23
    if bits < 255 * 2 ^ 23 then some (sign ||| BitVec.ofNat 32 bits) else none

/-- A signed integer times a power of two, rounded; a zero sum has the sign given. -/
def roundSigned (zeroNeg : Bool) (n e : Int) : Option Word :=
  if n = 0 then roundFloat zeroNeg 0 0 else roundFloat (decide (n < 0)) n.natAbs e

def signedNat (neg : Bool) (m : Nat) : Int := if neg then -(m : Int) else m

/-- fadd (R342, R350). -/
def fadd (a b : Word) : Option Word :=
  match floatValue a, floatValue b with
  | .finite s1 m1 e1, .finite s2 m2 e2 =>
    let e := min e1 e2
    roundSigned (s1 && s2) (signedNat s1 (m1 <<< (e1 - e).toNat) + signedNat s2 (m2 <<< (e2 - e).toNat)) e
  | _, _ => none

/-- fsub (R342, R351). -/
def fsub (a b : Word) : Option Word := fadd a (b ^^^ 0x80000000#32)

/-- fmul (R342, R352). -/
def fmul (a b : Word) : Option Word :=
  match floatValue a, floatValue b with
  | .finite s1 m1 e1, .finite s2 m2 e2 => roundFloat (s1 ^^ s2) (m1 * m2) (e1 + e2)
  | _, _ => none

/-- fdiv for a divisor that is not zero (R342, R353): 60 more bits of quotient, the last bit telling whether more follow. -/
def fdiv (a b : Word) : Option Word :=
  match floatValue a, floatValue b with
  | .finite s1 m1 e1, .finite s2 m2 e2 =>
    let n := m1 <<< 60
    roundFloat (s1 ^^ s2) (2 * (n / m2) + (if n % m2 = 0 then 0 else 1)) (e1 - e2 - 61)
  | _, _ => none

/-- The integer square root, bit by bit from bit k - 1. -/
def rootFrom (m r : Nat) : Nat → Nat
  | 0 => r
  | k + 1 => rootFrom m (if (r + 2 ^ k) * (r + 2 ^ k) ≤ m then r + 2 ^ k else r) k

/-- fsqrt of a number that is not negative (R342, R361). -/
def fsqrt (a : Word) : Option Word :=
  match floatValue a with
  | .finite s m e =>
    if m = 0 then roundFloat s 0 0
    else
      let odd := (e % 2).toNat
      let n := m <<< (60 + odd)
      let r := rootFrom n 0 43
      roundFloat false (2 * r + (if r * r = n then 0 else 1)) ((e - 60 - odd) / 2 - 1)
  | _ => none

/-- ffloat (R358). -/
def ffloat (v : Word) : Option Word := roundSigned false v.toInt 0

/-- ffix (R356): the fraction dropped; none outside the signed range. -/
def ffix (a : Word) : Option Word :=
  match floatValue a with
  | .finite s m e =>
    let n := signedNat s (if e < 0 then m >>> (-e).toNat else m <<< e.toNat)
    if -2 ^ 31 ≤ n ∧ n < 2 ^ 31 then some (BitVec.ofInt 32 n) else none
  | _ => none

/-- frnd (R357): none on a tie (U20) and for a number outside the range of a signed word (U32). -/
def frnd (a : Word) : Option Word :=
  match floatValue a with
  | .finite s m e =>
    if 0 ≤ e then if (ffix a).isSome then some a else none
    else
      let d := 2 ^ (-e).toNat
      if 2 * (m % d) < d then roundFloat s (m / d) 0
      else if d < 2 * (m % d) then roundFloat s (m / d + 1) 0
      else none
  | _ => none

/-- ffloor (R366). -/
def ffloor (a : Word) : Option Word :=
  match floatValue a with
  | .finite s m e =>
    if 0 ≤ e then some a
    else
      let d := 2 ^ (-e).toNat
      roundFloat s (if s then (m + d - 1) / d else m / d) 0
  | _ => none

/-- The word 1.0. -/
def floatOne : Word := 0x3F800000

/-- fln (R359): the special value, the logarithm uninterpreted, none where U20 leaves it open. -/
def fln (r : Word) : Option Word :=
  if !floatProper r || floatZero r then none else some (if r = floatOne then 0 else Config.fln r)

/-- flogb: base, argument (R359). -/
def flogb (base r : Word) : Option Word :=
  if !floatProper r || !floatProper base || floatZero r || base == floatOne then none else some (Config.flogb base r)

/-- fexp (R360). -/
def fexp (r : Word) : Option Word :=
  if !floatProper r then none else some (if r = 0 then floatOne else Config.fexp r)

/-- fpow: base, exponent (R360); none for a negative base. -/
def fpow (base r : Word) : Option Word :=
  if !floatProper r || !floatProper base || floatNegative base then none else some (Config.fpow base r)

/-- FSIN (R362). -/
def fsin (v : Word) : Option Word :=
  if !floatProper v then none else some (if v = 0 then 0 else Config.fsin v)

/-- FCOS (R363). -/
def fcos (v : Word) : Option Word :=
  if !floatProper v then none else some (if v = 0 then floatOne else Config.fcos v)

/-- FATAN (R364). -/
def fatan (v : Word) : Option Word :=
  if !floatProper v then none else some (if v = 0 then 0 else Config.fatan v)

/-- FABS (R365): none for a NaN and for -0.0. -/
def fabs (v : Word) : Option Word :=
  if floatValue v = .nan ∨ v = 0x80000000#32 then none else some (v &&& 0x7FFFFFFF#32)

/-- FNEG (R368). -/
def fneg (v : Word) : Option Word :=
  if floatValue v = .nan then none else some (v ^^^ 0x80000000#32)

/-- FSIGN (R367): an integer. -/
def fsign (v : Word) : Option Word :=
  (floatRank v).map fun k => if k < 0 then 0xFFFFFFFF else if k = 0 then 0 else 1

/-- A comparison: none with a NaN (R354, U20). -/
def forder (a b : Word) : Option Ordering :=
  match floatRank a, floatRank b with
  | some x, some y => some (compare x y)
  | _, _ => none

/-- The default of FP32 (R6, R342). -/
def binary32 : Fp32 :=
  { add := fadd, sub := fsub, mul := fmul, div := fdiv, sqrt := fsqrt, fix := ffix, float := ffloat, round := frnd, floor := ffloor
    ln := fln, logb := flogb, exp := fexp, pow := fpow, sin := fsin, cos := fcos, atan := fatan
    order := forder, good := floatProper }

/-- The functions a configuration names (R6). -/
def fp32 : FloatFunctions → Fp32
  | .binary32 => binary32
  | .other => Config.otherFp32

/-- `F(w) = 0` (R345, R355, R359). -/
def isZero (f : Fp32) (w : Word) : Bool := f.order w 0 == some .eq

/-- `F(w) < 0` (R344, R355). -/
def isNegative (f : Fp32) (w : Word) : Bool := f.order w 0 == some .lt

/-- FRND gave zero for a negative number: the sign of that zero is not stated (R357; entry 23). Of a zero, R343 states it. -/
def zeroSignOpen (v result : Word) : Bool := v.msb && !floatZero v && floatZero result

end Sys2Proof.Machine
end

