-- ==== Sys2Proof/Machine/FloatOps.lean ====
section
/-! DEFINITION. Opcodes 52 to 69, 79, 107 (45_float.md). No arithmetic instruction here changes a flag (R346). -/

namespace Sys2Proof.Machine

/-- The functions of FP32 the configuration names (R6). -/
def State.fp32 (s : State) : Fp32 := Machine.fp32 s.cfg.fp32

/-- FADD (R350). -/
def execFadd (main : Reg) (o : Operand) (s : State) : Host.Outcome State Fault Refusal := regOpOpen s.fp32.add main o s

/-- FSUB (R351). -/
def execFsub (main : Reg) (o : Operand) (s : State) : Host.Outcome State Fault Refusal := regOpOpen s.fp32.sub main o s

/-- FMUL (R352). -/
def execFmul (main : Reg) (o : Operand) (s : State) : Host.Outcome State Fault Refusal := regOpOpen s.fp32.mul main o s

/-- FDIV (R353). By a zero it either raises DIVZERO or has some result, and nothing says which (R345, U37; entry 24). -/
def execFdiv (main : Reg) (o : Operand) (s : State) : Host.Outcome State Fault Refusal :=
  conclude s do
    let v ← operandValue s o
    let r := s.readReg main
    if isZero s.fp32 v then
      if Config.fdivZeroTraps r v then raise .divzero (some s.this)
      else .ok (s.writeReg main (Config.fdivByZero r v))
    else .ok (s.put main (s.fp32.div r v))

/-- Z and N of a floating comparison; both free when either side is a NaN (R354, U20). -/
def State.setFloatCompare (s : State) (a b : Word) : State :=
  match s.fp32.order a b with
  | some r => (s.setZ (r == .eq)).setN (r == .lt)
  | none => ((s.setZ s.freeBit).setN (s.freeBit 1)).drawn.drawn

/-- FCOMP (R354). -/
def execFcomp (main : Reg) (o : Operand) (s : State) : Host.Outcome State Fault Refusal :=
  conclude s do
    let v ← operandValue s o
    .ok (s.setFloatCompare (s.readReg main) v)

/-- FCOMPZ (R355). -/
def execFcompz (o : Operand) (s : State) : Host.Outcome State Fault Refusal :=
  conclude s do
    let v ← operandValue s o
    .ok (s.setFloatCompare v 0)

/-- FIX (R356). -/
def execFix (main : Reg) (o : Operand) (s : State) : Host.Outcome State Fault Refusal :=
  regOpOpen (fun _ v => s.fp32.fix v) main o s

/-- FRND (R357); the sign of a zero made from a negative number is free (entry 23). -/
def execFrnd (main : Reg) (o : Operand) (s : State) : Host.Outcome State Fault Refusal :=
  conclude s do
    let v ← operandValue s o
    match s.fp32.round v with
    | some w =>
      if zeroSignOpen v w then .ok (s.writeReg main (if s.freeBit then 0x80000000 else 0)).drawn
      else .ok (s.writeReg main w)
    | none => .ok (s.put main none)

/-- FLOAT (R358): `value` is a signed integer. -/
def execFloat (main : Reg) (o : Operand) (s : State) : Host.Outcome State Fault Refusal :=
  regOpOpen (fun _ v => s.fp32.float v) main o s

/-- FLOG (R359, R344): FLTNEG has no address and no information stated. -/
def execFlog (main : Reg) (o : Operand) (s : State) : Host.Outcome State Fault Refusal :=
  conclude s do
    let v ← operandValue s o
    let r := s.readReg main
    if isNegative s.fp32 r || isNegative s.fp32 v then raise .fltneg none
    else .ok (s.put main (if isZero s.fp32 v then s.fp32.ln r else s.fp32.logb v r))

/-- FEXP (R360). -/
def execFexp (main : Reg) (o : Operand) (s : State) : Host.Outcome State Fault Refusal :=
  regOpOpen (fun r v => if isZero s.fp32 v then s.fp32.exp r else s.fp32.pow v r) main o s

/-- FSQRT (R361, R344). -/
def execFsqrt (main : Reg) (o : Operand) (s : State) : Host.Outcome State Fault Refusal :=
  conclude s do
    let v ← operandValue s o
    if isNegative s.fp32 v then raise .fltneg none
    else .ok (s.put main (s.fp32.sqrt v))

/-- FSIN (R362). -/
def execFsin (main : Reg) (o : Operand) (s : State) : Host.Outcome State Fault Refusal :=
  regOpOpen (fun _ v => s.fp32.sin v) main o s

/-- FCOS (R363). -/
def execFcos (main : Reg) (o : Operand) (s : State) : Host.Outcome State Fault Refusal :=
  regOpOpen (fun _ v => s.fp32.cos v) main o s

/-- FATAN (R364). -/
def execFatan (main : Reg) (o : Operand) (s : State) : Host.Outcome State Fault Refusal :=
  regOpOpen (fun _ v => s.fp32.atan v) main o s

/-- FABS (R365). -/
def execFabs (main : Reg) (o : Operand) (s : State) : Host.Outcome State Fault Refusal :=
  regOpOpen (fun _ v => fabs v) main o s

/-- FLOOR (R366). -/
def execFloor (main : Reg) (o : Operand) (s : State) : Host.Outcome State Fault Refusal :=
  regOpOpen (fun _ v => s.fp32.floor v) main o s

/-- FSIGN (R367). -/
def execFsign (main : Reg) (o : Operand) (s : State) : Host.Outcome State Fault Refusal :=
  regOpOpen (fun _ v => fsign v) main o s

/-- FNEG (R368). -/
def execFneg (main : Reg) (o : Operand) (s : State) : Host.Outcome State Fault Refusal :=
  regOpOpen (fun _ v => fneg v) main o s

/-- FGOOD (R369): Z only. -/
def execFgood (o : Operand) (s : State) : Host.Outcome State Fault Refusal :=
  conclude s do
    let v ← operandValue s o
    .ok (s.setZ (s.fp32.good v))

end Sys2Proof.Machine
end

