-- ==== Sys2Proof/Machine/System.lean ====
section
/-! DEFINITION. Opcodes 42, 43, 46 to 49, 72 to 75, 94, 100, 102, 104, 127: system, physical memory, console (42_system.md). -/

namespace Sys2Proof.Machine

/-- A host event, the newest at the end (R528). -/
def State.emit (s : State) (e : HostEvent) : State := { s with events := s.events ++ [e] }

/-- PAUSE (R250): in a model without time, the operand evaluated and nothing else (entry 50). -/
def execPause (o : Operand) (s : State) : Host.Outcome State Fault Refusal :=
  conclude s do
    let _ ← operandValue s o
    .ok s

/-- BREAK (R251, R61): the run ends in the debugger. -/
def execBreakpoint (s : State) : Host.Outcome State Fault Refusal :=
  .next (s.emit (.breakEntered s.this)).enterDebugger

/-- ATAS (R252): the destination is checked before the register changes; with a register operand the 1 is written last. -/
def execAtas (main : Reg) (o : Operand) (s : State) : Host.Outcome State Fault Refusal :=
  conclude s do
    checkWritable s o
    let v ← operandValue s o
    if o.indirect then do
      let s' ← memWrite s (operandTotal s o) 1
      .ok (s'.writeReg main v)
    else .ok ((s.writeReg main v).writeReg o.index 1)

/-- PHLOAD (R253). -/
def execPhload (main : Reg) (o : Operand) (s : State) : Host.Outcome State Fault Refusal :=
  conclude s <| privileged s do
    let v ← operandValue s o
    let w ← physRead s v
    .ok (s.writeReg main w)

/-- PHSTORE (R254): the operand's value is the physical address. -/
def execPhstore (main : Reg) (o : Operand) (s : State) : Host.Outcome State Fault Refusal :=
  conclude s <| privileged s do
    let v ← operandValue s o
    physWrite s v (s.readReg main)

/-- VTRAN (R255): the walk whatever VM is; no next state when it fails (U18). -/
def execVtran (main : Reg) (o : Operand) (s : State) : Host.Outcome State Fault Refusal :=
  conclude s do
    let v ← operandValue s o
    match pageWalk s v with
    | .ok p => .ok (s.writeReg main p)
    | .error (.refused r) => refuse r
    | .error _ => .error (.fault .translationFailed)

/-- The zeroing of a page from a physical address upward, as many words as asked: what was done, and what stopped it (R256). -/
def clearWords (s : State) (p : Word) : Nat → State × Option Stop
  | 0 => (s, none)
  | n + 1 =>
    match physWrite s p 0 with
    | .ok s' => clearWords s' (p + 1) n
    | .error e => (s, some e)

/-- The words of a page that MEMORY stopped at word `n`: each of the first n zeroed or not, a free choice per word (U29). -/
def clearSomeWords (s : State) (p : Word) : Nat → State
  | 0 => s
  | n + 1 => clearSomeWords (if s.freeBit then (s.poke p 0).drawn else s.drawn) (p + 1) n

/-- How many words from `p` upward exist, up to a limit. -/
def existingRun (c : Config) (p : Word) : Nat → Nat
  | 0 => 0
  | n + 1 => if memExists c p then existingRun c (p + 1) n + 1 else 0

/-- CLRPP (R256, D49). A page only partly there raises MEMORY with its first missing address, each word before it zeroed or not, watched
or not (U29; DEDUCED, entry 37). In a page that is there a WATCH hit keeps the words before it zeroed (R471). -/
def execClrpp (o : Operand) (s : State) : Host.Outcome State Fault Refusal :=
  if !s.flags.sys then conclude s (raise .privop (some s.this))
  else
    match operandValue s o with
    | .error e => conclude s (.error e)
    | .ok v =>
      if !memExists s.cfg v then conclude s (raise .memory (some v))
      else
        let base := v &&& 0xFFFFF800#32
        let present := existingRun s.cfg base 2048
        if present < 2048 then
          stopOutcome (clearSomeWords s base present) s.faultPc (.raised ⟨.memory, some (base + BitVec.ofNat 32 present), none⟩)
        else
          match clearWords s base 2048 with
          | (s', none) => .next s'
          | (s', some e) => stopOutcome s' s.faultPc e

/-- Words written at rising logical addresses. -/
def storeWords (s : State) (a : Word) : List Word → Res State
  | [] => .ok s
  | v :: vs => do
    let s' ← memWrite s a v
    storeWords s' (a + 1) vs

/-- What PMEMR reports: the load area, then every area that exists, as first and last addresses (R257). -/
def memoryReport (c : Config) : List Word :=
  [c.loadArea.first, c.loadArea.last] ++ c.memAreas.flatMap fun a => [a.first, a.last]

/-- PMEMR (R257). With an odd or negative count the number of pairs written and the register's result are free (U21). -/
def execPmemr (main : Reg) (o : Operand) (s : State) : Host.Outcome State Fault Refusal :=
  if o.isRegister then .refused .pmemrRegisterOperand
  else conclude s do
    checkWritable s o
    let report := memoryReport s.cfg
    let n := s.readReg main
    if n.toNat % 2 = 0 ∧ !n.msb then do
      let s' ← storeWords s (operandTotal s o) (report.take n.toNat)
      .ok (s'.writeReg main (BitVec.ofNat 32 report.length))
    else do
      let pairs := s.freeUpTo (min ((n.toNat + 1) / 2) (report.length / 2))
      let s' ← storeWords s (operandTotal s o) (report.take (2 * pairs))
      .ok (s'.writeReg main (s.free 1)).drawn.drawn

/-- NOP (R258). -/
def execNop (s : State) : Host.Outcome State Fault Refusal := .next s

/-- INTR (R259): the interrupt is raised with the register as its address and the next instruction as its return address; ignored,
the instruction is a NOP (R461). Code 12 at IPL 12 is delivered as PAGEFAULT2, as R460 step 1 has it, although R259 calls a code not
above IPL ignored: DEDUCED (entry 53). Codes 2 and 3, TIMER and KEYBD, while INT = 0 or INTVEC = 0 make it a NOP, as R460 step 3 and R462
have it, although R259 says that INTR then stops the program: DEDUCED (entry 55). -/
def execIntr (main : Reg) (o : Operand) (s : State) : Host.Outcome State Fault Refusal :=
  match operandValue s o with
  | .error e => conclude s (.error e)
  | .ok c =>
    match interruptOfCode c.toNat with
    | none => .refused .undefinedInterruptCode
    | some code =>
      match deliver s ⟨code, some (s.readReg main), none⟩ s.pc with
      | .taken s' => .next s'
      | .ignored => .next s
      | .dropped => .next s
      | .refused r => .refused r

/-- A free positive number, 1 .. 0x7FFFFFFF (R260, D43). -/
def randomPositive (w : Word) : Word := if w &&& 0x7FFFFFFF#32 = 0 then 1 else w &&& 0x7FFFFFFF#32

/-- RAND (R260). -/
def execRand (main : Reg) (s : State) : Host.Outcome State Fault Refusal :=
  .next (s.writeReg main (randomPositive s.free)).drawn

/-- TRACE (R261): the address of this instruction, the register and the value go to the console. -/
def execTrace (main : Reg) (o : Operand) (s : State) : Host.Outcome State Fault Refusal :=
  conclude s do
    let v ← operandValue s o
    .ok (s.emit (.trace s.this (s.readReg main) v))

/-- TYPE (R262): the event carries the whole word (U34). -/
def execType (o : Operand) (s : State) : Host.Outcome State Fault Refusal :=
  conclude s do
    let v ← operandValue s o
    .ok (s.emit (.consoleOut v))

/-- INCH (R263): -1 when the keyboard buffer is empty; a character leaves the buffer only if its destination can be written. -/
def execInch (o : Operand) (s : State) : Host.Outcome State Fault Refusal :=
  conclude s do
    checkWritable s o
    match s.keyboard with
    | [] => writeDest s o 0xFFFFFFFF
    | c :: rest => do
      let s' ← writeDest s o (c.setWidth 32)
      .ok { s' with keyboard := rest }

/-- NALT (R264): same as HALT. -/
def execNalt (s : State) : Host.Outcome State Fault Refusal := haltOp s

end Sys2Proof.Machine
end

