-- ==== Sys2Proof/Machine/Peri.lean ====
section
/-! DEFINITION. PERI, opcode 40, and its 21 operations (46_peri_io.md). What the host decides (DEVFAILED, NOTFOUND, file contents,
times, addresses) is a free value (R394, U23, U35). -/

namespace Sys2Proof.Machine

/-! ### Error codes (R393) -/

def errBadCode : Word := 0xFFFFFFFF
def errReadParams : Word := 0xFFFFFFFE
def errDevNumber : Word := 0xFFFFFFFD
def errPosition : Word := 0xFFFFFFFC
def errMemory : Word := 0xFFFFFFFB
def errDevFailed : Word := 0xFFFFFFFA
def errNotFound : Word := 0xFFFFFFF9
def errBadParam : Word := 0xFFFFFFF8
def errInUse : Word := 0xFFFFFFF7
def errNoData : Word := 0xFFFFFFF5

/-- What an operation does: it ends with a value or with an error code, and leaves a state either way. -/
abbrev Io (α : Type) := ExceptT Word (StateM State) α

/-! ### Memory access by the device side (R391): no watch-point check, no interrupt -/

/-- Where IoRead and IoWrite go; none if the access cannot be made (R391). -/
def ioTarget (s : State) (a : Word) : Option Word :=
  match translateAddress s a with
  | .ok p => if memExists s.cfg p then some p else none
  | .error _ => none

/-- IoRead (R391). -/
def ioRead (err a : Word) : Io Word := do
  let s ← get
  match ioTarget s a with
  | some p => pure (s.mem.readWord p)
  | none => throw err

/-- As many words as asked, from `a` upward. -/
def ioReadWords (err a : Word) : Nat → Io (List Word)
  | 0 => pure []
  | n + 1 => do
    let w ← ioRead err a
    let ws ← ioReadWords err (a + 1) n
    pure (w :: ws)

/-- IoWrite of words at rising addresses; none if one of them cannot be written. -/
def ioPutWords (s : State) (a : Word) : List Word → Option State
  | [] => some s
  | v :: vs =>
    match ioTarget s a with
    | some p => ioPutWords (s.poke p v) (a + 1) vs
    | none => none

/-- A transfer that fails part-way: each word before the failing one is old or new, a free choice (R391, U22; entry 28). `full` is the
state with all of them, in which the addresses are found. -/
def ioKeepSome (kept full : State) (a : Word) : List Word → State
  | [] => kept
  | v :: vs =>
    match ioTarget full a with
    | some p => ioKeepSome (if kept.freeBit then (kept.poke p v).drawn else kept.drawn) (full.poke p v) (a + 1) vs
    | none => kept

/-- Two buffers of one operation transferred in part: the words of the first, and those of the second before a failing one, are each
old or new (R391, U22; entry 28). -/
def ioKeepSomeOfTwo (s : State) (a b : Word) (vs ws : List Word) : State :=
  match ioPutWords s a vs with
  | some full => ioKeepSome (ioKeepSome s s a vs) full b ws
  | none => ioKeepSome s s a vs

/-- IoWrite of a buffer and then of another, and whether the device fails at that (R416). -/
def ioWriteTwo (failed : Bool) (a b : Word) (vs ws : List Word) : Io Unit := do
  let s ← get
  match (ioPutWords s a vs).bind fun s' => ioPutWords s' b ws with
  | some s' =>
    if failed then do
      set (ioKeepSomeOfTwo s a b vs ws)
      throw errDevFailed
    else set s'
  | none => do
    set (ioKeepSomeOfTwo s a b vs ws)
    throw errMemory

/-- IoWrite of a buffer. -/
def ioWriteWords (err a : Word) (vs : List Word) : Io Unit := do
  let s ← get
  match ioPutWords s a vs with
  | some s' => set s'
  | none => do
    set (ioKeepSome s s a vs)
    throw err

/-! ### Bytes in words (R395) -/

/-- The four characters of a word, the first in its least significant bits. -/
def charsOf (w : Word) : List Byte := [charOf w 0, charOf w 1, charOf w 2, charOf w 3]

/-- Bytes packed four to a word; the bytes of the last word that no datum fills are those of `pad`. -/
def packBytes (pad : Word) : List Byte → List Word
  | [] => []
  | [a] => [withChar pad 0 a]
  | [a, b] => [withChar (withChar pad 0 a) 1 b]
  | [a, b, c] => [withChar (withChar (withChar pad 0 a) 1 b) 2 c]
  | a :: b :: c :: d :: rest => (d ++ c ++ b ++ a) :: packBytes pad rest

/-- The bytes of as many words as asked, and whether all of them could be read. -/
def ioBytes (s : State) (a : Word) : Nat → List Byte × Bool
  | 0 => ([], true)
  | n + 1 =>
    match ioTarget s a with
    | none => ([], false)
    | some p => (charsOf (s.mem.readWord p) ++ (ioBytes s (a + 1) n).1, (ioBytes s (a + 1) n).2)

/-- The characters of a packed string before its first zero, looked for in as many words as asked, and whether that zero was reached. -/
def ioString (s : State) (a : Word) : Nat → List Byte × Bool
  | 0 => ([], false)
  | n + 1 =>
    match ioTarget s a with
    | none => ([], false)
    | some p =>
      let cs := charsOf (s.mem.readWord p)
      if cs.contains 0 then (cs.takeWhile (· != 0), true)
      else (cs ++ (ioString s (a + 1) n).1, (ioString s (a + 1) n).2)

/-- How many words there are to look through for the end of a string (entry 35). -/
def addressSpaceWords : Nat := 2 ^ 32

/-- A packed string that ends at its first zero character (R406). -/
def ioReadString (a : Word) : Io (List Byte) := do
  let s ← get
  match ioString s a addressSpaceWords with
  | (cs, true) => pure cs
  | (_, false) => throw errMemory

/-- So many bytes of a buffer. -/
def ioReadBytes (a : Word) (n : Nat) : Io (List Byte) := do
  let s ← get
  match ioBytes s a ((n + 3) / 4) with
  | (bs, true) => pure (bs.take n)
  | (_, false) => throw errMemory

/-! ### Draws -/

def drawWord : Io Word := do
  let s ← get
  set s.drawn
  pure s.free

def drawBit : Io Bool := do
  let w ← drawWord
  pure (w.getLsbD 0)

/-- A free number in 0 .. n. -/
def drawUpTo (n : Nat) : Io Nat := do
  let w ← drawWord
  pure (w.toNat % (n + 1))

/-- A free word that is not negative: a successful result the source does not state (U23). -/
def drawNonNegative : Io Word := do
  let w ← drawWord
  pure (w &&& 0x7FFFFFFF#32)

def drawWords : Nat → Io (List Word)
  | 0 => pure []
  | n + 1 => do
    let w ← drawWord
    let ws ← drawWords n
    pure (w :: ws)

/-- A count as a result. One of 2^31 and more does not fit a result that is not negative, and the source says nothing of it: a free such
word (R393; entry 54). -/
def ioCount (n : Nat) : Io Word :=
  if n < 2 ^ 31 then pure (BitVec.ofNat 32 n) else drawNonNegative

def drawBytes : Io (List Byte) := do
  let s ← get
  set s.drawn
  pure (Config.freeBytes s.draws)

/-- The host decides whether an operation ends with this error (R393: DEVFAILED and NOTFOUND are draws). -/
def mayFail (err : Word) : Io Unit := do
  if ← drawBit then throw err

/-! ### Units (R394) -/

/-- The unit a number names, numbers counting from 1. -/
def unitIndex (n u : Nat) : Option (Fin n) :=
  if h : 1 ≤ u ∧ u ≤ n then some ⟨u - 1, by omega⟩ else none

/-- The unit, or DEVNUMBER. -/
def ioUnit (n : Nat) (u : Word) : Io (Fin n) :=
  match unitIndex n u.toNat with
  | some i => pure i
  | none => throw errDevNumber

/-- What is there, or an error. -/
def ioPresent {α : Type} (err : Word) : Option α → Io α
  | some x => pure x
  | none => throw err

def State.setDisc (s : State) (i : Fin 8) (d : Option Disc) : State := { s with discs := s.discs.set i d }
def State.setTape (s : State) (i : Fin 8) (t : Option Tape) : State := { s with tapes := s.tapes.set i t }
def State.setNet (s : State) (i : Fin 2) (u : Option NetUnit) : State := { s with nets := s.nets.set i u }

/-- Word k of the control structure (R392); READPARAMS if it cannot be read. -/
def param (c : Word) (k : Word) : Io Word := ioRead errReadParams (c + k)

/-! ### Discs (R400 to R403) -/

/-- The 128 words of a block from a list of as many. -/
def blockOf (ws : List Word) : Vector Word 128 := Vector.ofFn fun k => ws.getD k.val 0

/-- A block of free words. -/
def drawBlock : Io (Vector Word 128) := do
  let ws ← drawWords 128
  pure (blockOf ws)

/-- The words of a block: what was written, zeros after an erasure, else free (R394, R403, U23). -/
def Disc.blockWords (d : Disc) (n : Nat) : Io (Vector Word 128) :=
  match d.blocks.find? (fun b => b.1 == n) with
  | some b => pure b.2
  | none => if d.erased then pure (Vector.replicate 128 0) else drawBlock

def Disc.withBlock (d : Disc) (n : Nat) (ws : Vector Word 128) : Disc :=
  { d with blocks := (n, ws) :: d.blocks.filter fun b => b.1 != n }

/-- The number of an existing block, or POSITION (R401). -/
def Disc.blockNumber (d : Disc) (b : Word) : Io Nat :=
  if 0 ≤ b.toInt ∧ b.toInt < d.size then pure b.toNat else throw errPosition

/-- DISCCHECK (R400). -/
def discCheck (c : Word) : Io Word := do
  let u ← param c 1
  let i ← ioUnit 8 u
  let s ← get
  match s.discs[i] with
  | some d => ioCount d.size
  | none => pure 0

/-- DISCREAD (R401). -/
def discRead (c : Word) : Io Word := do
  let u ← param c 1
  let b ← param c 2
  let a ← param c 3
  let i ← ioUnit 8 u
  let s ← get
  let d ← ioPresent errDevNumber s.discs[i]
  let n ← d.blockNumber b
  let ws ← d.blockWords n
  ioWriteWords errMemory a ws.toList
  pure 1

/-- The words of a buffer, or none if one of them cannot be read. -/
def ioWordsAt (s : State) (a : Word) : Nat → Option (List Word)
  | 0 => some []
  | n + 1 =>
    match ioTarget s a, ioWordsAt s (a + 1) n with
    | some p, some ws => some (s.mem.readWord p :: ws)
    | _, _ => none

/-- DISCWRITE (R402). After a failure of memory or of the device the block holds free words (R391; entry 34). -/
def discWrite (c : Word) : Io Word := do
  let u ← param c 1
  let b ← param c 2
  let a ← param c 3
  let i ← ioUnit 8 u
  let s ← get
  let d ← ioPresent errDevNumber s.discs[i]
  let n ← d.blockNumber b
  match ioWordsAt s a 128 with
  | none => do
    let rest ← drawBlock
    modify fun s => s.setDisc i (some (d.withBlock n rest))
    throw errMemory
  | some ws =>
    if ← drawBit then do
      let rest ← drawBlock
      modify fun s => s.setDisc i (some (d.withBlock n rest))
      throw errDevFailed
    else do
      modify fun s => s.setDisc i (some (d.withBlock n (blockOf ws)))
      pure 1

/-- DISCCLEAR (R403). After a failure of the device every block is free (entry 34). -/
def discClear (c : Word) : Io Word := do
  let u ← param c 1
  let i ← ioUnit 8 u
  let s ← get
  let d ← ioPresent errDevNumber s.discs[i]
  if ← drawBit then do
    modify fun s => s.setDisc i (some { d with erased := false, blocks := [] })
    throw errDevFailed
  else do
    modify fun s => s.setDisc i (some { d with erased := true, blocks := [] })
    drawNonNegative

/-! ### Magnetic tape (R404 to R411) -/

/-- 'R' and 'W' (R404). -/
def TapeMode.code : TapeMode → Word
  | .read => 82
  | .write => 87

/-- A tape block is 512 bytes (R394). -/
def tapeBlockBytes : Nat := 512

/-- TAPECHECK (R404). -/
def tapeCheck (c : Word) : Io Word := do
  let u ← param c 1
  let i ← ioUnit 8 u
  let s ← get
  match s.tapes[i] with
  | some t => pure t.mode.code
  | none => pure 0

/-- TAPEREWIND (R405); an unloaded unit is not available (entry 32). -/
def tapeRewind (c : Word) : Io Word := do
  let u ← param c 1
  let i ← ioUnit 8 u
  let s ← get
  let t ← ioPresent errDevNumber s.tapes[i]
  modify fun s => s.setTape i (some { t with position := 0 })
  pure 1

/-- The mode word of TAPELOAD, or BADPARAM (R406). -/
def tapeMode (w : Word) : Io TapeMode :=
  if w = 82 then pure .read else if w = 87 then pure .write else throw errBadParam

/-- TAPELOAD (R406). Whether a unit that is loaded already counts as available is free, and one that fails leaves the unit as it was, the
old tape in it: DESIGN CHOICE (entry 32). -/
def tapeLoad (c : Word) : Io Word := do
  let u ← param c 1
  let a ← param c 2
  let m ← param c 3
  let i ← ioUnit 8 u
  let s ← get
  if s.tapes[i].isSome then mayFail errDevNumber
  let name ← ioReadString a
  mayFail errNotFound
  let mode ← tapeMode m
  let contents ← drawBytes
  modify fun s => s.setTape i (some { mode := mode, name := name, contents := contents, position := 0 })
  pure 1

/-- TAPELENGTH (R407). -/
def tapeLength (c : Word) : Io Word := do
  let u ← param c 1
  let i ← ioUnit 8 u
  let s ← get
  let t ← ioPresent errNotFound s.tapes[i]
  mayFail errNotFound
  ioCount t.contents.length

/-- TAPEUNLOAD (R408). -/
def tapeUnload (c : Word) : Io Word := do
  let u ← param c 1
  let i ← ioUnit 8 u
  let s ← get
  let _ ← ioPresent errNotFound s.tapes[i]
  modify fun s => s.setTape i none
  pure 1

/-- The bytes a TAPEREAD transfers: up to a block from the position (R409). -/
def Tape.nextBytes (t : Tape) : List Byte := (t.contents.drop t.position).take tapeBlockBytes

/-- TAPEREAD (R409). How far a failed transfer moves the tape is free, and whether a tape loaded for writing can be read (entry 32). -/
def tapeRead (c : Word) : Io Word := do
  let u ← param c 1
  let a ← param c 2
  let i ← ioUnit 8 u
  let s ← get
  let t ← ioPresent errDevNumber s.tapes[i]
  if t.mode = .write then mayFail errDevNumber
  let data := t.nextBytes
  let pad ← drawWord
  let moved ← drawUpTo data.length
  modify fun s => s.setTape i (some { t with position := t.position + moved })
  ioWriteWords errMemory a (packBytes pad data)
  modify fun s => s.setTape i (some { t with position := t.position + data.length })
  pure (BitVec.ofNat 32 data.length)

/-- A tape after bytes were written over it at its position. -/
def Tape.overwrite (t : Tape) (data : List Byte) : Tape :=
  { t with
    contents := t.contents.take t.position ++ data ++ t.contents.drop (t.position + data.length)
    position := t.position + data.length }

/-- A tape of which only unit, name and mode are known any more: free contents, a free position in them. -/
def Tape.disturbed (t : Tape) : Io Tape := do
  let contents ← drawBytes
  let position ← drawUpTo contents.length
  pure { t with contents := contents, position := position }

/-- TAPEWRITE (R410), its errors in the order -3, -5, -6 (D52). A tape loaded for reading answers DEVNUMBER or, after the buffer was
found readable, DEVFAILED, freely, and keeps its contents. On a tape loaded for writing a failure of memory or of the device leaves free
contents (R391); a negative count has a free result and such an effect (entry 32). -/
def tapeWrite (c : Word) : Io Word := do
  let u ← param c 1
  let a ← param c 2
  let n ← param c 3
  let i ← ioUnit 8 u
  let s ← get
  let t ← ioPresent errDevNumber s.tapes[i]
  if t.mode = .read then mayFail errDevNumber
  let t' ← if t.mode = .read then pure t else t.disturbed
  let s ← get
  if n.msb then do
    modify fun s => s.setTape i (some t')
    drawWord
  else
    match ioBytes s a ((n.toNat + 3) / 4) with
    | (_, false) => do
      modify fun s => s.setTape i (some t')
      throw errMemory
    | (bs, true) => do
      let failed ← if t.mode = .read then pure true else drawBit
      if failed then do
        modify fun s => s.setTape i (some t')
        throw errDevFailed
      else do
        modify fun s => s.setTape i (some (t.overwrite (bs.take n.toNat)))
        pure n

/-- TAPELOADFILE (R411): a whole host file into memory. A last word that the file fills in part counts as a word read, and its other bytes
are free: DESIGN CHOICE (entry 56). -/
def tapeLoadFile (c : Word) : Io Word := do
  let f ← param c 1
  let a ← param c 2
  let _ ← ioReadString f
  mayFail errNotFound
  let data ← drawBytes
  let pad ← drawWord
  let ws := packBytes pad data
  ioWriteWords errMemory a ws
  ioCount ws.length

/-! ### The terminal (R412, R413) -/

/-- TERMIN (R412). A negative maximum takes a free number of characters (entry 35). -/
def termIn (c : Word) : Io Word := do
  let max ← param c 1
  let a ← param c 2
  let s ← get
  let n ← if max.msb then drawUpTo s.keyboard.length else pure (min max.toNat s.keyboard.length)
  modify fun s => { s with keyboard := s.keyboard.drop n }
  ioWriteWords errMemory a (packBytes 0 (s.keyboard.take n ++ [0]))
  pure (BitVec.ofNat 32 n)

/-- Characters printed, each a host event as TYPE's (R413). -/
def printChars (cs : List Byte) : Io Unit :=
  modify fun s => { s with events := s.events ++ cs.map fun b => .consoleOut (b.setWidth 32) }

/-- TERMOUT (R413). When memory fails, how many of the characters before were printed is free; a negative count prints free
characters and has a free result (U25; entry 35). -/
def termOut (c : Word) : Io Word := do
  let n ← param c 1
  let a ← param c 2
  if n.msb then do
    let cs ← drawBytes
    printChars cs
    drawWord
  else do
    let s ← get
    let (cs, complete) :=
      if n = 0 then ioString s a addressSpaceWords
      else ((ioBytes s a ((n.toNat + 3) / 4)).1.take n.toNat, (ioBytes s a ((n.toNat + 3) / 4)).2)
    if complete then do
      printChars cs
      ioCount cs.length
    else do
      let k ← drawUpTo cs.length
      printChars (cs.take k)
      throw errMemory

/-! ### The network (R414 to R416) -/

/-- NETSS (R414). The address words are free; a word other than 0 and 1 turns the device off or on, freely (entry 33). -/
def netSS (c : Word) : Io Word := do
  let u ← param c 1
  let v ← param c 2
  let a ← param c 3
  let i ← ioUnit 2 u
  let on ← if v = 0 then pure false else if v = 1 then pure true else drawBit
  let s ← get
  if !on && s.nets[i].isNone then throw errDevNumber
  let _ ← ioReadWords errMemory a 2
  if on && s.nets[i].isSome then throw errInUse
  let x ← drawWord
  let y ← drawWord
  ioWriteWords errMemory a [x, y]
  modify fun s => s.setNet i (if on then some { address := (x, y), received := [] } else none)
  drawNonNegative

/-- The most bytes a datagram has (R5, C19). -/
def datagramBytes : Nat := 1024

/-- NETSEND (R415): its errors in the order -3, -5, -6, -8 (D52). More than 1024 bytes, or a negative number of them, is BADPARAM. Whether
a packet went out before the device failed is free (entry 33). -/
def netSend (c : Word) : Io Word := do
  let u ← param c 1
  let d ← param c 2
  let n ← param c 3
  let a ← param c 4
  let i ← ioUnit 2 u
  let s ← get
  let _ ← ioPresent errDevNumber s.nets[i]
  let x ← ioRead errMemory d
  let y ← ioRead errMemory (d + 1)
  let data ← if n.msb then pure [] else ioReadBytes a n.toNat
  let fits := !n.msb && decide (n.toNat ≤ datagramBytes)
  if ← drawBit then do
    if fits && (← drawBit) then modify fun s => s.emit (.packetSent (i.val + 1) (x, y) data)
    throw errDevFailed
  else if fits then do
    modify fun s => s.emit (.packetSent (i.val + 1) (x, y) data)
    drawNonNegative
  else throw errBadParam

/-- NETRECV (R416), its errors in the order -3, -5, -6, -11 (R393, D52). With no packet -5 concerns the two address words only: there are
no bytes to store (entry 34). Of a packet that could not be delivered each word that was transferred is in memory or not, and whether it is
lost is free (R391, U22; entry 33). -/
def netRecv (c : Word) : Io Word := do
  let u ← param c 1
  let d ← param c 2
  let a ← param c 3
  let i ← ioUnit 2 u
  let s ← get
  let unit ← ioPresent errDevNumber s.nets[i]
  match unit.received with
  | [] => do
    let _ ← ioReadWords errMemory d 2
    mayFail errDevFailed
    throw errNoData
  | p :: rest => do
    let lost ← drawBit
    let pad ← drawWord
    let failed ← drawBit
    let data := packBytes pad (p.data.take datagramBytes)
    modify fun s => s.setNet i (some (if lost then { unit with received := rest } else unit))
    ioWriteTwo failed d a [p.source.1, p.source.2] data
    modify fun s => s.setNet i (some { unit with received := rest })
    drawNonNegative

/-! ### Time and the rest (R417 to R420) -/

/-- The host clock read: a number of seconds not below the last one (R417; entry 36). -/
def readClock : Io Word := do
  let s ← get
  let k ← drawUpTo (2 ^ 31 - 1 - s.clock.toNat)
  modify fun s => { s with clock := s.clock + BitVec.ofNat 31 k }
  let s ← get
  pure (s.clock.setWidth 32)

/-- SECONDS (R417). -/
def seconds : Io Word := readClock

/-- USECONDS (R418). -/
def useconds (c : Word) : Io Word := do
  let a ← param c 1
  let sec ← readClock
  let micro ← drawUpTo 999999
  ioWriteWords errMemory a [sec, BitVec.ofNat 32 micro]
  drawNonNegative

/-- DATETIME (R419): the seven words are free. -/
def dateTime (c : Word) : Io Word := do
  let _ ← param c 1
  let a ← param c 2
  let ws ← drawWords 7
  ioWriteWords errMemory a ws
  drawNonNegative

/-- FLOATFORMAT (R420): the text is free. -/
def floatFormat (c : Word) : Io Word := do
  let _ ← param c 1
  let f ← param c 2
  let a ← param c 3
  let _ ← ioReadString f
  let text ← drawBytes
  let pad ← drawWord
  ioWriteWords errMemory a (packBytes pad (text.filter (· != 0) ++ [0]))
  drawNonNegative

/-! ### The instruction (R390, R392, R421) -/

def periOperation (c : Word) : PeriOp → Io Word
  | .discCheck => discCheck c
  | .discRead => discRead c
  | .discWrite => discWrite c
  | .discClear => discClear c
  | .tapeCheck => tapeCheck c
  | .tapeRewind => tapeRewind c
  | .tapeLoad => tapeLoad c
  | .tapeLength => tapeLength c
  | .tapeUnload => tapeUnload c
  | .tapeRead => tapeRead c
  | .tapeWrite => tapeWrite c
  | .tapeLoadFile => tapeLoadFile c
  | .termIn => termIn c
  | .termOut => termOut c
  | .netSS => netSS c
  | .netSend => netSend c
  | .netRecv => netRecv c
  | .seconds => seconds
  | .useconds => useconds c
  | .dateTime => dateTime c
  | .floatFormat => floatFormat c

/-- The operation a code selects (R392). -/
def operationOfCode (c : Config) (w : Word) : Option PeriOp :=
  (c.periCodes.find? fun p => p.2 == w).map (·.1)

/-- The result code an operation ended with, and the state it left. -/
def ioRun (m : Io Word) (s : State) : Word × State :=
  match m.run.run s with
  | (.ok r, s') => (r, s')
  | (.error r, s') => (r, s')

/-- The whole operation at a control structure: its result, and the state it leaves. A recognised operation is a host event with its
result (R528). -/
def periRun (c : Word) (s : State) : Word × State :=
  match ioTarget s c with
  | none => (errReadParams, s)
  | some p =>
    match operationOfCode s.cfg (s.mem.readWord p) with
    | none => (errBadCode, s)
    | some op =>
      let (r, s') := ioRun (periOperation c op) s
      (r, s'.emit (.deviceOperation op r))

/-- PERI (R390). A translation from a misaligned page directory is refused as everywhere (U13). -/
def execPeri (main : Reg) (o : Operand) (s : State) : Host.Outcome State Fault Refusal :=
  conclude s <| privileged s do
    let c ← operandValue s o
    if s.flags.vm && s.pdbr &&& 0x3FF#32 != 0 then refuse .misalignedPageDirectory
    else
      let (r, s') := periRun c s
      .ok ((s'.writeReg main r).setErr (errOfResult r))

end Sys2Proof.Machine
end

