-- ==== Sys2Proof/Machine/Dispatch.lean ====
section
/-! DEFINITION. The meaning of every instruction: one arm for each row of spec/opcode_table.json. -/

namespace Sys2Proof.Machine

def exec (i : Instr) (s : State) : Host.Outcome State Fault Refusal :=
  match i with
  | .halt => Sys2Proof.Machine.execHalt s
  | .load main o => Sys2Proof.Machine.execLoad main o s
  | .loadh main o => Sys2Proof.Machine.execLoadh main o s
  | .store main o => Sys2Proof.Machine.execStore main o s
  | .inc o => Sys2Proof.Machine.execInc o s
  | .dec o => Sys2Proof.Machine.execDec o s
  | .add main o => Sys2Proof.Machine.execAdd main o s
  | .sub main o => Sys2Proof.Machine.execSub main o s
  | .mul main o => Sys2Proof.Machine.execMul main o s
  | .div main o => Sys2Proof.Machine.execDiv main o s
  | .mod main o => Sys2Proof.Machine.execMod main o s
  | .rsub main o => Sys2Proof.Machine.execRsub main o s
  | .rdiv main o => Sys2Proof.Machine.execRdiv main o s
  | .rmod main o => Sys2Proof.Machine.execRmod main o s
  | .and main o => Sys2Proof.Machine.execAnd main o s
  | .or main o => Sys2Proof.Machine.execOr main o s
  | .xor main o => Sys2Proof.Machine.execXor main o s
  | .not main o => Sys2Proof.Machine.execNot main o s
  | .shl main o => Sys2Proof.Machine.execShl main o s
  | .shr main o => Sys2Proof.Machine.execShr main o s
  | .comp main o => Sys2Proof.Machine.execComp main o s
  | .compz o => Sys2Proof.Machine.execCompz o s
  | .tbit main o => Sys2Proof.Machine.execTbit main o s
  | .sbit main o => Sys2Proof.Machine.execSbit main o s
  | .cbit main o => Sys2Proof.Machine.execCbit main o s
  | .jump o => Sys2Proof.Machine.execJump o s
  | .jzer main o => Sys2Proof.Machine.execJzer main o s
  | .jpos main o => Sys2Proof.Machine.execJpos main o s
  | .jneg main o => Sys2Proof.Machine.execJneg main o s
  | .jcond cond o => Sys2Proof.Machine.execJcond cond o s
  | .getfl main o => Sys2Proof.Machine.execGetfl main o s
  | .setfl main o => Sys2Proof.Machine.execSetfl main o s
  | .getsr main o => Sys2Proof.Machine.execGetsr main o s
  | .setsr main o => Sys2Proof.Machine.execSetsr main o s
  | .push o => Sys2Proof.Machine.execPush o s
  | .pop o => Sys2Proof.Machine.execPop o s
  | .call o => Sys2Proof.Machine.execCall o s
  | .ret => Sys2Proof.Machine.execRet s
  | .ldch main o => Sys2Proof.Machine.execLdch main o s
  | .stch main o => Sys2Proof.Machine.execStch main o s
  | .peri main o => Sys2Proof.Machine.execPeri main o s
  | .flagsj main o => Sys2Proof.Machine.execFlagsj main o s
  | .pause o => Sys2Proof.Machine.execPause o s
  | .breakpoint => Sys2Proof.Machine.execBreakpoint s
  | .iret => Sys2Proof.Machine.execIret s
  | .syscall main o => Sys2Proof.Machine.execSyscall main o s
  | .atas main o => Sys2Proof.Machine.execAtas main o s
  | .phload main o => Sys2Proof.Machine.execPhload main o s
  | .phstore main o => Sys2Proof.Machine.execPhstore main o s
  | .vtran main o => Sys2Proof.Machine.execVtran main o s
  | .move main o => Sys2Proof.Machine.execMove main o s
  | .sign main o => Sys2Proof.Machine.execSign main o s
  | .fadd main o => Sys2Proof.Machine.execFadd main o s
  | .fsub main o => Sys2Proof.Machine.execFsub main o s
  | .fmul main o => Sys2Proof.Machine.execFmul main o s
  | .fdiv main o => Sys2Proof.Machine.execFdiv main o s
  | .fcomp main o => Sys2Proof.Machine.execFcomp main o s
  | .fcompz o => Sys2Proof.Machine.execFcompz o s
  | .fix main o => Sys2Proof.Machine.execFix main o s
  | .frnd main o => Sys2Proof.Machine.execFrnd main o s
  | .float main o => Sys2Proof.Machine.execFloat main o s
  | .flog main o => Sys2Proof.Machine.execFlog main o s
  | .fexp main o => Sys2Proof.Machine.execFexp main o s
  | .fsqrt main o => Sys2Proof.Machine.execFsqrt main o s
  | .fsin main o => Sys2Proof.Machine.execFsin main o s
  | .fcos main o => Sys2Proof.Machine.execFcos main o s
  | .fatan main o => Sys2Proof.Machine.execFatan main o s
  | .fabs main o => Sys2Proof.Machine.execFabs main o s
  | .floor main o => Sys2Proof.Machine.execFloor main o s
  | .fsign main o => Sys2Proof.Machine.execFsign main o s
  | .ffo main o => Sys2Proof.Machine.execFfo main o s
  | .flz main o => Sys2Proof.Machine.execFlz main o s
  | .rand main => Sys2Proof.Machine.execRand main s
  | .trace main o => Sys2Proof.Machine.execTrace main o s
  | .type o => Sys2Proof.Machine.execType o s
  | .inch o => Sys2Proof.Machine.execInch o s
  | .andn main o => Sys2Proof.Machine.execAndn main o s
  | .orn main o => Sys2Proof.Machine.execOrn main o s
  | .neg main o => Sys2Proof.Machine.execNeg main o s
  | .fneg main o => Sys2Proof.Machine.execFneg main o s
  | .rotl main o => Sys2Proof.Machine.execRotl main o s
  | .rotr main o => Sys2Proof.Machine.execRotr main o s
  | .asr main o => Sys2Proof.Machine.execAsr main o s
  | .exbr main o => Sys2Proof.Machine.execExbr main o s
  | .exbrv main o => Sys2Proof.Machine.execExbrv main o s
  | .dpbr main o => Sys2Proof.Machine.execDpbr main o s
  | .dpbrv main o => Sys2Proof.Machine.execDpbrv main o s
  | .adjs main o => Sys2Proof.Machine.execAdjs main o s
  | .uexbr main o => Sys2Proof.Machine.execUexbr main o s
  | .uexbrv main o => Sys2Proof.Machine.execUexbrv main o s
  | .ucomp main o => Sys2Proof.Machine.execUcomp main o s
  | .umul main o => Sys2Proof.Machine.execUmul main o s
  | .udiv main o => Sys2Proof.Machine.execUdiv main o s
  | .umod main o => Sys2Proof.Machine.execUmod main o s
  | .clrpp o => Sys2Proof.Machine.execClrpp o s
  | .zero main o => Sys2Proof.Machine.execZero main o s
  | .lbitf main o => Sys2Proof.Machine.execLbitf main o s
  | .lbito main o => Sys2Proof.Machine.execLbito main o s
  | .sbitf main o => Sys2Proof.Machine.execSbitf main o s
  | .sbito main o => Sys2Proof.Machine.execSbito main o s
  | .pmemr main o => Sys2Proof.Machine.execPmemr main o s
  | .ffnz main o => Sys2Proof.Machine.execFfnz main o s
  | .nop => Sys2Proof.Machine.execNop s
  | .sext main o => Sys2Proof.Machine.execSext main o s
  | .intr main o => Sys2Proof.Machine.execIntr main o s
  | .mpush o => Sys2Proof.Machine.execMpush o s
  | .mpop o => Sys2Proof.Machine.execMpop o s
  | .fgood o => Sys2Proof.Machine.execFgood o s
  | .nalt => Sys2Proof.Machine.execNalt s

end Sys2Proof.Machine
end

