-- ==== Sys2Proof/Machine/Cycle.lean ====
section
/-! DEFINITION. One step of the processor (60_exceptions.md R470): what the host does, asynchronous interrupts, the DEBUG check,
fetch, decode, execution, the timer. -/

namespace Sys2Proof.Machine

/-! ### Between instructions (R470 a, R472, R484) -/

/-- A packet of at most 1024 bytes (R5, R415) reaches a network unit that is on; otherwise it is lost (R416; entry 33). -/
def State.receive (s : State) (number : Nat) (p : Packet) : State :=
  match unitIndex 2 number with
  | none => s
  | some i =>
    match s.nets[i] with
    | none => s
    | some u => if p.data.length ≤ datagramBytes then s.setNet i (some { u with received := u.received ++ [p] }) else s

/-- What the host does, one thing after another, and whether it ended the run: control-c does (R484). -/
def applyInputs (s : State) : List HostInput → State × Bool
  | [] => (s, false)
  | .key c :: more => applyInputs { s with keyboard := s.keyboard ++ [c] } more
  | .controlC :: _ => (s.enterDebugger, true)
  | .packet n p :: more => applyInputs (s.receive n p) more

/-- What the host does before this step (entry 9). -/
def acceptInput (s : State) : State × Bool :=
  match s.inputs with
  | [] => (s, false)
  | now :: later => applyInputs { s with inputs := later } now

/-- KEYBD, asserted while the keyboard buffer is not empty (R484). -/
def keyboardInterrupt (s : State) : Delivery :=
  if s.keyboard.isEmpty then .ignored else deliver s ⟨.keybd, none, none⟩ s.pc

/-- TIMER, asserted while it is pending (R483). -/
def timerInterrupt (s : State) : Delivery :=
  if s.timerPending then deliver s ⟨.timer, none, none⟩ s.pc else .ignored

/-! ### One instruction (R470 b to k) -/

/-- The PC past the instruction (R26, R470 d). -/
def State.advanced (s : State) : State := { s with pc := s.pc + 1 }

/-- DEBUG's address is the PC, and DEBUG is not ignored (R485, R461). -/
def debugHit (s : State) : Bool := s.pc == s.debug && !s.ignores .debug

/-- The word at the PC, or what reading it raises: a fetch is a read at the PC like any other (R26, R90, R470 c), so MEMORY carries the
physical address that is missing, a table's word included (R74, R97, R455). R204 names the PC there, which under VM = 1 is another address:
DEDUCED (entry 49). -/
def fetch (s : State) : Res Word := memRead s s.pc

/-- DEBUG check, fetch, decode, execution (R470 b to j). An interrupt before the PC advanced finds the state not advanced. -/
def instructionOutcome (s : State) : Host.Outcome State Fault Refusal :=
  if debugHit s then stopOutcome s s.advanced.faultPc (.raised ⟨.debug, some s.pc, none⟩)
  else
    match fetch s with
    | .error e => stopOutcome s s.advanced.faultPc e
    | .ok w =>
      match decode w with
      | .ok i => exec i s.advanced
      | .error _ => conclude s.advanced (raise .unimpop (some s.pc))

/-- The countdown after an executed instruction (R470 k, R483). -/
def State.tick (s : State) : State :=
  if s.timer = 0 then s
  else { s with timer := s.timer - 1, timerPending := s.timerPending || s.timer - 1 == 0 }

def ticked : Host.Outcome State Fault Refusal → Host.Outcome State Fault Refusal
  | .next s => .next s.tick
  | .fault f => .fault f
  | .refused r => .refused r

/-- One executed instruction, completed or having raised an interrupt, and the countdown (R470 b to k). -/
def executeOne (s : State) : Host.Outcome State Fault Refusal := ticked (instructionOutcome s)

/-! ### The step (R470) -/

/-- Asynchronous interrupts, KEYBD first; a delivered one is the whole step. TIMER's pending bit is cleared by a delivery and by an
expiry that interrupts being off has dropped, and kept when IPL has it wait (R461, R462, R483). -/
def afterInput (s : State) : Host.Outcome State Fault Refusal :=
  match keyboardInterrupt s with
  | .taken s' => .next s'
  | .refused r => .refused r
  | .ignored | .dropped =>
    match timerInterrupt s with
    | .taken s' => .next { s' with timerPending := false }
    | .refused r => .refused r
    | .ignored => executeOne s
    | .dropped => executeOne { s with timerPending := false }

/-- A step of a processor that runs; one that does not run stays as it is (R61; entry 18). -/
def cycle (s : State) : Host.Outcome State Fault Refusal :=
  if s.flags.r then
    match acceptInput s with
    | (s', true) => .next s'
    | (s', false) => afterInput s'
  else .next s

/-- An instruction word placed where the next fetch reads (entry 7). -/
def placeAtFetch (s : State) (w : Word) : State :=
  match translateAddress s s.pc with
  | .ok p => s.poke p w
  | .error _ => s

end Sys2Proof.Machine
end

