-- ==== Sys2Proof/Machine/Step.lean ====
section
/-! DEFINITION. The step of the machine, and the placing of an instruction where the next step fetches. -/

namespace Sys2Proof.Machine

/-- One step of the processor (R470). -/
def step (s : State) : Host.Outcome State Fault Refusal := cycle s

/-- The state with an instruction of `nbits` bits stored where step fetches its next one; an instruction is one word (R120; entry 7). -/
def State.withFetchWord (s : State) (nbits w : Nat) : State := placeAtFetch s (BitVec.ofNat 32 (w % 2 ^ nbits))

end Sys2Proof.Machine
end

