-- ==== Sys2Proof/Safety.lean ====
section
/-! DEFINITION. What claims call a consistent state, a step that goes on, the state that user mode may not change, and a correctly
rounded floating-point number. -/

namespace Sys2Proof.Machine

/-- Memory holds data only where memory exists (R71, R74). -/
def State.storesExist (s : State) : Bool := s.mem.all fun c => memExists s.cfg (BitVec.ofNat 32 (c.1 / 4))

/-- The processor runs exactly when flag R is set (R61). -/
def State.statusAgrees (s : State) : Bool := s.flags.r == decide (s.status = .running)

/-- The invariant of the machine: a well-formed configuration, memory in canonical form and only where memory exists, run status and
flag R in agreement. -/
def State.consistent (s : State) : Bool := s.cfg.wf && s.mem.wf && s.storesExist && s.statusAgrees

/-- The step has a next state. -/
def State.proceeds (s : State) : Prop := ∃ t, step s = .next t

/-- A run of so many steps meets no fault and no refusal. -/
def State.safeFor : Nat → State → Prop
  | 0, _ => True
  | n + 1, s => ∃ t, step s = .next t ∧ State.safeFor n t

/-- What no user-mode instruction may change, whether or not it raises an interrupt: the flags INT and VM and the special registers
that only SETSR writes (R33, R56, R481). -/
structure State.SameControls (s t : State) : Prop where
  cfg : t.cfg = s.cfg
  int : t.flags.int = s.flags.int
  vm : t.flags.vm = s.flags.vm
  pdbr : t.pdbr = s.pdbr
  intVec : t.intVec = s.intVec
  cgBr : t.cgBr = s.cgBr
  cgLen : t.cgLen = s.cgLen
  debug : t.debug = s.debug
  watch : t.watch = s.watch
  exitCode : t.exitCode = s.exitCode

/-- What a user-mode step that stays in user mode may not change besides: IPL, EM, EMGRET and the system stack pointer (R34, R467). -/
structure State.SameLevel (s t : State) : Prop where
  ipl : t.ipl = s.ipl
  em : t.flags.em = s.flags.em
  emgRet : t.emgRet = s.emgRet
  sysSp : t.sysSp = s.sysSp

/-- `F(w)` of R340, the number a proper word denotes. -/
def floatNumber (w : Word) : ℚ :=
  (if w.msb then -1 else 1) *
    if floatExponent w = 0 then (floatFraction w : ℚ) * 2 ^ (-149 : ℤ)
    else (2 ^ 23 + floatFraction w : ℚ) * 2 ^ ((floatExponent w : ℤ) - 150)

/-- `w` is `R(x)` of R340 and R342, IEEE's round to nearest even: no proper word lies nearer to x, and if another number is as near the
last bit of `w` is 0. -/
def RoundsTo (x : ℝ) (w : Word) : Prop :=
  floatProper w = true ∧ ∀ u : Word, floatProper u = true →
    |x - floatNumber w| ≤ |x - floatNumber u| ∧
    (|x - floatNumber w| = |x - floatNumber u| → floatNumber u = floatNumber w ∨ w.getLsbD 0 = false)

/-- The magnitudes that round to a proper word: those below the middle between the greatest of them and 2^128. -/
def roundingBound : ℚ := 2 ^ 128 - 2 ^ 103

/-- The instruction writes some word, a free value, to the register, and changes nothing else but the draws. -/
def WritesFree (i : Instr) (s : State) (m : Reg) : Prop :=
  ∃ w, exec i s = .next { s.writeReg m w with draws := s.draws + 1 }

/-- The instruction writes the rounding of x to the register, with the sign bit set exactly when `negative` holds, and changes nothing
else; a free word where x overflows (U20). -/
def WritesRounded (i : Instr) (s : State) (m : Reg) (x : ℝ) (negative : Prop) : Prop :=
  (|x| < roundingBound → ∃ w, exec i s = .next (s.writeReg m w) ∧ RoundsTo x w ∧ (w.msb = true ↔ negative)) ∧
  (roundingBound ≤ |x| → WritesFree i s m)

end Sys2Proof.Machine
end

