-- ==== Sys2Proof/WellFormed.lean ====
section
/-! DEFINITION. The instructions to which the spec gives a meaning by their form alone. Every encoding decodes (R131); these checks
pick out the forms that 93_implementation_defined.md sends to `refuse` whatever the state is (U6, U19), and PMEMR's register
operand, which R257 leaves unspecified. -/

namespace Sys2Proof

/-- The form has a meaning in the spec, or raises the interrupt the spec names for it. -/
def Instr.wellFormed : Instr → Bool
  | .inc o => !o.isConstantZero
  | .dec o => !o.isConstantZero
  | .move main o => !(o.isRegister && moveRegistersBad main o.index)
  | .zero main o => !(o.isRegister && zeroRegistersBad main o.index)
  | .pmemr _ o => !o.isRegister
  | _ => true

end Sys2Proof
end

