-- ==== Sys2Proof/Certificates/Slice0/Obligations.lean ====
section
/-! DEFINITION. The statements for the provers. A statement about an instruction speaks of the state in which it executes, whose PC is
already past the instruction (R26). `operandValue s o = .ok v` says that the operand can be read, and that its value is `v`. -/

open Sys2Proof Sys2Proof.Machine

/-! ### The step, decoding and encoding -/

/-- R470: with nothing to take between instructions and no DEBUG match, a step fetches at the PC, decodes, advances the PC, executes the
decoded instruction, and counts the timer down. -/
def Obligations.StepRunsDecodedInstruction : Prop :=
  ∀ (s : State) (w : Word) (i : Instr),
    s.flags.r = true → s.inputs = [] → s.keyboard = [] → s.timerPending = false → debugHit s = false →
    memRead s s.pc = .ok w → decode w = .ok i →
    step s = ticked (exec i { s with pc := s.pc + 1 })

/-- Words written out from R120, R121 and the opcode map decode to the instructions they stand for. -/
def Obligations.WordsOfTheManualDecode : Prop :=
  decode 0x4A000000 = .ok .ret ∧
  decode 0x02200024 = .ok (.load 2 ⟨false, 0, 36⟩) ∧
  decode 0x0C730000 = .ok (.add 7 ⟨false, 3, 0⟩) ∧
  decode 0x0273000C = .ok (.load 7 ⟨false, 3, 12⟩) ∧
  decode 0x0D430000 = .ok (.add 4 ⟨true, 3, 0⟩) ∧
  decode 0x072004D2 = .ok (.store 2 ⟨true, 0, 1234⟩) ∧
  decode 0x0725FE89 = .ok (.store 2 ⟨true, 5, -375⟩) ∧
  decode 0x3A60012C = .ok (.jcond 6 ⟨false, 0, 300⟩) ∧
  decode 0x68120000 = .ok (.fadd 1 ⟨false, 2, 0⟩) ∧
  decode 0x50300258 = .ok (.peri 3 ⟨false, 0, 600⟩)

/-- Every instruction, with every operand at every value, is read back from its word; and a word is an instruction's exactly when it
agrees with the encoding in every bit the instruction uses. -/
def Obligations.DecodeAndEncodeAgree : Prop :=
  (∀ i : Instr, decode (encode i) = .ok i) ∧
  (∀ (w : Word) (i : Instr), decode w = .ok i ↔ w &&& i.usedMask = encode i)

/-- R131: exactly the opcodes 108 to 126 are no instruction, and a step that fetches one raises UNIMPOP with the instruction's address. -/
def Obligations.UnimplementedOpcodesTrap : Prop :=
  (∀ w : Word, (∃ e, decode w = .error e) ↔ 108 ≤ w.toNat / 2 ^ 25 ∧ w.toNat / 2 ^ 25 ≤ 126) ∧
  (∀ (s : State) (w : Word),
    s.flags.r = true → s.inputs = [] → s.keyboard = [] → s.timerPending = false → debugHit s = false →
    memRead s s.pc = .ok w → 108 ≤ w.toNat / 2 ^ 25 → w.toNat / 2 ^ 25 ≤ 126 →
    step s = ticked (stopOutcome { s with pc := s.pc + 1 } (State.faultPc { s with pc := s.pc + 1 })
      (.raised ⟨.unimpop, some s.pc, none⟩)))

/-! ### The whole machine -/

/-- Every step keeps the machine consistent: a well-formed configuration, memory in canonical form and only where memory exists, and a
run status that agrees with flag R. -/
def Obligations.EveryStepKeepsConsistency : Prop :=
  ∀ s t : State, s.consistent = true → step s = .next t → t.consistent = true

/-- The state after reset is consistent. -/
def Obligations.ResetIsConsistent : Prop := State.reset.consistent = true

/-- Start-up (R35, R65, R522). The source states R and SYS set and EM, INT and VM clear; that the PC is at ENTRY, IPL is 0, nothing is
pending and the keyboard buffer is empty is the spec's decision D11. The same for every configuration and program image: that the words
of an image that fits the load area lie there from its first address upward is the model's choice (entry 7). With a well-formed
configuration the state is consistent. -/
def Obligations.ResetFlags : Prop :=
  State.reset.flags.r = true ∧ State.reset.flags.sys = true ∧ State.reset.flags.em = false ∧ State.reset.flags.int = false ∧
  State.reset.flags.vm = false ∧ State.reset.status = .running ∧ State.reset.pc = State.reset.cfg.entry ∧
  ∀ (c : Config) (image : List Word), c.wf = true → c.loadArea.first.toNat + image.length ≤ c.loadArea.last.toNat + 1 →
    ∃ s : State, s = State.startUp c image ∧ s.consistent = true ∧ s.cfg = c ∧ s.pc = c.entry ∧ s.status = .running ∧
      s.flags.r = true ∧ s.flags.sys = true ∧ s.flags.em = false ∧ s.flags.int = false ∧ s.flags.vm = false ∧ s.ipl = 0 ∧
      s.timerPending = false ∧ s.keyboard = [] ∧
      ∀ k < image.length, s.mem.readWord (c.loadArea.first + BitVec.ofNat 32 k) = image.getD k 0

/-- A step taken in user mode, whatever it does, leaves INT, VM and the special registers that only SETSR writes as they are; and if the
machine is still in user mode after it, IPL, EM, EMGRET and SYSSP too (R33, R34, R467, R481). -/
def Obligations.UserModeIsContained : Prop :=
  ∀ s t : State, s.flags.sys = false → step s = .next t →
    State.SameControls s t ∧ (t.flags.sys = false → State.SameLevel s t)

/-- R33: INT and VM are written by SETFL, SETSR, FLAGSJ and IRET only; and so are the controls that SETSR writes. -/
def Obligations.OnlyFourInstructionsWriteControls : Prop :=
  ∀ (i : Instr) (s t : State),
    (∀ m o, i ≠ .setfl m o) → (∀ m o, i ≠ .setsr m o) → (∀ m o, i ≠ .flagsj m o) → i ≠ .iret →
    exec i s = .next t → State.SameControls s t

/-- R71, R74: no step changes a word at an address that does not exist. -/
def Obligations.NoStepStoresOutsideMemory : Prop :=
  ∀ (s t : State) (a : Word), step s = .next t → memExists s.cfg a = false → t.mem.readWord a = s.mem.readWord a

/-- R84, R86, R90, R470 j. A logical write that is made is read back at its address wherever that still translates to the same physical
address, with VM = 0 always; with VM = 0 every other address reads as before. A write is not made: when its address does not translate it
raises what the translation raises, when the physical address does not exist MEMORY, and when the address WATCH_SPACE names is WATCH's and
IPL is below 14, WATCH with that address; with IPL from 14 up it is made although watched. That a translation fault and MEMORY come before
WATCH is the model's reading of the rules (entry 15). -/
def Obligations.StoreThenLoad : Prop :=
  ∀ (s : State) (a v : Word),
    (∀ t, memWrite s a v = .ok t →
      (s.flags.vm = false ∨ translateAddress t a = translateAddress s a → memRead t a = .ok v) ∧
      (s.flags.vm = false → ∀ b, b ≠ a → memRead t b = memRead s b)) ∧
    (∀ e, translateAddress s a = .error e → memWrite s a v = .error e) ∧
    (∀ p w, translateAddress s a = .ok p → w = (match s.cfg.watchSpace with | .logical => a | .physical => p) →
      (memExists s.cfg p = false → memWrite s a v = .error (.raised ⟨.memory, some p, none⟩)) ∧
      (memExists s.cfg p = true → s.watch = w → s.ipl.toNat < 14 → memWrite s a v = .error (.raised ⟨.watch, some w, none⟩)) ∧
      (memExists s.cfg p = true → s.watch ≠ w ∨ 14 ≤ s.ipl.toNat → memWrite s a v = .ok { s with mem := s.mem.writeWord p v }))

/-- R9, R20 to R25: a register written reads back, every other register reads as before, and nothing else changes, with either value of
FP_BANKED: not the other mode's stack and frame pointers, not the plain register 14 while it is banked, not SYSFP and USRFP while it is
not, and no other field. -/
def Obligations.RegisterWriteFrame : Prop :=
  ∀ (s x : State) (r : Reg) (v : Word), x = s.writeReg r v →
    x.readReg r = v ∧
    (∀ q, q ≠ r → x.readReg q = s.readReg q) ∧
    (s.flags.sys = true → x.usrSp = s.usrSp ∧ x.usrFp = s.usrFp) ∧
    (s.flags.sys = false → x.sysSp = s.sysSp ∧ x.sysFp = s.sysFp) ∧
    (s.cfg.fpBanked = true → x.plainFp = s.plainFp) ∧
    (s.cfg.fpBanked = false → x.sysFp = s.sysFp ∧ x.usrFp = s.usrFp) ∧
    x = { s with
      regs := x.regs, pc := x.pc, sysSp := x.sysSp, usrSp := x.usrSp, sysFp := x.sysFp, usrFp := x.usrFp, plainFp := x.plainFp }

/-! ### Interrupts -/

/-- R460 steps 5 and 6, R463, R467: with VM = 0, a vector entry, and a system stack whose 21 words below SYSSP exist and are not watched,
delivery enters the handler: the frame holds return address, 38, FLAGS, code, address, information, FP, SP, R12 to R0 from the new
SYSSP upward; SYS is set, IPL is the code, PC is the entry; every other word of memory, register, flag and special register is as
before. The same whatever VM is, where `p k` is the physical address to which a system-mode write at k + 1 below SYSSP goes, with the
translation before delivery for every word (D22; entry 47). -/
def Obligations.HandlerEntryBuildsTheFrame : Prop :=
  (∀ (s : State) (e : Raised) (retpc h : Word),
      s.flags.vm = false → s.ignores (deliveredCode s e.code) = false → s.flags.int = true → s.intVec ≠ 0 →
      vectorEntry s (deliveredCode s e.code) = some h →
      (∀ k < 21, memExists s.cfg (s.sysSp - BitVec.ofNat 32 (k + 1)) = true ∧
        watchHit s (s.sysSp - BitVec.ofNat 32 (k + 1)) = false) →
      ∃ t, deliver s e retpc = .taken t ∧
        t.pc = h ∧ t.sysSp = s.sysSp - 21 ∧ t.flags = { s.flags with sys := true } ∧
        t.ipl = BitVec.ofNat 5 (deliveredCode s e.code).code ∧
        t.mem.readWord t.sysSp = retpc ∧
        t.mem.readWord (t.sysSp + 1) = 38 ∧
        t.mem.readWord (t.sysSp + 2) = s.flagsWord ∧
        t.mem.readWord (t.sysSp + 3) = BitVec.ofNat 32 (deliveredCode s e.code).code ∧
        (∀ a, e.address = some a → t.mem.readWord (t.sysSp + 4) = a) ∧
        (∀ a, e.info = some a → t.mem.readWord (t.sysSp + 5) = a) ∧
        t.mem.readWord (t.sysSp + 6) = s.readReg 14 ∧
        t.mem.readWord (t.sysSp + 7) = s.readReg 13 ∧
        (∀ k : Fin 13, t.mem.readWord (t.sysSp + BitVec.ofNat 32 (20 - k.val)) = s.regs[k]) ∧
        (∀ a, (∀ k < 21, a ≠ t.sysSp + BitVec.ofNat 32 k) → t.mem.readWord a = s.mem.readWord a) ∧
        t.regs = s.regs ∧ t.usrSp = s.usrSp ∧ t.usrFp = s.usrFp ∧ t.sysFp = s.sysFp ∧ t.plainFp = s.plainFp ∧
        t.pdbr = s.pdbr ∧ t.intVec = s.intVec ∧ t.cgBr = s.cgBr ∧ t.cgLen = s.cgLen ∧ t.debug = s.debug ∧ t.timer = s.timer ∧
        t.watch = s.watch ∧ t.exitCode = s.exitCode ∧ t.emgRet = s.emgRet) ∧
  (∀ (s : State) (e : Raised) (retpc h : Word) (p : Nat → Word),
    s.ignores (deliveredCode s e.code) = false → s.flags.int = true → s.intVec ≠ 0 →
    vectorEntry s (deliveredCode s e.code) = some h →
    (∀ k < 21, storeTarget { s with flags := { s.flags with sys := true } } (s.sysSp - BitVec.ofNat 32 (k + 1)) = .ok (p k)) →
    (∀ j < 21, ∀ k < 21, p j = p k → j = k) →
    ∃ t, deliver s e retpc = .taken t ∧
      t = { s with
        mem := t.mem, flags := { s.flags with sys := true }, ipl := BitVec.ofNat 5 (deliveredCode s e.code).code
        sysSp := s.sysSp - 21, pc := h, draws := s.draws + 2 } ∧
      (∀ k : Fin 13, t.mem.readWord (p k) = s.regs[k]) ∧
      t.mem.readWord (p 13) = s.readReg 13 ∧
      t.mem.readWord (p 14) = s.readReg 14 ∧
      (∀ a, e.info = some a → t.mem.readWord (p 15) = a) ∧
      (∀ a, e.address = some a → t.mem.readWord (p 16) = a) ∧
      t.mem.readWord (p 17) = BitVec.ofNat 32 (deliveredCode s e.code).code ∧
      t.mem.readWord (p 18) = s.flagsWord ∧
      t.mem.readWord (p 19) = 38 ∧
      t.mem.readWord (p 20) = retpc ∧
      ∀ a, (∀ k < 21, a ≠ p k) → t.mem.readWord a = s.mem.readWord a)

/-- R461, R462, R466: an interrupt whose code is not above IPL is ignored; otherwise, with INT = 0 or INTVEC = 0, TIMER and KEYBD are
dropped and every other one stops the program with its code, R cleared and nothing else changed. -/
def Obligations.UndeliverableInterrupts : Prop :=
  ∀ (s : State) (e : Raised) (retpc : Word),
    ((deliveredCode s e.code).code ≤ s.ipl.toNat → deliver s e retpc = .ignored) ∧
    (s.ipl.toNat < (deliveredCode s e.code).code → s.flags.int = false ∨ s.intVec = 0 →
      (e.code = .timer ∨ e.code = .keybd → deliver s e retpc = .dropped) ∧
      (e.code ≠ .timer → e.code ≠ .keybd →
        deliver s e retpc =
          .taken { s with flags := { s.flags with r := false }, status := .stopped (deliveredCode s e.code) }))

/-- R464, R465: a missing or zero vector entry has INTRFAULT delivered in its place, with the same address and return address and the
original code as information; without an entry for INTRFAULT the program stops with INTRFAULT; a page fault at IPL 12 is delivered as
PAGEFAULT2. The entry is the word at the physical address INTVEC + code (R460 step 4), none where that address does not exist or the
word is 0; the codes are 1 to 22 (R455). -/
def Obligations.BadVectorGivesIntrfault : Prop :=
  (∀ (s : State) (e : Raised) (retpc : Word),
    s.ignores (deliveredCode s e.code) = false → s.flags.int = true → s.intVec ≠ 0 →
    vectorEntry s (deliveredCode s e.code) = none → e.code ≠ .intrfault →
    (s.ipl.toNat < 17 → ∀ h, vectorEntry s .intrfault = some h →
      deliver s e retpc =
        deliver s ⟨.intrfault, e.address, some (BitVec.ofNat 32 (deliveredCode s e.code).code)⟩ retpc) ∧
    (s.ipl.toNat < 17 → vectorEntry s .intrfault = none → deliver s e retpc = .taken (s.stopProgram .intrfault)) ∧
    (17 ≤ s.ipl.toNat → deliver s e retpc = .ignored)) ∧
  (∀ s : State, (s.ipl = 12 → deliveredCode s .pagefault = .pagefault2) ∧ (s.ipl ≠ 12 → deliveredCode s .pagefault = .pagefault)) ∧
  (∀ (s : State) (c : Interrupt) (a : Word), a = s.intVec + BitVec.ofNat 32 c.code →
    vectorEntry s c = if memExists s.cfg a = true ∧ s.mem.readWord a ≠ 0 then some (s.mem.readWord a) else none) ∧
  ([Interrupt.halt, .timer, .keybd, .privop, .pagepriv, .divzero, .memory, .unimpop, .unwrop, .badop, .badcall, .pagefault, .pagefault2,
    .watch, .debug, .sysstkfl, .intrfault, .fltneg, .usrint1, .usrint2, .usrint3, .rterror].map Interrupt.code =
    (List.range 22).map (· + 1))

/-- R468: when a word of the frame cannot be written, the handler of SYSSTKFL, else that of INTRFAULT, is jumped to without a frame, with
EMGRET, EM, SYS and IPL set and everything else as it was; with neither the run ends in the debugger. Where words before it could be
written, each of them is in memory or not (U22), whichever of the 21 it is; an information or address that the spec does not define is some
word. That no other word of memory changes, none after the failing one, is the model's choice (entry 27). -/
def Obligations.EmergencyProcedure : Prop :=
  ∀ (s : State) (e : Raised) (retpc h : Word) (x : Raised),
    s.ignores (deliveredCode s e.code) = false → s.flags.int = true → s.intVec ≠ 0 →
    vectorEntry s (deliveredCode s e.code) = some h →
    (storeTarget { s with flags := { s.flags with sys := true } } (s.sysSp - 1) = .error (.raised x) →
      (∀ g, vectorEntry s .sysstkfl = some g ∨ (vectorEntry s .sysstkfl = none ∧ vectorEntry s .intrfault = some g) →
        deliver s e retpc = .taken { s with
          emgRet := retpc, flags := { s.flags with em := true, sys := true },
          ipl := BitVec.ofNat 5 (deliveredCode s e.code).code, pc := g, draws := s.draws + 2 }) ∧
      (vectorEntry s .sysstkfl = none → vectorEntry s .intrfault = none →
        deliver s e retpc = .taken { s with
          flags := { s.flags with r := false }, status := .debugger, draws := s.draws + 2 })) ∧
    (∀ (k : Nat) (p : Nat → Word), 0 < k → k < 21 →
      (∀ j < k, storeTarget { s with flags := { s.flags with sys := true } } (s.sysSp - BitVec.ofNat 32 (j + 1)) = .ok (p j)) →
      storeTarget { s with flags := { s.flags with sys := true } } (s.sysSp - BitVec.ofNat 32 (k + 1)) = .error (.raised x) →
      (∀ i < k, ∀ j < k, p i = p j → i = j) → (∀ j < k, p j ≠ s.intVec + 16 ∧ p j ≠ s.intVec + 17) →
      ∃ t, deliver s e retpc = .taken t ∧
        (∀ a, (∀ j < k, a ≠ p j) → t.mem.readWord a = s.mem.readWord a) ∧
        (∃ info address : Word, (∀ a, e.info = some a → info = a) ∧ (∀ a, e.address = some a → address = a) ∧
          ∀ j < k, t.mem.readWord (p j) = s.mem.readWord (p j) ∨ t.mem.readWord (p j) =
            (s.regs.toList ++ [s.readReg 13, s.readReg 14, info, address, BitVec.ofNat 32 (deliveredCode s e.code).code, s.flagsWord, 38,
              retpc]).getD j 0) ∧
        (∀ g, vectorEntry s .sysstkfl = some g ∨ (vectorEntry s .sysstkfl = none ∧ vectorEntry s .intrfault = some g) →
          t = { s with
            mem := t.mem, emgRet := retpc, flags := { s.flags with em := true, sys := true },
            ipl := BitVec.ofNat 5 (deliveredCode s e.code).code, pc := g, draws := s.draws + 2 + k }) ∧
        (vectorEntry s .sysstkfl = none → vectorEntry s .intrfault = none →
          t = { s with
            mem := t.mem, flags := { s.flags with r := false }, status := .debugger, draws := s.draws + 2 + k }))

/-- R232, R469: IRET undoes an interrupt. From the state in which a handler starts, wherever the handler's PC has got to, IRET restores
every register, flag and stack pointer of the interrupted context, whatever its mode, and continues at the return address. First with
VM = 0; then whatever VM is, where the frame's addresses still translate as they did before delivery. -/
def Obligations.IretUndoesTheInterrupt : Prop :=
  (∀ (s : State) (e : Raised) (retpc h p : Word),
      s.cfg.flagNum.wf = true → s.flags.r = true → s.flags.vm = false →
      s.ignores (deliveredCode s e.code) = false → s.flags.int = true → s.intVec ≠ 0 →
      vectorEntry s (deliveredCode s e.code) = some h →
      (∀ k < 21, memExists s.cfg (s.sysSp - BitVec.ofNat 32 (k + 1)) = true ∧
        watchHit s (s.sysSp - BitVec.ofNat 32 (k + 1)) = false) →
      ∃ t, deliver s e retpc = .taken t ∧
        exec .iret { t with pc := p } = .next { s with pc := retpc, mem := t.mem, draws := t.draws }) ∧
  (∀ (s t : State) (e : Raised) (retpc h p : Word) (q : Nat → Word),
    s.cfg.flagNum.wf = true → s.flags.r = true →
    s.ignores (deliveredCode s e.code) = false → s.flags.int = true → s.intVec ≠ 0 →
    vectorEntry s (deliveredCode s e.code) = some h →
    (∀ k < 21, storeTarget { s with flags := { s.flags with sys := true } } (s.sysSp - BitVec.ofNat 32 (k + 1)) = .ok (q k)) →
    (∀ j < 21, ∀ k < 21, q j = q k → j = k) →
    deliver s e retpc = .taken t →
    (∀ k < 21, translateAddress t (s.sysSp - BitVec.ofNat 32 (k + 1)) = .ok (q k)) →
    exec .iret { t with pc := p } = .next { s with pc := retpc, mem := t.mem, draws := t.draws })

/-- R31, R32, R41: bit FLAGNUM of the FLAGS word is the flag, for each flag, and bits 4:0 are IPL, read and written alike; every other bit
reads 0 (entry 11). So writing back the word read changes nothing; and under the default FLAGNUM a word written reads back with bits
31:13 cleared, as the spec has decided and the model follows (entry 11). -/
def Obligations.FlagsWordRoundTrip : Prop :=
  (∀ s : State, s.cfg.flagNum.wf = true →
    (∀ f : Flag, s.flagsWord.getLsbD (s.cfg.flagNum.of f) = s.flags.get f) ∧ s.flagsWord.extractLsb' 0 5 = s.ipl ∧
    ∀ i, 5 ≤ i → (∀ f : Flag, s.cfg.flagNum.of f ≠ i) → s.flagsWord.getLsbD i = false) ∧
  (∀ (s : State) (w : Word), s.cfg.flagNum.wf = true →
    (∀ f : Flag, (s.writeFlagsWord w).flags.get f = w.getLsbD (s.cfg.flagNum.of f)) ∧ (s.writeFlagsWord w).ipl = w.extractLsb' 0 5) ∧
  (∀ s : State, s.cfg.flagNum.wf = true → s.flags.r = true → s.writeFlagsWord s.flagsWord = s) ∧
  (∀ (s : State) (w : Word), s.cfg.flagNum = defaultFlagNum → (s.writeFlagsWord w).flagsWord = w &&& 0x00001FFF#32)

/-- R470 k, R483, R461, R462, R484: TIMER counts executed instructions down to 0 and is then pending; a pending TIMER waits while IPL is 2
or above, is dropped when interrupts are off, and otherwise is delivered as a step of its own, which clears the pending bit; so it does
when INTRFAULT or the emergency procedure is taken in TIMER's place, the model's choice (entry 45). All this with an empty keyboard
buffer, or with keys waiting that cannot interrupt: IPL 3 or above, or interrupts off. -/
def Obligations.TimerCountsInstructions : Prop :=
  (∀ s u : State, instructionOutcome s = .next u →
    ∃ t, executeOne s = .next t ∧
      (u.timer = 0 → t = u) ∧
      (u.timer ≠ 0 → t = { u with timer := u.timer - 1, timerPending := u.timerPending || u.timer == 1 })) ∧
  (∀ s : State, s.flags.r = true → s.inputs = [] →
    s.keyboard = [] ∨ 3 ≤ s.ipl.toNat ∨ s.flags.int = false ∨ s.intVec = 0 →
    (s.timerPending = false → step s = executeOne s) ∧
    (s.timerPending = true → 2 ≤ s.ipl.toNat → step s = executeOne s) ∧
    (s.timerPending = true → s.ipl.toNat < 2 → s.flags.int = false ∨ s.intVec = 0 →
      step s = executeOne { s with timerPending := false }) ∧
    (∀ t, s.timerPending = true → deliver s ⟨.timer, none, none⟩ s.pc = .taken t → step s = .next { t with timerPending := false }))

/-- R470 a to c, R484, R485, R204. A key pressed before a step joins the end of the keyboard buffer; while that is not empty KEYBD is tried
before TIMER and the instruction, and a delivered KEYBD is the whole step. A PC equal to DEBUG raises DEBUG before the fetch while IPL is
below 15, and the instruction runs as if there were no match from 15 up. An instruction that cannot be fetched raises what reading
at the PC raises, a MEMORY with the physical address that is missing, where R204 names the PC (the model's choice, entry 49); the timer
counts it. Keys waiting while KEYBD cannot be delivered, because IPL is 3 or above or
interrupts are off, change none of this and stay in the buffer. -/
def Obligations.KeyboardInterruptComesFirst : Prop :=
  (∀ s t : State, s.flags.r = true → s.inputs = [] → s.keyboard ≠ [] →
    deliver s ⟨.keybd, none, none⟩ s.pc = .taken t → step s = .next t) ∧
  (∀ (s : State) (c : Byte) (more : List HostInput) (rest : List (List HostInput)), s.flags.r = true →
    s.inputs = (.key c :: more) :: rest → step s = step { s with inputs := more :: rest, keyboard := s.keyboard ++ [c] }) ∧
  (∀ (s : State) (retpc : Word), s.flags.r = true → s.inputs = [] → s.timerPending = false →
    s.keyboard = [] ∨ 3 ≤ s.ipl.toNat ∨ s.flags.int = false ∨ s.intVec = 0 →
    retpc = (match s.cfg.faultPc with | .faulting => s.pc | .following => s.pc + 1) →
    (s.pc = s.debug → s.ipl.toNat < 15 → step s = ticked (stopOutcome s retpc (.raised ⟨.debug, some s.pc, none⟩))) ∧
    (s.pc ≠ s.debug ∨ 15 ≤ s.ipl.toNat →
      (∀ w i, memRead s s.pc = .ok w → decode w = .ok i → step s = ticked (exec i { s with pc := s.pc + 1 })) ∧
      (∀ x, memRead s s.pc = .error (.raised x) → step s = ticked (stopOutcome s retpc (.raised x)) ∧
        (x.address = some s.pc ∨ x.code = .memory ∧ s.flags.vm = true)) ∧
      (∀ x, memRead s s.pc = .error (.refused x) → step s = .refused x)))

/-- R61, R484: control-c ends the run in the debugger; a processor that does not run stays as it is (the model's choice, entry 18). -/
def Obligations.EndOfTheRun : Prop :=
  (∀ s : State, s.flags.r = false → step s = .next s) ∧
  (∀ (s : State) (more : List HostInput) (rest : List (List HostInput)), s.flags.r = true →
    s.inputs = (.controlC :: more) :: rest →
    step s = .next { s with inputs := rest, flags := { s.flags with r := false }, status := .debugger })

/-! ### Address translation -/

/-- R90 to R95: with VM = 0 an address is physical; with VM = 1 and an aligned PDBR the walk takes the directory entry, faults if it is 0,
takes the table entry, faults if it is not valid, faults in user mode on a system page, and joins the page's address and the offset. With
a PDBR that is no multiple of 1024 the model refuses to translate, its own choice (entry 17, U13). -/
def Obligations.TranslationWalk : Prop :=
  ∀ (s : State) (a : Word),
    (s.flags.vm = false → translateAddress s a = .ok a) ∧
    (s.flags.vm = true → s.pdbr &&& 0x3FF#32 = 0 → ∀ dir table : Word,
      memExists s.cfg ((a >>> 22) + s.pdbr) = true → dir = s.mem.readWord ((a >>> 22) + s.pdbr) →
      (dir = 0 → translateAddress s a = .error (.raised ⟨.pagefault, some a, none⟩)) ∧
      (dir ≠ 0 → memExists s.cfg ((dir &&& 0xFFFFF800#32) + (a >>> 11 &&& 0x7FF#32)) = true →
        table = s.mem.readWord ((dir &&& 0xFFFFF800#32) + (a >>> 11 &&& 0x7FF#32)) →
        (table.getLsbD 0 = false → translateAddress s a = .error (.raised ⟨.pagefault, some a, none⟩)) ∧
        (table.getLsbD 0 = true → table.getLsbD 1 = true → s.flags.sys = false →
          translateAddress s a = .error (.raised ⟨.pagepriv, some a, none⟩)) ∧
        (table.getLsbD 0 = true → table.getLsbD 1 = false ∨ s.flags.sys = true →
          translateAddress s a = .ok ((table &&& 0xFFFFF800#32) + (a &&& 0x7FF#32)))) ∧
      (dir ≠ 0 → memExists s.cfg ((dir &&& 0xFFFFF800#32) + (a >>> 11 &&& 0x7FF#32)) = false →
        translateAddress s a = .error (.raised ⟨.memory, some ((dir &&& 0xFFFFF800#32) + (a >>> 11 &&& 0x7FF#32)), none⟩))) ∧
    (s.flags.vm = true → s.pdbr &&& 0x3FF#32 = 0 → memExists s.cfg ((a >>> 22) + s.pdbr) = false →
      translateAddress s a = .error (.raised ⟨.memory, some ((a >>> 22) + s.pdbr), none⟩)) ∧
    (s.flags.vm = true → s.pdbr &&& 0x3FF#32 ≠ 0 → translateAddress s a = .error (.refused .misalignedPageDirectory))

/-- R92, R95, R482: an address that translates keeps its offset in the page; and in user mode with VM = 1 a write goes to the page that the
walk's table entry for its address names, which is valid and not a system page's, and changes no other word and nothing but memory. -/
def Obligations.PagesProtectSystemMemory : Prop :=
  (∀ (s : State) (a p : Word), s.flags.vm = true → translateAddress s a = .ok p → p &&& 0x7FF#32 = a &&& 0x7FF#32) ∧
  (∀ (s t : State) (a v dir table p : Word), s.flags.vm = true → s.flags.sys = false → memWrite s a v = .ok t →
    dir = s.mem.readWord ((a >>> 22) + s.pdbr) →
    table = s.mem.readWord ((dir &&& 0xFFFFF800#32) + (a >>> 11 &&& 0x7FF#32)) →
    p = (table &&& 0xFFFFF800#32) + (a &&& 0x7FF#32) →
    dir ≠ 0 ∧ table.getLsbD 0 = true ∧ table.getLsbD 1 = false ∧
      t = { s with mem := t.mem } ∧ t.mem.readWord p = v ∧ ∀ b, b ≠ p → t.mem.readWord b = s.mem.readWord b)

/-! ### Privilege and operand faults -/

/-- R481, R34, R160, R264: in user mode the privileged operations raise PRIVOP with the instruction's address, SETFL of R, SYS, EM, INT or
VM too, and HALT and NALT raise HALT. -/
def Obligations.PrivilegedOperationsTrap : Prop :=
  ∀ (s : State) (m : Reg) (o : Operand), s.flags.sys = false →
    (∀ i ∈ ([.setsr m o, .peri m o, .iret, .phload m o, .phstore m o, .flagsj m o, .clrpp o] : List Instr),
      exec i s = stopOutcome s s.faultPc (.raised ⟨.privop, some (s.pc - 1), none⟩)) ∧
    (∀ i ∈ ([.halt, .nalt] : List Instr), exec i s = stopOutcome s s.faultPc (.raised ⟨.halt, some (s.pc - 1), none⟩)) ∧
    (∀ f ∈ ([.r, .sys, .em, .int, .vm] : List Flag), s.cfg.flagNum.wf = true →
      operandValue s o = .ok (BitVec.ofNat 32 (s.cfg.flagNum.of f)) →
      exec (.setfl m o) s = stopOutcome s s.faultPc (.raised ⟨.privop, some (s.pc - 1), none⟩))

/-- R164, R470 h: an instruction whose operand cannot be read does nothing but raise what the read raised. For
SETFL in user mode this comes before the privilege check, the model's choice (entry 43). -/
def Obligations.OperandReadFaults : Prop :=
  ∀ (s : State) (m : Reg) (o : Operand) (e : Stop), operandValue s o = .error e →
    (∀ i ∈ ([.load m o, .loadh m o, .inc o, .dec o, .add m o, .sub m o, .mul m o, .div m o, .mod m o, .rsub m o, .rdiv m o, .rmod m o,
        .and m o, .or m o, .xor m o, .not m o, .shl m o, .shr m o, .comp m o, .compz o, .tbit m o, .sbit m o, .cbit m o, .jump o,
        .jzer m o, .jpos m o, .jneg m o, .getfl m o, .setfl m o, .getsr m o, .push o, .call o, .ldch m o, .stch m o, .pause o,
        .syscall m o, .atas m o, .vtran m o, .sign m o, .fadd m o, .fsub m o, .fmul m o, .fdiv m o, .fcomp m o, .fcompz o, .fix m o,
        .frnd m o, .float m o, .flog m o, .fexp m o, .fsqrt m o, .fsin m o, .fcos m o, .fatan m o, .fabs m o, .floor m o,
        .fsign m o, .ffo m o, .flz m o, .trace m o, .type o, .andn m o, .orn m o, .neg m o, .fneg m o, .rotl m o, .rotr m o,
        .asr m o, .exbr m o, .exbrv m o, .dpbr m o, .dpbrv m o, .adjs m o, .uexbr m o, .uexbrv m o, .ucomp m o, .umul m o,
        .udiv m o, .umod m o, .lbitf m o, .lbito m o, .sbitf m o, .sbito m o, .ffnz m o, .sext m o, .intr m o, .mpush o, .mpop o,
        .fgood o] : List Instr),
      exec i s = stopOutcome s s.faultPc e) ∧
    (s.flags.sys = true →
      ∀ i ∈ ([.setsr m o, .peri m o, .flagsj m o, .phload m o, .phstore m o, .clrpp o] : List Instr),
        exec i s = stopOutcome s s.faultPc e)

/-- R12, R470 g: an instruction that writes its operand raises UNWROP when the operand is neither memory nor just a register, before it
reads anything; INC and DEC of the constant 0 are refused (U6). -/
def Obligations.UnwritableOperandTraps : Prop :=
  ∀ (s : State) (m : Reg) (o : Operand),
    (o.indirect = false → ¬ (o.index ≠ 0 ∧ o.number = 0) →
      (∀ i ∈ ([.store m o, .atas m o, .pop o, .inch o, .dpbr m o, .sbito m o, .pmemr m o] : List Instr),
        exec i s = stopOutcome s s.faultPc (.raised ⟨.unwrop, some (s.pc - 1), none⟩)) ∧
      (¬ (o.index = 0 ∧ o.number = 0) → ∀ i ∈ ([.inc o, .dec o] : List Instr),
        exec i s = stopOutcome s s.faultPc (.raised ⟨.unwrop, some (s.pc - 1), none⟩))) ∧
    (o.indirect = false → o.index = 0 → o.number = 0 →
      exec (.inc o) s = .refused .ambiguousIncrement ∧ exec (.dec o) s = .refused .ambiguousIncrement)

/-! ### Integer instructions -/

/-- The results of the instructions that write a function of their register and value to the register, and nothing else; an
operand that cannot be read faults. -/
def Obligations.RegisterResults : Prop :=
  ∀ (s : State) (m : Reg) (o : Operand),
    (∀ e, operandValue s o = .error e →
      ∀ i ∈ ([.load m o, .loadh m o, .add m o, .sub m o, .mul m o, .rsub m o, .and m o, .or m o, .xor m o, .not m o, .sign m o,
        .andn m o, .orn m o, .neg m o, .umul m o] : List Instr), exec i s = stopOutcome s s.faultPc e) ∧
    ∀ v : Word, operandValue s o = .ok v →
    exec (.load m o) s = .next (s.writeReg m v) ∧
    exec (.loadh m o) s = .next (s.writeReg m (v.extractLsb' 0 16 ++ (s.readReg m).extractLsb' 0 16)) ∧
    exec (.add m o) s = .next (s.writeReg m (BitVec.ofNat 32 ((s.readReg m).toNat + v.toNat))) ∧
    exec (.sub m o) s = .next (s.writeReg m (BitVec.ofInt 32 ((s.readReg m).toInt - v.toInt))) ∧
    exec (.mul m o) s = .next (s.writeReg m (BitVec.ofInt 32 ((s.readReg m).toInt * v.toInt))) ∧
    exec (.rsub m o) s = .next (s.writeReg m (BitVec.ofInt 32 (v.toInt - (s.readReg m).toInt))) ∧
    exec (.and m o) s = .next (s.writeReg m (s.readReg m &&& v)) ∧
    exec (.or m o) s = .next (s.writeReg m (s.readReg m ||| v)) ∧
    exec (.xor m o) s = .next (s.writeReg m (s.readReg m ^^^ v)) ∧
    exec (.not m o) s = .next (s.writeReg m (~~~v)) ∧
    exec (.sign m o) s = .next (s.writeReg m (BitVec.ofInt 32 v.toInt.sign)) ∧
    exec (.andn m o) s = .next (s.writeReg m (s.readReg m &&& ~~~v)) ∧
    exec (.orn m o) s = .next (s.writeReg m (s.readReg m ||| ~~~v)) ∧
    exec (.neg m o) s = .next (s.writeReg m (BitVec.ofInt 32 (-v.toInt))) ∧
    exec (.umul m o) s = .next (s.writeReg m (BitVec.ofNat 32 ((s.readReg m).toNat * v.toNat)))

/-- R170 to R174, R187, R321, R322: quotient and remainder. Whatever function SDIV is, the remainder is what the quotient leaves and is
smaller than the divisor; R187 names rounding toward zero, the default, and that a dividend not negative and a positive divisor always
round down. That SDIV is one of three named roundings or any other such function is the model's choice (entry 12). -/
def Obligations.DivisionResults : Prop :=
  ∀ (s : State) (m : Reg) (o : Operand) (v : Word), operandValue s o = .ok v →
    (v ≠ 0 → ¬ (s.readReg m = 0x80000000#32 ∧ v = 0xFFFFFFFF#32) →
      (∃ q : Int, |(s.readReg m).toInt - q * v.toInt| < |v.toInt| ∧
        (0 ≤ (s.readReg m).toInt → 0 < v.toInt → 0 ≤ (s.readReg m).toInt - q * v.toInt) ∧
        exec (.div m o) s = .next (s.writeReg m (BitVec.ofInt 32 q)) ∧
        exec (.mod m o) s = .next (s.writeReg m (BitVec.ofInt 32 ((s.readReg m).toInt - q * v.toInt)))) ∧
      (s.cfg.rounding = .truncate →
        exec (.div m o) s = .next (s.writeReg m (BitVec.ofInt 32 ((s.readReg m).toInt.tdiv v.toInt))) ∧
        exec (.mod m o) s = .next (s.writeReg m (BitVec.ofInt 32 ((s.readReg m).toInt.tmod v.toInt)))) ∧
      (s.cfg.rounding = .floor →
        exec (.div m o) s = .next (s.writeReg m (BitVec.ofInt 32 ((s.readReg m).toInt.fdiv v.toInt))) ∧
        exec (.mod m o) s = .next (s.writeReg m (BitVec.ofInt 32 ((s.readReg m).toInt.fmod v.toInt)))) ∧
      (s.cfg.rounding = .euclid →
        exec (.div m o) s = .next (s.writeReg m (BitVec.ofInt 32 ((s.readReg m).toInt / v.toInt))) ∧
        exec (.mod m o) s = .next (s.writeReg m (BitVec.ofInt 32 ((s.readReg m).toInt % v.toInt))))) ∧
    (s.readReg m ≠ 0 → ¬ (v = 0x80000000#32 ∧ s.readReg m = 0xFFFFFFFF#32) →
      (∃ q : Int, |v.toInt - q * (s.readReg m).toInt| < |(s.readReg m).toInt| ∧
        (0 ≤ v.toInt → 0 < (s.readReg m).toInt → 0 ≤ v.toInt - q * (s.readReg m).toInt) ∧
        exec (.rdiv m o) s = .next (s.writeReg m (BitVec.ofInt 32 q)) ∧
        exec (.rmod m o) s = .next (s.writeReg m (BitVec.ofInt 32 (v.toInt - q * (s.readReg m).toInt)))) ∧
      (s.cfg.rounding = .truncate →
        exec (.rdiv m o) s = .next (s.writeReg m (BitVec.ofInt 32 (v.toInt.tdiv (s.readReg m).toInt))) ∧
        exec (.rmod m o) s = .next (s.writeReg m (BitVec.ofInt 32 (v.toInt.tmod (s.readReg m).toInt)))) ∧
      (s.cfg.rounding = .floor →
        exec (.rdiv m o) s = .next (s.writeReg m (BitVec.ofInt 32 (v.toInt.fdiv (s.readReg m).toInt))) ∧
        exec (.rmod m o) s = .next (s.writeReg m (BitVec.ofInt 32 (v.toInt.fmod (s.readReg m).toInt)))) ∧
      (s.cfg.rounding = .euclid →
        exec (.rdiv m o) s = .next (s.writeReg m (BitVec.ofInt 32 (v.toInt / (s.readReg m).toInt))) ∧
        exec (.rmod m o) s = .next (s.writeReg m (BitVec.ofInt 32 (v.toInt % (s.readReg m).toInt))))) ∧
    (v ≠ 0 →
      exec (.udiv m o) s = .next (s.writeReg m (BitVec.ofNat 32 ((s.readReg m).toNat / v.toNat))) ∧
      exec (.umod m o) s = .next (s.writeReg m (BitVec.ofNat 32 ((s.readReg m).toNat % v.toNat))))

/-- R170 to R174, R321, R322: a zero divisor raises DIVZERO with the instruction's address; the one signed quotient that no word holds
has no next state (U3). -/
def Obligations.DivisionCorners : Prop :=
  ∀ (s : State) (m : Reg) (o : Operand) (v : Word), operandValue s o = .ok v →
    (v = 0 → ∀ i ∈ ([.div m o, .mod m o, .udiv m o, .umod m o] : List Instr),
      exec i s = stopOutcome s s.faultPc (.raised ⟨.divzero, some (s.pc - 1), none⟩)) ∧
    (s.readReg m = 0 → ∀ i ∈ ([.rdiv m o, .rmod m o] : List Instr),
      exec i s = stopOutcome s s.faultPc (.raised ⟨.divzero, some (s.pc - 1), none⟩)) ∧
    (s.readReg m = 0x80000000#32 → v = 0xFFFFFFFF#32 → ∀ i ∈ ([.div m o, .mod m o] : List Instr),
      exec i s = .fault .divisionOverflow) ∧
    (v = 0x80000000#32 → s.readReg m = 0xFFFFFFFF#32 → ∀ i ∈ ([.rdiv m o, .rmod m o] : List Instr),
      exec i s = .fault .divisionOverflow)

/-- R179, R180, R318, R316, R317, R188: shifts and rotations by 0 to 31, with Z telling whether only zeros were shifted out; by any other
count the register receives some word and nothing else changes (U1). -/
def Obligations.ShiftsAndRotations : Prop :=
  ∀ (s : State) (m : Reg) (o : Operand),
    (∀ e, operandValue s o = .error e →
      ∀ i ∈ ([.shl m o, .shr m o, .asr m o, .rotl m o, .rotr m o] : List Instr), exec i s = stopOutcome s s.faultPc e) ∧
    ∀ v : Word, operandValue s o = .ok v →
    (v.toNat < 32 →
      exec (.shl m o) s = .next ((s.setZ (decide (∀ i < v.toNat, (s.readReg m).getLsbD (31 - i) = false))).writeReg m
        (BitVec.ofNat 32 ((s.readReg m).toNat * 2 ^ v.toNat))) ∧
      exec (.shr m o) s = .next ((s.setZ (decide (∀ i < v.toNat, (s.readReg m).getLsbD i = false))).writeReg m
        (BitVec.ofNat 32 ((s.readReg m).toNat / 2 ^ v.toNat))) ∧
      exec (.asr m o) s = .next ((s.setZ (decide (∀ i < v.toNat, (s.readReg m).getLsbD i = false))).writeReg m
        (BitVec.ofInt 32 ((s.readReg m).toInt / 2 ^ v.toNat))) ∧
      exec (.rotl m o) s = .next (s.writeReg m ((s.readReg m).rotateLeft v.toNat)) ∧
      exec (.rotr m o) s = .next (s.writeReg m ((s.readReg m).rotateRight v.toNat))) ∧
    (32 ≤ v.toNat → ∀ i ∈ ([.shl m o, .shr m o, .asr m o, .rotl m o, .rotr m o] : List Instr),
      ∃ w, exec i s = .next { s.writeReg m w with draws := s.draws + 1 })

/-- R181, R182, R319, R183: the comparisons set Z to equal and N to less, signed or unsigned, and TBIT sets Z to the bit; nothing else
changes. A bit number outside 0 to 31 gives Z some value (U2). -/
def Obligations.ComparisonFlags : Prop :=
  ∀ (s : State) (m : Reg) (o : Operand),
    (∀ e, operandValue s o = .error e →
      ∀ i ∈ ([.comp m o, .compz o, .ucomp m o, .tbit m o] : List Instr), exec i s = stopOutcome s s.faultPc e) ∧
    ∀ v : Word, operandValue s o = .ok v →
    exec (.comp m o) s = .next { s with flags := { s.flags with
      z := decide ((s.readReg m).toInt = v.toInt), n := decide ((s.readReg m).toInt < v.toInt) } } ∧
    exec (.compz o) s = .next { s with flags := { s.flags with z := decide (v.toInt = 0), n := decide (v.toInt < 0) } } ∧
    exec (.ucomp m o) s = .next { s with flags := { s.flags with
      z := decide ((s.readReg m).toNat = v.toNat), n := decide ((s.readReg m).toNat < v.toNat) } } ∧
    (v.toNat < 32 → exec (.tbit m o) s = .next { s with flags := { s.flags with z := (s.readReg m).getLsbD v.toNat } }) ∧
    (32 ≤ v.toNat → ∃ b, exec (.tbit m o) s = .next { s with flags := { s.flags with z := b }, draws := s.draws + 1 })

/-- R184, R185, R323: SBIT and CBIT change the one bit, SEXT copies it to every bit on its left; a bit number outside 0 to 31 gives some
word (U2). Nothing but the register changes. -/
def Obligations.BitUpdates : Prop :=
  ∀ (s : State) (m : Reg) (o : Operand),
    (∀ e, operandValue s o = .error e →
      ∀ i ∈ ([.sbit m o, .cbit m o, .sext m o] : List Instr), exec i s = stopOutcome s s.faultPc e) ∧
    ∀ v : Word, operandValue s o = .ok v →
    (v.toNat < 32 →
      (∃ w, exec (.sbit m o) s = .next (s.writeReg m w) ∧
        ∀ i < 32, w.getLsbD i = if i = v.toNat then true else (s.readReg m).getLsbD i) ∧
      (∃ w, exec (.cbit m o) s = .next (s.writeReg m w) ∧
        ∀ i < 32, w.getLsbD i = if i = v.toNat then false else (s.readReg m).getLsbD i) ∧
      (∃ w, exec (.sext m o) s = .next (s.writeReg m w) ∧
        ∀ i < 32, w.getLsbD i = if i ≤ v.toNat then (s.readReg m).getLsbD i else (s.readReg m).getLsbD v.toNat)) ∧
    (32 ≤ v.toNat → ∀ i ∈ ([.sbit m o, .cbit m o, .sext m o] : List Instr),
      ∃ w, exec i s = .next { s.writeReg m w with draws := s.draws + 1 })

/-- R311, R312: FFO finds the leftmost 1 and FLZ the rightmost 0; found, Z and N have some value (U26); not found, the register is -1 and
Z and N are set. -/
def Obligations.FindBit : Prop :=
  ∀ (s : State) (m : Reg) (o : Operand) (v : Word), operandValue s o = .ok v →
    (v = 0 → exec (.ffo m o) s = .next (((s.setZ true).setN true).writeReg m 0xFFFFFFFF#32)) ∧
    (v ≠ 0 → ∃ (k : Nat) (z n : Bool), k < 32 ∧ v.getLsbD k = true ∧ (∀ j < 32, k < j → v.getLsbD j = false) ∧
      exec (.ffo m o) s = .next { ((s.setZ z).setN n).writeReg m (BitVec.ofNat 32 k) with draws := s.draws + 2 }) ∧
    (v = 0xFFFFFFFF#32 → exec (.flz m o) s = .next (((s.setZ true).setN true).writeReg m 0xFFFFFFFF#32)) ∧
    (v ≠ 0xFFFFFFFF#32 → ∃ (k : Nat) (z n : Bool), k < 32 ∧ v.getLsbD k = false ∧ (∀ j < k, v.getLsbD j = true) ∧
      exec (.flz m o) s = .next { ((s.setZ z).setN n).writeReg m (BitVec.ofNat 32 k) with draws := s.draws + 2 })

/-- R330, R331, R332, R336, R337: a bit range is extracted to R0, its top bit repeated or zeros above it; the V forms read the word the
selector skips to; a range that does not lie in one word gives R0 some word (U10). Nothing else changes. When that word cannot be read the V forms do
nothing but raise what the read raised. -/
def Obligations.BitRangesExtract : Prop :=
  ∀ (s : State) (m : Reg) (o : Operand) (v w : Word) (n lo : Nat), operandValue s o = .ok v →
    n = (if (s.readReg m).toNat % 32 = 0 then 32 else (s.readReg m).toNat % 32) → lo = (s.readReg m).toNat / 32 % 32 →
    (lo + n ≤ 32 →
      (∃ x, exec (.exbr m o) s = .next (s.writeReg 0 x) ∧
        ∀ i < 32, x.getLsbD i = if i < n then v.getLsbD (lo + i) else v.getLsbD (lo + n - 1)) ∧
      (∃ x, exec (.uexbr m o) s = .next (s.writeReg 0 x) ∧ ∀ i < 32, x.getLsbD i = if i < n then v.getLsbD (lo + i) else false)) ∧
    (∀ e, memRead s (v + BitVec.ofNat 32 ((s.readReg m).toNat / 1024)) = .error e →
      ∀ i ∈ ([.exbrv m o, .uexbrv m o] : List Instr), exec i s = stopOutcome s s.faultPc e) ∧
    (32 < lo + n → ∀ i ∈ ([.exbr m o, .uexbr m o] : List Instr),
      ∃ x, exec i s = .next { s.writeReg 0 x with draws := s.draws + 1 }) ∧
    (memRead s (v + BitVec.ofNat 32 ((s.readReg m).toNat / 1024)) = .ok w →
      (lo + n ≤ 32 →
        (∃ x, exec (.exbrv m o) s = .next (s.writeReg 0 x) ∧
          ∀ i < 32, x.getLsbD i = if i < n then w.getLsbD (lo + i) else w.getLsbD (lo + n - 1)) ∧
        (∃ x, exec (.uexbrv m o) s = .next (s.writeReg 0 x) ∧
          ∀ i < 32, x.getLsbD i = if i < n then w.getLsbD (lo + i) else false)) ∧
      (32 < lo + n → ∀ i ∈ ([.exbrv m o, .uexbrv m o] : List Instr),
        ∃ x, exec i s = .next { s.writeReg 0 x with draws := s.draws + 1 }))

/-- R330, R333, R334, R335: the low bits of R0 replace the range of a register, of a memory word, or of the word the selector skips to,
and no other bit or word; a range that does not lie in one word leaves there some word (U10). When that word cannot be read or written
DPBRV does nothing but raise that fault. ADJS with the default ADJS_FN, the model's
reading of a decision of the spec (entry 26), moves the selector of an element of a packed array by `value` elements; for a selector
that names no such element and for a result outside the array's 2^22 words the register receives some word (U24), and with any other
ADJS_FN it receives that function's result or some word. -/
def Obligations.BitRangesDepositAndAdjust : Prop :=
  ∀ (s : State) (m : Reg) (o : Operand) (v : Word) (n lo : Nat), operandValue s o = .ok v →
    n = (if (s.readReg m).toNat % 32 = 0 then 32 else (s.readReg m).toNat % 32) → lo = (s.readReg m).toNat / 32 % 32 →
    (lo + n ≤ 32 → o.indirect = false → o.index ≠ 0 → o.number = 0 →
      ∃ x, exec (.dpbr m o) s = .next (s.writeReg o.index x) ∧
        ∀ i < 32, x.getLsbD i = if lo ≤ i ∧ i < lo + n then (s.readReg 0).getLsbD (i - lo) else v.getLsbD i) ∧
    (∀ p, lo + n ≤ 32 → o.indirect = true → storeTarget s (operandTotal s o) = .ok p →
      ∃ x, exec (.dpbr m o) s = .next (s.poke p x) ∧
        ∀ i < 32, x.getLsbD i = if lo ≤ i ∧ i < lo + n then (s.readReg 0).getLsbD (i - lo) else v.getLsbD i) ∧
    (∀ w p, lo + n ≤ 32 → memRead s (v + BitVec.ofNat 32 ((s.readReg m).toNat / 1024)) = .ok w →
      storeTarget s (v + BitVec.ofNat 32 ((s.readReg m).toNat / 1024)) = .ok p →
      ∃ x, exec (.dpbrv m o) s = .next (s.poke p x) ∧
        ∀ i < 32, x.getLsbD i = if lo ≤ i ∧ i < lo + n then (s.readReg 0).getLsbD (i - lo) else w.getLsbD i) ∧
    (∀ e, memRead s (v + BitVec.ofNat 32 ((s.readReg m).toNat / 1024)) = .error e ∨
        (∃ w, memRead s (v + BitVec.ofNat 32 ((s.readReg m).toNat / 1024)) = .ok w) ∧
          storeTarget s (v + BitVec.ofNat 32 ((s.readReg m).toNat / 1024)) = .error e →
      exec (.dpbrv m o) s = stopOutcome s s.faultPc e) ∧
    (32 < lo + n → ∃ x : Word,
      (o.indirect = false → o.index ≠ 0 → o.number = 0 →
        exec (.dpbr m o) s = .next { s.writeReg o.index x with draws := s.draws + 1 }) ∧
      (∀ p, o.indirect = true → storeTarget s (operandTotal s o) = .ok p →
        exec (.dpbr m o) s = .next { s.poke p x with draws := s.draws + 1 }) ∧
      (∀ w p, memRead s (v + BitVec.ofNat 32 ((s.readReg m).toNat / 1024)) = .ok w →
        storeTarget s (v + BitVec.ofNat 32 ((s.readReg m).toNat / 1024)) = .ok p →
        exec (.dpbrv m o) s = .next { s.poke p x with draws := s.draws + 1 })) ∧
    (s.cfg.adjs = .packedArray →
      (∀ (e : Nat) (p : Int), lo = e * n → e < 32 / n → p = ((s.readReg m).toNat / 1024 * (32 / n) + e : Nat) + v.toInt →
        (0 ≤ p → p.toNat / (32 / n) < 2 ^ 22 →
          ∃ x, exec (.adjs m o) s = .next (s.writeReg m x) ∧ x.toNat % 32 = (s.readReg m).toNat % 32 ∧
            x.toNat / 32 % 32 = p.toNat % (32 / n) * n ∧ x.toNat / 1024 = p.toNat / (32 / n)) ∧
        (p < 0 ∨ 2 ^ 22 ≤ p.toNat / (32 / n) → ∃ x, exec (.adjs m o) s = .next { s.writeReg m x with draws := s.draws + 1 })) ∧
      ((∀ e < 32 / n, lo ≠ e * n) → ∃ x, exec (.adjs m o) s = .next { s.writeReg m x with draws := s.draws + 1 })) ∧
    (∃ x d, exec (.adjs m o) s = .next { s.writeReg m x with draws := d })

/-! ### Memory, registers and control -/

/-- R163, R165, R166, R252, R263, with a bare register as destination: only registers change, and INCH takes one character. -/
def Obligations.RegisterDestinations : Prop :=
  ∀ (s : State) (m : Reg) (o : Operand), o.indirect = false → o.index ≠ 0 → o.number = 0 →
    exec (.store m o) s = .next (s.writeReg o.index (s.readReg m)) ∧
    exec (.inc o) s = .next (s.writeReg o.index (s.readReg o.index + 1)) ∧
    exec (.dec o) s = .next (s.writeReg o.index (s.readReg o.index - 1)) ∧
    exec (.atas m o) s = .next ((s.writeReg m (s.readReg o.index)).writeReg o.index 1) ∧
    (s.keyboard = [] → exec (.inch o) s = .next (s.writeReg o.index 0xFFFFFFFF#32)) ∧
    (∀ c rest, s.keyboard = c :: rest →
      exec (.inch o) s = .next { s.writeReg o.index (BitVec.ofNat 32 c.toNat) with keyboard := rest })

/-- R163, R165, R166, R252, R263, with a memory word as destination: the word at the address the destination translates to receives the
result; every other word of memory, and everything else but what the rule names, is as before. When the store faults (R164, R470 j)
these instructions, DPBR and SBITO do nothing but raise what it raised. -/
def Obligations.MemoryDestinations : Prop :=
  (∀ (s : State) (m : Reg) (o : Operand) (e : Stop), o.indirect = true → storeTarget s (operandTotal s o) = .error e →
    exec (.store m o) s = stopOutcome s s.faultPc e ∧ exec (.inch o) s = stopOutcome s s.faultPc e ∧
    ∀ v, operandValue s o = .ok v → ∀ i ∈ ([.inc o, .dec o, .atas m o, .dpbr m o, .sbito m o] : List Instr),
      exec i s = stopOutcome s s.faultPc e) ∧
  ∀ (s : State) (m : Reg) (o : Operand) (p v : Word), o.indirect = true → storeTarget s (operandTotal s o) = .ok p →
    exec (.store m o) s = .next (s.poke p (s.readReg m)) ∧
    (s.keyboard = [] → exec (.inch o) s = .next (s.poke p 0xFFFFFFFF#32)) ∧
    (∀ c rest, s.keyboard = c :: rest → exec (.inch o) s = .next { s.poke p (BitVec.ofNat 32 c.toNat) with keyboard := rest }) ∧
    (operandValue s o = .ok v →
      v = s.mem.readWord p ∧
      exec (.inc o) s = .next (s.poke p (v + 1)) ∧
      exec (.dec o) s = .next (s.poke p (v - 1)) ∧
      exec (.atas m o) s = .next ((s.poke p 1).writeReg m v)) ∧
    (∀ x a, (s.poke p x).mem.readWord a = if a = p then x else s.mem.readWord a) ∧
    (∀ x, s.poke p x = { s with mem := (s.poke p x).mem })

/-- R200 to R205, in part decisions of the spec: a taken jump sets PC to the operand's value, one not taken changes nothing, and no jump
changes anything else; an operand that cannot be read faults, taken or not (the spec's decision D25). JCOND with a code that has no test
is refused (U5, entry 41). -/
def Obligations.Jumps : Prop :=
  ∀ (s : State) (m : Reg) (c : Fin 16) (o : Operand),
    (∀ e, operandValue s o = .error e →
      (∀ i ∈ ([.jump o, .jzer m o, .jpos m o, .jneg m o] : List Instr), exec i s = stopOutcome s s.faultPc e) ∧
      (c.val < 6 ∨ c = s.cfg.jcondErr → exec (.jcond c o) s = stopOutcome s s.faultPc e)) ∧
    ∀ v : Word, operandValue s o = .ok v →
    exec (.jump o) s = .next { s with pc := v } ∧
    exec (.jzer m o) s = .next (if s.readReg m = 0 then { s with pc := v } else s) ∧
    exec (.jpos m o) s = .next (if 0 ≤ (s.readReg m).toInt then { s with pc := v } else s) ∧
    exec (.jneg m o) s = .next (if (s.readReg m).toInt < 0 then { s with pc := v } else s) ∧
    (c = 0 → exec (.jcond c o) s = .next (if s.flags.z = true then { s with pc := v } else s)) ∧
    (c = 1 → exec (.jcond c o) s = .next (if s.flags.z = false then { s with pc := v } else s)) ∧
    (c = 2 → exec (.jcond c o) s = .next (if s.flags.n = true then { s with pc := v } else s)) ∧
    (c = 3 → exec (.jcond c o) s = .next (if s.flags.z = true ∨ s.flags.n = true then { s with pc := v } else s)) ∧
    (c = 4 → exec (.jcond c o) s = .next (if s.flags.z = false ∧ s.flags.n = false then { s with pc := v } else s)) ∧
    (c = 5 → exec (.jcond c o) s = .next (if s.flags.n = false then { s with pc := v } else s)) ∧
    (6 ≤ c.val → c = s.cfg.jcondErr → exec (.jcond c o) s = .next (if s.flags.err = true then { s with pc := v } else s)) ∧
    (6 ≤ c.val → c ≠ s.cfg.jcondErr → exec (.jcond c o) s = .refused .undefinedCondition)

/-- R210, R211, R34: GETFL reads the flag a number names; SETFL writes it, 0 for off and anything else for on, in system mode any flag and
in user mode Z, N and ERR; clearing R halts. A number that names no flag gives GETFL a free 0 or 1 and is refused by SETFL (U12). -/
def Obligations.FlagInstructions : Prop :=
  ∀ (s : State) (m : Reg) (o : Operand) (v : Word), s.cfg.flagNum.wf = true → operandValue s o = .ok v →
    (∀ f : Flag, v.toNat = s.cfg.flagNum.of f →
      exec (.getfl m o) s = .next (s.writeReg m (if s.flags.get f = true then 1 else 0)) ∧
      (s.flags.sys = true ∨ f = .z ∨ f = .n ∨ f = .err →
        exec (.setfl m o) s = .next { s with
          flags := s.flags.set (s.readReg m != 0) f
          status := if (s.flags.set (s.readReg m != 0) f).r = true then s.status else .halted })) ∧
    ((∀ f : Flag, v.toNat ≠ s.cfg.flagNum.of f) →
      (∃ b : Bool, exec (.getfl m o) s = .next { s.writeReg m (if b = true then 1 else 0) with draws := s.draws + 1 }) ∧
      exec (.setfl m o) s = .refused .notAFlag)

/-- R212, R213, R56, R32, R23, R24, R40: GETSR reads and, in system mode, SETSR writes the special register a number names. What was
written reads back, from IPL its low five bits. A number that names none gives GETSR some word and is refused by SETSR (U14). Each name
stands for the cell the hardware uses, and SETSR writes that cell and nothing else; registers 13 and 14 are the banked ones. -/
def Obligations.SpecialRegisterInstructions : Prop :=
  (∀ (s : State) (m : Reg) (o : Operand) (v : Word), operandValue s o = .ok v →
    (∀ x : SpecialReg, s.cfg.srNum[v.toNat]? = some x →
      exec (.getsr m o) s = .next (s.writeReg m (s.readSpecial x)) ∧
      (s.flags.sys = true → exec (.setsr m o) s = .next (s.writeSpecial (s.readReg m) x))) ∧
    (s.cfg.srNum[v.toNat]? = none →
      (∃ w, exec (.getsr m o) s = .next { s.writeReg m w with draws := s.draws + 1 }) ∧
      (s.flags.sys = true → exec (.setsr m o) s = .refused .notASpecialRegister))) ∧
  (∀ (s : State) (w : Word) (x : SpecialReg), x ≠ .flags → x ≠ .ipl →
    (s.writeSpecial w x).readSpecial x = w ∧ (s.writeSpecial w x).flagsWord = s.flagsWord ∧
    ∀ y, y ≠ x → y ≠ .flags → (s.writeSpecial w x).readSpecial y = s.readSpecial y) ∧
  (∀ (s : State) (w : Word), (s.writeSpecial w .ipl).readSpecial .ipl = w &&& 31 ∧ (s.writeSpecial w .ipl).flags = s.flags) ∧
  (∀ s : State, s.readSpecial .flags = s.flagsWord ∧ s.readSpecial .pdbr = s.pdbr ∧ s.readSpecial .intvec = s.intVec ∧
    s.readSpecial .cgbr = s.cgBr ∧ s.readSpecial .cglen = s.cgLen ∧ s.readSpecial .debug = s.debug ∧ s.readSpecial .timer = s.timer ∧
    s.readSpecial .syssp = s.sysSp ∧ s.readSpecial .sysfp = s.sysFp ∧ s.readSpecial .usrsp = s.usrSp ∧ s.readSpecial .usrfp = s.usrFp ∧
    s.readSpecial .watch = s.watch ∧ s.readSpecial .exitcode = s.exitCode ∧ s.readSpecial .ipl = BitVec.ofNat 32 s.ipl.toNat ∧
    s.readSpecial .emgret = s.emgRet) ∧
  (∀ (s : State) (w : Word),
    s.writeSpecial w .flags = { s with
      flags := flagsOfWord s.cfg.flagNum w, ipl := w.extractLsb' 0 5
      status := if (flagsOfWord s.cfg.flagNum w).r = true then s.status else .halted } ∧
    s.writeSpecial w .pdbr = { s with pdbr := w } ∧ s.writeSpecial w .intvec = { s with intVec := w } ∧
    s.writeSpecial w .cgbr = { s with cgBr := w } ∧ s.writeSpecial w .cglen = { s with cgLen := w } ∧
    s.writeSpecial w .debug = { s with debug := w } ∧ s.writeSpecial w .timer = { s with timer := w } ∧
    s.writeSpecial w .syssp = { s with sysSp := w } ∧ s.writeSpecial w .sysfp = { s with sysFp := w } ∧
    s.writeSpecial w .usrsp = { s with usrSp := w } ∧ s.writeSpecial w .usrfp = { s with usrFp := w } ∧
    s.writeSpecial w .watch = { s with watch := w } ∧ s.writeSpecial w .exitcode = { s with exitCode := w } ∧
    s.writeSpecial w .ipl = { s with ipl := w.extractLsb' 0 5 } ∧ s.writeSpecial w .emgret = { s with emgRet := w }) ∧
  (∀ s : State, s.readReg 13 = s.readSpecial (if s.flags.sys = true then .syssp else .usrsp) ∧
    (s.cfg.fpBanked = true → s.readReg 14 = s.readSpecial (if s.flags.sys = true then .sysfp else .usrfp)))

/-- R220 to R223: the stack. PUSH and CALL store below SP, POP and RET read at SP, and SP of the current mode moves by one; the store goes
to the address that `SP - 1` translates to. `POP SP` leaves SP some word (U7). When the stack cannot be read or written, or POP's
destination cannot be written, the instruction does nothing but raise that fault. -/
def Obligations.StackInstructions : Prop :=
  ∀ (s : State) (o : Operand) (v w p q : Word),
    (operandValue s o = .ok v → storeTarget s (s.readReg 13 - 1) = .ok p →
      exec (.push o) s = .next ((s.poke p v).writeReg 13 (s.readReg 13 - 1)) ∧
      exec (.call o) s = .next { (s.poke p s.pc).writeReg 13 (s.readReg 13 - 1) with pc := v }) ∧
    (memRead s (s.readReg 13) = .ok w →
      exec .ret s = .next { s.writeReg 13 (s.readReg 13 + 1) with pc := w } ∧
      (o.indirect = false → o.number = 0 → o.index ≠ 0 → o.index ≠ 13 →
        exec (.pop o) s = .next ((s.writeReg o.index w).writeReg 13 (s.readReg 13 + 1))) ∧
      (o.indirect = false → o.number = 0 → o.index = 13 →
        ∃ x, exec (.pop o) s = .next { s.writeReg 13 x with draws := s.draws + 1 }) ∧
      (o.indirect = true → storeTarget s (operandTotal s o) = .ok q →
        exec (.pop o) s = .next ((s.poke q w).writeReg 13 (s.readReg 13 + 1)))) ∧
    (∀ e, storeTarget s (s.readReg 13 - 1) = .error e → operandValue s o = .ok v →
      exec (.push o) s = stopOutcome s s.faultPc e ∧ exec (.call o) s = stopOutcome s s.faultPc e) ∧
    (∀ e, memRead s (s.readReg 13) = .error e → exec .ret s = stopOutcome s s.faultPc e ∧
      (o.indirect = true ∨ o.index ≠ 0 ∧ o.number = 0 → exec (.pop o) s = stopOutcome s s.faultPc e)) ∧
    (∀ e, memRead s (s.readReg 13) = .ok w → o.indirect = true → storeTarget s (operandTotal s o) = .error e →
      exec (.pop o) s = stopOutcome s s.faultPc e)

/-- R290, R291, R98: MPUSH stores as many words as its mask has bits, the k-th register named, lowest number first, at the logical address
k + 1 below SP, each through the tables as the words before it left them (`x k` is the state after k words), and SP moves below them;
MPOP loads the same registers in the opposite order from any stack that can be read. No other register, no other mode's SP or FP and no
other word changes, and a stack word that cannot be written or read stops the whole instruction with nothing changed. So with VM = 0 an
MPOP straight after an MPUSH with the same mask restores every register and SP. A mask bit with no meaning is refused (U11). -/
def Obligations.MultipleRegisters : Prop :=
  ∀ (s : State) (o : Operand) (mask : Word) (rs : List Reg), operandValue s o = .ok mask →
    rs = (List.finRange 16).filter (fun r => mask.getLsbD r.val) →
    (mask &&& 0xFFFFA000#32 ≠ 0 → exec (.mpush o) s = .refused .undefinedStackMask ∧ exec (.mpop o) s = .refused .undefinedStackMask) ∧
    (mask &&& 0xFFFFA000#32 = 0 →
      (∀ x : Nat → State, x 0 = s →
        ((∀ k < rs.length, memWrite (x k) (s.readReg 13 - BitVec.ofNat 32 (k + 1)) (s.readReg (rs.getD k 0)) = .ok (x (k + 1))) →
          exec (.mpush o) s = .next ((x rs.length).writeReg 13 (s.readReg 13 - BitVec.ofNat 32 rs.length))) ∧
        (∀ (j : Nat) (e : Stop), j < rs.length →
          (∀ k < j, memWrite (x k) (s.readReg 13 - BitVec.ofNat 32 (k + 1)) (s.readReg (rs.getD k 0)) = .ok (x (k + 1))) →
          memWrite (x j) (s.readReg 13 - BitVec.ofNat 32 (j + 1)) (s.readReg (rs.getD j 0)) = .error e →
          exec (.mpush o) s = stopOutcome s s.faultPc e)) ∧
      (s.flags.vm = false →
        (∀ k < rs.length, memExists s.cfg (s.readReg 13 - BitVec.ofNat 32 (k + 1)) = true ∧
          watchHit s (s.readReg 13 - BitVec.ofNat 32 (k + 1)) = false) →
        ∃ t, exec (.mpush o) s = .next t ∧
          t = { s.writeReg 13 (s.readReg 13 - BitVec.ofNat 32 rs.length) with mem := t.mem } ∧
          (∀ k < rs.length, t.mem.readWord (s.readReg 13 - BitVec.ofNat 32 (k + 1)) = s.readReg (rs.getD k 0)) ∧
          (∀ a, (∀ k < rs.length, a ≠ s.readReg 13 - BitVec.ofNat 32 (k + 1)) → t.mem.readWord a = s.mem.readWord a) ∧
          (operandValue t o = .ok mask → exec (.mpop o) t = .next { s with mem := t.mem })) ∧
      (∀ w : Nat → Word, (∀ k < rs.length, memRead s (s.readReg 13 + BitVec.ofNat 32 k) = .ok (w k)) →
        ∃ t, exec (.mpop o) s = .next t ∧
          (∀ k < rs.length, t.readReg (rs.getD k 0) = w (rs.length - 1 - k)) ∧
          t.readReg 13 = s.readReg 13 + BitVec.ofNat 32 rs.length ∧
          (∀ q : Reg, q ∉ rs → q ≠ 13 → t.readReg q = s.readReg q) ∧
          t = { s with
            regs := t.regs, sysSp := t.sysSp, usrSp := t.usrSp, sysFp := t.sysFp, usrFp := t.usrFp, plainFp := t.plainFp } ∧
          (s.cfg.fpBanked = true → t.plainFp = s.plainFp) ∧ (s.cfg.fpBanked = false → t.sysFp = s.sysFp ∧ t.usrFp = s.usrFp) ∧
          (s.flags.sys = true → t.usrSp = s.usrSp ∧ (s.cfg.fpBanked = true → t.usrFp = s.usrFp)) ∧
          (s.flags.sys = false → t.sysSp = s.sysSp ∧ (s.cfg.fpBanked = true → t.sysFp = s.sysFp))) ∧
      (∀ (k : Nat) (e : Stop), k < rs.length → (∀ j < k, ∃ w, memRead s (s.readReg 13 + BitVec.ofNat 32 j) = .ok w) →
        memRead s (s.readReg 13 + BitVec.ofNat 32 k) = .error e → exec (.mpop o) s = stopOutcome s s.faultPc e))

/-- R233: SYSCALL. A code outside 0 to CGLEN - 1 raises BADCALL with the code as information; otherwise the gate's word is the new PC,
after the 21-word frame with the main register's number, the code and 0 was pushed on the system stack and SYS set. A gate whose physical
address does not exist raises MEMORY. Whatever VM is, the words are written one after another as system-mode accesses, each through the
tables as the words before it left them (`x k` is the state after k words, R98), and one that cannot be written stops the instruction
with nothing changed. -/
def Obligations.SyscallEntersGate : Prop :=
  ∀ (s : State) (m : Reg) (o : Operand) (code : Word), operandValue s o = .ok code →
    (code.toInt < 0 ∨ s.cgLen.toInt ≤ code.toInt →
      exec (.syscall m o) s = stopOutcome s s.faultPc (.raised ⟨.badcall, some (s.pc - 1), some code⟩)) ∧
    (0 ≤ code.toInt → code.toInt < s.cgLen.toInt → memExists s.cfg (s.cgBr + code) = true → s.flags.vm = false →
      (∀ k < 21, memExists s.cfg (s.sysSp - BitVec.ofNat 32 (k + 1)) = true ∧
        watchHit s (s.sysSp - BitVec.ofNat 32 (k + 1)) = false) →
      ∃ t, exec (.syscall m o) s = .next t ∧
        t = { s with
          mem := t.mem, flags := { s.flags with sys := true }, sysSp := s.sysSp - 21, pc := s.mem.readWord (s.cgBr + code) } ∧
        t.mem.readWord t.sysSp = s.pc ∧ t.mem.readWord (t.sysSp + 1) = 38 ∧ t.mem.readWord (t.sysSp + 2) = s.flagsWord ∧
        t.mem.readWord (t.sysSp + 3) = 0 ∧ t.mem.readWord (t.sysSp + 4) = code ∧
        t.mem.readWord (t.sysSp + 5) = BitVec.ofNat 32 m.val ∧
        t.mem.readWord (t.sysSp + 6) = s.readReg 14 ∧ t.mem.readWord (t.sysSp + 7) = s.readReg 13 ∧
        (∀ k : Fin 13, t.mem.readWord (t.sysSp + BitVec.ofNat 32 (20 - k.val)) = s.regs[k]) ∧
        (∀ a, (∀ k < 21, a ≠ t.sysSp + BitVec.ofNat 32 k) → t.mem.readWord a = s.mem.readWord a)) ∧
    (0 ≤ code.toInt → code.toInt < s.cgLen.toInt → memExists s.cfg (s.cgBr + code) = false →
      exec (.syscall m o) s = stopOutcome s s.faultPc (.raised ⟨.memory, some (s.cgBr + code), none⟩)) ∧
    (0 ≤ code.toInt → code.toInt < s.cgLen.toInt → memExists s.cfg (s.cgBr + code) = true →
      ∀ (x : Nat → State) (frame : List Word), x 0 = { s with flags := { s.flags with sys := true } } →
        frame = s.regs.toList ++ [s.readReg 13, s.readReg 14, BitVec.ofNat 32 m.val, code, 0, s.flagsWord, 38, s.pc] →
        ((∀ k < 21, memWrite (x k) (s.sysSp - BitVec.ofNat 32 (k + 1)) (frame.getD k 0) = .ok (x (k + 1))) →
          exec (.syscall m o) s = .next { x 21 with sysSp := s.sysSp - 21, pc := s.mem.readWord (s.cgBr + code) }) ∧
        (∀ (j : Nat) (e : Stop), j < 21 →
          (∀ k < j, memWrite (x k) (s.sysSp - BitVec.ofNat 32 (k + 1)) (frame.getD k 0) = .ok (x (k + 1))) →
          memWrite (x j) (s.sysSp - BitVec.ofNat 32 (j + 1)) (frame.getD j 0) = .error e →
          exec (.syscall m o) s = stopOutcome s s.faultPc e))

/-- R231, R232: in system mode FLAGSJ replaces the whole FLAGS word and jumps; IRET restores PC, FLAGS, FP, SP and R0 to R12 from the frame
at SYSSP, the stack and frame pointers in the bank of the restored mode: with VM = 0, and whatever VM is from the words `w k` that the
frame's addresses read, there with either value of FP_BANKED. When one of those words cannot be read IRET does nothing but raise that fault. -/
def Obligations.FlagsjAndIret : Prop :=
  (∀ (s : State) (m : Reg) (o : Operand) (v : Word), s.flags.sys = true → operandValue s o = .ok v →
    exec (.flagsj m o) s = .next { s with
      flags := flagsOfWord s.cfg.flagNum (s.readReg m), ipl := (s.readReg m).extractLsb' 0 5, pc := v
      status := if (flagsOfWord s.cfg.flagNum (s.readReg m)).r = true then s.status else .halted }) ∧
  (∀ (s : State) (f : Word), s.flags.sys = true → s.flags.vm = false →
    (∀ k < 21, k = 0 ∨ k = 2 ∨ 6 ≤ k → memExists s.cfg (s.sysSp + BitVec.ofNat 32 k) = true) →
    f = s.mem.readWord (s.sysSp + 2) → s.cfg.fpBanked = true →
    ∃ t, exec .iret s = .next t ∧ t.pc = s.mem.readWord s.sysSp ∧ t.flags = flagsOfWord s.cfg.flagNum f ∧ t.ipl = f.extractLsb' 0 5 ∧
      (∀ k : Fin 13, t.regs[k] = s.mem.readWord (s.sysSp + BitVec.ofNat 32 (20 - k.val))) ∧
      (t.flags.sys = false → t.usrSp = s.mem.readWord (s.sysSp + 7) ∧ t.usrFp = s.mem.readWord (s.sysSp + 6) ∧
        t.sysSp = s.sysSp + 21 ∧ t.sysFp = s.sysFp) ∧
      (t.flags.sys = true → t.sysFp = s.mem.readWord (s.sysSp + 6) ∧ t.usrSp = s.usrSp ∧ t.usrFp = s.usrFp ∧
        (t.sysSp = s.sysSp + 21 ∨ t.sysSp = s.mem.readWord (s.sysSp + 7))) ∧
      t.mem = s.mem ∧ t.pdbr = s.pdbr ∧ t.intVec = s.intVec ∧ t.cgBr = s.cgBr ∧ t.cgLen = s.cgLen ∧ t.debug = s.debug ∧
      t.timer = s.timer ∧ t.watch = s.watch ∧ t.exitCode = s.exitCode ∧ t.emgRet = s.emgRet) ∧
  (∀ (s : State) (w : Nat → Word), s.flags.sys = true →
    (∀ k < 21, k = 0 ∨ k = 2 ∨ 6 ≤ k → memRead s (s.sysSp + BitVec.ofNat 32 k) = .ok (w k)) →
    ∃ t, exec .iret s = .next t ∧
      (∀ k : Fin 13, t.regs[k] = w (20 - k.val)) ∧
      (t.flags.sys = false → t.usrSp = w 7 ∧ t.sysSp = s.sysSp + 21) ∧
      (t.flags.sys = true → t.usrSp = s.usrSp ∧ (t.sysSp = s.sysSp + 21 ∨ t.sysSp = w 7)) ∧
      (s.cfg.fpBanked = true → t.plainFp = s.plainFp ∧ (t.flags.sys = false → t.usrFp = w 6 ∧ t.sysFp = s.sysFp) ∧
        (t.flags.sys = true → t.sysFp = w 6 ∧ t.usrFp = s.usrFp)) ∧
      (s.cfg.fpBanked = false → t.plainFp = w 6 ∧ t.sysFp = s.sysFp ∧ t.usrFp = s.usrFp) ∧
      t = { s with
        pc := w 0, flags := flagsOfWord s.cfg.flagNum (w 2), ipl := (w 2).extractLsb' 0 5, regs := t.regs, sysSp := t.sysSp
        usrSp := t.usrSp, sysFp := t.sysFp, usrFp := t.usrFp, plainFp := t.plainFp, draws := t.draws
        status := if (flagsOfWord s.cfg.flagNum (w 2)).r = true then s.status else .halted }) ∧
  (∀ (s : State) (k : Nat) (e : Stop), s.flags.sys = true → k < 21 → (k = 0 ∨ k = 2 ∨ 6 ≤ k) →
    memRead s (s.sysSp + BitVec.ofNat 32 k) = .error e →
    (∀ j < 21, j ≠ k → ∃ w, memRead s (s.sysSp + BitVec.ofNat 32 j) = .ok w) → exec .iret s = stopOutcome s s.faultPc e)

/-! ### System, console, physical memory -/

/-- R160, R264, R258, R250, R251, R260, R261, R262: in system mode HALT and NALT clear R and halt; NOP changes nothing, PAUSE nothing but
evaluate its operand; BREAK ends the run in the debugger; TRACE and TYPE are host events; RAND gives a positive word. -/
def Obligations.SimpleSystemInstructions : Prop :=
  ∀ (s : State) (m : Reg) (o : Operand) (v : Word),
    (s.flags.sys = true → ∀ i ∈ ([.halt, .nalt] : List Instr),
      exec i s = .next { s with flags := { s.flags with r := false }, status := .halted }) ∧
    exec .nop s = .next s ∧
    exec .breakpoint s = .next { s with
      flags := { s.flags with r := false }, status := .debugger, events := s.events ++ [.breakEntered (s.pc - 1)] } ∧
    (∃ w, 0 < w.toInt ∧ exec (.rand m) s = .next { s.writeReg m w with draws := s.draws + 1 }) ∧
    (operandValue s o = .ok v →
      exec (.pause o) s = .next s ∧
      exec (.trace m o) s = .next { s with events := s.events ++ [.trace (s.pc - 1) (s.readReg m) v] } ∧
      exec (.type o) s = .next { s with events := s.events ++ [.consoleOut v] })

/-- R253, R254, R255: in system mode PHLOAD and PHSTORE reach physical memory at the operand's value, MEMORY if it does not exist and WATCH
if PHSTORE's address exists and is watched, which the model compares with WATCH as a physical address whatever WATCH_SPACE is and after
the existence check (its choices, entries 15 and 16); VTRAN gives the address the walk gives, in either mode, and has no next state
where the walk faults (U18). -/
def Obligations.PhysicalMemoryInstructions : Prop :=
  ∀ (s : State) (m : Reg) (o : Operand) (v p : Word), operandValue s o = .ok v →
    (s.flags.sys = true → memExists s.cfg v = true →
      exec (.phload m o) s = .next (s.writeReg m (s.mem.readWord v)) ∧
      (watchHit s v = false → exec (.phstore m o) s = .next (s.poke v (s.readReg m)))) ∧
    (s.flags.sys = true → memExists s.cfg v = false →
      exec (.phload m o) s = stopOutcome s s.faultPc (.raised ⟨.memory, some v, none⟩) ∧
      exec (.phstore m o) s = stopOutcome s s.faultPc (.raised ⟨.memory, some v, none⟩)) ∧
    (s.flags.sys = true → memExists s.cfg v = true → watchHit s v = true →
      exec (.phstore m o) s = stopOutcome s s.faultPc (.raised ⟨.watch, some v, none⟩)) ∧
    (translateAddress { s with flags := { s.flags with vm := true } } v = .ok p → exec (.vtran m o) s = .next (s.writeReg m p)) ∧
    (∀ x, translateAddress { s with flags := { s.flags with vm := true } } v = .error (.raised x) →
      exec (.vtran m o) s = .fault .translationFailed)

/-- R256: CLRPP zeroes the 2048 words of the physical page that holds the operand's value, and nothing else, when the page exists and is
not watched; MEMORY if the address itself does not exist. In a page that exists a watched word raises WATCH with the words before it
zeroed (R471). A page with a missing word raises MEMORY with the address of the first, and each of the words before that is zeroed or not
(U29), a watched one too: U29 makes no exception for it, and so no WATCH comes first (DEDUCED, entry 37). -/
def Obligations.ClrppClearsOnePage : Prop :=
  ∀ (s : State) (o : Operand) (v : Word), s.flags.sys = true → operandValue s o = .ok v →
    ((∀ k < 2048, memExists s.cfg ((v &&& 0xFFFFF800#32) + BitVec.ofNat 32 k) = true ∧
        watchHit s ((v &&& 0xFFFFF800#32) + BitVec.ofNat 32 k) = false) →
      ∃ t, exec (.clrpp o) s = .next t ∧ t = { s with mem := t.mem } ∧
        ∀ a, t.mem.readWord a = if a &&& 0xFFFFF800#32 = v &&& 0xFFFFF800#32 then 0 else s.mem.readWord a) ∧
    (∀ k < 2048,
      ((∀ j < 2048, memExists s.cfg ((v &&& 0xFFFFF800#32) + BitVec.ofNat 32 j) = true) →
        watchHit s ((v &&& 0xFFFFF800#32) + BitVec.ofNat 32 k) = true →
        ∃ t, t = { s with mem := t.mem } ∧
          (∀ j < k, t.mem.readWord ((v &&& 0xFFFFF800#32) + BitVec.ofNat 32 j) = 0) ∧
          (∀ a, (∀ j < k, a ≠ (v &&& 0xFFFFF800#32) + BitVec.ofNat 32 j) → t.mem.readWord a = s.mem.readWord a) ∧
          exec (.clrpp o) s =
            stopOutcome t s.faultPc (.raised ⟨.watch, some ((v &&& 0xFFFFF800#32) + BitVec.ofNat 32 k), none⟩)) ∧
      (memExists s.cfg v = true → (∀ j < k, memExists s.cfg ((v &&& 0xFFFFF800#32) + BitVec.ofNat 32 j) = true) →
        memExists s.cfg ((v &&& 0xFFFFF800#32) + BitVec.ofNat 32 k) = false →
        ∃ t, t = { s with mem := t.mem, draws := s.draws + k } ∧
          (∀ j < k, t.mem.readWord ((v &&& 0xFFFFF800#32) + BitVec.ofNat 32 j) = 0 ∨
            t.mem.readWord ((v &&& 0xFFFFF800#32) + BitVec.ofNat 32 j) = s.mem.readWord ((v &&& 0xFFFFF800#32) + BitVec.ofNat 32 j)) ∧
          (∀ a, (∀ j < k, a ≠ (v &&& 0xFFFFF800#32) + BitVec.ofNat 32 j) → t.mem.readWord a = s.mem.readWord a) ∧
          exec (.clrpp o) s =
            stopOutcome t s.faultPc (.raised ⟨.memory, some ((v &&& 0xFFFFF800#32) + BitVec.ofNat 32 k), none⟩))) ∧
    (memExists s.cfg v = false → exec (.clrpp o) s = stopOutcome s s.faultPc (.raised ⟨.memory, some v, none⟩))

/-- R257: PMEMR writes, one word after another from the operand's address upward, as much of the list of areas as the even count asks, the
load area first, and returns the length of the whole list; a word that cannot be written stops it with nothing changed. With VM = 0 and
memory that exists and is not watched the k-th word above the operand's address is the k-th of the list and every other word is as
before. With an odd or negative count some number of pairs is written and the register receives some word (U21). A bare register as
operand is refused, the model's choice (entry 38). -/
def Obligations.PmemrReportsMemory : Prop :=
  ∀ (s : State) (m : Reg) (o : Operand) (report : List Word),
    report = [s.cfg.loadArea.first, s.cfg.loadArea.last] ++ s.cfg.memAreas.flatMap (fun a => [a.first, a.last]) →
    (o.indirect = true → (s.readReg m).toNat % 2 = 0 → 0 ≤ (s.readReg m).toInt →
      ∀ n : Nat, n = min (s.readReg m).toNat report.length →
      (∀ x : Nat → State, x 0 = s →
        (∀ k < n, memWrite (x k) (operandTotal s o + BitVec.ofNat 32 k) (report.getD k 0) = .ok (x (k + 1))) →
        exec (.pmemr m o) s = .next ((x n).writeReg m (BitVec.ofNat 32 (2 + 2 * s.cfg.memAreas.length)))) ∧
      (∀ (x : Nat → State) (j : Nat) (e : Stop), x 0 = s → j < n →
        (∀ k < j, memWrite (x k) (operandTotal s o + BitVec.ofNat 32 k) (report.getD k 0) = .ok (x (k + 1))) →
        memWrite (x j) (operandTotal s o + BitVec.ofNat 32 j) (report.getD j 0) = .error e →
        exec (.pmemr m o) s = stopOutcome s s.faultPc e) ∧
      (s.flags.vm = false → n < 2 ^ 32 →
        (∀ k < n, memExists s.cfg (operandTotal s o + BitVec.ofNat 32 k) = true ∧
          watchHit s (operandTotal s o + BitVec.ofNat 32 k) = false) →
        ∃ t, exec (.pmemr m o) s = .next t ∧
          t = { s.writeReg m (BitVec.ofNat 32 (2 + 2 * s.cfg.memAreas.length)) with mem := t.mem } ∧
          (∀ k < n, t.mem.readWord (operandTotal s o + BitVec.ofNat 32 k) = report.getD k 0) ∧
          (∀ a, (∀ k < n, a ≠ operandTotal s o + BitVec.ofNat 32 k) → t.mem.readWord a = s.mem.readWord a))) ∧
    (o.indirect = true → (s.readReg m).toNat % 2 = 1 ∨ (s.readReg m).toInt < 0 → s.flags.vm = false → report.length < 2 ^ 32 →
      (∀ k < report.length, memExists s.cfg (operandTotal s o + BitVec.ofNat 32 k) = true ∧
        watchHit s (operandTotal s o + BitVec.ofNat 32 k) = false) →
      ∃ (t : State) (w : Word) (pairs : Nat), 2 * pairs ≤ report.length ∧ exec (.pmemr m o) s = .next t ∧
        t = { s.writeReg m w with mem := t.mem, draws := s.draws + 2 } ∧
        (∀ k < 2 * pairs, t.mem.readWord (operandTotal s o + BitVec.ofNat 32 k) = report.getD k 0) ∧
        (∀ a, (∀ k < 2 * pairs, a ≠ operandTotal s o + BitVec.ofNat 32 k) → t.mem.readWord a = s.mem.readWord a)) ∧
    (o.indirect = false → o.index ≠ 0 → o.number = 0 → exec (.pmemr m o) s = .refused .pmemrRegisterOperand)

/-- R259, R461, R462, R466, R473: INTR raises the interrupt whose code is its value, with the main register as the address and the next
instruction as the return address. Its outcome is that delivery's; not above IPL it is a NOP; while interrupts are not processed TIMER and
KEYBD are ignored and any other code stops the program. A code that is none is refused (U31). Code 12 at IPL 12 is delivered as
PAGEFAULT2, and TIMER and KEYBD while interrupts are not processed are a NOP, where a sentence of R259 reads otherwise: the model's
choices (entries 53 and 55). -/
def Obligations.IntrRaisesItsInterrupt : Prop :=
  ∀ (s t : State) (m : Reg) (o : Operand) (c : Interrupt) (v : Word),
    (operandValue s o = .ok (BitVec.ofNat 32 c.code) →
      (deliver s ⟨c, some (s.readReg m), none⟩ s.pc = .taken t → exec (.intr m o) s = .next t) ∧
      ((deliveredCode s c).code ≤ s.ipl.toNat → exec (.intr m o) s = .next s) ∧
      (s.ipl.toNat < (deliveredCode s c).code → s.flags.int = false ∨ s.intVec = 0 →
        exec (.intr m o) s = .next (if c = .timer ∨ c = .keybd then s else
          { s with flags := { s.flags with r := false }, status := .stopped (deliveredCode s c) }))) ∧
    (operandValue s o = .ok v → v = 0 ∨ 22 < v.toNat → exec (.intr m o) s = .refused .undefinedInterruptCode)

/-! ### Characters, bits, blocks -/

/-- R281, R282, R76: LDCH reads and STCH writes character k of a packed string: byte k mod 4 of word k div 4, and STCH changes no other
byte; a negative index has no next state (U9). When that word cannot be read or written they do nothing but raise that fault. -/
def Obligations.CharacterInstructions : Prop :=
  ∀ (s : State) (m : Reg) (o : Operand) (v w p : Word) (k : Nat), operandValue s o = .ok v → k = (s.readReg m).toNat →
    (k < 2 ^ 31 → memRead s (v + BitVec.ofNat 32 (k / 4)) = .ok w →
      exec (.ldch m o) s = .next (s.writeReg m (BitVec.ofNat 32 (w.toNat / 256 ^ (k % 4) % 256))) ∧
      (storeTarget s (v + BitVec.ofNat 32 (k / 4)) = .ok p →
        ∃ x, exec (.stch m o) s = .next (s.poke p x) ∧
          ∀ j < 4, x.extractLsb' (8 * j) 8 = if j = k % 4 then (s.readReg 0).extractLsb' 0 8 else w.extractLsb' (8 * j) 8)) ∧
    (∀ e, k < 2 ^ 31 → memRead s (v + BitVec.ofNat 32 (k / 4)) = .error e →
      exec (.ldch m o) s = stopOutcome s s.faultPc e ∧ exec (.stch m o) s = stopOutcome s s.faultPc e) ∧
    (∀ e, k < 2 ^ 31 → memRead s (v + BitVec.ofNat 32 (k / 4)) = .ok w → storeTarget s (v + BitVec.ofNat 32 (k / 4)) = .error e →
      exec (.stch m o) s = stopOutcome s s.faultPc e) ∧
    (2 ^ 31 ≤ k → exec (.ldch m o) s = .fault .negativeIndex ∧ exec (.stch m o) s = .fault .negativeIndex)

/-- R285 to R288: bit k of an array of words, or of the operand itself; the stores change no other bit. A negative index has no next state
(U9), a bit number above 31 of the operand itself gives some value (U2). When the array's word cannot be read or written LBITF and SBITF
do nothing but raise that fault. -/
def Obligations.BitArrayInstructions : Prop :=
  ∀ (s : State) (m : Reg) (o : Operand) (v : Word) (k : Nat), operandValue s o = .ok v → k = (s.readReg m).toNat →
    (∀ w p, k < 2 ^ 31 → memRead s (v + BitVec.ofNat 32 (k / 32)) = .ok w →
      exec (.lbitf m o) s = .next (s.writeReg m (if w.getLsbD (k % 32) = true then 1 else 0)) ∧
      (storeTarget s (v + BitVec.ofNat 32 (k / 32)) = .ok p →
        ∃ x, exec (.sbitf m o) s = .next (s.poke p x) ∧
          ∀ j < 32, x.getLsbD j = if j = k % 32 then (s.readReg 0).getLsbD 0 else w.getLsbD j)) ∧
    (∀ e, k < 2 ^ 31 → memRead s (v + BitVec.ofNat 32 (k / 32)) = .error e →
      exec (.lbitf m o) s = stopOutcome s s.faultPc e ∧ exec (.sbitf m o) s = stopOutcome s s.faultPc e) ∧
    (∀ w e, k < 2 ^ 31 → memRead s (v + BitVec.ofNat 32 (k / 32)) = .ok w → storeTarget s (v + BitVec.ofNat 32 (k / 32)) = .error e →
      exec (.sbitf m o) s = stopOutcome s s.faultPc e) ∧
    (2 ^ 31 ≤ k → exec (.lbitf m o) s = .fault .negativeIndex ∧ exec (.sbitf m o) s = .fault .negativeIndex) ∧
    (k < 32 →
      exec (.lbito m o) s = .next (s.writeReg m (if v.getLsbD k = true then 1 else 0)) ∧
      ∃ x, (∀ j < 32, x.getLsbD j = if j = k then (s.readReg 0).getLsbD 0 else v.getLsbD j) ∧
        (o.indirect = false → o.index ≠ 0 → o.number = 0 → exec (.sbito m o) s = .next (s.writeReg o.index x)) ∧
        (∀ p, o.indirect = true → storeTarget s (operandTotal s o) = .ok p → exec (.sbito m o) s = .next (s.poke p x))) ∧
    (32 ≤ k → (∃ w, exec (.lbito m o) s = .next { s.writeReg m w with draws := s.draws + 1 }) ∧
      ∃ x, (o.indirect = false → o.index ≠ 0 → o.number = 0 →
          exec (.sbito m o) s = .next { s.writeReg o.index x with draws := s.draws + 1 }) ∧
        (∀ p, o.indirect = true → storeTarget s (operandTotal s o) = .ok p →
          exec (.sbito m o) s = .next { s.poke p x with draws := s.draws + 1 }))

/-- R283: MOVE copies R0 words upward from the address in the main register to the address in the operand's register, here with VM = 0 and
memory that exists and is not watched: R0 ends at 0, both addresses past the last word; when no word copied to is read later the copy
is exact; every word outside the destination is as before. With R0 not positive nothing changes; any operand but a register is BADOP.
R280 c, whatever VM is: `x k` is the state after k words; a word that cannot be read or written raises that fault from the state the
words before it left, with the instruction's own address as the saved PC (entry 42). The registers of U19 are refused (entry 41). -/
def Obligations.MoveCopiesWords : Prop :=
  ∀ (s : State) (m : Reg) (o : Operand) (src dst : Word) (n : Nat),
    (o.indirect = false → o.number = 0 → o.index ≠ 0 → m ≠ 0 → m ≠ o.index → m.val < 13 → o.index.val < 13 →
      src = s.readReg m → dst = s.readReg o.index →
      ((s.readReg 0).toInt ≤ 0 → exec (.move m o) s = .next s) ∧
      (0 < n → (s.readReg 0).toInt = n → s.flags.vm = false →
        (∀ k < n, memExists s.cfg (src + BitVec.ofNat 32 k) = true ∧ memExists s.cfg (dst + BitVec.ofNat 32 k) = true ∧
          watchHit s (dst + BitVec.ofNat 32 k) = false) →
        ∃ t, exec (.move m o) s = .next t ∧ t.readReg 0 = 0 ∧ t.readReg m = src + BitVec.ofNat 32 n ∧
          t.readReg o.index = dst + BitVec.ofNat 32 n ∧ t = { s with regs := t.regs, mem := t.mem } ∧
          (∀ q, q ≠ 0 → q ≠ m → q ≠ o.index → t.readReg q = s.readReg q) ∧
          (∀ a, (∀ k < n, a ≠ dst + BitVec.ofNat 32 k) → t.mem.readWord a = s.mem.readWord a) ∧
          ((∀ j k, j < k → k < n → src + BitVec.ofNat 32 k ≠ dst + BitVec.ofNat 32 j) →
            ∀ k < n, t.mem.readWord (dst + BitVec.ofNat 32 k) = s.mem.readWord (src + BitVec.ofNat 32 k))) ∧
      (∀ (x : Nat → State) (j : Nat), (s.readReg 0).toInt = n → x 0 = s → j ≤ n →
        (∀ k < j, ∃ w y, memRead (x k) (src + BitVec.ofNat 32 k) = .ok w ∧ memWrite (x k) (dst + BitVec.ofNat 32 k) w = .ok y ∧
          x (k + 1) = ((y.writeReg o.index (dst + BitVec.ofNat 32 (k + 1))).writeReg m (src + BitVec.ofNat 32 (k + 1))).writeReg 0
            (BitVec.ofNat 32 (n - (k + 1)))) →
        (j = n → exec (.move m o) s = .next (x n)) ∧
        (∀ e, j < n →
          memRead (x j) (src + BitVec.ofNat 32 j) = .error e ∨
          (∃ w, memRead (x j) (src + BitVec.ofNat 32 j) = .ok w ∧ memWrite (x j) (dst + BitVec.ofNat 32 j) w = .error e) →
          exec (.move m o) s = stopOutcome (x j) (s.pc - 1) e))) ∧
    (o.indirect = false → o.number = 0 → o.index ≠ 0 → m = 0 ∨ m = o.index ∨ 13 ≤ m.val ∨ 13 ≤ o.index.val →
      exec (.move m o) s = .refused .degenerateLoopRegisters) ∧
    (¬ (o.indirect = false ∧ o.index ≠ 0 ∧ o.number = 0) →
      exec (.move m o) s = stopOutcome s s.faultPc (.raised ⟨.badop, some (s.pc - 1), none⟩))

/-- R284: ZERO stores as many zeros as the main register counts upward from the address in the operand's register, here with VM = 0 and
memory that exists and is not watched; the count ends at 0, the address past the last word, every other word is as before. With a count
not positive nothing changes; any operand but a register is BADOP. R280 c, whatever VM is: `x k` is the state after k words; a word that
cannot be written raises that fault from the state the words before it left, with the instruction's own address as the saved PC (entry
42). The registers of U19 are refused (entry 41). -/
def Obligations.ZeroClearsWords : Prop :=
  ∀ (s : State) (m : Reg) (o : Operand) (dst : Word) (n : Nat),
    (o.indirect = false → o.number = 0 → o.index ≠ 0 → m ≠ o.index → m.val < 13 → o.index.val < 13 → dst = s.readReg o.index →
      ((s.readReg m).toInt ≤ 0 → exec (.zero m o) s = .next s) ∧
      (0 < n → (s.readReg m).toInt = n → s.flags.vm = false →
        (∀ k < n, memExists s.cfg (dst + BitVec.ofNat 32 k) = true ∧ watchHit s (dst + BitVec.ofNat 32 k) = false) →
        ∃ t, exec (.zero m o) s = .next t ∧ t.readReg m = 0 ∧ t.readReg o.index = dst + BitVec.ofNat 32 n ∧
          t = { s with regs := t.regs, mem := t.mem } ∧ (∀ q, q ≠ m → q ≠ o.index → t.readReg q = s.readReg q) ∧
          (∀ k < n, t.mem.readWord (dst + BitVec.ofNat 32 k) = 0) ∧
          (∀ a, (∀ k < n, a ≠ dst + BitVec.ofNat 32 k) → t.mem.readWord a = s.mem.readWord a)) ∧
      (∀ (x : Nat → State) (j : Nat), (s.readReg m).toInt = n → x 0 = s → j ≤ n →
        (∀ k < j, ∃ y, memWrite (x k) (dst + BitVec.ofNat 32 k) 0 = .ok y ∧
          x (k + 1) = (y.writeReg o.index (dst + BitVec.ofNat 32 (k + 1))).writeReg m (BitVec.ofNat 32 (n - (k + 1)))) →
        (j = n → exec (.zero m o) s = .next (x n)) ∧
        (∀ e, j < n → memWrite (x j) (dst + BitVec.ofNat 32 j) 0 = .error e →
          exec (.zero m o) s = stopOutcome (x j) (s.pc - 1) e))) ∧
    (o.indirect = false → o.number = 0 → o.index ≠ 0 → m = o.index ∨ 13 ≤ m.val ∨ 13 ≤ o.index.val →
      exec (.zero m o) s = .refused .degenerateLoopRegisters) ∧
    (¬ (o.indirect = false ∧ o.index ≠ 0 ∧ o.number = 0) →
      exec (.zero m o) s = stopOutcome s s.faultPc (.raised ⟨.badop, some (s.pc - 1), none⟩))

/-- R289: FFNZ looks upward from the address in its register to its value, both below 0x80000000, here with VM = 0 and a range that exists:
the register becomes the address of the first word that is not zero, or -1 when all are zero, and nothing else changes.
That it ends with -1 also after the last address 0x7FFFFFFF is the model's choice (entry 52, U36). R280 c, whatever VM is: a word that
cannot be read raises that fault with the register at its address and the instruction's own address as the saved PC (entry 42). An
address of 0x80000000 and above has no next state (U36), and that this holds of two such addresses as well, of which R289 says no more
than unspecified, is the model's choice (entry 52). -/
def Obligations.FfnzFindsFirstNonZero : Prop :=
  (∀ (s : State) (m : Reg) (o : Operand) (v : Word) (a : Nat), operandValue s o = .ok v → m.val < 13 →
      s.flags.vm = false → v.toNat < 2 ^ 31 → (s.readReg m).toNat < 2 ^ 31 →
      (a ≤ v.toNat → (s.readReg m).toNat ≤ a → (∀ k ≤ a, (s.readReg m).toNat ≤ k → memExists s.cfg (BitVec.ofNat 32 k) = true) →
        (∀ k < a, (s.readReg m).toNat ≤ k → s.mem.readWord (BitVec.ofNat 32 k) = 0) → s.mem.readWord (BitVec.ofNat 32 a) ≠ 0 →
        exec (.ffnz m o) s = .next (s.writeReg m (BitVec.ofNat 32 a))) ∧
      ((∀ k ≤ v.toNat, (s.readReg m).toNat ≤ k → memExists s.cfg (BitVec.ofNat 32 k) = true ∧ s.mem.readWord (BitVec.ofNat 32 k) = 0) →
        exec (.ffnz m o) s = .next (s.writeReg m 0xFFFFFFFF#32))) ∧
  (∀ (s : State) (m : Reg) (o : Operand) (v w : Word) (e : Stop) (a : Nat), operandValue s o = .ok v →
    (2 ^ 31 ≤ v.toNat ∨ 2 ^ 31 ≤ (s.readReg m).toNat → exec (.ffnz m o) s = .fault .ambiguousComparison) ∧
    (v.toNat < 2 ^ 31 → (s.readReg m).toNat < 2 ^ 31 →
      (∀ k ≤ v.toNat, (s.readReg m).toNat ≤ k → memRead s (BitVec.ofNat 32 k) = .ok 0) →
      exec (.ffnz m o) s = .next (s.writeReg m 0xFFFFFFFF#32)) ∧
    (v.toNat < 2 ^ 31 → (s.readReg m).toNat ≤ a → a ≤ v.toNat →
      (∀ k < a, (s.readReg m).toNat ≤ k → memRead s (BitVec.ofNat 32 k) = .ok 0) →
      (memRead s (BitVec.ofNat 32 a) = .ok w → w ≠ 0 → exec (.ffnz m o) s = .next (s.writeReg m (BitVec.ofNat 32 a))) ∧
      (memRead s (BitVec.ofNat 32 a) = .error e →
        exec (.ffnz m o) s = stopOutcome (s.writeReg m (BitVec.ofNat 32 a)) (s.pc - 1) e)))

/-! ### Floating point -/

/-- R342 to R345, R350 to R353, R356 to R358, R361, R366. For every FP32 these instructions complete and change nothing but the register
and the draws; FDIV by a zero raises DIVZERO or has a result, open which (entry 24); FSQRT of a negative number is FLTNEG. With the
default FP32, binary32 in the model (entry 22): of proper operands FADD, FSUB, FMUL, FDIV, FSQRT and FLOAT give the exact result rounded
to nearest even, a zero with IEEE's sign; FIX drops the fraction; FRND gives the nearest whole number, FLOOR the greatest not above,
with the operand's sign bit, but the sign of a zero that FRND makes of a negative number is free (entry 23). Improper operands,
overflow, FRND of a tie, FIX and FRND beyond a signed word give some word (U20, U32). -/
def Obligations.FloatArithmetic : Prop :=
  (∀ (s : State) (m : Reg) (o : Operand) (v : Word), operandValue s o = .ok v →
    (∀ i ∈ ([.fadd m o, .fsub m o, .fmul m o, .fix m o, .frnd m o, .float m o, .floor m o] : List Instr),
      ∃ w d, exec i s = .next { s.writeReg m w with draws := d }) ∧
    (isZero s.fp32 v = false → ∃ w d, exec (.fdiv m o) s = .next { s.writeReg m w with draws := d }) ∧
    (isZero s.fp32 v = true → exec (.fdiv m o) s =
      if Config.fdivZeroTraps (s.readReg m) v = true then stopOutcome s s.faultPc (.raised ⟨.divzero, some (s.pc - 1), none⟩)
      else .next (s.writeReg m (Config.fdivByZero (s.readReg m) v))) ∧
    (isNegative s.fp32 v = false → ∃ w d, exec (.fsqrt m o) s = .next { s.writeReg m w with draws := d }) ∧
    (isNegative s.fp32 v = true → exec (.fsqrt m o) s = stopOutcome s s.faultPc (.raised ⟨.fltneg, none, none⟩))) ∧
  (∀ (s : State) (m : Reg) (o : Operand) (v r : Word), s.cfg.fp32 = .binary32 → operandValue s o = .ok v → r = s.readReg m →
    (isZero s.fp32 v = true ↔ v.toNat % 2 ^ 31 = 0) ∧
    (isNegative s.fp32 v = true ↔ v.msb = true ∧ 0 < v.toNat % 2 ^ 31 ∧ v.toNat % 2 ^ 31 ≤ 0x7F800000) ∧
    (floatProper r = true → floatProper v = true →
      WritesRounded (.fadd m o) s m (floatNumber r + floatNumber v)
        (floatNumber r + floatNumber v < 0 ∨ floatNumber r + floatNumber v = 0 ∧ r.msb = true ∧ v.msb = true) ∧
      WritesRounded (.fsub m o) s m (floatNumber r - floatNumber v)
        (floatNumber r - floatNumber v < 0 ∨ floatNumber r - floatNumber v = 0 ∧ r.msb = true ∧ v.msb = false) ∧
      WritesRounded (.fmul m o) s m (floatNumber r * floatNumber v) (r.msb ≠ v.msb) ∧
      (floatNumber v ≠ 0 → WritesRounded (.fdiv m o) s m (floatNumber r / floatNumber v) (r.msb ≠ v.msb))) ∧
    (floatProper r = false ∨ floatProper v = false →
      (∀ i ∈ ([.fadd m o, .fsub m o, .fmul m o] : List Instr), WritesFree i s m) ∧
      (v.toNat % 2 ^ 31 ≠ 0 → WritesFree (.fdiv m o) s m)) ∧
    WritesRounded (.float m o) s m v.toInt (v.msb = true) ∧
    (floatProper v = false →
      (∀ i ∈ ([.fix m o, .frnd m o, .floor m o] : List Instr), WritesFree i s m) ∧
      (v ≠ 0xFF800000#32 → WritesFree (.fsqrt m o) s m)) ∧
    (floatProper v = true →
      (0 ≤ floatNumber v → WritesRounded (.fsqrt m o) s m (Real.sqrt (floatNumber v)) (v.msb = true)) ∧
      (∃ w, exec (.floor m o) s = .next (s.writeReg m w) ∧ floatProper w = true ∧ floatNumber w = ⌊floatNumber v⌋ ∧ w.msb = v.msb) ∧
      (∀ n : Int, n = (if floatNumber v < 0 then ⌈floatNumber v⌉ else ⌊floatNumber v⌋) →
        (-2 ^ 31 ≤ n ∧ n < 2 ^ 31 → exec (.fix m o) s = .next (s.writeReg m (BitVec.ofInt 32 n))) ∧
        (¬ (-2 ^ 31 ≤ n ∧ n < 2 ^ 31) → WritesFree (.fix m o) s m)) ∧
      (∀ n : Int, |floatNumber v - n| < 1 / 2 → -2 ^ 31 ≤ n → n < 2 ^ 31 →
        (n ≠ 0 ∨ v.msb = false ∨ floatNumber v = 0 → ∃ w, exec (.frnd m o) s = .next (s.writeReg m w) ∧ floatProper w = true ∧
          floatNumber w = n ∧ w.msb = v.msb) ∧
        (n = 0 → floatNumber v < 0 → ∃ w, (w = 0 ∨ w = 0x80000000#32) ∧
          exec (.frnd m o) s = .next { s.writeReg m w with draws := s.draws + 1 })) ∧
      ((∀ n : Int, |floatNumber v - n| < 1 / 2 → ¬ (-2 ^ 31 ≤ n ∧ n < 2 ^ 31)) → WritesFree (.frnd m o) s m))) ∧
  (∀ a b : Word, fadd a b = fadd b a ∧ fmul a b = fmul b a) ∧
  (∀ v : Word, v.toInt.natAbs ≤ 2 ^ 24 → ∃ x, ffloat v = some x ∧ ffix x = some v)

/-- R354, R355, R365, R367, R368, R369 on words that are not NaN: FNEG inverts the sign bit, FABS clears it (but not for -0.0), FSIGN is -1,
0 or 1 with both zeros 0, FGOOD's Z is the exponent not being 255, and FCOMP and FCOMPZ order the numbers as sign and magnitude do,
the two zeros equal. These are the functions of the default FP32; that infinities have definite results too is the model's choice
(entry 22), and FNEG, FABS and FSIGN work so under every FP32. FCOMP with a NaN gives Z and N some values, and FNEG, FABS and FSIGN of
a NaN, and FABS of -0.0, some word (U20). -/
def Obligations.FloatSignsAndComparisons : Prop :=
  ∀ (s : State) (m : Reg) (o : Operand) (v r : Word), operandValue s o = .ok v → r = s.readReg m →
    (v.toNat % 2 ^ 31 ≤ 0x7F800000 →
      exec (.fneg m o) s = .next (s.writeReg m (v ^^^ 0x80000000#32)) ∧
      (v ≠ 0x80000000#32 → exec (.fabs m o) s = .next (s.writeReg m (v &&& 0x7FFFFFFF#32))) ∧
      exec (.fsign m o) s = .next (s.writeReg m (if v.toNat % 2 ^ 31 = 0 then 0 else if v.msb = true then 0xFFFFFFFF#32 else 1))) ∧
    (0x7F800000 < v.toNat % 2 ^ 31 →
      ∀ i ∈ ([.fneg m o, .fabs m o, .fsign m o] : List Instr), WritesFree i s m) ∧
    (v = 0x80000000#32 → WritesFree (.fabs m o) s m) ∧
    (∃ z n d, exec (.fcompz o) s = .next { s with flags := { s.flags with z := z, n := n }, draws := d }) ∧
    (∃ z n d, exec (.fcomp m o) s = .next { s with flags := { s.flags with z := z, n := n }, draws := d }) ∧
    (∃ z, exec (.fgood o) s = .next { s with flags := { s.flags with z := z } }) ∧
    (s.cfg.fp32 = .binary32 →
      exec (.fgood o) s = .next { s with flags := { s.flags with z := decide (v.toNat / 2 ^ 23 % 256 ≠ 255) } } ∧
      (v.toNat % 2 ^ 31 ≤ 0x7F800000 →
        exec (.fcompz o) s = .next { s with flags := { s.flags with
          z := decide (v.toNat % 2 ^ 31 = 0), n := decide (v.toNat % 2 ^ 31 ≠ 0) && v.msb } } ∧
        (r.toNat % 2 ^ 31 ≤ 0x7F800000 →
          exec (.fcomp m o) s = .next { s with flags := { s.flags with
            z := decide ((if r.msb = true then -((r.toNat % 2 ^ 31 : Nat) : Int) else (r.toNat % 2 ^ 31 : Nat)) =
              (if v.msb = true then -((v.toNat % 2 ^ 31 : Nat) : Int) else (v.toNat % 2 ^ 31 : Nat)))
            n := decide ((if r.msb = true then -((r.toNat % 2 ^ 31 : Nat) : Int) else (r.toNat % 2 ^ 31 : Nat)) <
              (if v.msb = true then -((v.toNat % 2 ^ 31 : Nat) : Int) else (v.toNat % 2 ^ 31 : Nat))) } })))

/-- R359, R360, R362, R363, R364, R344: with the default FP32 (entry 22), on proper operands FLOG and FEXP choose the base e when the value
is a zero, the elementary functions are functions of their argument words with the stated special values, and FLOG of a negative
number or base is FLTNEG; the sign of an infinity counts in that (entry 22). Where no result is stated the register receives some
word: for an improper operand, FLOG of a zero or with base 1.0, FEXP with a negative base (U20). For every FP32 these instructions
complete, FLOG unless an operand is negative. Nothing but the register changes, and the draws. -/
def Obligations.ElementaryFunctions : Prop :=
  ∀ (s : State) (m : Reg) (o : Operand) (v r : Word), operandValue s o = .ok v → r = s.readReg m →
    (∀ i ∈ ([.fexp m o, .fsin m o, .fcos m o, .fatan m o] : List Instr), ∃ w d, exec i s = .next { s.writeReg m w with draws := d }) ∧
    (isNegative s.fp32 r = false → isNegative s.fp32 v = false →
      ∃ w d, exec (.flog m o) s = .next { s.writeReg m w with draws := d }) ∧
    (isNegative s.fp32 r = true ∨ isNegative s.fp32 v = true →
      exec (.flog m o) s = stopOutcome s s.faultPc (.raised ⟨.fltneg, none, none⟩)) ∧
    (s.cfg.fp32 = .binary32 →
      (floatProper r = true → floatProper v = true →
        (floatNegative r = false → floatZero r = false → floatZero v = true → r ≠ 0x3F800000#32 →
          exec (.flog m o) s = .next (s.writeReg m (Config.fln r))) ∧
        (r = 0x3F800000#32 → floatZero v = true → exec (.flog m o) s = .next (s.writeReg m 0)) ∧
        (floatNegative r = false → floatZero r = false → floatNegative v = false → floatZero v = false → v ≠ 0x3F800000#32 →
          exec (.flog m o) s = .next (s.writeReg m (Config.flogb v r))) ∧
        (floatZero v = true → r ≠ 0 → exec (.fexp m o) s = .next (s.writeReg m (Config.fexp r))) ∧
        (floatZero v = true → r = 0 → exec (.fexp m o) s = .next (s.writeReg m 0x3F800000#32)) ∧
        (floatNegative v = false → floatZero v = false → exec (.fexp m o) s = .next (s.writeReg m (Config.fpow v r)))) ∧
      (floatNegative r = true ∨ floatNegative v = true →
        exec (.flog m o) s = stopOutcome s s.faultPc (.raised ⟨.fltneg, none, none⟩)) ∧
      (floatNegative r = false → floatNegative v = false → floatProper r = false ∨ floatProper v = false ∨ floatZero r = true ∨
          v = 0x3F800000#32 → WritesFree (.flog m o) s m) ∧
      (floatProper r = false ∨ floatProper v = false ∨ floatNegative v = true → WritesFree (.fexp m o) s m) ∧
      (floatProper v = false → ∀ i ∈ ([.fsin m o, .fcos m o, .fatan m o] : List Instr), WritesFree i s m) ∧
      (floatProper v = true → v ≠ 0 →
        exec (.fsin m o) s = .next (s.writeReg m (Config.fsin v)) ∧
        exec (.fcos m o) s = .next (s.writeReg m (Config.fcos v)) ∧
        exec (.fatan m o) s = .next (s.writeReg m (Config.fatan v))) ∧
      (v = 0 →
        exec (.fsin m o) s = .next (s.writeReg m 0) ∧
        exec (.fcos m o) s = .next (s.writeReg m 0x3F800000#32) ∧
        exec (.fatan m o) s = .next (s.writeReg m 0)))

/-! ### Peripherals -/

/-- R390, R391, R392, R421: in system mode, with an aligned page directory or VM = 0, PERI completes at every control structure: the
operation its code selects runs, the register receives its result and ERR the result's sign; besides, only memory that exists, the
keyboard buffer, the host events, the devices and the draws may change. READPARAMS when the operation code cannot be read and BAD_CODE
when it is none of the 21, with nothing else changed. R417 to R420, with VM = 0: SECONDS answers a clock that never goes back, USECONDS
stores it and a number of microseconds below 1000000, DATETIME changes seven words, FLOATFORMAT stores a text with a zero after it, four
characters to a word, or fails with MEMORY where memory for it is missing; and nothing else changes. That SECONDS and USECONDS share
one clock, of 31 bits, is the model's choice (entry 36). -/
def Obligations.PeriCompletes : Prop :=
  (∀ (s : State) (m : Reg) (o : Operand) (c : Word), s.flags.sys = true → operandValue s o = .ok c →
    s.flags.vm = false ∨ s.pdbr &&& 0x3FF#32 = 0 →
    (∃ (r : Word) (t : State), (r, t) = periRun c s ∧
      exec (.peri m o) s = .next ((t.writeReg m r).setErr (decide (r.toInt < 0))) ∧
      t = { s with
        mem := t.mem, keyboard := t.keyboard, events := t.events, discs := t.discs, tapes := t.tapes, nets := t.nets
        clock := t.clock, draws := t.draws } ∧
      ∀ a, memExists s.cfg a = false → t.mem.readWord a = s.mem.readWord a) ∧
    (ioTarget s c = none → exec (.peri m o) s = .next ((s.writeReg m 0xFFFFFFFE#32).setErr true)) ∧
    (∀ p, ioTarget s c = some p → (∀ q ∈ s.cfg.periCodes, q.2 ≠ s.mem.readWord p) →
      exec (.peri m o) s = .next ((s.writeReg m 0xFFFFFFFF#32).setErr true)) ∧
    (∀ p op r t, ioTarget s c = some p → s.cfg.wf = true → (op, s.mem.readWord p) ∈ s.cfg.periCodes →
      ioRun (periOperation c op) s = (r, t) → periRun c s = (r, { t with events := t.events ++ [.deviceOperation op r] }))) ∧
  (∀ (s : State) (c : Word), s.flags.vm = false →
    (∃ k : BitVec 31, s.clock ≤ k ∧ ioRun (periOperation c .seconds) s = (k.setWidth 32, { s with clock := k, draws := s.draws + 1 })) ∧
    (∀ a, memExists s.cfg (c + 1) = true → s.mem.readWord (c + 1) = a → memExists s.cfg a = true → memExists s.cfg (a + 1) = true →
      ∃ (k : BitVec 31) (micro r : Word), s.clock ≤ k ∧ micro.toNat < 1000000 ∧ 0 ≤ r.toInt ∧
        ioRun (periOperation c .useconds) s = (r, { s with
          clock := k, draws := s.draws + 3, mem := (s.mem.writeWord a (k.setWidth 32)).writeWord (a + 1) micro })) ∧
    (∀ a, memExists s.cfg (c + 1) = true → memExists s.cfg (c + 2) = true → s.mem.readWord (c + 2) = a →
      (∀ k < 7, memExists s.cfg (a + BitVec.ofNat 32 k) = true) →
      ∃ r t, ioRun (periOperation c .dateTime) s = (r, t) ∧ 0 ≤ r.toInt ∧ t = { s with mem := t.mem, draws := s.draws + 8 } ∧
        ∀ x, (∀ k < 7, x ≠ a + BitVec.ofNat 32 k) → t.mem.readWord x = s.mem.readWord x) ∧
    (∀ (f a : Word) (n j : Nat), (∀ k < 4, memExists s.cfg (c + BitVec.ofNat 32 k) = true) → s.mem.readWord (c + 2) = f →
      s.mem.readWord (c + 3) = a →
      n < 2 ^ 32 → (∀ k ≤ n, memExists s.cfg (f + BitVec.ofNat 32 k) = true) →
      j < 4 → (s.mem.readWord (f + BitVec.ofNat 32 n)).extractLsb' (8 * j) 8 = 0 →
      ∃ r t, ∃ text : List Byte, ioRun (periOperation c .floatFormat) s = (r, t) ∧ t = { s with mem := t.mem, draws := t.draws } ∧
        (∀ b ∈ text, b ≠ 0) ∧
        (∀ x, (∀ k ≤ text.length / 4, x ≠ a + BitVec.ofNat 32 k) → t.mem.readWord x = s.mem.readWord x) ∧
        ((∀ k ≤ text.length / 4, memExists s.cfg (a + BitVec.ofNat 32 k) = true) → 0 ≤ r.toInt ∧
          (text.length < 2 ^ 34 → ∀ k ≤ text.length,
            (t.mem.readWord (a + BitVec.ofNat 32 (k / 4))).extractLsb' (8 * (k % 4)) 8 = (text ++ [0]).getD k 0)) ∧
        (∀ k ≤ text.length / 4, memExists s.cfg (a + BitVec.ofNat 32 k) = false → r = 0xFFFFFFFB#32)))

/-- R400 to R403, with VM = 0: a unit number that is not 1 to 8 is DEVNUMBER, for tapes too. DISCCHECK answers the size of the disc in the
drive, 0 for none. DISCWRITE of an existing block takes 128 words of memory: it answers 1, and the disc holds them as that block, or the
device has failed, it answers DEVFAILED and the block holds free words (entry 34); the other blocks, the other drives and memory are as
before. DISCREAD stores the words of a block, each at its place, answers 1 and changes no other word: those the disc holds for it, however
many blocks were written since; zeros for a block not written since a DISCCLEAR; else free ones. DISCCLEAR leaves every block zero, or
free where the device fails. No disc is DEVNUMBER, no such block POSITION, memory that does not exist MEMORY. R404 to R411: TAPECHECK
answers the mode a tape is loaded with, 0 for none; TAPEREWIND and TAPEUNLOAD do what they say; TAPELENGTH answers the number of bytes;
TAPEREAD stores the next 512 bytes, or what is left, and moves on by as many; TAPEWRITE replaces so many bytes from the position on and
moves behind them; TAPELOAD puts a tape in a unit, or may find a loaded one not available; other units are as before. TAPELOADFILE stores
a whole host file and changes no other word. The host may have TAPELENGTH, TAPELOAD and TAPELOADFILE fail with NOTFOUND and TAPEWRITE with
DEVFAILED. The model's choices: TAPEWRITE keeps the bytes before the position and behind those it wrote, an unloaded unit is DEVNUMBER to
TAPEREWIND, TAPEREAD and TAPEWRITE, what a loaded unit is to TAPELOAD, which leaves the
old tape where it fails, and a tape that may only be read to TAPEWRITE (entry 32); a last
word that a host file fills in part counts for TAPELOADFILE, its other bytes free (entry 56); a result of 2^31 and more is some word that
is not negative (entry 54). -/
def Obligations.DiscKeepsItsBlocks : Prop :=
  (∀ (s : State) (i j : Fin 8) (d : Option Disc) (x : Option Tape),
    (s.setDisc i d).discs[j] = (if j = i then d else s.discs[j]) ∧ s.setDisc i d = { s with discs := (s.setDisc i d).discs } ∧
    (s.setTape i x).tapes[j] = (if j = i then x else s.tapes[j]) ∧ s.setTape i x = { s with tapes := (s.setTape i x).tapes }) ∧
  (∀ (d : Disc) (n : Nat) (ws : Vector Word 128), (d.withBlock n ws).size = d.size ∧ (d.withBlock n ws).erased = d.erased ∧
    ∀ m, (d.withBlock n ws).blocks.find? (fun x => x.1 == m) = if m = n then some (n, ws) else d.blocks.find? fun x => x.1 == m) ∧
  (∀ (s : State) (c : Word), s.flags.vm = false → (∀ k < 4, memExists s.cfg (c + BitVec.ofNat 32 k) = true) →
    (s.mem.readWord (c + 1)).toNat = 0 ∨ 8 < (s.mem.readWord (c + 1)).toNat →
    ∀ op ∈ ([.discCheck, .discRead, .discWrite, .discClear, .tapeCheck, .tapeRewind, .tapeLoad, .tapeLength, .tapeUnload, .tapeRead,
      .tapeWrite] : List PeriOp), ioRun (periOperation c op) s = (0xFFFFFFFD#32, s)) ∧
  (∀ (s : State) (c a : Word) (i : Fin 8), s.flags.vm = false → (∀ k < 4, memExists s.cfg (c + BitVec.ofNat 32 k) = true) →
    (s.mem.readWord (c + 1)).toNat = i.val + 1 →
    (∀ d, s.discs[i] = some d → ∃ r t, ioRun (periOperation c .discCheck) s = (r, t) ∧
      (d.size < 2 ^ 31 → r = BitVec.ofNat 32 d.size ∧ t = s) ∧
      (2 ^ 31 ≤ d.size → 0 ≤ r.toInt ∧ t = { s with draws := s.draws + 1 })) ∧
    (s.discs[i] = none → ioRun (periOperation c .discCheck) s = (0, s) ∧ ∀ op ∈ ([.discRead, .discWrite, .discClear] : List PeriOp),
      ioRun (periOperation c op) s = (0xFFFFFFFD#32, s)) ∧
    (∀ (b : Word) (disc : Disc), s.mem.readWord (c + 2) = b → s.mem.readWord (c + 3) = a → s.discs[i] = some disc →
      (2 ^ 31 ≤ b.toNat ∨ disc.size ≤ b.toNat → ∀ op ∈ ([.discRead, .discWrite] : List PeriOp),
        ioRun (periOperation c op) s = (0xFFFFFFFC#32, s)) ∧
      (b.toNat < 2 ^ 31 → b.toNat < disc.size →
        (∀ k < 128, memExists s.cfg (a + BitVec.ofNat 32 k) = false → ∀ op ∈ ([.discRead, .discWrite] : List PeriOp),
          (ioRun (periOperation c op) s).1 = 0xFFFFFFFB#32) ∧
        ((∀ k < 128, memExists s.cfg (a + BitVec.ofNat 32 k) = true) →
          (∃ t ws, ioRun (periOperation c .discWrite) s = ((if s.freeBit = true then 0xFFFFFFFA#32 else 1), t) ∧
            t = { s with discs := (s.setDisc i (some (disc.withBlock b.toNat ws))).discs, draws := t.draws } ∧
            (s.freeBit = false → ∀ k : Fin 128, ws[k] = s.mem.readWord (a + BitVec.ofNat 32 k.val))) ∧
          (∃ t ws, ioRun (periOperation c .discRead) s = (1, t) ∧ t = { s with mem := t.mem, draws := t.draws } ∧
            (∀ k : Fin 128, t.mem.readWord (a + BitVec.ofNat 32 k.val) = ws[k]) ∧
            (∀ x, (∀ k < 128, x ≠ a + BitVec.ofNat 32 k) → t.mem.readWord x = s.mem.readWord x) ∧
            (∀ held : Vector Word 128, disc.blocks.find? (fun x => x.1 == b.toNat) = some (b.toNat, held) →
              ws = held ∧ t.draws = s.draws) ∧
            (disc.blocks.find? (fun x => x.1 == b.toNat) = none → disc.erased = true →
              ws = Vector.replicate 128 0 ∧ t.draws = s.draws))))) ∧
    (∀ disc : Disc, s.discs[i] = some disc → ∃ r t b, ioRun (periOperation c .discClear) s = (r, t) ∧
      t = { s with discs := (s.setDisc i (some { size := disc.size, erased := b, blocks := [] })).discs, draws := t.draws } ∧
      (b = true ∧ 0 ≤ r.toInt ∨ b = false ∧ r = 0xFFFFFFFA#32)) ∧
    ioRun (periOperation c .tapeCheck) s =
      ((match s.tapes[i] with | some t => (match t.mode with | .read => 82 | .write => 87) | none => 0), s) ∧
    (s.tapes[i] = none →
      (∀ op ∈ ([.tapeRewind, .tapeRead, .tapeWrite] : List PeriOp), ioRun (periOperation c op) s = (0xFFFFFFFD#32, s)) ∧
      (∀ op ∈ ([.tapeLength, .tapeUnload] : List PeriOp), ioRun (periOperation c op) s = (0xFFFFFFF9#32, s))) ∧
    (∀ n j : Nat, s.mem.readWord (c + 2) = a → n < 2 ^ 32 → (∀ k ≤ n, memExists s.cfg (a + BitVec.ofNat 32 k) = true) →
      j < 4 → (s.mem.readWord (a + BitVec.ofNat 32 n)).extractLsb' (8 * j) 8 = 0 →
      ∃ r t, ioRun (periOperation c .tapeLoad) s = (r, t) ∧ t = { s with tapes := t.tapes, draws := t.draws } ∧
        (r = 0xFFFFFFFD#32 ∧ t.tapes = s.tapes ∧ s.tapes[i] ≠ none ∨
         r = 0xFFFFFFF9#32 ∧ t.tapes = s.tapes ∨
         r = 0xFFFFFFF8#32 ∧ t.tapes = s.tapes ∧ s.mem.readWord (c + 3) ≠ 82 ∧ s.mem.readWord (c + 3) ≠ 87 ∨
         r = 1 ∧ ∃ tape, t.tapes = (s.setTape i (some tape)).tapes ∧ tape.position = 0 ∧
           s.mem.readWord (c + 3) = match tape.mode with | .read => 82 | .write => 87)) ∧
    (∀ tape : Tape, s.tapes[i] = some tape →
      ioRun (periOperation c .tapeRewind) s = (1, s.setTape i (some { tape with position := 0 })) ∧
      ioRun (periOperation c .tapeUnload) s = (1, s.setTape i none) ∧
      (∃ r d, ioRun (periOperation c .tapeLength) s = (r, { s with draws := d }) ∧
        (r = 0xFFFFFFF9#32 ∨ 0 ≤ r.toInt ∧ (tape.contents.length < 2 ^ 31 → r = BitVec.ofNat 32 tape.contents.length))) ∧
      (∀ n : Nat, tape.mode = .read → n = min 512 (tape.contents.length - tape.position) → s.mem.readWord (c + 2) = a →
        (∀ k < (n + 3) / 4, memExists s.cfg (a + BitVec.ofNat 32 k) = true) →
        ∃ t, ioRun (periOperation c .tapeRead) s = (BitVec.ofNat 32 n, t) ∧
          t = { s with
            mem := t.mem, tapes := (s.setTape i (some { tape with position := tape.position + n })).tapes, draws := s.draws + 2 } ∧
          (∀ k < n, (t.mem.readWord (a + BitVec.ofNat 32 (k / 4))).extractLsb' (8 * (k % 4)) 8 =
            tape.contents.getD (tape.position + k) 0) ∧
          (∀ x, (∀ k < (n + 3) / 4, x ≠ a + BitVec.ofNat 32 k) → t.mem.readWord x = s.mem.readWord x)) ∧
      (∀ n : Word, s.mem.readWord (c + 3) = n → n.toNat < 2 ^ 31 → s.mem.readWord (c + 2) = a →
        (∀ k < (n.toNat + 3) / 4, memExists s.cfg (a + BitVec.ofNat 32 k) = true) →
        ∃ r t, ioRun (periOperation c .tapeWrite) s = (r, t) ∧ t = { s with tapes := t.tapes, draws := t.draws } ∧
          (tape.mode = .read → t.tapes = s.tapes ∧ (r = 0xFFFFFFFD#32 ∨ r = 0xFFFFFFFA#32)) ∧
          (tape.mode = .write → (∃ other, t.tapes = (s.setTape i (some other)).tapes ∧ other.mode = .write) ∧
            (r = 0xFFFFFFFA#32 ∨ r = n ∧ t.tapes = (s.setTape i (some { tape with
              contents := tape.contents.take tape.position ++
                ((List.range n.toNat).map fun k =>
                  (s.mem.readWord (a + BitVec.ofNat 32 (k / 4))).extractLsb' (8 * (k % 4)) 8) ++
                tape.contents.drop (tape.position + n.toNat)
              position := tape.position + n.toNat })).tapes))))) ∧
  (∀ (s : State) (c f a : Word) (n j : Nat) (data : List Byte), s.flags.vm = false →
    memExists s.cfg (c + 1) = true → memExists s.cfg (c + 2) = true → s.mem.readWord (c + 1) = f → s.mem.readWord (c + 2) = a →
    n < 2 ^ 32 → (∀ k ≤ n, memExists s.cfg (f + BitVec.ofNat 32 k) = true) →
    j < 4 → (s.mem.readWord (f + BitVec.ofNat 32 n)).extractLsb' (8 * j) 8 = 0 → data = Config.freeBytes (s.draws + 1) →
    ∃ r t, ioRun (periOperation c .tapeLoadFile) s = (r, t) ∧ t = { s with mem := t.mem, draws := t.draws } ∧
      (∀ x, (∀ k < (data.length + 3) / 4, x ≠ a + BitVec.ofNat 32 k) → t.mem.readWord x = s.mem.readWord x) ∧
      (r = 0xFFFFFFF9#32 ∧ t.mem = s.mem ∨
       r = 0xFFFFFFFB#32 ∧ (∃ k < (data.length + 3) / 4, memExists s.cfg (a + BitVec.ofNat 32 k) = false) ∨
       0 ≤ r.toInt ∧ ((data.length + 3) / 4 < 2 ^ 31 → r = BitVec.ofNat 32 ((data.length + 3) / 4)) ∧ (data.length ≤ 2 ^ 34 →
         ∀ k < data.length, (t.mem.readWord (a + BitVec.ofNat 32 (k / 4))).extractLsb' (8 * (k % 4)) 8 = data.getD k 0)))

/-- R412 to R416, with VM = 0. A unit number that is not 1 or 2 is DEVNUMBER. TERMIN moves the first characters of the keyboard buffer, at
most as many as asked, into memory, four to a word and ended by a zero, and answers how many; the rest stay in the buffer, and no other
word of memory changes. TERMOUT prints so many characters of a packed string, or with 0 those before its end, and answers how many (entry
54 for 2^31 and more); MEMORY where they cannot be read, for a string that runs into missing memory after some number of its characters
were printed, which R391 leaves open (entry 35). NETSS turns a unit on with no packet received and stores its address, or off; DEVNUMBER or
INUSE where it is so already. NETSEND sends up to 1024 bytes, BADPARAM for more. A packet of up to 1024 bytes that arrives at a unit that
is on is the last received, another is lost (entry 33); NETRECV stores the sender's address and the bytes of the first received and takes
it away. MEMORY, for NETSEND and NETRECV, where the two words of the address cannot be reached. With no packet NETRECV answers NODATA
unless it is MEMORY or DEVFAILED, which stand before it in the order of R393; that MEMORY then concerns no other word is the model's choice
(entry 34). The host may have NETSEND and NETRECV fail with DEVFAILED, which may leave the packet sent or not, received or not (entry 33).
What is done to one unit leaves the other as before. -/
def Obligations.TerminalInput : Prop :=
  (∀ (s : State) (i j : Fin 2) (u : Option NetUnit), (s.setNet i u).nets[j] = (if j = i then u else s.nets[j]) ∧
    s.setNet i u = { s with nets := (s.setNet i u).nets }) ∧
  (∀ (s : State) (c max a : Word) (n : Nat), s.flags.vm = false →
    memExists s.cfg (c + 1) = true → memExists s.cfg (c + 2) = true → s.mem.readWord (c + 1) = max → s.mem.readWord (c + 2) = a →
    (max.toNat < 2 ^ 31 → n = min max.toNat s.keyboard.length →
      (∀ k ≤ n / 4, memExists s.cfg (a + BitVec.ofNat 32 k) = true) →
      ∃ t, ioRun (periOperation c .termIn) s = (BitVec.ofNat 32 n, t) ∧
        t = { s with keyboard := s.keyboard.drop n, mem := t.mem } ∧
        (∀ k < n, (t.mem.readWord (a + BitVec.ofNat 32 (k / 4))).extractLsb' (8 * (k % 4)) 8 = s.keyboard.getD k 0) ∧
        (∀ k ≤ n / 4 * 4 + 3, n ≤ k → (t.mem.readWord (a + BitVec.ofNat 32 (k / 4))).extractLsb' (8 * (k % 4)) 8 = 0) ∧
        (∀ x, (∀ k ≤ n / 4, x ≠ a + BitVec.ofNat 32 k) → t.mem.readWord x = s.mem.readWord x)) ∧
    (∀ char : Nat → Byte, (∀ k, char k = (s.mem.readWord (a + BitVec.ofNat 32 (k / 4))).extractLsb' (8 * (k % 4)) 8) →
      (0 < max.toNat → max.toNat < 2 ^ 31 → n = max.toNat → (∀ k < (n + 3) / 4, memExists s.cfg (a + BitVec.ofNat 32 k) = true) →
        ioRun (periOperation c .termOut) s = (max, { s with
          events := s.events ++ (List.range n).map fun k => .consoleOut ((char k).setWidth 32) })) ∧
      (max = 0 → n < 2 ^ 34 → (∀ k ≤ n / 4, memExists s.cfg (a + BitVec.ofNat 32 k) = true) → (∀ k < n, char k ≠ 0) → char n = 0 →
        ∃ r d, ioRun (periOperation c .termOut) s = (r, { s with
          events := s.events ++ (List.range n).map (fun k => .consoleOut ((char k).setWidth 32)), draws := d }) ∧
          0 ≤ r.toInt ∧ (n < 2 ^ 31 → r = BitVec.ofNat 32 n ∧ d = s.draws)) ∧
      (max = 0 → n < 2 ^ 32 → (∀ k < n, memExists s.cfg (a + BitVec.ofNat 32 k) = true) → (∀ k < 4 * n, char k ≠ 0) →
        memExists s.cfg (a + BitVec.ofNat 32 n) = false →
        ∃ j ≤ 4 * n, ioRun (periOperation c .termOut) s = (0xFFFFFFFB#32, { s with
          events := s.events ++ (List.range j).map (fun k => .consoleOut ((char k).setWidth 32)), draws := s.draws + 1 })) ∧
      (∀ k < (n + 3) / 4, 0 < max.toNat → max.toNat < 2 ^ 31 → n = max.toNat → memExists s.cfg (a + BitVec.ofNat 32 k) = false →
        (ioRun (periOperation c .termOut) s).1 = 0xFFFFFFFB#32))) ∧
  (∀ (s : State) (c : Word), s.flags.vm = false → (∀ k < 5, memExists s.cfg (c + BitVec.ofNat 32 k) = true) →
    (s.mem.readWord (c + 1)).toNat = 0 ∨ 2 < (s.mem.readWord (c + 1)).toNat →
    ∀ op ∈ ([.netSS, .netSend, .netRecv] : List PeriOp), ioRun (periOperation c op) s = (0xFFFFFFFD#32, s)) ∧
  (∀ (s : State) (c a d n : Word) (i : Fin 2), s.flags.vm = false → (∀ k < 5, memExists s.cfg (c + BitVec.ofNat 32 k) = true) →
    (s.mem.readWord (c + 1)).toNat = i.val + 1 →
    (s.mem.readWord (c + 3) = a → memExists s.cfg a = true → memExists s.cfg (a + 1) = true →
      (s.mem.readWord (c + 2) = 0 → s.nets[i] = none → ioRun (periOperation c .netSS) s = (0xFFFFFFFD#32, s)) ∧
      (s.mem.readWord (c + 2) = 1 → s.nets[i] ≠ none → ioRun (periOperation c .netSS) s = (0xFFFFFFF7#32, s)) ∧
      (s.mem.readWord (c + 2) = 0 ∧ s.nets[i] ≠ none ∨ s.mem.readWord (c + 2) = 1 ∧ s.nets[i] = none →
        ∃ x y r, 0 ≤ r.toInt ∧ ioRun (periOperation c .netSS) s = (r, { s with
          mem := (s.mem.writeWord a x).writeWord (a + 1) y, draws := s.draws + 3
          nets := (s.setNet i (if s.nets[i] = none then some { address := (x, y), received := [] } else none)).nets }))) ∧
    (s.nets[i] = none → ∀ op ∈ ([.netSend, .netRecv] : List PeriOp), ioRun (periOperation c op) s = (0xFFFFFFFD#32, s)) ∧
    (∀ u : NetUnit, s.nets[i] = some u → s.mem.readWord (c + 2) = d → memExists s.cfg d = false ∨ memExists s.cfg (d + 1) = false →
      (ioRun (periOperation c .netSend) s = (0xFFFFFFFB#32, s)) ∧ (ioRun (periOperation c .netRecv) s).1 = 0xFFFFFFFB#32 ∧
      (u.received = [] → (ioRun (periOperation c .netRecv) s).2 = s)) ∧
    (∀ u : NetUnit, s.nets[i] = some u → s.mem.readWord (c + 2) = d → memExists s.cfg d = true → memExists s.cfg (d + 1) = true →
      (s.mem.readWord (c + 3) = n → s.mem.readWord (c + 4) = a → n.toNat < 2 ^ 31 →
        (∀ k < (n.toNat + 3) / 4, memExists s.cfg (a + BitVec.ofNat 32 k) = true) →
        ∃ r t, ∃ sent : HostEvent, sent = .packetSent (i.val + 1) (s.mem.readWord d, s.mem.readWord (d + 1))
            ((List.range n.toNat).map fun k => (s.mem.readWord (a + BitVec.ofNat 32 (k / 4))).extractLsb' (8 * (k % 4)) 8) ∧
          ioRun (periOperation c .netSend) s = (r, t) ∧ t = { s with draws := t.draws, events := t.events } ∧
          (r = 0xFFFFFFFA#32 ∧ (t.events = s.events ∨ n.toNat ≤ 1024 ∧ t.events = s.events ++ [sent]) ∨
           r = 0xFFFFFFF8#32 ∧ 1024 < n.toNat ∧ t.events = s.events ∨
           0 ≤ r.toInt ∧ n.toNat ≤ 1024 ∧ t.events = s.events ++ [sent])) ∧
      (u.received = [] → ioRun (periOperation c .netRecv) s =
        ((if s.freeBit = true then 0xFFFFFFFA#32 else 0xFFFFFFF5#32), { s with draws := s.draws + 1 })) ∧
      (∀ (p : Packet) (rest : List Packet) (l : Nat), u.received = p :: rest → s.mem.readWord (c + 3) = a →
        l = min 1024 p.data.length →
        (∀ k < (l + 3) / 4, memExists s.cfg (a + BitVec.ofNat 32 k) = true ∧ a + BitVec.ofNat 32 k ≠ d ∧
          a + BitVec.ofNat 32 k ≠ d + 1) →
        ∃ r t left, ioRun (periOperation c .netRecv) s = (r, t) ∧
          t = { s with mem := t.mem, nets := (s.setNet i (some { u with received := left })).nets, draws := t.draws } ∧
          (∀ x, x ≠ d → x ≠ d + 1 → (∀ k < (l + 3) / 4, x ≠ a + BitVec.ofNat 32 k) → t.mem.readWord x = s.mem.readWord x) ∧
          (r = 0xFFFFFFFA#32 ∧ (left = u.received ∨ left = rest) ∨
           0 ≤ r.toInt ∧ left = rest ∧ t.mem.readWord d = p.source.1 ∧ t.mem.readWord (d + 1) = p.source.2 ∧
             ∀ k < l, (t.mem.readWord (a + BitVec.ofNat 32 (k / 4))).extractLsb' (8 * (k % 4)) 8 = p.data.getD k 0)))) ∧
  (∀ (s : State) (i : Fin 2) (p : Packet) (more : List HostInput) (later : List (List HostInput)), s.flags.r = true →
    s.inputs = (.packet (i.val + 1) p :: more) :: later →
    (∀ u, s.nets[i] = some u → p.data.length ≤ 1024 → step s = step { s with
      inputs := more :: later, nets := (s.setNet i (some { u with received := u.received ++ [p] })).nets }) ∧
    (s.nets[i] = none ∨ 1024 < p.data.length → step s = step { s with inputs := more :: later }))
end

