-- ==== Sys2Proof/Laws/Encoding.lean ====
section
/-! SUPPORT. The fields of an assembled word. -/

namespace Sys2Proof

theorem toNat_ofFin4 (x : Fin 16) : (BitVec.ofFin (w := 4) x).toNat = x.val := rfl

/-- The value of an assembled word, field by field (R121). -/
theorem assemble_toNat (op : Nat) (m : Reg) (o : Operand) :
    (assemble op m o).toNat = (op % 128) * 2 ^ 25 + o.indirect.toNat * 2 ^ 24 + m.val * 2 ^ 20 + o.index.val * 2 ^ 16 + o.number.toNat := by
  have h1 := m.isLt
  have h2 := o.index.isLt
  have h3 := o.number.isLt
  have h4 : o.indirect.toNat < 2 := Bool.toNat_lt _
  unfold assemble
  simp only [BitVec.toNat_append, BitVec.toNat_ofNat, BitVec.toNat_ofBool, toNat_ofFin4]
  rw [← Nat.shiftLeft_add_eq_or_of_lt h3, ← Nat.shiftLeft_add_eq_or_of_lt h2, ← Nat.shiftLeft_add_eq_or_of_lt h1,
    ← Nat.shiftLeft_add_eq_or_of_lt h4]
  simp only [Nat.shiftLeft_eq]
  omega

theorem opcodeField_assemble {op : Nat} (h : op < 128) (m : Reg) (o : Operand) : opcodeField (assemble op m o) = op := by
  have h1 := m.isLt
  have h2 := o.index.isLt
  have h3 := o.number.isLt
  have h4 : o.indirect.toNat < 2 := Bool.toNat_lt _
  simp only [opcodeField, BitVec.extractLsb'_toNat, assemble_toNat, Nat.shiftRight_eq_div_pow]
  omega

theorem mainField_assemble (op : Nat) (m : Reg) (o : Operand) : mainField (assemble op m o) = m := by
  have h1 := m.isLt
  have h2 := o.index.isLt
  have h3 := o.number.isLt
  have h4 : o.indirect.toNat < 2 := Bool.toNat_lt _
  apply Fin.ext
  show ((assemble op m o).extractLsb' 20 4).toNat = m.val
  simp only [BitVec.extractLsb'_toNat, assemble_toNat, Nat.shiftRight_eq_div_pow]
  omega

theorem operandField_assemble (op : Nat) (m : Reg) (o : Operand) : operandField (assemble op m o) = o := by
  have h1 := m.isLt
  have h2 := o.index.isLt
  have h3 := o.number.isLt
  have h4 : o.indirect.toNat < 2 := Bool.toNat_lt _
  obtain ⟨i, x, n⟩ := o
  simp only [operandField, Operand.mk.injEq]
  refine ⟨?_, Fin.ext ?_, BitVec.eq_of_toNat_eq ?_⟩
  · rw [BitVec.getLsbD, assemble_toNat, Nat.testBit_eq_decide_div_mod_eq]
    cases i <;> simp at * <;> omega
  · show ((assemble op m ⟨i, x, n⟩).extractLsb' 16 4).toNat = x.val
    simp only [BitVec.extractLsb'_toNat, assemble_toNat, Nat.shiftRight_eq_div_pow]
    simp only at *
    omega
  · simp only [BitVec.extractLsb'_toNat, assemble_toNat, Nat.shiftRight_eq_div_pow]
    simp only at *
    omega

/-- Decoding an assembled word looks its opcode up and builds from its fields (R134). -/
theorem decode_assemble {op : Nat} (h : op < 128) (m : Reg) (o : Operand) :
    decode (assemble op m o) = match findOpcode op opcodeMap with
      | some row => .ok (row.build m o)
      | none => .error (.unimplementedOpcode op) := by
  unfold decode
  rw [opcodeField_assemble h, mainField_assemble, operandField_assemble] <;> rfl

end Sys2Proof
end

