-- ==== Sys2Proof/Laws/Float.lean ====
section
/-! SUPPORT. The default FP32 does what IEEE 754 says (R342): roundFloat gives the nearest word, the even one of two, and the five
arithmetic operations, the conversions and the roundings give the rounded or exact results. -/

namespace Sys2Proof.Machine

/-- Rounding to the nearest integer, a tie to the even one, of a number known exactly or, above an odd numeral, to less than one. -/
theorem shiftRightNearestEven_near {m k : ℕ} {y : ℝ} (h : y = m ∨ (2 ≤ k ∧ m % 2 = 1 ∧ (m : ℝ) - 1 < y ∧ y < m + 1)) :
    2 * |y - shiftRightNearestEven m k * 2 ^ k| ≤ 2 ^ k ∧
    (2 * |y - shiftRightNearestEven m k * 2 ^ k| = 2 ^ k → shiftRightNearestEven m k % 2 = 0) := by
  have hd : 2 ^ k * (m / 2 ^ k) + m % 2 ^ k = m := Nat.div_add_mod m (2 ^ k)
  have hr : m % 2 ^ k < 2 ^ k := Nat.mod_lt _ (by positivity)
  set q := m / 2 ^ k with hq
  set r := m % 2 ^ k with hrr
  have hm : (m : ℝ) = 2 ^ k * q + r := by exact_mod_cast hd.symm
  have hp : (0 : ℝ) < 2 ^ k := by positivity
  obtain ⟨d, hy⟩ : ∃ d : ℝ, y = 2 ^ k * q + d := ⟨y - 2 ^ k * q, by ring⟩
  have hlt : 2 * r < 2 ^ k → 0 ≤ d ∧ 2 * d < 2 ^ k := by
    intro hh
    rcases h with h | ⟨hk, ho, h1, h2⟩
    · have : d = r := by linarith
      rw [this]
      exact ⟨by positivity, by exact_mod_cast hh⟩
    · obtain ⟨c, rfl⟩ : ∃ c, k = c + 2 := ⟨k - 2, by omega⟩
      have hodd : r % 2 = 1 := by
        rw [hrr, Nat.mod_mod_of_dvd _ ⟨2 ^ (c + 1), by ring⟩]; exact ho
      have h3 : 2 * r + 2 ≤ 2 ^ (c + 2) := by
        have : 2 ^ (c + 2) = 4 * 2 ^ c := by ring
        omega
      have h4 : (2 * r + 2 : ℝ) ≤ 2 ^ (c + 2) := by exact_mod_cast h3
      have h5 : (1 : ℝ) ≤ r := by exact_mod_cast (by omega : 1 ≤ r)
      constructor <;> linarith
  have heq : 2 * r = 2 ^ k → 2 * d = 2 ^ k := by
    intro hh
    rcases h with h | ⟨hk, ho, h1, h2⟩
    · have : d = r := by linarith
      rw [this]; exact_mod_cast hh
    · exfalso
      obtain ⟨c, rfl⟩ : ∃ c, k = c + 2 := ⟨k - 2, by omega⟩
      have hodd : r % 2 = 1 := by
        rw [hrr, Nat.mod_mod_of_dvd _ ⟨2 ^ (c + 1), by ring⟩]; exact ho
      have : 2 ^ (c + 2) = 4 * 2 ^ c := by ring
      omega
  have hgt : 2 ^ k < 2 * r → (2 : ℝ) ^ k < 2 * d ∧ d ≤ 2 ^ k := by
    intro hh
    rcases h with h | ⟨hk, ho, h1, h2⟩
    · have : d = r := by linarith
      rw [this]
      exact ⟨by exact_mod_cast hh, by exact_mod_cast hr.le⟩
    · obtain ⟨c, rfl⟩ : ∃ c, k = c + 2 := ⟨k - 2, by omega⟩
      have hodd : r % 2 = 1 := by
        rw [hrr, Nat.mod_mod_of_dvd _ ⟨2 ^ (c + 1), by ring⟩]; exact ho
      have h3 : 2 ^ (c + 2) + 2 ≤ 2 * r := by
        have : 2 ^ (c + 2) = 4 * 2 ^ c := by ring
        omega
      have h4 : (2 ^ (c + 2) + 2 : ℝ) ≤ 2 * r := by exact_mod_cast h3
      have h5 : (r + 1 : ℝ) ≤ 2 ^ (c + 2) := by exact_mod_cast hr
      constructor <;> linarith
  have e : shiftRightNearestEven m k = if 2 * r < 2 ^ k then q else if 2 ^ k < 2 * r then q + 1 else q + q % 2 := by
    simp only [shiftRightNearestEven, Nat.shiftRight_eq_div_pow, ← hq, ← hrr]
  rw [e]
  split
  · next hh =>
    obtain ⟨h1, h2⟩ := hlt hh
    have : |y - q * 2 ^ k| = d := by rw [hy, abs_of_nonneg] <;> ring_nf; exact h1
    rw [this]
    exact ⟨h2.le, fun h => absurd h h2.ne⟩
  · split
    · next hh =>
      obtain ⟨h1, h2⟩ := hgt hh
      have : |y - ((q + 1 : ℕ) : ℝ) * 2 ^ k| = 2 ^ k - d := by
        rw [hy, abs_of_nonpos] <;> push_cast <;> ring_nf
        linarith
      rw [this]
      exact ⟨by linarith, fun h => by linarith⟩
    · next h1 h2 =>
      have hh := heq (by omega)
      rcases Nat.mod_two_eq_zero_or_one q with h3 | h3
      · have : |y - ((q + q % 2 : ℕ) : ℝ) * 2 ^ k| = d := by
          rw [h3, hy, abs_of_nonneg] <;> push_cast <;> ring_nf
          linarith
        rw [this]
        exact ⟨hh.le, fun _ => by omega⟩
      · have : |y - ((q + q % 2 : ℕ) : ℝ) * 2 ^ k| = 2 ^ k - d := by
          rw [h3, hy, abs_of_nonpos] <;> push_cast <;> ring_nf
          linarith
        rw [this]
        exact ⟨by linarith, fun _ => by omega⟩

/-- The magnitude of a number. -/
theorem floatNumber_abs (w : Word) : |floatNumber w| =
    if floatExponent w = 0 then (floatFraction w : ℚ) * 2 ^ (-149 : ℤ)
    else (2 ^ 23 + floatFraction w : ℚ) * 2 ^ ((floatExponent w : ℤ) - 150) := by
  unfold floatNumber
  rw [abs_mul]
  have h1 : |(if w.msb = true then (-1 : ℚ) else 1)| = 1 := by split <;> simp
  rw [h1, one_mul, abs_of_nonneg]
  split <;> positivity

/-- A number is the sign times the magnitude. -/
theorem floatNumber_sign (w : Word) : floatNumber w = (if w.msb then -1 else 1) * |floatNumber w| := by
  rw [floatNumber_abs]; rfl

theorem floatFraction_lt (w : Word) : floatFraction w < 2 ^ 23 := (w.extractLsb' 0 23).isLt

/-- A magnitude is a whole number of 2^-149; and of 2^q, if it is at least 2^(23 + q). -/
theorem floatNumber_multiple (w : Word) (q : ℤ) (hq : -149 ≤ q) (h : q = -149 ∨ (2 : ℚ) ^ (23 + q) ≤ |floatNumber w|) :
    ∃ j : ℤ, floatNumber w = j * 2 ^ q := by
  suffices hs : ∃ j : ℤ, |floatNumber w| = j * 2 ^ q by
    obtain ⟨j, hj⟩ := hs
    refine ⟨(if w.msb then -1 else 1) * j, ?_⟩
    rw [floatNumber_sign, hj]
    split <;> push_cast <;> ring
  have hf := floatFraction_lt w
  rw [floatNumber_abs] at h ⊢
  split at h
  · next h0 =>
    rw [if_pos h0]
    rcases h with rfl | h
    · exact ⟨floatFraction w, by push_cast; rfl⟩
    · exfalso
      have h1 : (floatFraction w : ℚ) * 2 ^ (-149 : ℤ) < 2 ^ (23 : ℤ) * 2 ^ (-149 : ℤ) := by
        apply mul_lt_mul_of_pos_right _ (by positivity)
        exact_mod_cast hf
      rw [← zpow_add₀ (by norm_num)] at h1
      have h2 : (2 : ℚ) ^ ((23 : ℤ) + -149) ≤ 2 ^ (23 + q) := zpow_le_zpow_right₀ (by norm_num) (by omega)
      linarith
  · next h0 =>
    rw [if_neg h0]
    have hE : q ≤ (floatExponent w : ℤ) - 150 := by
      rcases h with rfl | h
      · omega
      · by_contra hc
        have h1 : (2 ^ 23 + floatFraction w : ℚ) * 2 ^ ((floatExponent w : ℤ) - 150) < 2 ^ (24 : ℤ) * 2 ^ ((floatExponent w : ℤ) - 150) := by
          apply mul_lt_mul_of_pos_right _ (by positivity)
          have : (floatFraction w : ℚ) < 2 ^ 23 := by exact_mod_cast hf
          rw [show (2 : ℚ) ^ (24 : ℤ) = 2 ^ 23 + 2 ^ 23 by norm_num]
          linarith
        rw [← zpow_add₀ (by norm_num)] at h1
        have h2 : (2 : ℚ) ^ ((24 : ℤ) + ((floatExponent w : ℤ) - 150)) ≤ 2 ^ (23 + q) := zpow_le_zpow_right₀ (by norm_num) (by omega)
        linarith
    obtain ⟨d, hd⟩ := Int.eq_ofNat_of_zero_le (by omega : 0 ≤ (floatExponent w : ℤ) - 150 - q)
    refine ⟨(2 ^ 23 + floatFraction w) * 2 ^ d, ?_⟩
    rw [show (floatExponent w : ℤ) - 150 = d + q by omega, zpow_add₀ (by norm_num)]
    push_cast
    rw [zpow_natCast]
    ring

/-- The word that holds a sign and 31 bits of magnitude. -/
def signedWord (neg : Bool) (bits : ℕ) : Word := (if neg then 0x80000000#32 else 0#32) ||| BitVec.ofNat 32 bits

theorem signedWord_toNat (neg : Bool) {bits : ℕ} (h : bits < 2 ^ 31) :
    (signedWord neg bits).toNat = (if neg then 2 ^ 31 else 0) + bits := by
  cases neg with
  | false => simp [signedWord]; omega
  | true =>
    have : signedWord true bits = 0x80000000#32 + BitVec.ofNat 32 bits := by
      rw [signedWord, if_pos rfl, ← BitVec.add_eq_or_of_and_eq_zero]
      apply BitVec.eq_of_getLsbD_eq
      intro i hi
      simp only [BitVec.getLsbD_and, BitVec.getLsbD_ofNat]
      by_cases h31 : i = 31
      · subst h31
        simp [Nat.testBit_lt_two_pow h]
      · have : (0x80000000 : ℕ).testBit i = false := by
          rw [show 0x80000000 = 2 ^ 31 from rfl, Nat.testBit_two_pow]; simp; omega
        simp [this]
    rw [this, BitVec.toNat_add]
    simp
    omega

theorem signedWord_msb (neg : Bool) {bits : ℕ} (h : bits < 2 ^ 31) : (signedWord neg bits).msb = neg := by
  rw [BitVec.msb_eq_decide, signedWord_toNat neg h]
  cases neg <;> simp <;> omega

theorem floatFraction_toNat (w : Word) : floatFraction w = w.toNat % 2 ^ 23 := by simp [floatFraction, BitVec.extractLsb'_toNat]
theorem floatExponent_toNat (w : Word) : floatExponent w = w.toNat / 2 ^ 23 % 2 ^ 8 := by
  simp [floatExponent, BitVec.extractLsb'_toNat, Nat.shiftRight_eq_div_pow]

/-- The word with `n + k * 2^23` as magnitude bits denotes `n * 2^(k - 149)`. -/
theorem floatNumber_signedWord (neg : Bool) {n k : ℕ} (hn : n ≤ 2 ^ 24) (hk : 0 < k → 2 ^ 23 ≤ n) (hb : n + k * 2 ^ 23 < 255 * 2 ^ 23) :
    floatProper (signedWord neg (n + k * 2 ^ 23)) = true ∧
    floatNumber (signedWord neg (n + k * 2 ^ 23)) = (if neg then -1 else 1) * ((n : ℚ) * 2 ^ ((k : ℤ) - 149)) := by
  have h31 : n + k * 2 ^ 23 < 2 ^ 31 := by omega
  have hE : floatExponent (signedWord neg (n + k * 2 ^ 23)) = n / 2 ^ 23 + k := by
    rw [floatExponent_toNat, signedWord_toNat neg h31]
    cases neg <;> simp <;> omega
  have hF : floatFraction (signedWord neg (n + k * 2 ^ 23)) = n % 2 ^ 23 := by
    rw [floatFraction_toNat, signedWord_toNat neg h31]
    cases neg <;> simp <;> omega
  refine ⟨?_, ?_⟩
  · simp only [floatProper, hE, bne_iff_ne, ne_eq]; omega
  rw [floatNumber, signedWord_msb neg h31, hE, hF]
  congr 1
  rcases (by omega : n < 2 ^ 23 ∨ (2 ^ 23 ≤ n ∧ n < 2 ^ 24) ∨ n = 2 ^ 24) with h | ⟨h1, h2⟩ | h
  · have : k = 0 := by by_contra hc; have := hk (by omega); omega
    subst this
    rw [if_pos (by omega), Nat.mod_eq_of_lt h]; norm_num
  · rw [if_neg (by omega), show n / 2 ^ 23 = 1 by omega]
    congr 1
    · have : ((2 ^ 23 + n % 2 ^ 23 : ℕ) : ℚ) = n := by congr 1; omega
      push_cast at this ⊢; exact this
    · congr 1; push_cast; ring
  · subst h
    rw [if_neg (by omega), show 2 ^ 24 / 2 ^ 23 = 2 by rfl, show 2 ^ 24 % 2 ^ 23 = 0 by rfl]
    rw [show ((2 + k : ℕ) : ℤ) - 150 = 1 + ((k : ℤ) - 149) by push_cast; ring, zpow_add₀ (by norm_num)]
    push_cast; ring

theorem roundFloat_zero (neg : Bool) (e : ℤ) : roundFloat neg 0 e = some (signedWord neg 0) := by
  cases neg <;> rfl

theorem floatNumber_signedWord_neg (neg : Bool) {bits : ℕ} (h : bits < 2 ^ 31) :
    floatNumber (signedWord neg bits) = (if neg then -1 else 1) * floatNumber (signedWord false bits) := by
  have h1 : floatExponent (signedWord neg bits) = floatExponent (signedWord false bits) := by
    rw [floatExponent_toNat, floatExponent_toNat, signedWord_toNat _ h, signedWord_toNat _ h]
    cases neg <;> simp; omega
  have h2 : floatFraction (signedWord neg bits) = floatFraction (signedWord false bits) := by
    rw [floatFraction_toNat, floatFraction_toNat, signedWord_toNat _ h, signedWord_toNat _ h]
    cases neg <;> simp; omega
  simp only [floatNumber, signedWord_msb _ h, h1, h2]
  simp

/-- `n` whole quanta of 2^q is the rounding of `y`, when n is the nearest integer to `y / 2^q`, the even one of two. -/
theorem roundsTo_of_near {neg : Bool} {n k : ℕ} {y : ℝ} (hn : n ≤ 2 ^ 24) (hk : 0 < k → 2 ^ 23 ≤ n)
    (hb : n + k * 2 ^ 23 < 255 * 2 ^ 23) (hy : 0 < k → (2 : ℝ) ^ (23 + ((k : ℤ) - 149)) ≤ y)
    (h1 : 2 * |y - n * 2 ^ ((k : ℤ) - 149)| ≤ 2 ^ ((k : ℤ) - 149))
    (h2 : 2 * |y - n * 2 ^ ((k : ℤ) - 149)| = 2 ^ ((k : ℤ) - 149) → n % 2 = 0) :
    RoundsTo ((if neg then -1 else 1) * y) (signedWord neg (n + k * 2 ^ 23)) := by
  obtain ⟨hp, hf⟩ := floatNumber_signedWord neg hn hk hb
  have h31 : n + k * 2 ^ 23 < 2 ^ 31 := by omega
  set q : ℤ := (k : ℤ) - 149 with hq
  have hQ : (0 : ℝ) < 2 ^ q := by positivity
  have hsg : ((if neg then -1 else 1 : ℝ)) * (if neg then -1 else 1 : ℝ) = 1 := by cases neg <;> simp
  have habs : ∀ z : ℝ, |(if neg then -1 else 1 : ℝ) * z| = |z| := by intro z; cases neg <;> simp
  have key : |(if neg then -1 else 1 : ℝ) * y - floatNumber (signedWord neg (n + k * 2 ^ 23))| = |y - n * 2 ^ q| := by
    rw [hf]
    push_cast
    rw [← habs (y - n * 2 ^ q)]
    congr 1
    cases neg <;> simp; ring
  have hj : ∀ j : ℤ, |y - n * 2 ^ q| ≤ |y - j * 2 ^ q| ∧ (|y - n * 2 ^ q| = |y - j * 2 ^ q| → j = n ∨ n % 2 = 0) := by
    intro j
    by_cases hjn : j = n
    · subst hjn; push_cast; exact ⟨le_rfl, fun _ => .inl rfl⟩
    · have h3 : (1 : ℝ) ≤ |((j - n : ℤ) : ℝ)| := by
        exact_mod_cast Int.one_le_abs (sub_ne_zero.2 hjn)
      have h4 : (2 : ℝ) ^ q ≤ |(y - n * 2 ^ q) - (y - j * 2 ^ q)| := by
        rw [show (y - n * 2 ^ q) - (y - j * 2 ^ q) = ((j - n : ℤ) : ℝ) * 2 ^ q by push_cast; ring, abs_mul, abs_of_pos hQ]
        nlinarith
      have h5 := abs_sub (y - n * 2 ^ q) (y - j * 2 ^ q)
      exact ⟨by linarith, fun e => .inr (h2 (by linarith))⟩
  refine ⟨hp, fun u hu => ?_⟩
  rw [key]
  have hlast : n % 2 = 0 → (signedWord neg (n + k * 2 ^ 23)).getLsbD 0 = false := by
    intro h
    rw [BitVec.getLsbD, signedWord_toNat neg h31, Nat.testBit_zero]
    cases neg <;> simp <;> omega
  by_cases hu2 : k = 0 ∨ (2 : ℚ) ^ (23 + q) ≤ |floatNumber u|
  · obtain ⟨j, hj'⟩ := floatNumber_multiple u q (by omega) (hu2.imp (by omega) id)
    have e : |(if neg then -1 else 1 : ℝ) * y - floatNumber u| = |y - ((if neg then -1 else 1) * j : ℤ) * 2 ^ q| := by
      rw [hj', ← habs (y - _)]
      push_cast
      congr 1
      cases neg <;> simp; ring
    obtain ⟨a, b⟩ := hj ((if neg then -1 else 1) * j)
    rw [e]
    refine ⟨a, fun h => (b h).imp (fun h => ?_) hlast⟩
    rw [hf, hj']
    have : (((if neg then -1 else 1) * j : ℤ) : ℚ) = n := by rw [h]; rfl
    push_cast at this
    rw [← this]
    cases neg <;> simp
  · obtain ⟨hk0, hsmall⟩ := not_or.1 hu2
    replace hsmall := not_le.1 hsmall
    have hy' := hy (Nat.pos_of_ne_zero hk0)
    have hs : |(floatNumber u : ℝ)| < 2 ^ (23 + q) := by
      have := (Rat.cast_lt (K := ℝ)).2 hsmall
      rwa [Rat.cast_abs, Rat.cast_zpow, Rat.cast_ofNat] at this
    have e : y - 2 ^ (23 + q) < |(if neg then -1 else 1 : ℝ) * y - floatNumber u| := by
      have : |y| - |(floatNumber u : ℝ)| ≤ |(if neg then -1 else 1 : ℝ) * y - floatNumber u| := by
        rw [← habs y]; exact abs_sub_abs_le_abs_sub _ _
      rw [abs_of_nonneg (le_trans (by positivity) hy')] at this
      linarith
    have h3 := (hj (2 ^ 23)).1
    have h4 : |y - ((2 ^ 23 : ℤ) : ℝ) * 2 ^ q| = y - 2 ^ (23 + q) := by
      rw [zpow_add₀ (by norm_num)] at hy' ⊢
      push_cast
      rw [abs_of_nonneg]
      · norm_cast
      · have : (2 : ℝ) ^ (23 : ℤ) = 2 ^ 23 := by norm_cast
        rw [this] at hy'; linarith
    rw [h4] at h3
    exact ⟨by linarith, fun h => by linarith⟩

/-- What `roundFloat` answers: the rounding of the number `m * 2^e` stands for, below the bound, and else nothing. -/
theorem roundFloat_rounds {neg : Bool} {m : ℕ} {e : ℤ} {y : ℝ} (hm : m ≠ 0)
    (h : y = m * 2 ^ e ∨ (2 ^ 25 ≤ m ∧ m % 2 = 1 ∧ ((m : ℝ) - 1) * 2 ^ e < y ∧ y < (m + 1) * 2 ^ e)) :
    (y < roundingBound → ∃ w, roundFloat neg m e = some w ∧ w.msb = neg ∧ RoundsTo ((if neg then -1 else 1) * y) w) ∧
    (roundingBound ≤ y → roundFloat neg m e = none) := by
  set L := m.log2 with hL
  have hL1 : 2 ^ L ≤ m := Nat.log2_self_le hm
  have hL2 : m < 2 ^ (L + 1) := Nat.lt_log2_self
  have hE : (0 : ℝ) < 2 ^ e := by positivity
  have hlow : (2 : ℝ) ^ ((L : ℤ) + e) ≤ y := by
    rw [zpow_add₀ (by norm_num), zpow_natCast]
    rcases h with rfl | ⟨h1, h2, h3, -⟩
    · exact mul_le_mul_of_nonneg_right (by exact_mod_cast hL1) hE.le
    · have : 2 ^ L + 1 ≤ m := by
        rcases Nat.eq_or_lt_of_le hL1 with h4 | h4
        · have h5 : L ≠ 0 := by rintro h5; rw [h5] at h4; omega
          rw [← h4, show L = (L - 1) + 1 by omega, pow_succ] at h2
          omega
        · omega
      have : ((2 : ℝ) ^ L + 1) ≤ m := by exact_mod_cast this
      nlinarith
  have hhigh : y < (2 : ℝ) ^ ((L : ℤ) + 1 + e) := by
    rw [zpow_add₀ (by norm_num), show (2 : ℝ) ^ ((L : ℤ) + 1) = 2 ^ (L + 1) by norm_cast]
    have h4 : (m : ℝ) + 1 ≤ 2 ^ (L + 1) := by exact_mod_cast hL2
    rcases h with rfl | ⟨-, -, -, h3⟩ <;> nlinarith
  set q : ℤ := max ((L : ℤ) + e - 23) (-149) with hq
  obtain ⟨k, hk⟩ := Int.eq_ofNat_of_zero_le (by omega : 0 ≤ q + 149)
  have hqk : q = (k : ℤ) - 149 := by omega
  set n := if e < q then shiftRightNearestEven m (q - e).toNat else m <<< (e - q).toNat with hn
  have near : 2 * |y - n * 2 ^ q| ≤ 2 ^ q ∧ (2 * |y - n * 2 ^ q| = 2 ^ q → n % 2 = 0) := by
    rw [hn]
    split
    · next hlt =>
      obtain ⟨d, hd⟩ := Int.eq_ofNat_of_zero_le (by omega : 0 ≤ q - e)
      rw [hd, Int.toNat_natCast]
      have hs := shiftRightNearestEven_near (m := m) (k := d) (y := y / 2 ^ e) (by
        rcases h with rfl | ⟨h1, h2, h3, h4⟩
        · left; field_simp
        · right
          have : 25 ≤ L := (Nat.le_log2 hm).2 h1
          exact ⟨by omega, h2, by rwa [lt_div_iff₀ hE], by rwa [div_lt_iff₀ hE]⟩)
      have e1 : |y - (shiftRightNearestEven m d : ℝ) * 2 ^ q| = |y / 2 ^ e - (shiftRightNearestEven m d : ℝ) * 2 ^ d| * 2 ^ e := by
        rw [← abs_of_pos hE, ← abs_mul, abs_of_pos hE]
        congr 1
        rw [show q = d + e by omega, zpow_add₀ (by norm_num), zpow_natCast]
        field_simp
      have e2 : (2 : ℝ) ^ q = 2 ^ d * 2 ^ e := by
        rw [show q = d + e by omega, zpow_add₀ (by norm_num), zpow_natCast]
      rw [e1, e2]
      refine ⟨by nlinarith [hs.1], fun h => hs.2 ?_⟩
      have : (2 * |y / 2 ^ e - (shiftRightNearestEven m d : ℝ) * 2 ^ d|) * 2 ^ e = 2 ^ d * 2 ^ e := by linarith
      exact mul_right_cancel₀ hE.ne' this
    · next hge =>
      obtain ⟨d, hd⟩ := Int.eq_ofNat_of_zero_le (by omega : 0 ≤ e - q)
      rw [hd, Int.toNat_natCast, Nat.shiftLeft_eq]
      rcases h with h | ⟨h1, -⟩
      · have : y - ((m * 2 ^ d : ℕ) : ℝ) * 2 ^ q = 0 := by
          rw [h, show e = d + q by omega, zpow_add₀ (by norm_num), zpow_natCast]; push_cast; ring
        rw [this]
        have : (0 : ℝ) < 2 ^ q := by positivity
        simp only [abs_zero, mul_zero]
        exact ⟨this.le, fun h => absurd h this.ne⟩
      · exfalso
        have : 25 ≤ L := (Nat.le_log2 hm).2 h1
        omega
  have hQ : (0 : ℝ) < 2 ^ q := by positivity
  obtain ⟨a1, a2⟩ := abs_le.1 (by linarith [near.1] : |y - n * 2 ^ q| ≤ 2 ^ q / 2)
  have hy24 : y < 2 ^ 24 * 2 ^ q := by
    have : (2 : ℝ) ^ ((L : ℤ) + 1 + e) ≤ 2 ^ ((24 : ℤ) + q) := zpow_le_zpow_right₀ (by norm_num) (by omega)
    rw [zpow_add₀ (by norm_num) 24, show (2 : ℝ) ^ (24 : ℤ) = 2 ^ 24 by norm_cast] at this
    linarith
  have hn24 : n ≤ 2 ^ 24 := by
    by_contra hc
    have : (2 ^ 24 + 1 : ℝ) ≤ n := by exact_mod_cast (by omega : 2 ^ 24 + 1 ≤ n)
    nlinarith
  have hy23 : 0 < k → (2 : ℝ) ^ (23 + q) ≤ y := by
    intro hk0
    refine le_trans ?_ hlow
    exact zpow_le_zpow_right₀ (by norm_num) (by omega)
  have hn23 : 0 < k → 2 ^ 23 ≤ n := by
    intro hk0
    have h1 := hy23 hk0
    rw [zpow_add₀ (by norm_num), show (2 : ℝ) ^ (23 : ℤ) = 2 ^ 23 by norm_cast] at h1
    by_contra hc
    have : (n + 1 : ℝ) ≤ 2 ^ 23 := by exact_mod_cast (by omega : n + 1 ≤ 2 ^ 23)
    nlinarith
  have hr : roundFloat neg m e = if n + k * 2 ^ 23 < 255 * 2 ^ 23 then some (signedWord neg (n + k * 2 ^ 23)) else none := by
    have hkn : (q + 149).toNat = k := by omega
    simp only [roundFloat, if_neg hm, ← hL, ← hq, hkn, signedWord]
    rfl
  rw [hr]
  have hB : (roundingBound : ℝ) = (2 ^ 24 - 1 / 2) * 2 ^ (104 : ℤ) := by
    simp only [roundingBound]; push_cast
    rw [show (2 : ℝ) ^ (104 : ℤ) = 2 ^ 104 by norm_cast]
    ring
  have fits : n + k * 2 ^ 23 < 255 * 2 ^ 23 ↔ y < roundingBound := by
    rw [hB]
    rcases lt_trichotomy k 253 with hk3 | hk3 | hk3
    · refine ⟨fun _ => ?_, fun _ => by omega⟩
      refine lt_of_lt_of_le hy24 ?_
      have : (2 : ℝ) ^ q ≤ 2 ^ (103 : ℤ) := zpow_le_zpow_right₀ (by norm_num) (by omega)
      have h2 : (2 : ℝ) ^ (104 : ℤ) = 2 * 2 ^ (103 : ℤ) := by norm_num
      rw [h2]
      have : (0 : ℝ) < 2 ^ (103 : ℤ) := by positivity
      nlinarith
    · have hq' : q = 104 := by omega
      rw [hk3]
      rw [hq'] at near a1 a2
      constructor
      · intro hlt
        have : (n + 1 : ℝ) ≤ 2 ^ 24 := by exact_mod_cast (by omega : n + 1 ≤ 2 ^ 24)
        rcases lt_or_ge y ((2 ^ 24 - 1 / 2) * 2 ^ (104 : ℤ)) with h1 | h1
        · exact h1
        · exfalso
          have h2 : (0 : ℝ) < 2 ^ (104 : ℤ) := by positivity
          have h3 : n + 1 = 2 ^ 24 := by
            by_contra hc
            have : (n + 2 : ℝ) ≤ 2 ^ 24 := by exact_mod_cast (by omega : n + 2 ≤ 2 ^ 24)
            have := mul_le_mul_of_nonneg_right this h2.le
            linarith
          have h4 : (n : ℝ) = 2 ^ 24 - 1 := by
            have : ((n + 1 : ℕ) : ℝ) = 2 ^ 24 := by rw [h3]; norm_num
            push_cast at this; linarith
          have h5 := near.2 (by
            rw [h4] at a1 a2 ⊢
            rw [abs_of_nonneg] <;> linarith)
          omega
      · intro hlt
        by_contra hc
        have h3 : n = 2 ^ 24 := by omega
        rw [h3] at a1
        push_cast at a1
        linarith
    · refine ⟨fun hlt => by have := hn23 (by omega); omega, fun hlt => ?_⟩
      exfalso
      have h1 := hy23 (by omega)
      have h2 : (2 : ℝ) ^ ((24 : ℤ) + 104) ≤ 2 ^ (23 + q) := zpow_le_zpow_right₀ (by norm_num) (by omega)
      rw [zpow_add₀ (by norm_num), show (2 : ℝ) ^ (24 : ℤ) = 2 ^ 24 by norm_cast] at h2
      have h3 : (0 : ℝ) < 2 ^ (104 : ℤ) := by positivity
      nlinarith
  constructor
  · intro hlt
    have hb := fits.2 hlt
    rw [if_pos hb]
    refine ⟨_, rfl, signedWord_msb neg (by omega), ?_⟩
    exact roundsTo_of_near hn24 hn23 hb (by rw [← hqk]; exact hy23) (by rw [← hqk]; exact near.1) (by rw [← hqk]; exact near.2)
  · intro hge
    rw [if_neg (fun hb => absurd (fits.1 hb) (not_lt.2 hge))]

/-! ### What the functions of the default FP32 answer for proper words -/

/-- A proper word is a finite number. -/
theorem floatValue_proper {w : Word} (h : floatProper w = true) :
    ∃ (m : ℕ) (e : ℤ), floatValue w = .finite w.msb m e ∧ floatNumber w = (if w.msb then -1 else 1) * ((m : ℚ) * 2 ^ e) ∧
      m < 2 ^ 24 ∧ -149 ≤ e ∧ e ≤ 104 := by
  have hf := floatFraction_lt w
  have h1 : floatExponent w ≠ 255 := by simpa [floatProper] using h
  have h2 : floatExponent w < 256 := (w.extractLsb' 23 8).isLt
  unfold floatValue floatNumber
  rw [if_neg h1]
  split
  · next h0 => exact ⟨_, _, rfl, rfl, by omega, by omega, by omega⟩
  · next h0 =>
    refine ⟨_, _, rfl, ?_, by omega, by omega, by omega⟩
    push_cast; ring_nf

theorem floatValue_improper {w : Word} (h : floatProper w = false) (s : Bool) (m : ℕ) (e : ℤ) : floatValue w ≠ .finite s m e := by
  have h1 : floatExponent w = 255 := by simpa [floatProper] using h
  unfold floatValue
  rw [if_pos h1]
  split <;> simp

/-- A number is the rounding of itself. -/
theorem roundsTo_self {w : Word} (h : floatProper w = true) : RoundsTo (floatNumber w) w := by
  refine ⟨h, fun u _ => ⟨by simp, fun e => .inl ?_⟩⟩
  simp only [sub_self, abs_zero] at e
  have := (abs_eq_zero.1 e.symm)
  exact_mod_cast (sub_eq_zero.1 this).symm

/-- A number that can be represented is rounded to itself. -/
theorem RoundsTo.exact {w u : Word} (h : RoundsTo (floatNumber u) w) (hu : floatProper u = true) : floatNumber w = floatNumber u := by
  have := (h.2 u hu).1
  simp only [sub_self, abs_zero] at this
  have := abs_eq_zero.1 (le_antisymm this (abs_nonneg _))
  exact_mod_cast (sub_eq_zero.1 this).symm

theorem roundsTo_zero (neg : Bool) : RoundsTo 0 (signedWord neg 0) ∧ (signedWord neg 0).msb = neg := by
  have h : floatProper (signedWord neg 0) = true ∧ floatNumber (signedWord neg 0) = 0 := by
    have := floatNumber_signedWord neg (n := 0) (k := 0) (by omega) (by omega) (by omega)
    simpa using this
  refine ⟨?_, signedWord_msb neg (by omega)⟩
  have := roundsTo_self h.1
  rwa [h.2, Rat.cast_zero] at this

/-- What a signed whole number times a power of two is rounded to. -/
theorem roundSigned_rounds (z : Bool) (N e : ℤ) {x : ℝ} (hx : x = N * 2 ^ e) :
    (|x| < roundingBound → ∃ w, roundSigned z N e = some w ∧ RoundsTo x w ∧ w.msb = if x = 0 then z else decide (x < 0)) ∧
    (roundingBound ≤ |x| → roundSigned z N e = none) := by
  have hE : (0 : ℝ) < 2 ^ e := by positivity
  have h0 : (0 : ℝ) < roundingBound := by simp only [roundingBound]; norm_num
  unfold roundSigned
  split
  · next hN =>
    have : x = 0 := by rw [hx, hN]; simp
    subst this
    refine ⟨fun _ => ⟨_, roundFloat_zero z 0, (roundsTo_zero z).1, by simpa using (roundsTo_zero z).2⟩, fun h => ?_⟩
    rw [abs_zero] at h
    exact absurd h0 (not_lt.2 h)
  · next hN =>
    have hxN : x ≠ 0 := by rw [hx]; exact mul_ne_zero (by exact_mod_cast hN) hE.ne'
    have hneg : decide (N < 0) = decide (x < 0) := by
      rw [hx]
      simp only [mul_neg_iff, hE, hE.not_gt, and_true, and_false, false_or]
      norm_cast
    have habs : |x| = (N.natAbs : ℝ) * 2 ^ e := by
      rw [hx, abs_mul, abs_of_pos hE, Nat.cast_natAbs, Int.cast_abs]
    have hr := roundFloat_rounds (neg := decide (N < 0)) (m := N.natAbs) (e := e) (y := |x|) (by omega) (.inl habs)
    refine ⟨fun h => ?_, hr.2⟩
    obtain ⟨w, h1, h2, h3⟩ := hr.1 h
    refine ⟨w, h1, ?_, ?_⟩
    · rw [hneg] at h3
      convert h3 using 1
      by_cases hlt : x < 0
      · simp [hlt, abs_of_neg hlt]
      · simp [hlt, abs_of_nonneg (not_lt.1 hlt)]
    · rw [if_neg hxN, ← hneg, h2]

theorem signedNat_cast (s : Bool) (m : ℕ) : ((signedNat s m : ℤ) : ℝ) = (if s then -1 else 1) * (m : ℝ) := by
  cases s <;> simp [signedNat]

/-- fadd is the rounded sum; a sum of 0 is -0.0 only of two numbers with the sign set. -/
theorem fadd_rounds {a b : Word} (ha : floatProper a = true) (hb : floatProper b = true) {x : ℝ} (hx : x = floatNumber a + floatNumber b) :
    (|x| < roundingBound → ∃ w, fadd a b = some w ∧ RoundsTo x w ∧ w.msb = if x = 0 then a.msb && b.msb else decide (x < 0)) ∧
    (roundingBound ≤ |x| → fadd a b = none) := by
  obtain ⟨m1, e1, h1, f1, -⟩ := floatValue_proper ha
  obtain ⟨m2, e2, h2, f2, -⟩ := floatValue_proper hb
  simp only [fadd, h1, h2]
  apply roundSigned_rounds
  rw [hx, f1, f2]
  push_cast
  rw [signedNat_cast, signedNat_cast]
  simp only [Nat.shiftLeft_eq]
  obtain ⟨d1, hd1⟩ := Int.eq_ofNat_of_zero_le (by omega : 0 ≤ e1 - min e1 e2)
  obtain ⟨d2, hd2⟩ := Int.eq_ofNat_of_zero_le (by omega : 0 ≤ e2 - min e1 e2)
  rw [hd1, hd2, Int.toNat_natCast, Int.toNat_natCast]
  have p1 : (2 : ℝ) ^ e1 = 2 ^ d1 * 2 ^ min e1 e2 := by
    rw [show e1 = d1 + min e1 e2 by omega, zpow_add₀ (by norm_num), zpow_natCast]
    congr 2; omega
  have p2 : (2 : ℝ) ^ e2 = 2 ^ d2 * 2 ^ min e1 e2 := by
    rw [show e2 = d2 + min e1 e2 by omega, zpow_add₀ (by norm_num), zpow_natCast]
    congr 2; omega
  rw [p1, p2]
  push_cast
  simp only [apply_ite (Rat.cast : ℚ → ℝ)]
  cases a.msb <;> cases b.msb <;> simp <;> ring

theorem msb_flip (b : Word) : (b ^^^ 0x80000000#32).msb = !b.msb := by
  rw [BitVec.msb_xor, show (0x80000000#32 : Word).msb = true by decide]; simp

theorem floatFields_flip (b : Word) : floatExponent (b ^^^ 0x80000000#32) = floatExponent b ∧
    floatFraction (b ^^^ 0x80000000#32) = floatFraction b := by
  constructor
  · simp only [floatExponent]; congr 1
    apply BitVec.eq_of_getLsbD_eq; intro i hi
    simp only [BitVec.getLsbD_extractLsb', BitVec.getLsbD_xor, hi, decide_true, Bool.true_and]
    have : (0x80000000#32).getLsbD (23 + i) = false := by
      rw [show (0x80000000#32) = BitVec.twoPow 32 31 by decide, BitVec.getLsbD_twoPow]; simp; omega
    simp [this]
  · simp only [floatFraction]; congr 1
    apply BitVec.eq_of_getLsbD_eq; intro i hi
    simp only [BitVec.getLsbD_extractLsb', BitVec.getLsbD_xor, hi, decide_true, Bool.true_and]
    rw [Nat.zero_add]
    have : (0x80000000#32).getLsbD i = false := by
      rw [show (0x80000000#32) = BitVec.twoPow 32 31 by decide, BitVec.getLsbD_twoPow]; simp; omega
    rw [this, Bool.xor_false]

theorem floatProper_flip (b : Word) : floatProper (b ^^^ 0x80000000#32) = floatProper b := by
  simp [floatProper, floatFields_flip]

theorem floatNumber_flip (b : Word) : floatNumber (b ^^^ 0x80000000#32) = -floatNumber b := by
  simp only [floatNumber, msb_flip, floatFields_flip]
  cases b.msb <;> by_cases h : floatExponent b = 0 <;> simp [h]

/-- fsub is the rounded difference. -/
theorem fsub_rounds {a b : Word} (ha : floatProper a = true) (hb : floatProper b = true) {x : ℝ} (hx : x = floatNumber a - floatNumber b) :
    (|x| < roundingBound → ∃ w, fsub a b = some w ∧ RoundsTo x w ∧ w.msb = if x = 0 then a.msb && !b.msb else decide (x < 0)) ∧
    (roundingBound ≤ |x| → fsub a b = none) := by
  have := fadd_rounds ha (b := b ^^^ 0x80000000#32) (by rw [floatProper_flip, hb]) (x := x) (by
    rw [hx, floatNumber_flip]; push_cast; ring)
  rwa [msb_flip] at this

theorem sign_mul (s t : Bool) : ((if s then -1 else 1 : ℝ)) * (if t then -1 else 1) = if s ^^ t then -1 else 1 := by
  cases s <;> cases t <;> simp

/-- fmul is the rounded product, with the sign that the two signs give. -/
theorem fmul_rounds {a b : Word} (ha : floatProper a = true) (hb : floatProper b = true) {x : ℝ} (hx : x = floatNumber a * floatNumber b) :
    (|x| < roundingBound → ∃ w, fmul a b = some w ∧ RoundsTo x w ∧ w.msb = (a.msb ^^ b.msb)) ∧
    (roundingBound ≤ |x| → fmul a b = none) := by
  obtain ⟨m1, e1, h1, f1, -⟩ := floatValue_proper ha
  obtain ⟨m2, e2, h2, f2, -⟩ := floatValue_proper hb
  have h0 : (0 : ℝ) < roundingBound := by simp only [roundingBound]; norm_num
  simp only [fmul, h1, h2]
  have hx' : x = (if a.msb ^^ b.msb then -1 else 1) * (((m1 * m2 : ℕ) : ℝ) * 2 ^ (e1 + e2)) := by
    rw [hx, f1, f2, ← sign_mul, zpow_add₀ (by norm_num)]
    push_cast
    simp only [apply_ite (Rat.cast : ℚ → ℝ)]
    push_cast; ring
  have habs : |x| = ((m1 * m2 : ℕ) : ℝ) * 2 ^ (e1 + e2) := by
    rw [hx', abs_mul, abs_of_nonneg (by positivity : (0 : ℝ) ≤ ((m1 * m2 : ℕ) : ℝ) * 2 ^ (e1 + e2))]
    split <;> simp
  by_cases hm : m1 * m2 = 0
  · rw [hm] at hx' habs ⊢
    have : x = 0 := by rw [hx']; simp
    subst this
    refine ⟨fun _ => ⟨_, roundFloat_zero _ _, roundsTo_zero _⟩, fun h => ?_⟩
    rw [abs_zero] at h
    exact absurd h0 (not_lt.2 h)
  · have hr := roundFloat_rounds (neg := a.msb ^^ b.msb) (m := m1 * m2) (e := e1 + e2) (y := |x|) hm (.inl habs)
    refine ⟨fun h => ?_, hr.2⟩
    obtain ⟨w, g1, g2, g3⟩ := hr.1 h
    refine ⟨w, g1, ?_, g2⟩
    rwa [habs, ← hx'] at g3

/-- fdiv is the rounded quotient. -/
theorem fdiv_rounds {a b : Word} (ha : floatProper a = true) (hb : floatProper b = true) (hb0 : floatNumber b ≠ 0) {x : ℝ}
    (hx : x = floatNumber a / floatNumber b) :
    (|x| < roundingBound → ∃ w, fdiv a b = some w ∧ RoundsTo x w ∧ w.msb = (a.msb ^^ b.msb)) ∧
    (roundingBound ≤ |x| → fdiv a b = none) := by
  obtain ⟨m1, e1, h1, f1, hl1, -⟩ := floatValue_proper ha
  obtain ⟨m2, e2, h2, f2, hl2, -⟩ := floatValue_proper hb
  have h0 : (0 : ℝ) < roundingBound := by simp only [roundingBound]; norm_num
  have hm2 : m2 ≠ 0 := by rintro rfl; apply hb0; rw [f2]; simp
  have hm2r : (0 : ℝ) < m2 := by exact_mod_cast Nat.pos_of_ne_zero hm2
  simp only [fdiv, h1, h2, Nat.shiftLeft_eq]
  have hx' : x = (if a.msb ^^ b.msb then -1 else 1) * ((m1 : ℝ) * 2 ^ e1 / (m2 * 2 ^ e2)) := by
    rw [hx, f1, f2, ← sign_mul]
    push_cast
    simp only [apply_ite (Rat.cast : ℚ → ℝ)]
    push_cast
    cases a.msb <;> cases b.msb <;> simp [neg_div, div_neg]
  have habs : |x| = (m1 : ℝ) * 2 ^ e1 / (m2 * 2 ^ e2) := by
    rw [hx', abs_mul, abs_of_nonneg (by positivity : (0 : ℝ) ≤ (m1 : ℝ) * 2 ^ e1 / (m2 * 2 ^ e2))]
    split <;> simp
  by_cases hm : m1 = 0
  · subst hm
    have : x = 0 := by rw [hx']; simp
    subst this
    simp only [zero_mul, Nat.zero_div, Nat.zero_mod, if_true, mul_zero, add_zero]
    refine ⟨fun _ => ⟨_, roundFloat_zero _ _, roundsTo_zero _⟩, fun h => ?_⟩
    rw [abs_zero] at h
    exact absurd h0 (not_lt.2 h)
  · have hbig : 2 ^ 36 ≤ m1 * 2 ^ 60 / m2 := by
      rw [Nat.le_div_iff_mul_le (Nat.pos_of_ne_zero hm2)]
      have : 1 ≤ m1 := Nat.pos_of_ne_zero hm
      omega
    have hdm : m2 * (m1 * 2 ^ 60 / m2) + m1 * 2 ^ 60 % m2 = m1 * 2 ^ 60 := Nat.div_add_mod _ _
    have hlt : m1 * 2 ^ 60 % m2 < m2 := Nat.mod_lt _ (Nat.pos_of_ne_zero hm2)
    set Q := m1 * 2 ^ 60 / m2 with hQ
    set R := m1 * 2 ^ 60 % m2 with hR
    have hdmr : (m2 : ℝ) * Q + R = m1 * 2 ^ 60 := by exact_mod_cast hdm
    have hltr : (R : ℝ) < m2 := by exact_mod_cast hlt
    have hE : (0 : ℝ) < 2 ^ (e1 - e2 - 61) := by positivity
    have hq : |x| = (2 * (m1 * 2 ^ 60) / m2) * 2 ^ (e1 - e2 - 61) := by
      rw [habs, show e1 - e2 - 61 = e1 + (-e2 + -61) by ring, zpow_add₀ (by norm_num), zpow_add₀ (by norm_num), zpow_neg, zpow_neg]
      rw [show (2 : ℝ) ^ (61 : ℤ) = 2 ^ 61 by norm_cast]
      field_simp
    have hr := roundFloat_rounds (neg := a.msb ^^ b.msb) (m := 2 * Q + if R = 0 then 0 else 1) (e := e1 - e2 - 61) (y := |x|)
      (by omega) (by
        by_cases hR0 : R = 0
        · left
          rw [hq, if_pos hR0]
          congr 1
          rw [hR0] at hdmr
          push_cast
          rw [div_eq_iff hm2r.ne']
          push_cast at hdmr
          linarith
        · right
          rw [if_neg hR0]
          have hRp : (0 : ℝ) < R := by exact_mod_cast Nat.pos_of_ne_zero hR0
          refine ⟨by omega, by omega, ?_, ?_⟩
          · rw [hq]
            apply mul_lt_mul_of_pos_right _ hE
            rw [lt_div_iff₀ hm2r]
            push_cast
            nlinarith
          · rw [hq]
            apply mul_lt_mul_of_pos_right _ hE
            rw [div_lt_iff₀ hm2r]
            push_cast
            nlinarith)
    refine ⟨fun h => ?_, hr.2⟩
    obtain ⟨w, g1, g2, g3⟩ := hr.1 h
    refine ⟨w, g1, ?_, g2⟩
    rwa [habs, ← hx'] at g3

/-- The square root bit by bit. -/
theorem rootFrom_root (m r k : ℕ) (h1 : r * r ≤ m) (h2 : m < (r + 2 ^ k) * (r + 2 ^ k)) :
    rootFrom m r k * rootFrom m r k ≤ m ∧ m < (rootFrom m r k + 1) * (rootFrom m r k + 1) := by
  induction k generalizing r with
  | zero => simpa [rootFrom] using ⟨h1, h2⟩
  | succ k ih =>
    unfold rootFrom
    split
    · next h => exact ih _ h (by rw [add_assoc, ← two_mul, ← pow_succ']; exact h2)
    · next h => exact ih _ h1 (by omega)

/-- fsqrt is the rounded square root; the root of a zero is that zero. -/
theorem fsqrt_rounds {a : Word} (ha : floatProper a = true) (h0 : 0 ≤ floatNumber a) :
    ∃ w, fsqrt a = some w ∧ RoundsTo (Real.sqrt (floatNumber a)) w ∧ w.msb = a.msb := by
  obtain ⟨m, e, h1, f1, hl, he1, he2⟩ := floatValue_proper ha
  simp only [fsqrt, h1]
  split
  · next hm =>
    subst hm
    have : floatNumber a = 0 := by rw [f1]; simp
    rw [this]
    simpa using ⟨_, roundFloat_zero _ _, roundsTo_zero a.msb⟩
  · next hm =>
    have hpos : (0 : ℚ) < (m : ℚ) * 2 ^ e := by
      have : (0 : ℚ) < m := by exact_mod_cast Nat.pos_of_ne_zero hm
      positivity
    have hs : a.msb = false := by
      cases hb : a.msb with
      | false => rfl
      | true => rw [hb] at f1; simp only [if_true] at f1; linarith
    rw [hs] at f1 ⊢
    simp only [Bool.false_eq_true, if_false, one_mul] at f1
    obtain ⟨o, ho⟩ := Int.eq_ofNat_of_zero_le (Int.emod_nonneg e (by norm_num : (2 : ℤ) ≠ 0))
    have ho2 : o < 2 := by have := Int.emod_lt_of_pos e (by norm_num : (0 : ℤ) < 2); omega
    rw [ho, Int.toNat_natCast]
    set n := m <<< (60 + o) with hn
    have hn' : n = m * 2 ^ (60 + o) := Nat.shiftLeft_eq _ _
    have hnlt : n < 2 ^ 85 := by
      rw [hn']
      calc m * 2 ^ (60 + o) < 2 ^ 24 * 2 ^ (60 + o) := by apply Nat.mul_lt_mul_of_pos_right hl (by positivity)
        _ ≤ 2 ^ 24 * 2 ^ 61 := by apply Nat.mul_le_mul_left; exact Nat.pow_le_pow_right (by norm_num) (by omega)
        _ = 2 ^ 85 := by norm_num
    obtain ⟨r1, r2⟩ := rootFrom_root n 0 43 (by omega) (by
      calc n < 2 ^ 85 := hnlt
        _ ≤ (0 + 2 ^ 43) * (0 + 2 ^ 43) := by norm_num)
    set r := rootFrom n 0 43 with hr
    have hbig : 2 ^ 30 ≤ r := by
      by_contra hc
      have h3 : (r + 1) * (r + 1) ≤ 2 ^ 30 * 2 ^ 30 := Nat.mul_le_mul (by omega) (by omega)
      have h4 : 2 ^ 60 ≤ n := by
        rw [hn', pow_add, ← mul_assoc]
        have : 1 ≤ m := Nat.pos_of_ne_zero hm
        have : 1 ≤ 2 ^ o := Nat.one_le_two_pow
        nlinarith
      norm_num at h3 h4
      omega
    obtain ⟨c, hc⟩ : ∃ c : ℤ, e - 60 - o = 2 * c := ⟨e / 2 - 30, by omega⟩
    have hc2 : (e - 60 - (o : ℤ)) / 2 = c := by omega
    rw [hc2]
    have hE : (0 : ℝ) < 2 ^ (c - 1) := by positivity
    have hE2 : (0 : ℝ) < 2 ^ c := by positivity
    have hsq : Real.sqrt (floatNumber a) = Real.sqrt n * 2 ^ c := by
      rw [f1]
      have : ((m * 2 ^ e : ℚ) : ℝ) = n * (2 ^ c) ^ 2 := by
        rw [hn', ← zpow_natCast, ← zpow_mul, show c * ((2 : ℕ) : ℤ) = e + -((60 + o : ℕ) : ℤ) by push_cast; omega,
          zpow_add₀ (by norm_num), zpow_neg, zpow_natCast]
        push_cast
        field_simp
      rw [this, Real.sqrt_mul (by positivity), Real.sqrt_sq hE2.le]
    have hr1 : (r : ℝ) ≤ Real.sqrt n := by
      apply Real.le_sqrt_of_sq_le
      have : ((r * r : ℕ) : ℝ) ≤ n := by exact_mod_cast r1
      push_cast at this; nlinarith
    have hr2 : Real.sqrt n < r + 1 := by
      rw [Real.sqrt_lt' (by positivity)]
      have : (n : ℝ) < (((r + 1) * (r + 1) : ℕ) : ℝ) := by exact_mod_cast r2
      push_cast at this; nlinarith
    have hc1 : (2 : ℝ) ^ c = 2 * 2 ^ (c - 1) := by
      rw [show c = 1 + (c - 1) by ring, zpow_add₀ (by norm_num)]; norm_num
    have hB : Real.sqrt (floatNumber a) < roundingBound := by
      have h3 : Real.sqrt n < 2 ^ 43 := by
        rw [Real.sqrt_lt' (by positivity)]
        have : (n : ℝ) < 2 ^ 85 := by exact_mod_cast hnlt
        norm_num at this ⊢
        linarith
      have h4 : (2 : ℝ) ^ c ≤ 2 ^ (52 : ℤ) := zpow_le_zpow_right₀ (by norm_num) (by omega)
      have h5 : (2 : ℝ) ^ (52 : ℤ) = 2 ^ 52 := by norm_cast
      rw [h5] at h4
      rw [hsq]
      calc Real.sqrt n * 2 ^ c ≤ 2 ^ 43 * 2 ^ 52 := by
            apply mul_le_mul h3.le h4 hE2.le (by norm_num)
        _ < roundingBound := by simp only [roundingBound]; norm_num
    have hrf := roundFloat_rounds (neg := false) (m := 2 * r + if r * r = n then 0 else 1) (e := c - 1) (y := Real.sqrt (floatNumber a))
      (by omega) (by
        by_cases hR0 : r * r = n
        · left
          have : Real.sqrt n = r := by
            rw [← hR0]; push_cast; exact Real.sqrt_mul_self (by positivity)
          rw [hsq, if_pos hR0, this, hc1]
          push_cast; ring
        · right
          rw [if_neg hR0]
          have hlt : (r : ℝ) < Real.sqrt n := by
            apply lt_of_le_of_ne hr1
            intro hh
            apply hR0
            have : (r : ℝ) * r = n := by rw [hh]; exact Real.mul_self_sqrt (by positivity)
            exact_mod_cast this
          refine ⟨by omega, by omega, ?_, ?_⟩
          · rw [hsq, hc1]; push_cast; nlinarith
          · rw [hsq, hc1]; push_cast; nlinarith)
    obtain ⟨w, g1, g2, g3⟩ := hrf.1 hB
    exact ⟨w, g1, by simpa using g3, g2⟩

/-- ffloat is the rounded integer. -/
theorem ffloat_rounds (v : Word) : ∃ w, ffloat v = some w ∧ RoundsTo (v.toInt : ℝ) w ∧ w.msb = v.msb := by
  obtain ⟨w, h1, h2, h3⟩ := (roundSigned_rounds false v.toInt 0 (x := v.toInt) (by simp)).1 (by
    have ha := BitVec.toInt_lt (x := v)
    have hb := BitVec.le_toInt (x := v)
    have : |v.toInt| ≤ 2 ^ 31 := abs_le.2 ⟨by norm_num at *; omega, by norm_num at *; omega⟩
    have : |(v.toInt : ℝ)| ≤ 2 ^ 31 := by exact_mod_cast this
    refine lt_of_le_of_lt this ?_
    simp only [roundingBound]; norm_num)
  refine ⟨w, h1, h2, ?_⟩
  rw [h3, BitVec.msb_eq_toInt]
  split
  · next h => have : v.toInt = 0 := by exact_mod_cast h
              simp [this]
  · simp

/-- Every whole number up to 2^24 is a proper word's. -/
theorem exists_floatNumber {k : ℕ} (h : k ≤ 2 ^ 24) : ∃ u, floatProper u = true ∧ floatNumber u = k := by
  rcases Nat.eq_zero_or_pos k with rfl | h0
  · have := floatNumber_signedWord false (n := 0) (k := 0) (by omega) (by omega) (by omega)
    exact ⟨_, this.1, by simpa using this.2⟩
  · rcases Nat.eq_or_lt_of_le h with rfl | h
    · have := floatNumber_signedWord false (n := 2 ^ 23) (k := 150) (by omega) (by omega) (by omega)
      refine ⟨_, this.1, ?_⟩
      rw [this.2]; norm_num
    · have hL1 : 2 ^ k.log2 ≤ k := Nat.log2_self_le (by omega)
      have hL2 : k < 2 ^ (k.log2 + 1) := Nat.lt_log2_self
      set L := k.log2
      have hL : L < 24 := by
        by_contra hc
        have : 2 ^ 24 ≤ 2 ^ L := Nat.pow_le_pow_right (by norm_num) (by omega)
        omega
      obtain ⟨d, hd⟩ : ∃ d, L + d = 23 := ⟨23 - L, by omega⟩
      have e1 : 2 ^ L * 2 ^ d = 2 ^ 23 := by rw [← pow_add, hd]
      have e2 : 2 ^ (L + 1) * 2 ^ d = 2 ^ 24 := by rw [← pow_add]; congr 1; omega
      have := floatNumber_signedWord false (n := k * 2 ^ d) (k := L + 126)
        (by rw [← e2]; exact Nat.mul_le_mul_right _ hL2.le) (fun _ => by rw [← e1]; exact Nat.mul_le_mul_right _ hL1)
        (by
          have : k * 2 ^ d ≤ 2 ^ 24 := by rw [← e2]; exact Nat.mul_le_mul_right _ hL2.le
          omega)
      refine ⟨_, this.1, ?_⟩
      rw [this.2, show (((L + 126 : ℕ) : ℤ) - 149) = -(d : ℤ) by omega, zpow_neg, zpow_natCast]
      push_cast
      simp

/-- Rounding a whole number up to 2^24 changes only its form. -/
theorem roundFloat_whole (s : Bool) {k : ℕ} (h : k ≤ 2 ^ 24) : ∃ w, roundFloat s k 0 = some w ∧ floatProper w = true ∧
    floatNumber w = (if s then -1 else 1) * (k : ℚ) ∧ w.msb = s := by
  rcases Nat.eq_zero_or_pos k with rfl | h0
  · refine ⟨_, roundFloat_zero s 0, ?_⟩
    have := floatNumber_signedWord s (n := 0) (k := 0) (by omega) (by omega) (by omega)
    exact ⟨this.1, by simpa using this.2, signedWord_msb s (by omega)⟩
  · obtain ⟨u, hu, hk⟩ := exists_floatNumber h
    obtain ⟨w, g1, g2, g3⟩ := (roundFloat_rounds (neg := s) (m := k) (e := 0) (y := k) (by omega) (by simp)).1 (by
      have : (k : ℝ) ≤ 2 ^ 24 := by exact_mod_cast h
      refine lt_of_le_of_lt this ?_
      simp only [roundingBound]; norm_num)
    refine ⟨w, g1, g3.1, ?_, g2⟩
    cases s with
    | false =>
      have e : ((if false = true then -1 else 1 : ℝ)) * k = floatNumber u := by rw [hk]; simp
      rw [e] at g3
      rw [g3.exact hu, hk]; simp
    | true =>
      have e : ((if true = true then -1 else 1 : ℝ)) * k = floatNumber (u ^^^ 0x80000000#32) := by rw [floatNumber_flip, hk]; simp
      rw [e] at g3
      rw [g3.exact (by rw [floatProper_flip, hu]), floatNumber_flip, hk]; simp

/-- Whole part and fraction of a number with a negative exponent. -/
theorem quotient_parts (m d : ℕ) : ∃ Q R : ℕ, Q = m / 2 ^ d ∧ R = m % 2 ^ d ∧ R < 2 ^ d ∧ Q * 2 ^ d + R = m ∧
    (m : ℚ) / 2 ^ d = Q + (R : ℚ) / 2 ^ d ∧ (0 : ℚ) ≤ (R : ℚ) / 2 ^ d ∧ (R : ℚ) / 2 ^ d < 1 := by
  have h1 : m / 2 ^ d * 2 ^ d + m % 2 ^ d = m := Nat.div_add_mod' _ _
  have h2 : m % 2 ^ d < 2 ^ d := Nat.mod_lt _ (by positivity)
  refine ⟨_, _, rfl, rfl, h2, h1, ?_, by positivity, ?_⟩
  · generalize m / 2 ^ d = Q at h1
    generalize m % 2 ^ d = R at h1
    rw [← h1]
    push_cast
    field_simp
  · rw [div_lt_one (by positivity)]
    exact_mod_cast h2

/-- ffix drops the fraction; outside the signed range it has no result. -/
theorem ffix_truncates {a : Word} (ha : floatProper a = true) {n : ℤ}
    (hn : n = if floatNumber a < 0 then ⌈floatNumber a⌉ else ⌊floatNumber a⌋) :
    (-2 ^ 31 ≤ n → n < 2 ^ 31 → ∃ w, ffix a = some w ∧ w.toInt = n) ∧ (¬ (-2 ^ 31 ≤ n ∧ n < 2 ^ 31) → ffix a = none) := by
  obtain ⟨m, e, h1, f1, -⟩ := floatValue_proper ha
  have key : signedNat a.msb (if e < 0 then m >>> (-e).toNat else m <<< e.toNat) = n := by
    rw [hn, f1]
    split
    · next he =>
      obtain ⟨d, hd⟩ := Int.eq_ofNat_of_zero_le (by omega : 0 ≤ -e)
      rw [hd, Int.toNat_natCast, Nat.shiftRight_eq_div_pow, show e = -(d : ℤ) by omega, zpow_neg, zpow_natCast, ← div_eq_mul_inv]
      obtain ⟨Q, R, hQ, -, -, -, b1, b2, b3⟩ := quotient_parts m d
      rw [← hQ]
      have h0 : (0 : ℚ) ≤ (m : ℚ) / 2 ^ d := by positivity
      cases a.msb with
      | false =>
        simp only [Bool.false_eq_true, if_false, one_mul, signedNat]
        rw [if_neg (not_lt.2 h0), eq_comm, Int.floor_eq_iff, b1]
        push_cast
        constructor <;> linarith
      | true =>
        simp only [if_true, neg_mul, one_mul, signedNat]
        split
        · rw [eq_comm, Int.ceil_neg, neg_inj, Int.floor_eq_iff, b1]
          push_cast
          constructor <;> linarith
        · next hh =>
          have : (m : ℚ) / 2 ^ d = 0 := by linarith
          rw [this] at b1 ⊢
          have hQ0 : (Q : ℚ) = 0 := le_antisymm (by linarith) (by positivity)
          have : Q = 0 := by exact_mod_cast hQ0
          simp [this]
    · next he =>
      obtain ⟨d, hd⟩ := Int.eq_ofNat_of_zero_le (by omega : 0 ≤ e)
      rw [hd, Int.toNat_natCast, Nat.shiftLeft_eq, zpow_natCast]
      have : (if a.msb = true then (-1 : ℚ) else 1) * (m * 2 ^ d) = ((signedNat a.msb (m * 2 ^ d) : ℤ) : ℚ) := by
        cases a.msb <;> simp [signedNat]
      rw [this, Int.ceil_intCast, Int.floor_intCast, ite_self]
  simp only [ffix, h1, key]
  refine ⟨fun h2 h3 => ⟨_, if_pos ⟨h2, h3⟩, ?_⟩, fun h => if_neg h⟩
  rw [BitVec.toInt_ofInt]
  exact Int.bmod_eq_of_le (by norm_num; omega) (by norm_num; omega)

/-- ffloor is the greatest whole number not above, with the same sign bit. -/
theorem ffloor_floors {a : Word} (ha : floatProper a = true) :
    ∃ w, ffloor a = some w ∧ floatProper w = true ∧ floatNumber w = ⌊floatNumber a⌋ ∧ w.msb = a.msb := by
  obtain ⟨m, e, h1, f1, hl, -⟩ := floatValue_proper ha
  simp only [ffloor, h1]
  split
  · next he =>
    refine ⟨a, rfl, ha, ?_, rfl⟩
    obtain ⟨d, hd⟩ := Int.eq_ofNat_of_zero_le he
    have : floatNumber a = ((signedNat a.msb (m * 2 ^ d) : ℤ) : ℚ) := by
      rw [f1, hd, zpow_natCast]; cases a.msb <;> simp [signedNat]
    rw [this, Int.floor_intCast]
  · next he =>
    obtain ⟨d, hd⟩ := Int.eq_ofNat_of_zero_le (by omega : 0 ≤ -e)
    rw [hd, Int.toNat_natCast]
    rw [show e = -(d : ℤ) by omega, zpow_neg, zpow_natCast, ← div_eq_mul_inv] at f1
    obtain ⟨Q, R, hQ, hR, hlt, hm, b1, b2, b3⟩ := quotient_parts m d
    have hle : Q ≤ m := hQ ▸ Nat.div_le_self _ _
    have hup : (m + 2 ^ d - 1) / 2 ^ d = Q + if R = 0 then 0 else 1 := by
      have hp : 0 < 2 ^ d := by positivity
      rw [Nat.div_eq_iff hp, ← hm]
      have h1 : 1 ≤ 2 ^ d := hp
      split <;> constructor <;> rw [add_mul] <;> omega
    rw [hup, ← hQ]
    cases hs : a.msb with
    | false =>
      rw [hs] at f1
      simp only [Bool.false_eq_true, if_false, one_mul] at f1 ⊢
      obtain ⟨w, g1, g2, g3, g4⟩ := roundFloat_whole false (k := Q) (by omega)
      refine ⟨w, g1, g2, ?_, g4⟩
      have : ⌊(m : ℚ) / 2 ^ d⌋ = (Q : ℤ) := by
        rw [Int.floor_eq_iff, b1]
        push_cast
        constructor <;> linarith
      rw [g3, f1, this]; simp
    | true =>
      rw [hs] at f1
      simp only [if_true, neg_mul, one_mul] at f1 ⊢
      have hQ' : Q + (if R = 0 then 0 else 1) ≤ 2 ^ 24 := by split <;> omega
      obtain ⟨w, g1, g2, g3, g4⟩ := roundFloat_whole true hQ'
      refine ⟨w, g1, g2, ?_, g4⟩
      have : ⌈(m : ℚ) / 2 ^ d⌉ = ((Q + if R = 0 then 0 else 1 : ℕ) : ℤ) := by
        rw [Int.ceil_eq_iff, b1]
        by_cases h0 : R = 0
        · rw [if_pos h0, h0]
          push_cast
          rw [zero_div]
          constructor <;> linarith
        · rw [if_neg h0]
          have : (0 : ℚ) < (R : ℚ) / 2 ^ d := by
            have : (0 : ℚ) < (R : ℚ) := by exact_mod_cast Nat.pos_of_ne_zero h0
            positivity
          push_cast
          constructor <;> linarith
      rw [g3, f1, Int.floor_neg, this]; simp

/-- frnd is the nearest whole number, with the same sign bit; none between two and none outside the signed range. -/
theorem frnd_nearest {a : Word} (ha : floatProper a = true) :
    (∀ n : ℤ, |floatNumber a - n| < 1 / 2 → -2 ^ 31 ≤ n → n < 2 ^ 31 →
      ∃ w, frnd a = some w ∧ floatProper w = true ∧ floatNumber w = n ∧ w.msb = a.msb) ∧
    ((∀ n : ℤ, |floatNumber a - n| < 1 / 2 → ¬ (-2 ^ 31 ≤ n ∧ n < 2 ^ 31)) → frnd a = none) := by
  obtain ⟨m, e, h1, f1, hl, -⟩ := floatValue_proper ha
  have uniq : ∀ {x : ℚ} {i j : ℤ}, |x - i| < 1 / 2 → |x - j| < 1 / 2 → i = j := by
    intro x i j hi hj
    rw [abs_lt] at hi hj
    have : |((i - j : ℤ) : ℚ)| < 1 := by push_cast; rw [abs_lt]; constructor <;> linarith
    have : |i - j| < 1 := by exact_mod_cast this
    have := abs_lt.1 this
    omega
  simp only [frnd, h1]
  split
  · next he =>
    obtain ⟨d, hd⟩ := Int.eq_ofNat_of_zero_le he
    have hz : floatNumber a = ((signedNat a.msb (m * 2 ^ d) : ℤ) : ℚ) := by
      rw [f1, hd, zpow_natCast]; cases a.msb <;> simp [signedNat]
    obtain ⟨t1, t2⟩ := ffix_truncates ha (n := signedNat a.msb (m * 2 ^ d)) (by
      rw [hz, Int.ceil_intCast, Int.floor_intCast, ite_self])
    have hself : |floatNumber a - (signedNat a.msb (m * 2 ^ d) : ℤ)| < 1 / 2 := by rw [hz]; simp
    constructor
    · intro n hn h2 h3
      have := uniq hn hself
      subst this
      obtain ⟨w, hw, -⟩ := t1 h2 h3
      rw [hw]
      exact ⟨a, rfl, ha, hz, rfl⟩
    · intro h
      rw [t2 (h _ hself)]; rfl
  · next he =>
    obtain ⟨d, hd⟩ := Int.eq_ofNat_of_zero_le (by omega : 0 ≤ -e)
    rw [hd, Int.toNat_natCast]
    rw [show e = -(d : ℤ) by omega, zpow_neg, zpow_natCast, ← div_eq_mul_inv] at f1
    obtain ⟨Q, R, hQ, hR, hlt, hm, b1, b2, b3⟩ := quotient_parts m d
    have hhalf : Q < 2 ^ 23 := by
      rw [hQ]
      have : 2 ^ 1 ≤ 2 ^ d := Nat.pow_le_pow_right (by norm_num) (by omega)
      rw [Nat.div_lt_iff_lt_mul (by positivity)]
      nlinarith
    have hp : (0 : ℚ) < 2 ^ d := by positivity
    rw [← hQ, ← hR]
    have sgn : ∀ k : ℕ, |floatNumber a - (signedNat a.msb k : ℤ)| = |(m : ℚ) / 2 ^ d - k| := by
      intro k
      rw [f1]
      cases a.msb with
      | false => simp [signedNat]
      | true =>
        simp only [if_true, signedNat, neg_mul, one_mul]
        push_cast
        rw [← abs_neg]; congr 1; ring
    have num : ∀ k : ℕ, (if a.msb = true then (-1 : ℚ) else 1) * (k : ℚ) = ((signedNat a.msb k : ℤ) : ℚ) := by
      intro k; cases a.msb <;> simp [signedNat]
    have bnd : ∀ k : ℕ, k ≤ 2 ^ 23 → -2 ^ 31 ≤ signedNat a.msb k ∧ signedNat a.msb k < 2 ^ 31 := by
      intro k hk; cases a.msb <;> simp [signedNat] <;> omega
    have go : ∀ k : ℕ, k ≤ 2 ^ 23 → |(m : ℚ) / 2 ^ d - k| < 1 / 2 → ∀ P : Option Word, P = roundFloat a.msb k 0 →
        (∀ n : ℤ, |floatNumber a - n| < 1 / 2 → -2 ^ 31 ≤ n → n < 2 ^ 31 →
          ∃ w, P = some w ∧ floatProper w = true ∧ floatNumber w = n ∧ w.msb = a.msb) ∧
        ((∀ n : ℤ, |floatNumber a - n| < 1 / 2 → ¬ (-2 ^ 31 ≤ n ∧ n < 2 ^ 31)) → P = none) := by
      intro k hk hnear P hP
      subst hP
      have hself : |floatNumber a - (signedNat a.msb k : ℤ)| < 1 / 2 := by rw [sgn]; exact hnear
      constructor
      · intro n hn _ _
        have := uniq hn hself
        subst this
        obtain ⟨w, g1, g2, g3, g4⟩ := roundFloat_whole a.msb (k := k) (by omega)
        exact ⟨w, g1, g2, by rw [g3, num], g4⟩
      · intro h
        exact absurd (bnd k hk) (h _ hself)
    have hR2 : (R : ℚ) / 2 ^ d * 2 ^ d = R := div_mul_cancel₀ _ hp.ne'
    split
    · next h2 =>
      refine go _ (by omega) ?_ _ rfl
      have h2' : 2 * (R : ℚ) < 2 ^ d := by exact_mod_cast h2
      rw [b1, add_sub_cancel_left, abs_of_nonneg b2, div_lt_iff₀ hp]
      linarith
    · split
      · next h3 h2 =>
        refine go _ (by omega) ?_ _ rfl
        have h2' : (2 : ℚ) ^ d < 2 * (R : ℚ) := by exact_mod_cast h2
        have e1 : (1 : ℚ) / 2 < (R : ℚ) / 2 ^ d := by rw [lt_div_iff₀ hp]; linarith
        rw [b1, abs_lt]
        push_cast
        constructor <;> linarith
      · next h2 h3 =>
        have h4 : 2 * R = 2 ^ d := by omega
        have h4' : 2 * (R : ℚ) = 2 ^ d := by exact_mod_cast h4
        have h5 : (R : ℚ) / 2 ^ d = 1 / 2 := by rw [div_eq_div_iff hp.ne' (by norm_num)]; linarith
        refine ⟨fun n hn => ?_, fun _ => rfl⟩
        exfalso
        have hx : |(m : ℚ) / 2 ^ d - ((if a.msb then -n else n : ℤ) : ℚ)| < 1 / 2 := by
          have : |floatNumber a - n| = |(m : ℚ) / 2 ^ d - ((if a.msb then -n else n : ℤ) : ℚ)| := by
            rw [f1]
            cases a.msb with
            | false => simp
            | true =>
              simp only [if_true, neg_mul, one_mul]
              push_cast
              rw [← abs_neg]; congr 1; ring
          rwa [← this]
        generalize (if a.msb then -n else n : ℤ) = z at hx
        rw [b1, h5, abs_lt] at hx
        have c1 : ((Q : ℤ) : ℚ) < z := by push_cast; linarith [hx.2]
        have c2 : (z : ℚ) < ((Q : ℤ) + 1 : ℤ) := by push_cast; linarith [hx.1]
        have c1' : (Q : ℤ) < z := by exact_mod_cast c1
        have c2' : z < (Q : ℤ) + 1 := by exact_mod_cast c2
        omega

/-! ### Zeros, signs and the order -/

theorem and_magnitude (w : Word) : (w &&& 0x7FFFFFFF#32).toNat = w.toNat % 2 ^ 31 := by
  rw [BitVec.toNat_and, show (0x7FFFFFFF#32).toNat = 2 ^ 31 - 1 by rfl, Nat.and_two_pow_sub_one_eq_mod]

theorem floatZero_iff (w : Word) : floatZero w = true ↔ w.toNat % 2 ^ 31 = 0 := by
  rw [← and_magnitude, floatZero, beq_iff_eq, ← BitVec.toNat_inj]; rfl

/-- A proper word denotes 0 exactly when its magnitude bits are 0, and a negative number when besides its sign bit is set. -/
theorem floatNumber_eq_zero {w : Word} : floatNumber w = 0 ↔ w.toNat % 2 ^ 31 = 0 := by
  rw [← abs_eq_zero, floatNumber_abs, floatExponent_toNat, floatFraction_toNat]
  have := w.isLt
  split
  · next h =>
    have hp : ((2 : ℚ) ^ (-149 : ℤ)) ≠ 0 := by positivity
    rw [mul_eq_zero, or_iff_left hp, Nat.cast_eq_zero]
    omega
  · next h =>
    constructor
    · intro h0
      have : (0 : ℚ) < (2 ^ 23 + ((w.toNat % 2 ^ 23 : ℕ) : ℚ)) * 2 ^ (((w.toNat / 2 ^ 23 % 2 ^ 8 : ℕ) : ℤ) - 150) := by positivity
      exact absurd h0 this.ne'
    · omega

theorem floatNumber_neg {w : Word} : floatNumber w < 0 ↔ w.msb = true ∧ 0 < w.toNat % 2 ^ 31 := by
  rw [Nat.pos_iff_ne_zero, ne_eq, ← floatNumber_eq_zero]
  have h := abs_nonneg (floatNumber w)
  have hs := floatNumber_sign w
  cases hm : w.msb with
  | false => rw [hm] at hs; simp only [Bool.false_eq_true, if_false, one_mul] at hs; simp; rw [hs]; exact h
  | true =>
    rw [hm] at hs
    simp only [if_true, neg_mul, one_mul] at hs
    constructor
    · intro h0; exact ⟨rfl, h0.ne⟩
    · rintro ⟨-, h0⟩
      exact lt_of_le_of_ne (by rw [hs]; linarith) h0

theorem floatValue_nan_iff (w : Word) : floatValue w = .nan ↔ 0x7F800000 < w.toNat % 2 ^ 31 := by
  unfold floatValue
  rw [floatExponent_toNat, floatFraction_toNat]
  have := w.isLt
  split
  · split <;> simp <;> omega
  · split <;> simp <;> omega

/-- Where a word that is no NaN stands in the order: by sign and magnitude. -/
theorem floatRank_eq {w : Word} (h : w.toNat % 2 ^ 31 ≤ 0x7F800000) :
    floatRank w = some (if w.msb then -((w.toNat % 2 ^ 31 : ℕ) : ℤ) else (w.toNat % 2 ^ 31 : ℕ)) := by
  have hn : floatValue w ≠ .nan := by rw [ne_eq, floatValue_nan_iff]; omega
  unfold floatRank
  rw [and_magnitude]
  generalize floatValue w = v at hn
  cases v with
  | nan => exact absurd rfl hn
  | infinity _ => rfl
  | finite _ _ _ => rfl

theorem floatRank_nan {w : Word} (h : 0x7F800000 < w.toNat % 2 ^ 31) : floatRank w = none := by
  unfold floatRank; rw [(floatValue_nan_iff w).2 h]

theorem isZero_binary32 (w : Word) : isZero binary32 w = true ↔ w.toNat % 2 ^ 31 = 0 := by
  show (forder w 0 == some Ordering.eq) = true ↔ _
  unfold forder
  rw [show floatRank 0 = some 0 by decide]
  rcases Nat.lt_or_ge 0x7F800000 (w.toNat % 2 ^ 31) with h | h
  rotate_left
  · rw [floatRank_eq h]
    simp only [beq_iff_eq, Option.some.injEq, Int.compare_eq_eq]
    split <;> omega
  · rw [floatRank_nan h]
    simp only [beq_iff_eq, reduceCtorEq, false_iff]
    omega

theorem isNegative_binary32 (w : Word) :
    isNegative binary32 w = true ↔ w.msb = true ∧ 0 < w.toNat % 2 ^ 31 ∧ w.toNat % 2 ^ 31 ≤ 0x7F800000 := by
  show (forder w 0 == some Ordering.lt) = true ↔ _
  unfold forder
  rw [show floatRank 0 = some 0 by decide]
  rcases Nat.lt_or_ge 0x7F800000 (w.toNat % 2 ^ 31) with h | h
  rotate_left
  · rw [floatRank_eq h]
    simp only [beq_iff_eq, Option.some.injEq, compare_lt_iff_lt]
    cases w.msb <;> simp <;> omega
  · rw [floatRank_nan h]
    simp only [beq_iff_eq, reduceCtorEq, false_iff]
    omega

end Sys2Proof.Machine
end

