-- ==== Sys2Proof/Laws/Memory.lean ====
section
/-! SUPPORT. Memory as data: read after write, and the canonical form every write keeps. -/

namespace Sys2Proof.Machine

/-! ### Bytes -/

theorem Memory.readByte_erase (m : Memory) (a b : Nat) :
    (m.erase a).readByte b = if b = a then Memory.unlisted else m.readByte b := by
  unfold Memory.erase
  induction m with
  | nil => simp [Memory.readByte]
  | cons c rest ih =>
    obtain ⟨k, v⟩ := c
    by_cases hk : k = a
    · subst hk
      simp only [List.filter_cons, bne_self_eq_false, Bool.false_eq_true, if_false, ih, Memory.readByte]
      split
      · rfl
      · next h => simp [Ne.symm h]
    · simp only [List.filter_cons, bne_iff_ne, ne_eq, hk, not_false_eq_true, if_true, Memory.readByte, ih]
      by_cases hb : k = b
      · subst hb; simp [hk]
      · simp [hb]

theorem Memory.readByte_insert (m : Memory) (a b : Nat) (v : Byte) (h : ∀ c ∈ m, c.1 ≠ a) :
    (Memory.insert a v m).readByte b = if b = a then v else m.readByte b := by
  induction m with
  | nil => simp [Memory.insert, Memory.readByte, eq_comm]
  | cons c rest ih =>
    obtain ⟨k, w⟩ := c
    have hk : k ≠ a := h (k, w) (by simp)
    have hr : ∀ c ∈ rest, c.1 ≠ a := fun c hc => h c (by simp [hc])
    unfold Memory.insert
    split
    · by_cases hb : b = a
      · subst hb; simp [Memory.readByte]
      · simp [Memory.readByte, Ne.symm hb, hb]
    · by_cases hb : b = a
      · subst hb; simp [Memory.readByte, hk, ih hr]
      · simp [Memory.readByte, ih hr, hb]

theorem Memory.erase_ne (m : Memory) (a : Nat) : ∀ c ∈ m.erase a, c.1 ≠ a := by
  intro c hc
  simpa [Memory.erase] using (List.mem_filter.1 hc).2

/-- A byte reads back as written, and every other byte reads as before. -/
theorem Memory.readByte_writeByte (m : Memory) (a b : Nat) (v : Byte) :
    (m.writeByte a v).readByte b = if b = a then v else m.readByte b := by
  unfold Memory.writeByte
  split
  · next h => subst h; exact Memory.readByte_erase m a b
  · rw [Memory.readByte_insert _ _ _ _ (Memory.erase_ne m a), Memory.readByte_erase]
    split <;> simp_all

/-! ### Words -/

theorem cellOf_inj {a b : Word} {j k : Nat} (hj : j < 4) (hk : k < 4) : cellOf a j = cellOf b k ↔ a = b ∧ j = k := by
  unfold cellOf
  constructor
  · intro h
    have : a.toNat = b.toNat := by omega
    exact ⟨BitVec.eq_of_toNat_eq this, by omega⟩
  · rintro ⟨rfl, rfl⟩; rfl

theorem cellOf_div (a : Word) {k : Nat} (hk : k < 4) : cellOf a k / 4 = a.toNat := by unfold cellOf; omega

theorem bytes_of_word (v : Word) :
    v.extractLsb' 24 8 ++ v.extractLsb' 16 8 ++ v.extractLsb' 8 8 ++ v.extractLsb' 0 8 = v := by
  apply BitVec.eq_of_getLsbD_eq
  intro i hi
  simp only [BitVec.getLsbD_append, BitVec.getLsbD_extractLsb']
  rcases lt_or_ge i 8 with h | h
  · simp [h]
  · rcases lt_or_ge i 16 with h2 | h2
    · simp [show ¬ i < 8 by omega, show i - 8 < 8 by omega, show 8 + (i - 8) = i by omega]
    · rcases lt_or_ge i 24 with h3 | h3
      · simp [show ¬ i < 8 by omega, show ¬ i - 8 < 8 by omega, show i - 8 - 8 < 8 by omega, show 16 + (i - 8 - 8) = i by omega]
      · simp [show ¬ i < 8 by omega, show ¬ i - 8 < 8 by omega, show ¬ i - 8 - 8 < 8 by omega, show i - 8 - 8 - 8 < 8 by omega,
          show 24 + (i - 8 - 8 - 8) = i by omega]

/-- A word reads back as written, and every other word reads as before. -/
theorem Memory.readWord_writeWord (m : Memory) (a b v : Word) :
    (m.writeWord a v).readWord b = if b = a then v else m.readWord b := by
  unfold Memory.readWord Memory.writeWord
  simp only [Memory.readByte_writeByte, cellOf_inj (show 0 < 4 by decide) (show 0 < 4 by decide),
    cellOf_inj (show 0 < 4 by decide) (show 1 < 4 by decide), cellOf_inj (show 0 < 4 by decide) (show 2 < 4 by decide),
    cellOf_inj (show 0 < 4 by decide) (show 3 < 4 by decide), cellOf_inj (show 1 < 4 by decide) (show 0 < 4 by decide),
    cellOf_inj (show 1 < 4 by decide) (show 1 < 4 by decide), cellOf_inj (show 1 < 4 by decide) (show 2 < 4 by decide),
    cellOf_inj (show 1 < 4 by decide) (show 3 < 4 by decide), cellOf_inj (show 2 < 4 by decide) (show 0 < 4 by decide),
    cellOf_inj (show 2 < 4 by decide) (show 1 < 4 by decide), cellOf_inj (show 2 < 4 by decide) (show 2 < 4 by decide),
    cellOf_inj (show 2 < 4 by decide) (show 3 < 4 by decide), cellOf_inj (show 3 < 4 by decide) (show 0 < 4 by decide),
    cellOf_inj (show 3 < 4 by decide) (show 1 < 4 by decide), cellOf_inj (show 3 < 4 by decide) (show 2 < 4 by decide),
    cellOf_inj (show 3 < 4 by decide) (show 3 < 4 by decide)]
  by_cases h : b = a
  · simpa [h] using bytes_of_word v
  · simp [h]

/-- The byte reads of a word written: its own four cells change, no other does. -/
theorem Memory.readByte_writeWord (m : Memory) (a v : Word) (c : Nat) (h : c / 4 ≠ a.toNat) :
    (m.writeWord a v).readByte c = m.readByte c := by
  have hk : ∀ k < 4, c ≠ cellOf a k := by
    intro k hk hc
    exact h (by rw [hc, cellOf_div a hk])
  unfold Memory.writeWord
  simp [Memory.readByte_writeByte, hk 0 (by decide), hk 1 (by decide), hk 2 (by decide), hk 3 (by decide)]

/-! ### The canonical form -/

/-- The canonical form as a proposition. -/
theorem Memory.wf_iff (m : Memory) :
    m.wf = true ↔ m.Pairwise (fun a b => a.1 < b.1) ∧ ∀ c ∈ m, c.2 ≠ Memory.unlisted ∧ c.1 < Memory.cellCount := by
  simp [Memory.wf]

theorem Memory.mem_insert {m : Memory} {a : Nat} {v : Byte} {c : Host.Cell} (h : c ∈ Memory.insert a v m) :
    c = (a, v) ∨ c ∈ m := by
  induction m with
  | nil => simpa [Memory.insert] using h
  | cons d rest ih =>
    obtain ⟨k, w⟩ := d
    unfold Memory.insert at h
    split at h
    · simpa using h
    · rcases List.mem_cons.1 h with h | h
      · exact .inr (by simp [h])
      · rcases ih h with h | h
        · exact .inl h
        · exact .inr (by simp [h])

theorem Memory.pairwise_insert {m : Memory} {a : Nat} {v : Byte} (h : m.Pairwise fun a b => a.1 < b.1)
    (ha : ∀ c ∈ m, c.1 ≠ a) : (Memory.insert a v m).Pairwise fun a b => a.1 < b.1 := by
  induction m with
  | nil => simp [Memory.insert]
  | cons d rest ih =>
    obtain ⟨k, w⟩ := d
    have hd := List.pairwise_cons.1 h
    unfold Memory.insert
    split
    · next hlt =>
      refine List.pairwise_cons.2 ⟨fun c hc => ?_, h⟩
      rcases List.mem_cons.1 hc with rfl | hc
      · exact hlt
      · exact lt_trans hlt (hd.1 c hc)
    · next hge =>
      have hne : k ≠ a := ha (k, w) (by simp)
      refine List.pairwise_cons.2 ⟨fun c hc => ?_, ih hd.2 fun c hc => ha c (by simp [hc])⟩
      rcases Memory.mem_insert hc with rfl | hc
      · simp only; omega
      · exact hd.1 c hc

/-- What a write of a byte lists: what was listed, and the byte. -/
theorem Memory.mem_writeByte {m : Memory} {a : Nat} {v : Byte} {c : Host.Cell} (h : c ∈ m.writeByte a v) :
    (c = (a, v) ∧ v ≠ Memory.unlisted) ∨ c ∈ m := by
  unfold Memory.writeByte at h
  split at h
  · exact .inr (List.mem_filter.1 h).1
  · next hv =>
    rcases Memory.mem_insert h with h | h
    · exact .inl ⟨h, hv⟩
    · exact .inr (List.mem_filter.1 h).1

theorem Memory.wf_writeByte {m : Memory} (h : m.wf = true) (a : Nat) (v : Byte) (ha : a < Memory.cellCount) :
    (m.writeByte a v).wf = true := by
  rw [Memory.wf_iff] at h ⊢
  refine ⟨?_, fun c hc => ?_⟩
  · have he : (m.erase a).Pairwise fun a b => a.1 < b.1 := h.1.sublist List.filter_sublist
    unfold Memory.writeByte
    split
    · exact he
    · exact Memory.pairwise_insert he (Memory.erase_ne m a)
  · rcases Memory.mem_writeByte hc with ⟨rfl, hv⟩ | hc
    · exact ⟨hv, ha⟩
    · exact h.2 c hc

theorem cellOf_lt (a : Word) {k : Nat} (hk : k < 4) : cellOf a k < Memory.cellCount := by
  have := a.isLt
  unfold cellOf Memory.cellCount
  omega

/-- A word written keeps the canonical form. -/
theorem Memory.wf_writeWord {m : Memory} (h : m.wf = true) (a v : Word) : (m.writeWord a v).wf = true := by
  unfold Memory.writeWord
  exact Memory.wf_writeByte (Memory.wf_writeByte (Memory.wf_writeByte (Memory.wf_writeByte h _ _ (cellOf_lt a (by decide))) _ _
    (cellOf_lt a (by decide))) _ _ (cellOf_lt a (by decide))) _ _ (cellOf_lt a (by decide))

/-- What a write of a word lists: what was listed, and cells of that word. -/
theorem Memory.mem_writeWord {m : Memory} {a v : Word} {c : Host.Cell} (h : c ∈ m.writeWord a v) :
    c.1 / 4 = a.toNat ∨ c ∈ m := by
  unfold Memory.writeWord at h
  rcases Memory.mem_writeByte h with ⟨rfl, -⟩ | h
  · exact .inl (cellOf_div a (by decide))
  rcases Memory.mem_writeByte h with ⟨rfl, -⟩ | h
  · exact .inl (cellOf_div a (by decide))
  rcases Memory.mem_writeByte h with ⟨rfl, -⟩ | h
  · exact .inl (cellOf_div a (by decide))
  rcases Memory.mem_writeByte h with ⟨rfl, -⟩ | h
  · exact .inl (cellOf_div a (by decide))
  · exact .inr h

/-- Two canonical memories that read the same are the same data. -/
theorem Memory.eq_of_reads {m n : Memory} (hm : m.wf = true) (hn : n.wf = true) (h : ∀ a, m.readByte a = n.readByte a) :
    m = n := by
  rw [Memory.wf_iff] at hm hn
  have low : ∀ {l : Memory} {a : Nat}, (∀ c ∈ l, a < c.1) → l.readByte a = Memory.unlisted := by
    intro l a hl
    induction l with
    | nil => rfl
    | cons c rest ih =>
      obtain ⟨k, w⟩ := c
      have := hl (k, w) (by simp)
      simp only at this
      simp [Memory.readByte, show k ≠ a by omega, ih fun c hc => hl c (by simp [hc])]
  induction m generalizing n with
  | nil =>
    cases n with
    | nil => rfl
    | cons d _ => exact absurd (by simpa [Memory.readByte] using (h d.1).symm) (hn.2 d (by simp)).1
  | cons c rest ih =>
    obtain ⟨k, w⟩ := c
    have hc := List.pairwise_cons.1 hm.1
    cases n with
    | nil => exact absurd (by simpa [Memory.readByte] using h k) (hm.2 (k, w) (by simp)).1
    | cons d rest' =>
      obtain ⟨k', w'⟩ := d
      have hd := List.pairwise_cons.1 hn.1
      have hk : k = k' := by
        rcases lt_trichotomy k k' with hlt | heq | hgt
        · have h1 := h k
          rw [low (l := (k', w') :: rest') (a := k)] at h1
          · exact absurd (by simpa [Memory.readByte] using h1) (hm.2 (k, w) (by simp)).1
          · intro c hc'
            rcases List.mem_cons.1 hc' with rfl | hc'
            · exact hlt
            · exact lt_trans hlt (hd.1 c hc')
        · exact heq
        · have h1 := h k'
          rw [low (l := (k, w) :: rest) (a := k')] at h1
          · exact absurd (by simpa [Memory.readByte] using h1.symm) (hn.2 (k', w') (by simp)).1
          · intro c hc'
            rcases List.mem_cons.1 hc' with rfl | hc'
            · exact hgt
            · exact lt_trans hgt (hc.1 c hc')
      subst hk
      have hw : w = w' := by simpa [Memory.readByte] using h k
      subst hw
      congr 1
      refine ih ⟨hc.2, fun c hc' => hm.2 c (by simp [hc'])⟩ ⟨hd.2, fun c hc' => hn.2 c (by simp [hc'])⟩ fun a => ?_
      by_cases ha : k = a
      · subst ha
        rw [low hc.1, low hd.1]
      · simpa [Memory.readByte, ha] using h a

end Sys2Proof.Machine
end

