-- ==== Sys2Proof/Laws/State.lean ====
section
/-! SUPPORT. One lemma for each field and each named update of State: what the update leaves there. -/

namespace Sys2Proof.Machine

/-! ### State.setZ -/

@[simp] theorem State.setZ_regs (s : State) (b : Bool) : (s.setZ b).regs = s.regs := rfl
@[simp] theorem State.setZ_pc (s : State) (b : Bool) : (s.setZ b).pc = s.pc := rfl
@[simp] theorem State.setZ_sysSp (s : State) (b : Bool) : (s.setZ b).sysSp = s.sysSp := rfl
@[simp] theorem State.setZ_usrSp (s : State) (b : Bool) : (s.setZ b).usrSp = s.usrSp := rfl
@[simp] theorem State.setZ_sysFp (s : State) (b : Bool) : (s.setZ b).sysFp = s.sysFp := rfl
@[simp] theorem State.setZ_usrFp (s : State) (b : Bool) : (s.setZ b).usrFp = s.usrFp := rfl
@[simp] theorem State.setZ_plainFp (s : State) (b : Bool) : (s.setZ b).plainFp = s.plainFp := rfl
@[simp] theorem State.setZ_flags (s : State) (b : Bool) : (s.setZ b).flags = { s.flags with z := b } := rfl
@[simp] theorem State.setZ_ipl (s : State) (b : Bool) : (s.setZ b).ipl = s.ipl := rfl
@[simp] theorem State.setZ_pdbr (s : State) (b : Bool) : (s.setZ b).pdbr = s.pdbr := rfl
@[simp] theorem State.setZ_intVec (s : State) (b : Bool) : (s.setZ b).intVec = s.intVec := rfl
@[simp] theorem State.setZ_cgBr (s : State) (b : Bool) : (s.setZ b).cgBr = s.cgBr := rfl
@[simp] theorem State.setZ_cgLen (s : State) (b : Bool) : (s.setZ b).cgLen = s.cgLen := rfl
@[simp] theorem State.setZ_debug (s : State) (b : Bool) : (s.setZ b).debug = s.debug := rfl
@[simp] theorem State.setZ_timer (s : State) (b : Bool) : (s.setZ b).timer = s.timer := rfl
@[simp] theorem State.setZ_watch (s : State) (b : Bool) : (s.setZ b).watch = s.watch := rfl
@[simp] theorem State.setZ_exitCode (s : State) (b : Bool) : (s.setZ b).exitCode = s.exitCode := rfl
@[simp] theorem State.setZ_emgRet (s : State) (b : Bool) : (s.setZ b).emgRet = s.emgRet := rfl
@[simp] theorem State.setZ_mem (s : State) (b : Bool) : (s.setZ b).mem = s.mem := rfl
@[simp] theorem State.setZ_timerPending (s : State) (b : Bool) : (s.setZ b).timerPending = s.timerPending := rfl
@[simp] theorem State.setZ_keyboard (s : State) (b : Bool) : (s.setZ b).keyboard = s.keyboard := rfl
@[simp] theorem State.setZ_status (s : State) (b : Bool) : (s.setZ b).status = s.status := rfl
@[simp] theorem State.setZ_events (s : State) (b : Bool) : (s.setZ b).events = s.events := rfl
@[simp] theorem State.setZ_discs (s : State) (b : Bool) : (s.setZ b).discs = s.discs := rfl
@[simp] theorem State.setZ_tapes (s : State) (b : Bool) : (s.setZ b).tapes = s.tapes := rfl
@[simp] theorem State.setZ_nets (s : State) (b : Bool) : (s.setZ b).nets = s.nets := rfl
@[simp] theorem State.setZ_clock (s : State) (b : Bool) : (s.setZ b).clock = s.clock := rfl
@[simp] theorem State.setZ_inputs (s : State) (b : Bool) : (s.setZ b).inputs = s.inputs := rfl
@[simp] theorem State.setZ_draws (s : State) (b : Bool) : (s.setZ b).draws = s.draws := rfl
@[simp] theorem State.setZ_cfg (s : State) (b : Bool) : (s.setZ b).cfg = s.cfg := rfl

/-! ### State.setN -/

@[simp] theorem State.setN_regs (s : State) (b : Bool) : (s.setN b).regs = s.regs := rfl
@[simp] theorem State.setN_pc (s : State) (b : Bool) : (s.setN b).pc = s.pc := rfl
@[simp] theorem State.setN_sysSp (s : State) (b : Bool) : (s.setN b).sysSp = s.sysSp := rfl
@[simp] theorem State.setN_usrSp (s : State) (b : Bool) : (s.setN b).usrSp = s.usrSp := rfl
@[simp] theorem State.setN_sysFp (s : State) (b : Bool) : (s.setN b).sysFp = s.sysFp := rfl
@[simp] theorem State.setN_usrFp (s : State) (b : Bool) : (s.setN b).usrFp = s.usrFp := rfl
@[simp] theorem State.setN_plainFp (s : State) (b : Bool) : (s.setN b).plainFp = s.plainFp := rfl
@[simp] theorem State.setN_flags (s : State) (b : Bool) : (s.setN b).flags = { s.flags with n := b } := rfl
@[simp] theorem State.setN_ipl (s : State) (b : Bool) : (s.setN b).ipl = s.ipl := rfl
@[simp] theorem State.setN_pdbr (s : State) (b : Bool) : (s.setN b).pdbr = s.pdbr := rfl
@[simp] theorem State.setN_intVec (s : State) (b : Bool) : (s.setN b).intVec = s.intVec := rfl
@[simp] theorem State.setN_cgBr (s : State) (b : Bool) : (s.setN b).cgBr = s.cgBr := rfl
@[simp] theorem State.setN_cgLen (s : State) (b : Bool) : (s.setN b).cgLen = s.cgLen := rfl
@[simp] theorem State.setN_debug (s : State) (b : Bool) : (s.setN b).debug = s.debug := rfl
@[simp] theorem State.setN_timer (s : State) (b : Bool) : (s.setN b).timer = s.timer := rfl
@[simp] theorem State.setN_watch (s : State) (b : Bool) : (s.setN b).watch = s.watch := rfl
@[simp] theorem State.setN_exitCode (s : State) (b : Bool) : (s.setN b).exitCode = s.exitCode := rfl
@[simp] theorem State.setN_emgRet (s : State) (b : Bool) : (s.setN b).emgRet = s.emgRet := rfl
@[simp] theorem State.setN_mem (s : State) (b : Bool) : (s.setN b).mem = s.mem := rfl
@[simp] theorem State.setN_timerPending (s : State) (b : Bool) : (s.setN b).timerPending = s.timerPending := rfl
@[simp] theorem State.setN_keyboard (s : State) (b : Bool) : (s.setN b).keyboard = s.keyboard := rfl
@[simp] theorem State.setN_status (s : State) (b : Bool) : (s.setN b).status = s.status := rfl
@[simp] theorem State.setN_events (s : State) (b : Bool) : (s.setN b).events = s.events := rfl
@[simp] theorem State.setN_discs (s : State) (b : Bool) : (s.setN b).discs = s.discs := rfl
@[simp] theorem State.setN_tapes (s : State) (b : Bool) : (s.setN b).tapes = s.tapes := rfl
@[simp] theorem State.setN_nets (s : State) (b : Bool) : (s.setN b).nets = s.nets := rfl
@[simp] theorem State.setN_clock (s : State) (b : Bool) : (s.setN b).clock = s.clock := rfl
@[simp] theorem State.setN_inputs (s : State) (b : Bool) : (s.setN b).inputs = s.inputs := rfl
@[simp] theorem State.setN_draws (s : State) (b : Bool) : (s.setN b).draws = s.draws := rfl
@[simp] theorem State.setN_cfg (s : State) (b : Bool) : (s.setN b).cfg = s.cfg := rfl

/-! ### State.setErr -/

@[simp] theorem State.setErr_regs (s : State) (b : Bool) : (s.setErr b).regs = s.regs := rfl
@[simp] theorem State.setErr_pc (s : State) (b : Bool) : (s.setErr b).pc = s.pc := rfl
@[simp] theorem State.setErr_sysSp (s : State) (b : Bool) : (s.setErr b).sysSp = s.sysSp := rfl
@[simp] theorem State.setErr_usrSp (s : State) (b : Bool) : (s.setErr b).usrSp = s.usrSp := rfl
@[simp] theorem State.setErr_sysFp (s : State) (b : Bool) : (s.setErr b).sysFp = s.sysFp := rfl
@[simp] theorem State.setErr_usrFp (s : State) (b : Bool) : (s.setErr b).usrFp = s.usrFp := rfl
@[simp] theorem State.setErr_plainFp (s : State) (b : Bool) : (s.setErr b).plainFp = s.plainFp := rfl
@[simp] theorem State.setErr_flags (s : State) (b : Bool) : (s.setErr b).flags = { s.flags with err := b } := rfl
@[simp] theorem State.setErr_ipl (s : State) (b : Bool) : (s.setErr b).ipl = s.ipl := rfl
@[simp] theorem State.setErr_pdbr (s : State) (b : Bool) : (s.setErr b).pdbr = s.pdbr := rfl
@[simp] theorem State.setErr_intVec (s : State) (b : Bool) : (s.setErr b).intVec = s.intVec := rfl
@[simp] theorem State.setErr_cgBr (s : State) (b : Bool) : (s.setErr b).cgBr = s.cgBr := rfl
@[simp] theorem State.setErr_cgLen (s : State) (b : Bool) : (s.setErr b).cgLen = s.cgLen := rfl
@[simp] theorem State.setErr_debug (s : State) (b : Bool) : (s.setErr b).debug = s.debug := rfl
@[simp] theorem State.setErr_timer (s : State) (b : Bool) : (s.setErr b).timer = s.timer := rfl
@[simp] theorem State.setErr_watch (s : State) (b : Bool) : (s.setErr b).watch = s.watch := rfl
@[simp] theorem State.setErr_exitCode (s : State) (b : Bool) : (s.setErr b).exitCode = s.exitCode := rfl
@[simp] theorem State.setErr_emgRet (s : State) (b : Bool) : (s.setErr b).emgRet = s.emgRet := rfl
@[simp] theorem State.setErr_mem (s : State) (b : Bool) : (s.setErr b).mem = s.mem := rfl
@[simp] theorem State.setErr_timerPending (s : State) (b : Bool) : (s.setErr b).timerPending = s.timerPending := rfl
@[simp] theorem State.setErr_keyboard (s : State) (b : Bool) : (s.setErr b).keyboard = s.keyboard := rfl
@[simp] theorem State.setErr_status (s : State) (b : Bool) : (s.setErr b).status = s.status := rfl
@[simp] theorem State.setErr_events (s : State) (b : Bool) : (s.setErr b).events = s.events := rfl
@[simp] theorem State.setErr_discs (s : State) (b : Bool) : (s.setErr b).discs = s.discs := rfl
@[simp] theorem State.setErr_tapes (s : State) (b : Bool) : (s.setErr b).tapes = s.tapes := rfl
@[simp] theorem State.setErr_nets (s : State) (b : Bool) : (s.setErr b).nets = s.nets := rfl
@[simp] theorem State.setErr_clock (s : State) (b : Bool) : (s.setErr b).clock = s.clock := rfl
@[simp] theorem State.setErr_inputs (s : State) (b : Bool) : (s.setErr b).inputs = s.inputs := rfl
@[simp] theorem State.setErr_draws (s : State) (b : Bool) : (s.setErr b).draws = s.draws := rfl
@[simp] theorem State.setErr_cfg (s : State) (b : Bool) : (s.setErr b).cfg = s.cfg := rfl

/-! ### State.drawn -/

@[simp] theorem State.drawn_regs (s : State) (k : Nat) : (s.drawn k).regs = s.regs := rfl
@[simp] theorem State.drawn_pc (s : State) (k : Nat) : (s.drawn k).pc = s.pc := rfl
@[simp] theorem State.drawn_sysSp (s : State) (k : Nat) : (s.drawn k).sysSp = s.sysSp := rfl
@[simp] theorem State.drawn_usrSp (s : State) (k : Nat) : (s.drawn k).usrSp = s.usrSp := rfl
@[simp] theorem State.drawn_sysFp (s : State) (k : Nat) : (s.drawn k).sysFp = s.sysFp := rfl
@[simp] theorem State.drawn_usrFp (s : State) (k : Nat) : (s.drawn k).usrFp = s.usrFp := rfl
@[simp] theorem State.drawn_plainFp (s : State) (k : Nat) : (s.drawn k).plainFp = s.plainFp := rfl
@[simp] theorem State.drawn_flags (s : State) (k : Nat) : (s.drawn k).flags = s.flags := rfl
@[simp] theorem State.drawn_ipl (s : State) (k : Nat) : (s.drawn k).ipl = s.ipl := rfl
@[simp] theorem State.drawn_pdbr (s : State) (k : Nat) : (s.drawn k).pdbr = s.pdbr := rfl
@[simp] theorem State.drawn_intVec (s : State) (k : Nat) : (s.drawn k).intVec = s.intVec := rfl
@[simp] theorem State.drawn_cgBr (s : State) (k : Nat) : (s.drawn k).cgBr = s.cgBr := rfl
@[simp] theorem State.drawn_cgLen (s : State) (k : Nat) : (s.drawn k).cgLen = s.cgLen := rfl
@[simp] theorem State.drawn_debug (s : State) (k : Nat) : (s.drawn k).debug = s.debug := rfl
@[simp] theorem State.drawn_timer (s : State) (k : Nat) : (s.drawn k).timer = s.timer := rfl
@[simp] theorem State.drawn_watch (s : State) (k : Nat) : (s.drawn k).watch = s.watch := rfl
@[simp] theorem State.drawn_exitCode (s : State) (k : Nat) : (s.drawn k).exitCode = s.exitCode := rfl
@[simp] theorem State.drawn_emgRet (s : State) (k : Nat) : (s.drawn k).emgRet = s.emgRet := rfl
@[simp] theorem State.drawn_mem (s : State) (k : Nat) : (s.drawn k).mem = s.mem := rfl
@[simp] theorem State.drawn_timerPending (s : State) (k : Nat) : (s.drawn k).timerPending = s.timerPending := rfl
@[simp] theorem State.drawn_keyboard (s : State) (k : Nat) : (s.drawn k).keyboard = s.keyboard := rfl
@[simp] theorem State.drawn_status (s : State) (k : Nat) : (s.drawn k).status = s.status := rfl
@[simp] theorem State.drawn_events (s : State) (k : Nat) : (s.drawn k).events = s.events := rfl
@[simp] theorem State.drawn_discs (s : State) (k : Nat) : (s.drawn k).discs = s.discs := rfl
@[simp] theorem State.drawn_tapes (s : State) (k : Nat) : (s.drawn k).tapes = s.tapes := rfl
@[simp] theorem State.drawn_nets (s : State) (k : Nat) : (s.drawn k).nets = s.nets := rfl
@[simp] theorem State.drawn_clock (s : State) (k : Nat) : (s.drawn k).clock = s.clock := rfl
@[simp] theorem State.drawn_inputs (s : State) (k : Nat) : (s.drawn k).inputs = s.inputs := rfl
@[simp] theorem State.drawn_draws (s : State) (k : Nat) : (s.drawn k).draws = s.draws + k := rfl
@[simp] theorem State.drawn_cfg (s : State) (k : Nat) : (s.drawn k).cfg = s.cfg := rfl

/-! ### State.poke -/

@[simp] theorem State.poke_regs (s : State) (p v : Word) : (s.poke p v).regs = s.regs := rfl
@[simp] theorem State.poke_pc (s : State) (p v : Word) : (s.poke p v).pc = s.pc := rfl
@[simp] theorem State.poke_sysSp (s : State) (p v : Word) : (s.poke p v).sysSp = s.sysSp := rfl
@[simp] theorem State.poke_usrSp (s : State) (p v : Word) : (s.poke p v).usrSp = s.usrSp := rfl
@[simp] theorem State.poke_sysFp (s : State) (p v : Word) : (s.poke p v).sysFp = s.sysFp := rfl
@[simp] theorem State.poke_usrFp (s : State) (p v : Word) : (s.poke p v).usrFp = s.usrFp := rfl
@[simp] theorem State.poke_plainFp (s : State) (p v : Word) : (s.poke p v).plainFp = s.plainFp := rfl
@[simp] theorem State.poke_flags (s : State) (p v : Word) : (s.poke p v).flags = s.flags := rfl
@[simp] theorem State.poke_ipl (s : State) (p v : Word) : (s.poke p v).ipl = s.ipl := rfl
@[simp] theorem State.poke_pdbr (s : State) (p v : Word) : (s.poke p v).pdbr = s.pdbr := rfl
@[simp] theorem State.poke_intVec (s : State) (p v : Word) : (s.poke p v).intVec = s.intVec := rfl
@[simp] theorem State.poke_cgBr (s : State) (p v : Word) : (s.poke p v).cgBr = s.cgBr := rfl
@[simp] theorem State.poke_cgLen (s : State) (p v : Word) : (s.poke p v).cgLen = s.cgLen := rfl
@[simp] theorem State.poke_debug (s : State) (p v : Word) : (s.poke p v).debug = s.debug := rfl
@[simp] theorem State.poke_timer (s : State) (p v : Word) : (s.poke p v).timer = s.timer := rfl
@[simp] theorem State.poke_watch (s : State) (p v : Word) : (s.poke p v).watch = s.watch := rfl
@[simp] theorem State.poke_exitCode (s : State) (p v : Word) : (s.poke p v).exitCode = s.exitCode := rfl
@[simp] theorem State.poke_emgRet (s : State) (p v : Word) : (s.poke p v).emgRet = s.emgRet := rfl
@[simp] theorem State.poke_mem (s : State) (p v : Word) : (s.poke p v).mem = s.mem.writeWord p v := rfl
@[simp] theorem State.poke_timerPending (s : State) (p v : Word) : (s.poke p v).timerPending = s.timerPending := rfl
@[simp] theorem State.poke_keyboard (s : State) (p v : Word) : (s.poke p v).keyboard = s.keyboard := rfl
@[simp] theorem State.poke_status (s : State) (p v : Word) : (s.poke p v).status = s.status := rfl
@[simp] theorem State.poke_events (s : State) (p v : Word) : (s.poke p v).events = s.events := rfl
@[simp] theorem State.poke_discs (s : State) (p v : Word) : (s.poke p v).discs = s.discs := rfl
@[simp] theorem State.poke_tapes (s : State) (p v : Word) : (s.poke p v).tapes = s.tapes := rfl
@[simp] theorem State.poke_nets (s : State) (p v : Word) : (s.poke p v).nets = s.nets := rfl
@[simp] theorem State.poke_clock (s : State) (p v : Word) : (s.poke p v).clock = s.clock := rfl
@[simp] theorem State.poke_inputs (s : State) (p v : Word) : (s.poke p v).inputs = s.inputs := rfl
@[simp] theorem State.poke_draws (s : State) (p v : Word) : (s.poke p v).draws = s.draws := rfl
@[simp] theorem State.poke_cfg (s : State) (p v : Word) : (s.poke p v).cfg = s.cfg := rfl

/-! ### State.emit -/

@[simp] theorem State.emit_regs (s : State) (e : HostEvent) : (s.emit e).regs = s.regs := rfl
@[simp] theorem State.emit_pc (s : State) (e : HostEvent) : (s.emit e).pc = s.pc := rfl
@[simp] theorem State.emit_sysSp (s : State) (e : HostEvent) : (s.emit e).sysSp = s.sysSp := rfl
@[simp] theorem State.emit_usrSp (s : State) (e : HostEvent) : (s.emit e).usrSp = s.usrSp := rfl
@[simp] theorem State.emit_sysFp (s : State) (e : HostEvent) : (s.emit e).sysFp = s.sysFp := rfl
@[simp] theorem State.emit_usrFp (s : State) (e : HostEvent) : (s.emit e).usrFp = s.usrFp := rfl
@[simp] theorem State.emit_plainFp (s : State) (e : HostEvent) : (s.emit e).plainFp = s.plainFp := rfl
@[simp] theorem State.emit_flags (s : State) (e : HostEvent) : (s.emit e).flags = s.flags := rfl
@[simp] theorem State.emit_ipl (s : State) (e : HostEvent) : (s.emit e).ipl = s.ipl := rfl
@[simp] theorem State.emit_pdbr (s : State) (e : HostEvent) : (s.emit e).pdbr = s.pdbr := rfl
@[simp] theorem State.emit_intVec (s : State) (e : HostEvent) : (s.emit e).intVec = s.intVec := rfl
@[simp] theorem State.emit_cgBr (s : State) (e : HostEvent) : (s.emit e).cgBr = s.cgBr := rfl
@[simp] theorem State.emit_cgLen (s : State) (e : HostEvent) : (s.emit e).cgLen = s.cgLen := rfl
@[simp] theorem State.emit_debug (s : State) (e : HostEvent) : (s.emit e).debug = s.debug := rfl
@[simp] theorem State.emit_timer (s : State) (e : HostEvent) : (s.emit e).timer = s.timer := rfl
@[simp] theorem State.emit_watch (s : State) (e : HostEvent) : (s.emit e).watch = s.watch := rfl
@[simp] theorem State.emit_exitCode (s : State) (e : HostEvent) : (s.emit e).exitCode = s.exitCode := rfl
@[simp] theorem State.emit_emgRet (s : State) (e : HostEvent) : (s.emit e).emgRet = s.emgRet := rfl
@[simp] theorem State.emit_mem (s : State) (e : HostEvent) : (s.emit e).mem = s.mem := rfl
@[simp] theorem State.emit_timerPending (s : State) (e : HostEvent) : (s.emit e).timerPending = s.timerPending := rfl
@[simp] theorem State.emit_keyboard (s : State) (e : HostEvent) : (s.emit e).keyboard = s.keyboard := rfl
@[simp] theorem State.emit_status (s : State) (e : HostEvent) : (s.emit e).status = s.status := rfl
@[simp] theorem State.emit_events (s : State) (e : HostEvent) : (s.emit e).events = s.events ++ [e] := rfl
@[simp] theorem State.emit_discs (s : State) (e : HostEvent) : (s.emit e).discs = s.discs := rfl
@[simp] theorem State.emit_tapes (s : State) (e : HostEvent) : (s.emit e).tapes = s.tapes := rfl
@[simp] theorem State.emit_nets (s : State) (e : HostEvent) : (s.emit e).nets = s.nets := rfl
@[simp] theorem State.emit_clock (s : State) (e : HostEvent) : (s.emit e).clock = s.clock := rfl
@[simp] theorem State.emit_inputs (s : State) (e : HostEvent) : (s.emit e).inputs = s.inputs := rfl
@[simp] theorem State.emit_draws (s : State) (e : HostEvent) : (s.emit e).draws = s.draws := rfl
@[simp] theorem State.emit_cfg (s : State) (e : HostEvent) : (s.emit e).cfg = s.cfg := rfl

/-! ### State.halt -/

@[simp] theorem State.halt_regs (s : State) : (s.halt).regs = s.regs := rfl
@[simp] theorem State.halt_pc (s : State) : (s.halt).pc = s.pc := rfl
@[simp] theorem State.halt_sysSp (s : State) : (s.halt).sysSp = s.sysSp := rfl
@[simp] theorem State.halt_usrSp (s : State) : (s.halt).usrSp = s.usrSp := rfl
@[simp] theorem State.halt_sysFp (s : State) : (s.halt).sysFp = s.sysFp := rfl
@[simp] theorem State.halt_usrFp (s : State) : (s.halt).usrFp = s.usrFp := rfl
@[simp] theorem State.halt_plainFp (s : State) : (s.halt).plainFp = s.plainFp := rfl
@[simp] theorem State.halt_flags (s : State) : (s.halt).flags = { s.flags with r := false } := rfl
@[simp] theorem State.halt_ipl (s : State) : (s.halt).ipl = s.ipl := rfl
@[simp] theorem State.halt_pdbr (s : State) : (s.halt).pdbr = s.pdbr := rfl
@[simp] theorem State.halt_intVec (s : State) : (s.halt).intVec = s.intVec := rfl
@[simp] theorem State.halt_cgBr (s : State) : (s.halt).cgBr = s.cgBr := rfl
@[simp] theorem State.halt_cgLen (s : State) : (s.halt).cgLen = s.cgLen := rfl
@[simp] theorem State.halt_debug (s : State) : (s.halt).debug = s.debug := rfl
@[simp] theorem State.halt_timer (s : State) : (s.halt).timer = s.timer := rfl
@[simp] theorem State.halt_watch (s : State) : (s.halt).watch = s.watch := rfl
@[simp] theorem State.halt_exitCode (s : State) : (s.halt).exitCode = s.exitCode := rfl
@[simp] theorem State.halt_emgRet (s : State) : (s.halt).emgRet = s.emgRet := rfl
@[simp] theorem State.halt_mem (s : State) : (s.halt).mem = s.mem := rfl
@[simp] theorem State.halt_timerPending (s : State) : (s.halt).timerPending = s.timerPending := rfl
@[simp] theorem State.halt_keyboard (s : State) : (s.halt).keyboard = s.keyboard := rfl
@[simp] theorem State.halt_status (s : State) : (s.halt).status = .halted := rfl
@[simp] theorem State.halt_events (s : State) : (s.halt).events = s.events := rfl
@[simp] theorem State.halt_discs (s : State) : (s.halt).discs = s.discs := rfl
@[simp] theorem State.halt_tapes (s : State) : (s.halt).tapes = s.tapes := rfl
@[simp] theorem State.halt_nets (s : State) : (s.halt).nets = s.nets := rfl
@[simp] theorem State.halt_clock (s : State) : (s.halt).clock = s.clock := rfl
@[simp] theorem State.halt_inputs (s : State) : (s.halt).inputs = s.inputs := rfl
@[simp] theorem State.halt_draws (s : State) : (s.halt).draws = s.draws := rfl
@[simp] theorem State.halt_cfg (s : State) : (s.halt).cfg = s.cfg := rfl

/-! ### State.stopProgram -/

@[simp] theorem State.stopProgram_regs (s : State) (c : Interrupt) : (s.stopProgram c).regs = s.regs := rfl
@[simp] theorem State.stopProgram_pc (s : State) (c : Interrupt) : (s.stopProgram c).pc = s.pc := rfl
@[simp] theorem State.stopProgram_sysSp (s : State) (c : Interrupt) : (s.stopProgram c).sysSp = s.sysSp := rfl
@[simp] theorem State.stopProgram_usrSp (s : State) (c : Interrupt) : (s.stopProgram c).usrSp = s.usrSp := rfl
@[simp] theorem State.stopProgram_sysFp (s : State) (c : Interrupt) : (s.stopProgram c).sysFp = s.sysFp := rfl
@[simp] theorem State.stopProgram_usrFp (s : State) (c : Interrupt) : (s.stopProgram c).usrFp = s.usrFp := rfl
@[simp] theorem State.stopProgram_plainFp (s : State) (c : Interrupt) : (s.stopProgram c).plainFp = s.plainFp := rfl
@[simp] theorem State.stopProgram_flags (s : State) (c : Interrupt) : (s.stopProgram c).flags = { s.flags with r := false } := rfl
@[simp] theorem State.stopProgram_ipl (s : State) (c : Interrupt) : (s.stopProgram c).ipl = s.ipl := rfl
@[simp] theorem State.stopProgram_pdbr (s : State) (c : Interrupt) : (s.stopProgram c).pdbr = s.pdbr := rfl
@[simp] theorem State.stopProgram_intVec (s : State) (c : Interrupt) : (s.stopProgram c).intVec = s.intVec := rfl
@[simp] theorem State.stopProgram_cgBr (s : State) (c : Interrupt) : (s.stopProgram c).cgBr = s.cgBr := rfl
@[simp] theorem State.stopProgram_cgLen (s : State) (c : Interrupt) : (s.stopProgram c).cgLen = s.cgLen := rfl
@[simp] theorem State.stopProgram_debug (s : State) (c : Interrupt) : (s.stopProgram c).debug = s.debug := rfl
@[simp] theorem State.stopProgram_timer (s : State) (c : Interrupt) : (s.stopProgram c).timer = s.timer := rfl
@[simp] theorem State.stopProgram_watch (s : State) (c : Interrupt) : (s.stopProgram c).watch = s.watch := rfl
@[simp] theorem State.stopProgram_exitCode (s : State) (c : Interrupt) : (s.stopProgram c).exitCode = s.exitCode := rfl
@[simp] theorem State.stopProgram_emgRet (s : State) (c : Interrupt) : (s.stopProgram c).emgRet = s.emgRet := rfl
@[simp] theorem State.stopProgram_mem (s : State) (c : Interrupt) : (s.stopProgram c).mem = s.mem := rfl
@[simp] theorem State.stopProgram_timerPending (s : State) (c : Interrupt) : (s.stopProgram c).timerPending = s.timerPending := rfl
@[simp] theorem State.stopProgram_keyboard (s : State) (c : Interrupt) : (s.stopProgram c).keyboard = s.keyboard := rfl
@[simp] theorem State.stopProgram_status (s : State) (c : Interrupt) : (s.stopProgram c).status = .stopped c := rfl
@[simp] theorem State.stopProgram_events (s : State) (c : Interrupt) : (s.stopProgram c).events = s.events := rfl
@[simp] theorem State.stopProgram_discs (s : State) (c : Interrupt) : (s.stopProgram c).discs = s.discs := rfl
@[simp] theorem State.stopProgram_tapes (s : State) (c : Interrupt) : (s.stopProgram c).tapes = s.tapes := rfl
@[simp] theorem State.stopProgram_nets (s : State) (c : Interrupt) : (s.stopProgram c).nets = s.nets := rfl
@[simp] theorem State.stopProgram_clock (s : State) (c : Interrupt) : (s.stopProgram c).clock = s.clock := rfl
@[simp] theorem State.stopProgram_inputs (s : State) (c : Interrupt) : (s.stopProgram c).inputs = s.inputs := rfl
@[simp] theorem State.stopProgram_draws (s : State) (c : Interrupt) : (s.stopProgram c).draws = s.draws := rfl
@[simp] theorem State.stopProgram_cfg (s : State) (c : Interrupt) : (s.stopProgram c).cfg = s.cfg := rfl

/-! ### State.enterDebugger -/

@[simp] theorem State.enterDebugger_regs (s : State) : (s.enterDebugger).regs = s.regs := rfl
@[simp] theorem State.enterDebugger_pc (s : State) : (s.enterDebugger).pc = s.pc := rfl
@[simp] theorem State.enterDebugger_sysSp (s : State) : (s.enterDebugger).sysSp = s.sysSp := rfl
@[simp] theorem State.enterDebugger_usrSp (s : State) : (s.enterDebugger).usrSp = s.usrSp := rfl
@[simp] theorem State.enterDebugger_sysFp (s : State) : (s.enterDebugger).sysFp = s.sysFp := rfl
@[simp] theorem State.enterDebugger_usrFp (s : State) : (s.enterDebugger).usrFp = s.usrFp := rfl
@[simp] theorem State.enterDebugger_plainFp (s : State) : (s.enterDebugger).plainFp = s.plainFp := rfl
@[simp] theorem State.enterDebugger_flags (s : State) : (s.enterDebugger).flags = { s.flags with r := false } := rfl
@[simp] theorem State.enterDebugger_ipl (s : State) : (s.enterDebugger).ipl = s.ipl := rfl
@[simp] theorem State.enterDebugger_pdbr (s : State) : (s.enterDebugger).pdbr = s.pdbr := rfl
@[simp] theorem State.enterDebugger_intVec (s : State) : (s.enterDebugger).intVec = s.intVec := rfl
@[simp] theorem State.enterDebugger_cgBr (s : State) : (s.enterDebugger).cgBr = s.cgBr := rfl
@[simp] theorem State.enterDebugger_cgLen (s : State) : (s.enterDebugger).cgLen = s.cgLen := rfl
@[simp] theorem State.enterDebugger_debug (s : State) : (s.enterDebugger).debug = s.debug := rfl
@[simp] theorem State.enterDebugger_timer (s : State) : (s.enterDebugger).timer = s.timer := rfl
@[simp] theorem State.enterDebugger_watch (s : State) : (s.enterDebugger).watch = s.watch := rfl
@[simp] theorem State.enterDebugger_exitCode (s : State) : (s.enterDebugger).exitCode = s.exitCode := rfl
@[simp] theorem State.enterDebugger_emgRet (s : State) : (s.enterDebugger).emgRet = s.emgRet := rfl
@[simp] theorem State.enterDebugger_mem (s : State) : (s.enterDebugger).mem = s.mem := rfl
@[simp] theorem State.enterDebugger_timerPending (s : State) : (s.enterDebugger).timerPending = s.timerPending := rfl
@[simp] theorem State.enterDebugger_keyboard (s : State) : (s.enterDebugger).keyboard = s.keyboard := rfl
@[simp] theorem State.enterDebugger_status (s : State) : (s.enterDebugger).status = .debugger := rfl
@[simp] theorem State.enterDebugger_events (s : State) : (s.enterDebugger).events = s.events := rfl
@[simp] theorem State.enterDebugger_discs (s : State) : (s.enterDebugger).discs = s.discs := rfl
@[simp] theorem State.enterDebugger_tapes (s : State) : (s.enterDebugger).tapes = s.tapes := rfl
@[simp] theorem State.enterDebugger_nets (s : State) : (s.enterDebugger).nets = s.nets := rfl
@[simp] theorem State.enterDebugger_clock (s : State) : (s.enterDebugger).clock = s.clock := rfl
@[simp] theorem State.enterDebugger_inputs (s : State) : (s.enterDebugger).inputs = s.inputs := rfl
@[simp] theorem State.enterDebugger_draws (s : State) : (s.enterDebugger).draws = s.draws := rfl
@[simp] theorem State.enterDebugger_cfg (s : State) : (s.enterDebugger).cfg = s.cfg := rfl

/-! ### State.asSystem -/

@[simp] theorem State.asSystem_regs (s : State) : (s.asSystem).regs = s.regs := rfl
@[simp] theorem State.asSystem_pc (s : State) : (s.asSystem).pc = s.pc := rfl
@[simp] theorem State.asSystem_sysSp (s : State) : (s.asSystem).sysSp = s.sysSp := rfl
@[simp] theorem State.asSystem_usrSp (s : State) : (s.asSystem).usrSp = s.usrSp := rfl
@[simp] theorem State.asSystem_sysFp (s : State) : (s.asSystem).sysFp = s.sysFp := rfl
@[simp] theorem State.asSystem_usrFp (s : State) : (s.asSystem).usrFp = s.usrFp := rfl
@[simp] theorem State.asSystem_plainFp (s : State) : (s.asSystem).plainFp = s.plainFp := rfl
@[simp] theorem State.asSystem_flags (s : State) : (s.asSystem).flags = { s.flags with sys := true } := rfl
@[simp] theorem State.asSystem_ipl (s : State) : (s.asSystem).ipl = s.ipl := rfl
@[simp] theorem State.asSystem_pdbr (s : State) : (s.asSystem).pdbr = s.pdbr := rfl
@[simp] theorem State.asSystem_intVec (s : State) : (s.asSystem).intVec = s.intVec := rfl
@[simp] theorem State.asSystem_cgBr (s : State) : (s.asSystem).cgBr = s.cgBr := rfl
@[simp] theorem State.asSystem_cgLen (s : State) : (s.asSystem).cgLen = s.cgLen := rfl
@[simp] theorem State.asSystem_debug (s : State) : (s.asSystem).debug = s.debug := rfl
@[simp] theorem State.asSystem_timer (s : State) : (s.asSystem).timer = s.timer := rfl
@[simp] theorem State.asSystem_watch (s : State) : (s.asSystem).watch = s.watch := rfl
@[simp] theorem State.asSystem_exitCode (s : State) : (s.asSystem).exitCode = s.exitCode := rfl
@[simp] theorem State.asSystem_emgRet (s : State) : (s.asSystem).emgRet = s.emgRet := rfl
@[simp] theorem State.asSystem_mem (s : State) : (s.asSystem).mem = s.mem := rfl
@[simp] theorem State.asSystem_timerPending (s : State) : (s.asSystem).timerPending = s.timerPending := rfl
@[simp] theorem State.asSystem_keyboard (s : State) : (s.asSystem).keyboard = s.keyboard := rfl
@[simp] theorem State.asSystem_status (s : State) : (s.asSystem).status = s.status := rfl
@[simp] theorem State.asSystem_events (s : State) : (s.asSystem).events = s.events := rfl
@[simp] theorem State.asSystem_discs (s : State) : (s.asSystem).discs = s.discs := rfl
@[simp] theorem State.asSystem_tapes (s : State) : (s.asSystem).tapes = s.tapes := rfl
@[simp] theorem State.asSystem_nets (s : State) : (s.asSystem).nets = s.nets := rfl
@[simp] theorem State.asSystem_clock (s : State) : (s.asSystem).clock = s.clock := rfl
@[simp] theorem State.asSystem_inputs (s : State) : (s.asSystem).inputs = s.inputs := rfl
@[simp] theorem State.asSystem_draws (s : State) : (s.asSystem).draws = s.draws := rfl
@[simp] theorem State.asSystem_cfg (s : State) : (s.asSystem).cfg = s.cfg := rfl

/-! ### State.advanced -/

@[simp] theorem State.advanced_regs (s : State) : (s.advanced).regs = s.regs := rfl
@[simp] theorem State.advanced_pc (s : State) : (s.advanced).pc = s.pc + 1 := rfl
@[simp] theorem State.advanced_sysSp (s : State) : (s.advanced).sysSp = s.sysSp := rfl
@[simp] theorem State.advanced_usrSp (s : State) : (s.advanced).usrSp = s.usrSp := rfl
@[simp] theorem State.advanced_sysFp (s : State) : (s.advanced).sysFp = s.sysFp := rfl
@[simp] theorem State.advanced_usrFp (s : State) : (s.advanced).usrFp = s.usrFp := rfl
@[simp] theorem State.advanced_plainFp (s : State) : (s.advanced).plainFp = s.plainFp := rfl
@[simp] theorem State.advanced_flags (s : State) : (s.advanced).flags = s.flags := rfl
@[simp] theorem State.advanced_ipl (s : State) : (s.advanced).ipl = s.ipl := rfl
@[simp] theorem State.advanced_pdbr (s : State) : (s.advanced).pdbr = s.pdbr := rfl
@[simp] theorem State.advanced_intVec (s : State) : (s.advanced).intVec = s.intVec := rfl
@[simp] theorem State.advanced_cgBr (s : State) : (s.advanced).cgBr = s.cgBr := rfl
@[simp] theorem State.advanced_cgLen (s : State) : (s.advanced).cgLen = s.cgLen := rfl
@[simp] theorem State.advanced_debug (s : State) : (s.advanced).debug = s.debug := rfl
@[simp] theorem State.advanced_timer (s : State) : (s.advanced).timer = s.timer := rfl
@[simp] theorem State.advanced_watch (s : State) : (s.advanced).watch = s.watch := rfl
@[simp] theorem State.advanced_exitCode (s : State) : (s.advanced).exitCode = s.exitCode := rfl
@[simp] theorem State.advanced_emgRet (s : State) : (s.advanced).emgRet = s.emgRet := rfl
@[simp] theorem State.advanced_mem (s : State) : (s.advanced).mem = s.mem := rfl
@[simp] theorem State.advanced_timerPending (s : State) : (s.advanced).timerPending = s.timerPending := rfl
@[simp] theorem State.advanced_keyboard (s : State) : (s.advanced).keyboard = s.keyboard := rfl
@[simp] theorem State.advanced_status (s : State) : (s.advanced).status = s.status := rfl
@[simp] theorem State.advanced_events (s : State) : (s.advanced).events = s.events := rfl
@[simp] theorem State.advanced_discs (s : State) : (s.advanced).discs = s.discs := rfl
@[simp] theorem State.advanced_tapes (s : State) : (s.advanced).tapes = s.tapes := rfl
@[simp] theorem State.advanced_nets (s : State) : (s.advanced).nets = s.nets := rfl
@[simp] theorem State.advanced_clock (s : State) : (s.advanced).clock = s.clock := rfl
@[simp] theorem State.advanced_inputs (s : State) : (s.advanced).inputs = s.inputs := rfl
@[simp] theorem State.advanced_draws (s : State) : (s.advanced).draws = s.draws := rfl
@[simp] theorem State.advanced_cfg (s : State) : (s.advanced).cfg = s.cfg := rfl

/-! ### State.setDisc -/

@[simp] theorem State.setDisc_regs (s : State) (i : Fin 8) (d : Option Disc) : (s.setDisc i d).regs = s.regs := rfl
@[simp] theorem State.setDisc_pc (s : State) (i : Fin 8) (d : Option Disc) : (s.setDisc i d).pc = s.pc := rfl
@[simp] theorem State.setDisc_sysSp (s : State) (i : Fin 8) (d : Option Disc) : (s.setDisc i d).sysSp = s.sysSp := rfl
@[simp] theorem State.setDisc_usrSp (s : State) (i : Fin 8) (d : Option Disc) : (s.setDisc i d).usrSp = s.usrSp := rfl
@[simp] theorem State.setDisc_sysFp (s : State) (i : Fin 8) (d : Option Disc) : (s.setDisc i d).sysFp = s.sysFp := rfl
@[simp] theorem State.setDisc_usrFp (s : State) (i : Fin 8) (d : Option Disc) : (s.setDisc i d).usrFp = s.usrFp := rfl
@[simp] theorem State.setDisc_plainFp (s : State) (i : Fin 8) (d : Option Disc) : (s.setDisc i d).plainFp = s.plainFp := rfl
@[simp] theorem State.setDisc_flags (s : State) (i : Fin 8) (d : Option Disc) : (s.setDisc i d).flags = s.flags := rfl
@[simp] theorem State.setDisc_ipl (s : State) (i : Fin 8) (d : Option Disc) : (s.setDisc i d).ipl = s.ipl := rfl
@[simp] theorem State.setDisc_pdbr (s : State) (i : Fin 8) (d : Option Disc) : (s.setDisc i d).pdbr = s.pdbr := rfl
@[simp] theorem State.setDisc_intVec (s : State) (i : Fin 8) (d : Option Disc) : (s.setDisc i d).intVec = s.intVec := rfl
@[simp] theorem State.setDisc_cgBr (s : State) (i : Fin 8) (d : Option Disc) : (s.setDisc i d).cgBr = s.cgBr := rfl
@[simp] theorem State.setDisc_cgLen (s : State) (i : Fin 8) (d : Option Disc) : (s.setDisc i d).cgLen = s.cgLen := rfl
@[simp] theorem State.setDisc_debug (s : State) (i : Fin 8) (d : Option Disc) : (s.setDisc i d).debug = s.debug := rfl
@[simp] theorem State.setDisc_timer (s : State) (i : Fin 8) (d : Option Disc) : (s.setDisc i d).timer = s.timer := rfl
@[simp] theorem State.setDisc_watch (s : State) (i : Fin 8) (d : Option Disc) : (s.setDisc i d).watch = s.watch := rfl
@[simp] theorem State.setDisc_exitCode (s : State) (i : Fin 8) (d : Option Disc) : (s.setDisc i d).exitCode = s.exitCode := rfl
@[simp] theorem State.setDisc_emgRet (s : State) (i : Fin 8) (d : Option Disc) : (s.setDisc i d).emgRet = s.emgRet := rfl
@[simp] theorem State.setDisc_mem (s : State) (i : Fin 8) (d : Option Disc) : (s.setDisc i d).mem = s.mem := rfl
@[simp] theorem State.setDisc_timerPending (s : State) (i : Fin 8) (d : Option Disc) : (s.setDisc i d).timerPending = s.timerPending := rfl
@[simp] theorem State.setDisc_keyboard (s : State) (i : Fin 8) (d : Option Disc) : (s.setDisc i d).keyboard = s.keyboard := rfl
@[simp] theorem State.setDisc_status (s : State) (i : Fin 8) (d : Option Disc) : (s.setDisc i d).status = s.status := rfl
@[simp] theorem State.setDisc_events (s : State) (i : Fin 8) (d : Option Disc) : (s.setDisc i d).events = s.events := rfl
@[simp] theorem State.setDisc_discs (s : State) (i : Fin 8) (d : Option Disc) : (s.setDisc i d).discs = s.discs.set i d := rfl
@[simp] theorem State.setDisc_tapes (s : State) (i : Fin 8) (d : Option Disc) : (s.setDisc i d).tapes = s.tapes := rfl
@[simp] theorem State.setDisc_nets (s : State) (i : Fin 8) (d : Option Disc) : (s.setDisc i d).nets = s.nets := rfl
@[simp] theorem State.setDisc_clock (s : State) (i : Fin 8) (d : Option Disc) : (s.setDisc i d).clock = s.clock := rfl
@[simp] theorem State.setDisc_inputs (s : State) (i : Fin 8) (d : Option Disc) : (s.setDisc i d).inputs = s.inputs := rfl
@[simp] theorem State.setDisc_draws (s : State) (i : Fin 8) (d : Option Disc) : (s.setDisc i d).draws = s.draws := rfl
@[simp] theorem State.setDisc_cfg (s : State) (i : Fin 8) (d : Option Disc) : (s.setDisc i d).cfg = s.cfg := rfl

/-! ### State.setTape -/

@[simp] theorem State.setTape_regs (s : State) (i : Fin 8) (d : Option Tape) : (s.setTape i d).regs = s.regs := rfl
@[simp] theorem State.setTape_pc (s : State) (i : Fin 8) (d : Option Tape) : (s.setTape i d).pc = s.pc := rfl
@[simp] theorem State.setTape_sysSp (s : State) (i : Fin 8) (d : Option Tape) : (s.setTape i d).sysSp = s.sysSp := rfl
@[simp] theorem State.setTape_usrSp (s : State) (i : Fin 8) (d : Option Tape) : (s.setTape i d).usrSp = s.usrSp := rfl
@[simp] theorem State.setTape_sysFp (s : State) (i : Fin 8) (d : Option Tape) : (s.setTape i d).sysFp = s.sysFp := rfl
@[simp] theorem State.setTape_usrFp (s : State) (i : Fin 8) (d : Option Tape) : (s.setTape i d).usrFp = s.usrFp := rfl
@[simp] theorem State.setTape_plainFp (s : State) (i : Fin 8) (d : Option Tape) : (s.setTape i d).plainFp = s.plainFp := rfl
@[simp] theorem State.setTape_flags (s : State) (i : Fin 8) (d : Option Tape) : (s.setTape i d).flags = s.flags := rfl
@[simp] theorem State.setTape_ipl (s : State) (i : Fin 8) (d : Option Tape) : (s.setTape i d).ipl = s.ipl := rfl
@[simp] theorem State.setTape_pdbr (s : State) (i : Fin 8) (d : Option Tape) : (s.setTape i d).pdbr = s.pdbr := rfl
@[simp] theorem State.setTape_intVec (s : State) (i : Fin 8) (d : Option Tape) : (s.setTape i d).intVec = s.intVec := rfl
@[simp] theorem State.setTape_cgBr (s : State) (i : Fin 8) (d : Option Tape) : (s.setTape i d).cgBr = s.cgBr := rfl
@[simp] theorem State.setTape_cgLen (s : State) (i : Fin 8) (d : Option Tape) : (s.setTape i d).cgLen = s.cgLen := rfl
@[simp] theorem State.setTape_debug (s : State) (i : Fin 8) (d : Option Tape) : (s.setTape i d).debug = s.debug := rfl
@[simp] theorem State.setTape_timer (s : State) (i : Fin 8) (d : Option Tape) : (s.setTape i d).timer = s.timer := rfl
@[simp] theorem State.setTape_watch (s : State) (i : Fin 8) (d : Option Tape) : (s.setTape i d).watch = s.watch := rfl
@[simp] theorem State.setTape_exitCode (s : State) (i : Fin 8) (d : Option Tape) : (s.setTape i d).exitCode = s.exitCode := rfl
@[simp] theorem State.setTape_emgRet (s : State) (i : Fin 8) (d : Option Tape) : (s.setTape i d).emgRet = s.emgRet := rfl
@[simp] theorem State.setTape_mem (s : State) (i : Fin 8) (d : Option Tape) : (s.setTape i d).mem = s.mem := rfl
@[simp] theorem State.setTape_timerPending (s : State) (i : Fin 8) (d : Option Tape) : (s.setTape i d).timerPending = s.timerPending := rfl
@[simp] theorem State.setTape_keyboard (s : State) (i : Fin 8) (d : Option Tape) : (s.setTape i d).keyboard = s.keyboard := rfl
@[simp] theorem State.setTape_status (s : State) (i : Fin 8) (d : Option Tape) : (s.setTape i d).status = s.status := rfl
@[simp] theorem State.setTape_events (s : State) (i : Fin 8) (d : Option Tape) : (s.setTape i d).events = s.events := rfl
@[simp] theorem State.setTape_discs (s : State) (i : Fin 8) (d : Option Tape) : (s.setTape i d).discs = s.discs := rfl
@[simp] theorem State.setTape_tapes (s : State) (i : Fin 8) (d : Option Tape) : (s.setTape i d).tapes = s.tapes.set i d := rfl
@[simp] theorem State.setTape_nets (s : State) (i : Fin 8) (d : Option Tape) : (s.setTape i d).nets = s.nets := rfl
@[simp] theorem State.setTape_clock (s : State) (i : Fin 8) (d : Option Tape) : (s.setTape i d).clock = s.clock := rfl
@[simp] theorem State.setTape_inputs (s : State) (i : Fin 8) (d : Option Tape) : (s.setTape i d).inputs = s.inputs := rfl
@[simp] theorem State.setTape_draws (s : State) (i : Fin 8) (d : Option Tape) : (s.setTape i d).draws = s.draws := rfl
@[simp] theorem State.setTape_cfg (s : State) (i : Fin 8) (d : Option Tape) : (s.setTape i d).cfg = s.cfg := rfl

/-! ### State.setNet -/

@[simp] theorem State.setNet_regs (s : State) (i : Fin 2) (d : Option NetUnit) : (s.setNet i d).regs = s.regs := rfl
@[simp] theorem State.setNet_pc (s : State) (i : Fin 2) (d : Option NetUnit) : (s.setNet i d).pc = s.pc := rfl
@[simp] theorem State.setNet_sysSp (s : State) (i : Fin 2) (d : Option NetUnit) : (s.setNet i d).sysSp = s.sysSp := rfl
@[simp] theorem State.setNet_usrSp (s : State) (i : Fin 2) (d : Option NetUnit) : (s.setNet i d).usrSp = s.usrSp := rfl
@[simp] theorem State.setNet_sysFp (s : State) (i : Fin 2) (d : Option NetUnit) : (s.setNet i d).sysFp = s.sysFp := rfl
@[simp] theorem State.setNet_usrFp (s : State) (i : Fin 2) (d : Option NetUnit) : (s.setNet i d).usrFp = s.usrFp := rfl
@[simp] theorem State.setNet_plainFp (s : State) (i : Fin 2) (d : Option NetUnit) : (s.setNet i d).plainFp = s.plainFp := rfl
@[simp] theorem State.setNet_flags (s : State) (i : Fin 2) (d : Option NetUnit) : (s.setNet i d).flags = s.flags := rfl
@[simp] theorem State.setNet_ipl (s : State) (i : Fin 2) (d : Option NetUnit) : (s.setNet i d).ipl = s.ipl := rfl
@[simp] theorem State.setNet_pdbr (s : State) (i : Fin 2) (d : Option NetUnit) : (s.setNet i d).pdbr = s.pdbr := rfl
@[simp] theorem State.setNet_intVec (s : State) (i : Fin 2) (d : Option NetUnit) : (s.setNet i d).intVec = s.intVec := rfl
@[simp] theorem State.setNet_cgBr (s : State) (i : Fin 2) (d : Option NetUnit) : (s.setNet i d).cgBr = s.cgBr := rfl
@[simp] theorem State.setNet_cgLen (s : State) (i : Fin 2) (d : Option NetUnit) : (s.setNet i d).cgLen = s.cgLen := rfl
@[simp] theorem State.setNet_debug (s : State) (i : Fin 2) (d : Option NetUnit) : (s.setNet i d).debug = s.debug := rfl
@[simp] theorem State.setNet_timer (s : State) (i : Fin 2) (d : Option NetUnit) : (s.setNet i d).timer = s.timer := rfl
@[simp] theorem State.setNet_watch (s : State) (i : Fin 2) (d : Option NetUnit) : (s.setNet i d).watch = s.watch := rfl
@[simp] theorem State.setNet_exitCode (s : State) (i : Fin 2) (d : Option NetUnit) : (s.setNet i d).exitCode = s.exitCode := rfl
@[simp] theorem State.setNet_emgRet (s : State) (i : Fin 2) (d : Option NetUnit) : (s.setNet i d).emgRet = s.emgRet := rfl
@[simp] theorem State.setNet_mem (s : State) (i : Fin 2) (d : Option NetUnit) : (s.setNet i d).mem = s.mem := rfl
@[simp] theorem State.setNet_timerPending (s : State) (i : Fin 2) (d : Option NetUnit) : (s.setNet i d).timerPending = s.timerPending := rfl
@[simp] theorem State.setNet_keyboard (s : State) (i : Fin 2) (d : Option NetUnit) : (s.setNet i d).keyboard = s.keyboard := rfl
@[simp] theorem State.setNet_status (s : State) (i : Fin 2) (d : Option NetUnit) : (s.setNet i d).status = s.status := rfl
@[simp] theorem State.setNet_events (s : State) (i : Fin 2) (d : Option NetUnit) : (s.setNet i d).events = s.events := rfl
@[simp] theorem State.setNet_discs (s : State) (i : Fin 2) (d : Option NetUnit) : (s.setNet i d).discs = s.discs := rfl
@[simp] theorem State.setNet_tapes (s : State) (i : Fin 2) (d : Option NetUnit) : (s.setNet i d).tapes = s.tapes := rfl
@[simp] theorem State.setNet_nets (s : State) (i : Fin 2) (d : Option NetUnit) : (s.setNet i d).nets = s.nets.set i d := rfl
@[simp] theorem State.setNet_clock (s : State) (i : Fin 2) (d : Option NetUnit) : (s.setNet i d).clock = s.clock := rfl
@[simp] theorem State.setNet_inputs (s : State) (i : Fin 2) (d : Option NetUnit) : (s.setNet i d).inputs = s.inputs := rfl
@[simp] theorem State.setNet_draws (s : State) (i : Fin 2) (d : Option NetUnit) : (s.setNet i d).draws = s.draws := rfl
@[simp] theorem State.setNet_cfg (s : State) (i : Fin 2) (d : Option NetUnit) : (s.setNet i d).cfg = s.cfg := rfl

/-! ### State.noteHalt -/

@[simp] theorem State.noteHalt_regs (s : State) : (s.noteHalt).regs = s.regs := by unfold State.noteHalt; repeat (first | rfl | split)
@[simp] theorem State.noteHalt_pc (s : State) : (s.noteHalt).pc = s.pc := by unfold State.noteHalt; repeat (first | rfl | split)
@[simp] theorem State.noteHalt_sysSp (s : State) : (s.noteHalt).sysSp = s.sysSp := by unfold State.noteHalt; repeat (first | rfl | split)
@[simp] theorem State.noteHalt_usrSp (s : State) : (s.noteHalt).usrSp = s.usrSp := by unfold State.noteHalt; repeat (first | rfl | split)
@[simp] theorem State.noteHalt_sysFp (s : State) : (s.noteHalt).sysFp = s.sysFp := by unfold State.noteHalt; repeat (first | rfl | split)
@[simp] theorem State.noteHalt_usrFp (s : State) : (s.noteHalt).usrFp = s.usrFp := by unfold State.noteHalt; repeat (first | rfl | split)
@[simp] theorem State.noteHalt_plainFp (s : State) : (s.noteHalt).plainFp = s.plainFp := by unfold State.noteHalt; repeat (first | rfl | split)
@[simp] theorem State.noteHalt_flags (s : State) : (s.noteHalt).flags = s.flags := by unfold State.noteHalt; repeat (first | rfl | split)
@[simp] theorem State.noteHalt_ipl (s : State) : (s.noteHalt).ipl = s.ipl := by unfold State.noteHalt; repeat (first | rfl | split)
@[simp] theorem State.noteHalt_pdbr (s : State) : (s.noteHalt).pdbr = s.pdbr := by unfold State.noteHalt; repeat (first | rfl | split)
@[simp] theorem State.noteHalt_intVec (s : State) : (s.noteHalt).intVec = s.intVec := by unfold State.noteHalt; repeat (first | rfl | split)
@[simp] theorem State.noteHalt_cgBr (s : State) : (s.noteHalt).cgBr = s.cgBr := by unfold State.noteHalt; repeat (first | rfl | split)
@[simp] theorem State.noteHalt_cgLen (s : State) : (s.noteHalt).cgLen = s.cgLen := by unfold State.noteHalt; repeat (first | rfl | split)
@[simp] theorem State.noteHalt_debug (s : State) : (s.noteHalt).debug = s.debug := by unfold State.noteHalt; repeat (first | rfl | split)
@[simp] theorem State.noteHalt_timer (s : State) : (s.noteHalt).timer = s.timer := by unfold State.noteHalt; repeat (first | rfl | split)
@[simp] theorem State.noteHalt_watch (s : State) : (s.noteHalt).watch = s.watch := by unfold State.noteHalt; repeat (first | rfl | split)
@[simp] theorem State.noteHalt_exitCode (s : State) : (s.noteHalt).exitCode = s.exitCode := by unfold State.noteHalt; repeat (first | rfl | split)
@[simp] theorem State.noteHalt_emgRet (s : State) : (s.noteHalt).emgRet = s.emgRet := by unfold State.noteHalt; repeat (first | rfl | split)
@[simp] theorem State.noteHalt_mem (s : State) : (s.noteHalt).mem = s.mem := by unfold State.noteHalt; repeat (first | rfl | split)
@[simp] theorem State.noteHalt_timerPending (s : State) : (s.noteHalt).timerPending = s.timerPending := by unfold State.noteHalt; repeat (first | rfl | split)
@[simp] theorem State.noteHalt_keyboard (s : State) : (s.noteHalt).keyboard = s.keyboard := by unfold State.noteHalt; repeat (first | rfl | split)
@[simp] theorem State.noteHalt_status (s : State) : (s.noteHalt).status = if s.flags.r then s.status else .halted := by unfold State.noteHalt; repeat (first | rfl | split)
@[simp] theorem State.noteHalt_events (s : State) : (s.noteHalt).events = s.events := by unfold State.noteHalt; repeat (first | rfl | split)
@[simp] theorem State.noteHalt_discs (s : State) : (s.noteHalt).discs = s.discs := by unfold State.noteHalt; repeat (first | rfl | split)
@[simp] theorem State.noteHalt_tapes (s : State) : (s.noteHalt).tapes = s.tapes := by unfold State.noteHalt; repeat (first | rfl | split)
@[simp] theorem State.noteHalt_nets (s : State) : (s.noteHalt).nets = s.nets := by unfold State.noteHalt; repeat (first | rfl | split)
@[simp] theorem State.noteHalt_clock (s : State) : (s.noteHalt).clock = s.clock := by unfold State.noteHalt; repeat (first | rfl | split)
@[simp] theorem State.noteHalt_inputs (s : State) : (s.noteHalt).inputs = s.inputs := by unfold State.noteHalt; repeat (first | rfl | split)
@[simp] theorem State.noteHalt_draws (s : State) : (s.noteHalt).draws = s.draws := by unfold State.noteHalt; repeat (first | rfl | split)
@[simp] theorem State.noteHalt_cfg (s : State) : (s.noteHalt).cfg = s.cfg := by unfold State.noteHalt; repeat (first | rfl | split)

/-! ### State.writeFlag -/

@[simp] theorem State.writeFlag_regs (s : State) (f : Flag) (b : Bool) : (s.writeFlag f b).regs = s.regs := by unfold State.writeFlag State.noteHalt; repeat (first | rfl | split)
@[simp] theorem State.writeFlag_pc (s : State) (f : Flag) (b : Bool) : (s.writeFlag f b).pc = s.pc := by unfold State.writeFlag State.noteHalt; repeat (first | rfl | split)
@[simp] theorem State.writeFlag_sysSp (s : State) (f : Flag) (b : Bool) : (s.writeFlag f b).sysSp = s.sysSp := by unfold State.writeFlag State.noteHalt; repeat (first | rfl | split)
@[simp] theorem State.writeFlag_usrSp (s : State) (f : Flag) (b : Bool) : (s.writeFlag f b).usrSp = s.usrSp := by unfold State.writeFlag State.noteHalt; repeat (first | rfl | split)
@[simp] theorem State.writeFlag_sysFp (s : State) (f : Flag) (b : Bool) : (s.writeFlag f b).sysFp = s.sysFp := by unfold State.writeFlag State.noteHalt; repeat (first | rfl | split)
@[simp] theorem State.writeFlag_usrFp (s : State) (f : Flag) (b : Bool) : (s.writeFlag f b).usrFp = s.usrFp := by unfold State.writeFlag State.noteHalt; repeat (first | rfl | split)
@[simp] theorem State.writeFlag_plainFp (s : State) (f : Flag) (b : Bool) : (s.writeFlag f b).plainFp = s.plainFp := by unfold State.writeFlag State.noteHalt; repeat (first | rfl | split)
@[simp] theorem State.writeFlag_flags (s : State) (f : Flag) (b : Bool) : (s.writeFlag f b).flags = s.flags.set b f := by unfold State.writeFlag State.noteHalt; repeat (first | rfl | split)
@[simp] theorem State.writeFlag_ipl (s : State) (f : Flag) (b : Bool) : (s.writeFlag f b).ipl = s.ipl := by unfold State.writeFlag State.noteHalt; repeat (first | rfl | split)
@[simp] theorem State.writeFlag_pdbr (s : State) (f : Flag) (b : Bool) : (s.writeFlag f b).pdbr = s.pdbr := by unfold State.writeFlag State.noteHalt; repeat (first | rfl | split)
@[simp] theorem State.writeFlag_intVec (s : State) (f : Flag) (b : Bool) : (s.writeFlag f b).intVec = s.intVec := by unfold State.writeFlag State.noteHalt; repeat (first | rfl | split)
@[simp] theorem State.writeFlag_cgBr (s : State) (f : Flag) (b : Bool) : (s.writeFlag f b).cgBr = s.cgBr := by unfold State.writeFlag State.noteHalt; repeat (first | rfl | split)
@[simp] theorem State.writeFlag_cgLen (s : State) (f : Flag) (b : Bool) : (s.writeFlag f b).cgLen = s.cgLen := by unfold State.writeFlag State.noteHalt; repeat (first | rfl | split)
@[simp] theorem State.writeFlag_debug (s : State) (f : Flag) (b : Bool) : (s.writeFlag f b).debug = s.debug := by unfold State.writeFlag State.noteHalt; repeat (first | rfl | split)
@[simp] theorem State.writeFlag_timer (s : State) (f : Flag) (b : Bool) : (s.writeFlag f b).timer = s.timer := by unfold State.writeFlag State.noteHalt; repeat (first | rfl | split)
@[simp] theorem State.writeFlag_watch (s : State) (f : Flag) (b : Bool) : (s.writeFlag f b).watch = s.watch := by unfold State.writeFlag State.noteHalt; repeat (first | rfl | split)
@[simp] theorem State.writeFlag_exitCode (s : State) (f : Flag) (b : Bool) : (s.writeFlag f b).exitCode = s.exitCode := by unfold State.writeFlag State.noteHalt; repeat (first | rfl | split)
@[simp] theorem State.writeFlag_emgRet (s : State) (f : Flag) (b : Bool) : (s.writeFlag f b).emgRet = s.emgRet := by unfold State.writeFlag State.noteHalt; repeat (first | rfl | split)
@[simp] theorem State.writeFlag_mem (s : State) (f : Flag) (b : Bool) : (s.writeFlag f b).mem = s.mem := by unfold State.writeFlag State.noteHalt; repeat (first | rfl | split)
@[simp] theorem State.writeFlag_timerPending (s : State) (f : Flag) (b : Bool) : (s.writeFlag f b).timerPending = s.timerPending := by unfold State.writeFlag State.noteHalt; repeat (first | rfl | split)
@[simp] theorem State.writeFlag_keyboard (s : State) (f : Flag) (b : Bool) : (s.writeFlag f b).keyboard = s.keyboard := by unfold State.writeFlag State.noteHalt; repeat (first | rfl | split)
@[simp] theorem State.writeFlag_status (s : State) (f : Flag) (b : Bool) : (s.writeFlag f b).status = if (s.flags.set b f).r then s.status else .halted := by unfold State.writeFlag State.noteHalt; repeat (first | rfl | split)
@[simp] theorem State.writeFlag_events (s : State) (f : Flag) (b : Bool) : (s.writeFlag f b).events = s.events := by unfold State.writeFlag State.noteHalt; repeat (first | rfl | split)
@[simp] theorem State.writeFlag_discs (s : State) (f : Flag) (b : Bool) : (s.writeFlag f b).discs = s.discs := by unfold State.writeFlag State.noteHalt; repeat (first | rfl | split)
@[simp] theorem State.writeFlag_tapes (s : State) (f : Flag) (b : Bool) : (s.writeFlag f b).tapes = s.tapes := by unfold State.writeFlag State.noteHalt; repeat (first | rfl | split)
@[simp] theorem State.writeFlag_nets (s : State) (f : Flag) (b : Bool) : (s.writeFlag f b).nets = s.nets := by unfold State.writeFlag State.noteHalt; repeat (first | rfl | split)
@[simp] theorem State.writeFlag_clock (s : State) (f : Flag) (b : Bool) : (s.writeFlag f b).clock = s.clock := by unfold State.writeFlag State.noteHalt; repeat (first | rfl | split)
@[simp] theorem State.writeFlag_inputs (s : State) (f : Flag) (b : Bool) : (s.writeFlag f b).inputs = s.inputs := by unfold State.writeFlag State.noteHalt; repeat (first | rfl | split)
@[simp] theorem State.writeFlag_draws (s : State) (f : Flag) (b : Bool) : (s.writeFlag f b).draws = s.draws := by unfold State.writeFlag State.noteHalt; repeat (first | rfl | split)
@[simp] theorem State.writeFlag_cfg (s : State) (f : Flag) (b : Bool) : (s.writeFlag f b).cfg = s.cfg := by unfold State.writeFlag State.noteHalt; repeat (first | rfl | split)

/-! ### State.writeFlagsWord -/

@[simp] theorem State.writeFlagsWord_regs (s : State) (w : Word) : (s.writeFlagsWord w).regs = s.regs := by unfold State.writeFlagsWord State.noteHalt; repeat (first | rfl | split)
@[simp] theorem State.writeFlagsWord_pc (s : State) (w : Word) : (s.writeFlagsWord w).pc = s.pc := by unfold State.writeFlagsWord State.noteHalt; repeat (first | rfl | split)
@[simp] theorem State.writeFlagsWord_sysSp (s : State) (w : Word) : (s.writeFlagsWord w).sysSp = s.sysSp := by unfold State.writeFlagsWord State.noteHalt; repeat (first | rfl | split)
@[simp] theorem State.writeFlagsWord_usrSp (s : State) (w : Word) : (s.writeFlagsWord w).usrSp = s.usrSp := by unfold State.writeFlagsWord State.noteHalt; repeat (first | rfl | split)
@[simp] theorem State.writeFlagsWord_sysFp (s : State) (w : Word) : (s.writeFlagsWord w).sysFp = s.sysFp := by unfold State.writeFlagsWord State.noteHalt; repeat (first | rfl | split)
@[simp] theorem State.writeFlagsWord_usrFp (s : State) (w : Word) : (s.writeFlagsWord w).usrFp = s.usrFp := by unfold State.writeFlagsWord State.noteHalt; repeat (first | rfl | split)
@[simp] theorem State.writeFlagsWord_plainFp (s : State) (w : Word) : (s.writeFlagsWord w).plainFp = s.plainFp := by unfold State.writeFlagsWord State.noteHalt; repeat (first | rfl | split)
@[simp] theorem State.writeFlagsWord_flags (s : State) (w : Word) : (s.writeFlagsWord w).flags = flagsOfWord s.cfg.flagNum w := by unfold State.writeFlagsWord State.noteHalt; repeat (first | rfl | split)
@[simp] theorem State.writeFlagsWord_ipl (s : State) (w : Word) : (s.writeFlagsWord w).ipl = w.extractLsb' 0 5 := by unfold State.writeFlagsWord State.noteHalt; repeat (first | rfl | split)
@[simp] theorem State.writeFlagsWord_pdbr (s : State) (w : Word) : (s.writeFlagsWord w).pdbr = s.pdbr := by unfold State.writeFlagsWord State.noteHalt; repeat (first | rfl | split)
@[simp] theorem State.writeFlagsWord_intVec (s : State) (w : Word) : (s.writeFlagsWord w).intVec = s.intVec := by unfold State.writeFlagsWord State.noteHalt; repeat (first | rfl | split)
@[simp] theorem State.writeFlagsWord_cgBr (s : State) (w : Word) : (s.writeFlagsWord w).cgBr = s.cgBr := by unfold State.writeFlagsWord State.noteHalt; repeat (first | rfl | split)
@[simp] theorem State.writeFlagsWord_cgLen (s : State) (w : Word) : (s.writeFlagsWord w).cgLen = s.cgLen := by unfold State.writeFlagsWord State.noteHalt; repeat (first | rfl | split)
@[simp] theorem State.writeFlagsWord_debug (s : State) (w : Word) : (s.writeFlagsWord w).debug = s.debug := by unfold State.writeFlagsWord State.noteHalt; repeat (first | rfl | split)
@[simp] theorem State.writeFlagsWord_timer (s : State) (w : Word) : (s.writeFlagsWord w).timer = s.timer := by unfold State.writeFlagsWord State.noteHalt; repeat (first | rfl | split)
@[simp] theorem State.writeFlagsWord_watch (s : State) (w : Word) : (s.writeFlagsWord w).watch = s.watch := by unfold State.writeFlagsWord State.noteHalt; repeat (first | rfl | split)
@[simp] theorem State.writeFlagsWord_exitCode (s : State) (w : Word) : (s.writeFlagsWord w).exitCode = s.exitCode := by unfold State.writeFlagsWord State.noteHalt; repeat (first | rfl | split)
@[simp] theorem State.writeFlagsWord_emgRet (s : State) (w : Word) : (s.writeFlagsWord w).emgRet = s.emgRet := by unfold State.writeFlagsWord State.noteHalt; repeat (first | rfl | split)
@[simp] theorem State.writeFlagsWord_mem (s : State) (w : Word) : (s.writeFlagsWord w).mem = s.mem := by unfold State.writeFlagsWord State.noteHalt; repeat (first | rfl | split)
@[simp] theorem State.writeFlagsWord_timerPending (s : State) (w : Word) : (s.writeFlagsWord w).timerPending = s.timerPending := by unfold State.writeFlagsWord State.noteHalt; repeat (first | rfl | split)
@[simp] theorem State.writeFlagsWord_keyboard (s : State) (w : Word) : (s.writeFlagsWord w).keyboard = s.keyboard := by unfold State.writeFlagsWord State.noteHalt; repeat (first | rfl | split)
@[simp] theorem State.writeFlagsWord_status (s : State) (w : Word) : (s.writeFlagsWord w).status = if (flagsOfWord s.cfg.flagNum w).r then s.status else .halted := by unfold State.writeFlagsWord State.noteHalt; repeat (first | rfl | split)
@[simp] theorem State.writeFlagsWord_events (s : State) (w : Word) : (s.writeFlagsWord w).events = s.events := by unfold State.writeFlagsWord State.noteHalt; repeat (first | rfl | split)
@[simp] theorem State.writeFlagsWord_discs (s : State) (w : Word) : (s.writeFlagsWord w).discs = s.discs := by unfold State.writeFlagsWord State.noteHalt; repeat (first | rfl | split)
@[simp] theorem State.writeFlagsWord_tapes (s : State) (w : Word) : (s.writeFlagsWord w).tapes = s.tapes := by unfold State.writeFlagsWord State.noteHalt; repeat (first | rfl | split)
@[simp] theorem State.writeFlagsWord_nets (s : State) (w : Word) : (s.writeFlagsWord w).nets = s.nets := by unfold State.writeFlagsWord State.noteHalt; repeat (first | rfl | split)
@[simp] theorem State.writeFlagsWord_clock (s : State) (w : Word) : (s.writeFlagsWord w).clock = s.clock := by unfold State.writeFlagsWord State.noteHalt; repeat (first | rfl | split)
@[simp] theorem State.writeFlagsWord_inputs (s : State) (w : Word) : (s.writeFlagsWord w).inputs = s.inputs := by unfold State.writeFlagsWord State.noteHalt; repeat (first | rfl | split)
@[simp] theorem State.writeFlagsWord_draws (s : State) (w : Word) : (s.writeFlagsWord w).draws = s.draws := by unfold State.writeFlagsWord State.noteHalt; repeat (first | rfl | split)
@[simp] theorem State.writeFlagsWord_cfg (s : State) (w : Word) : (s.writeFlagsWord w).cfg = s.cfg := by unfold State.writeFlagsWord State.noteHalt; repeat (first | rfl | split)

/-! ### State.writeSp -/

@[simp] theorem State.writeSp_regs (s : State) (v : Word) : (s.writeSp v).regs = s.regs := by unfold State.writeSp; repeat (first | rfl | split)
@[simp] theorem State.writeSp_pc (s : State) (v : Word) : (s.writeSp v).pc = s.pc := by unfold State.writeSp; repeat (first | rfl | split)
@[simp] theorem State.writeSp_sysSp (s : State) (v : Word) : (s.writeSp v).sysSp = if s.flags.sys then v else s.sysSp := by unfold State.writeSp; split <;> simp_all
@[simp] theorem State.writeSp_usrSp (s : State) (v : Word) : (s.writeSp v).usrSp = if s.flags.sys then s.usrSp else v := by unfold State.writeSp; split <;> simp_all
@[simp] theorem State.writeSp_sysFp (s : State) (v : Word) : (s.writeSp v).sysFp = s.sysFp := by unfold State.writeSp; repeat (first | rfl | split)
@[simp] theorem State.writeSp_usrFp (s : State) (v : Word) : (s.writeSp v).usrFp = s.usrFp := by unfold State.writeSp; repeat (first | rfl | split)
@[simp] theorem State.writeSp_plainFp (s : State) (v : Word) : (s.writeSp v).plainFp = s.plainFp := by unfold State.writeSp; repeat (first | rfl | split)
@[simp] theorem State.writeSp_flags (s : State) (v : Word) : (s.writeSp v).flags = s.flags := by unfold State.writeSp; repeat (first | rfl | split)
@[simp] theorem State.writeSp_ipl (s : State) (v : Word) : (s.writeSp v).ipl = s.ipl := by unfold State.writeSp; repeat (first | rfl | split)
@[simp] theorem State.writeSp_pdbr (s : State) (v : Word) : (s.writeSp v).pdbr = s.pdbr := by unfold State.writeSp; repeat (first | rfl | split)
@[simp] theorem State.writeSp_intVec (s : State) (v : Word) : (s.writeSp v).intVec = s.intVec := by unfold State.writeSp; repeat (first | rfl | split)
@[simp] theorem State.writeSp_cgBr (s : State) (v : Word) : (s.writeSp v).cgBr = s.cgBr := by unfold State.writeSp; repeat (first | rfl | split)
@[simp] theorem State.writeSp_cgLen (s : State) (v : Word) : (s.writeSp v).cgLen = s.cgLen := by unfold State.writeSp; repeat (first | rfl | split)
@[simp] theorem State.writeSp_debug (s : State) (v : Word) : (s.writeSp v).debug = s.debug := by unfold State.writeSp; repeat (first | rfl | split)
@[simp] theorem State.writeSp_timer (s : State) (v : Word) : (s.writeSp v).timer = s.timer := by unfold State.writeSp; repeat (first | rfl | split)
@[simp] theorem State.writeSp_watch (s : State) (v : Word) : (s.writeSp v).watch = s.watch := by unfold State.writeSp; repeat (first | rfl | split)
@[simp] theorem State.writeSp_exitCode (s : State) (v : Word) : (s.writeSp v).exitCode = s.exitCode := by unfold State.writeSp; repeat (first | rfl | split)
@[simp] theorem State.writeSp_emgRet (s : State) (v : Word) : (s.writeSp v).emgRet = s.emgRet := by unfold State.writeSp; repeat (first | rfl | split)
@[simp] theorem State.writeSp_mem (s : State) (v : Word) : (s.writeSp v).mem = s.mem := by unfold State.writeSp; repeat (first | rfl | split)
@[simp] theorem State.writeSp_timerPending (s : State) (v : Word) : (s.writeSp v).timerPending = s.timerPending := by unfold State.writeSp; repeat (first | rfl | split)
@[simp] theorem State.writeSp_keyboard (s : State) (v : Word) : (s.writeSp v).keyboard = s.keyboard := by unfold State.writeSp; repeat (first | rfl | split)
@[simp] theorem State.writeSp_status (s : State) (v : Word) : (s.writeSp v).status = s.status := by unfold State.writeSp; repeat (first | rfl | split)
@[simp] theorem State.writeSp_events (s : State) (v : Word) : (s.writeSp v).events = s.events := by unfold State.writeSp; repeat (first | rfl | split)
@[simp] theorem State.writeSp_discs (s : State) (v : Word) : (s.writeSp v).discs = s.discs := by unfold State.writeSp; repeat (first | rfl | split)
@[simp] theorem State.writeSp_tapes (s : State) (v : Word) : (s.writeSp v).tapes = s.tapes := by unfold State.writeSp; repeat (first | rfl | split)
@[simp] theorem State.writeSp_nets (s : State) (v : Word) : (s.writeSp v).nets = s.nets := by unfold State.writeSp; repeat (first | rfl | split)
@[simp] theorem State.writeSp_clock (s : State) (v : Word) : (s.writeSp v).clock = s.clock := by unfold State.writeSp; repeat (first | rfl | split)
@[simp] theorem State.writeSp_inputs (s : State) (v : Word) : (s.writeSp v).inputs = s.inputs := by unfold State.writeSp; repeat (first | rfl | split)
@[simp] theorem State.writeSp_draws (s : State) (v : Word) : (s.writeSp v).draws = s.draws := by unfold State.writeSp; repeat (first | rfl | split)
@[simp] theorem State.writeSp_cfg (s : State) (v : Word) : (s.writeSp v).cfg = s.cfg := by unfold State.writeSp; repeat (first | rfl | split)

/-! ### State.writeFp -/

@[simp] theorem State.writeFp_regs (s : State) (v : Word) : (s.writeFp v).regs = s.regs := by unfold State.writeFp; repeat (first | rfl | split)
@[simp] theorem State.writeFp_pc (s : State) (v : Word) : (s.writeFp v).pc = s.pc := by unfold State.writeFp; repeat (first | rfl | split)
@[simp] theorem State.writeFp_sysSp (s : State) (v : Word) : (s.writeFp v).sysSp = s.sysSp := by unfold State.writeFp; repeat (first | rfl | split)
@[simp] theorem State.writeFp_usrSp (s : State) (v : Word) : (s.writeFp v).usrSp = s.usrSp := by unfold State.writeFp; repeat (first | rfl | split)
@[simp] theorem State.writeFp_sysFp (s : State) (v : Word) : (s.writeFp v).sysFp = if s.cfg.fpBanked && s.flags.sys then v else s.sysFp := by unfold State.writeFp; split <;> [split; skip] <;> simp_all
@[simp] theorem State.writeFp_usrFp (s : State) (v : Word) : (s.writeFp v).usrFp = if s.cfg.fpBanked && !s.flags.sys then v else s.usrFp := by unfold State.writeFp; split <;> [split; skip] <;> simp_all
@[simp] theorem State.writeFp_plainFp (s : State) (v : Word) : (s.writeFp v).plainFp = if s.cfg.fpBanked then s.plainFp else v := by unfold State.writeFp; split <;> [split; skip] <;> simp_all
@[simp] theorem State.writeFp_flags (s : State) (v : Word) : (s.writeFp v).flags = s.flags := by unfold State.writeFp; repeat (first | rfl | split)
@[simp] theorem State.writeFp_ipl (s : State) (v : Word) : (s.writeFp v).ipl = s.ipl := by unfold State.writeFp; repeat (first | rfl | split)
@[simp] theorem State.writeFp_pdbr (s : State) (v : Word) : (s.writeFp v).pdbr = s.pdbr := by unfold State.writeFp; repeat (first | rfl | split)
@[simp] theorem State.writeFp_intVec (s : State) (v : Word) : (s.writeFp v).intVec = s.intVec := by unfold State.writeFp; repeat (first | rfl | split)
@[simp] theorem State.writeFp_cgBr (s : State) (v : Word) : (s.writeFp v).cgBr = s.cgBr := by unfold State.writeFp; repeat (first | rfl | split)
@[simp] theorem State.writeFp_cgLen (s : State) (v : Word) : (s.writeFp v).cgLen = s.cgLen := by unfold State.writeFp; repeat (first | rfl | split)
@[simp] theorem State.writeFp_debug (s : State) (v : Word) : (s.writeFp v).debug = s.debug := by unfold State.writeFp; repeat (first | rfl | split)
@[simp] theorem State.writeFp_timer (s : State) (v : Word) : (s.writeFp v).timer = s.timer := by unfold State.writeFp; repeat (first | rfl | split)
@[simp] theorem State.writeFp_watch (s : State) (v : Word) : (s.writeFp v).watch = s.watch := by unfold State.writeFp; repeat (first | rfl | split)
@[simp] theorem State.writeFp_exitCode (s : State) (v : Word) : (s.writeFp v).exitCode = s.exitCode := by unfold State.writeFp; repeat (first | rfl | split)
@[simp] theorem State.writeFp_emgRet (s : State) (v : Word) : (s.writeFp v).emgRet = s.emgRet := by unfold State.writeFp; repeat (first | rfl | split)
@[simp] theorem State.writeFp_mem (s : State) (v : Word) : (s.writeFp v).mem = s.mem := by unfold State.writeFp; repeat (first | rfl | split)
@[simp] theorem State.writeFp_timerPending (s : State) (v : Word) : (s.writeFp v).timerPending = s.timerPending := by unfold State.writeFp; repeat (first | rfl | split)
@[simp] theorem State.writeFp_keyboard (s : State) (v : Word) : (s.writeFp v).keyboard = s.keyboard := by unfold State.writeFp; repeat (first | rfl | split)
@[simp] theorem State.writeFp_status (s : State) (v : Word) : (s.writeFp v).status = s.status := by unfold State.writeFp; repeat (first | rfl | split)
@[simp] theorem State.writeFp_events (s : State) (v : Word) : (s.writeFp v).events = s.events := by unfold State.writeFp; repeat (first | rfl | split)
@[simp] theorem State.writeFp_discs (s : State) (v : Word) : (s.writeFp v).discs = s.discs := by unfold State.writeFp; repeat (first | rfl | split)
@[simp] theorem State.writeFp_tapes (s : State) (v : Word) : (s.writeFp v).tapes = s.tapes := by unfold State.writeFp; repeat (first | rfl | split)
@[simp] theorem State.writeFp_nets (s : State) (v : Word) : (s.writeFp v).nets = s.nets := by unfold State.writeFp; repeat (first | rfl | split)
@[simp] theorem State.writeFp_clock (s : State) (v : Word) : (s.writeFp v).clock = s.clock := by unfold State.writeFp; repeat (first | rfl | split)
@[simp] theorem State.writeFp_inputs (s : State) (v : Word) : (s.writeFp v).inputs = s.inputs := by unfold State.writeFp; repeat (first | rfl | split)
@[simp] theorem State.writeFp_draws (s : State) (v : Word) : (s.writeFp v).draws = s.draws := by unfold State.writeFp; repeat (first | rfl | split)
@[simp] theorem State.writeFp_cfg (s : State) (v : Word) : (s.writeFp v).cfg = s.cfg := by unfold State.writeFp; repeat (first | rfl | split)

/-! ### State.writeReg -/

@[simp] theorem State.writeReg_flags (s : State) (r : Reg) (v : Word) : (s.writeReg r v).flags = s.flags := by unfold State.writeReg State.writeSp State.writeFp; repeat (first | rfl | split)
@[simp] theorem State.writeReg_ipl (s : State) (r : Reg) (v : Word) : (s.writeReg r v).ipl = s.ipl := by unfold State.writeReg State.writeSp State.writeFp; repeat (first | rfl | split)
@[simp] theorem State.writeReg_pdbr (s : State) (r : Reg) (v : Word) : (s.writeReg r v).pdbr = s.pdbr := by unfold State.writeReg State.writeSp State.writeFp; repeat (first | rfl | split)
@[simp] theorem State.writeReg_intVec (s : State) (r : Reg) (v : Word) : (s.writeReg r v).intVec = s.intVec := by unfold State.writeReg State.writeSp State.writeFp; repeat (first | rfl | split)
@[simp] theorem State.writeReg_cgBr (s : State) (r : Reg) (v : Word) : (s.writeReg r v).cgBr = s.cgBr := by unfold State.writeReg State.writeSp State.writeFp; repeat (first | rfl | split)
@[simp] theorem State.writeReg_cgLen (s : State) (r : Reg) (v : Word) : (s.writeReg r v).cgLen = s.cgLen := by unfold State.writeReg State.writeSp State.writeFp; repeat (first | rfl | split)
@[simp] theorem State.writeReg_debug (s : State) (r : Reg) (v : Word) : (s.writeReg r v).debug = s.debug := by unfold State.writeReg State.writeSp State.writeFp; repeat (first | rfl | split)
@[simp] theorem State.writeReg_timer (s : State) (r : Reg) (v : Word) : (s.writeReg r v).timer = s.timer := by unfold State.writeReg State.writeSp State.writeFp; repeat (first | rfl | split)
@[simp] theorem State.writeReg_watch (s : State) (r : Reg) (v : Word) : (s.writeReg r v).watch = s.watch := by unfold State.writeReg State.writeSp State.writeFp; repeat (first | rfl | split)
@[simp] theorem State.writeReg_exitCode (s : State) (r : Reg) (v : Word) : (s.writeReg r v).exitCode = s.exitCode := by unfold State.writeReg State.writeSp State.writeFp; repeat (first | rfl | split)
@[simp] theorem State.writeReg_emgRet (s : State) (r : Reg) (v : Word) : (s.writeReg r v).emgRet = s.emgRet := by unfold State.writeReg State.writeSp State.writeFp; repeat (first | rfl | split)
@[simp] theorem State.writeReg_mem (s : State) (r : Reg) (v : Word) : (s.writeReg r v).mem = s.mem := by unfold State.writeReg State.writeSp State.writeFp; repeat (first | rfl | split)
@[simp] theorem State.writeReg_timerPending (s : State) (r : Reg) (v : Word) : (s.writeReg r v).timerPending = s.timerPending := by unfold State.writeReg State.writeSp State.writeFp; repeat (first | rfl | split)
@[simp] theorem State.writeReg_keyboard (s : State) (r : Reg) (v : Word) : (s.writeReg r v).keyboard = s.keyboard := by unfold State.writeReg State.writeSp State.writeFp; repeat (first | rfl | split)
@[simp] theorem State.writeReg_status (s : State) (r : Reg) (v : Word) : (s.writeReg r v).status = s.status := by unfold State.writeReg State.writeSp State.writeFp; repeat (first | rfl | split)
@[simp] theorem State.writeReg_events (s : State) (r : Reg) (v : Word) : (s.writeReg r v).events = s.events := by unfold State.writeReg State.writeSp State.writeFp; repeat (first | rfl | split)
@[simp] theorem State.writeReg_discs (s : State) (r : Reg) (v : Word) : (s.writeReg r v).discs = s.discs := by unfold State.writeReg State.writeSp State.writeFp; repeat (first | rfl | split)
@[simp] theorem State.writeReg_tapes (s : State) (r : Reg) (v : Word) : (s.writeReg r v).tapes = s.tapes := by unfold State.writeReg State.writeSp State.writeFp; repeat (first | rfl | split)
@[simp] theorem State.writeReg_nets (s : State) (r : Reg) (v : Word) : (s.writeReg r v).nets = s.nets := by unfold State.writeReg State.writeSp State.writeFp; repeat (first | rfl | split)
@[simp] theorem State.writeReg_clock (s : State) (r : Reg) (v : Word) : (s.writeReg r v).clock = s.clock := by unfold State.writeReg State.writeSp State.writeFp; repeat (first | rfl | split)
@[simp] theorem State.writeReg_inputs (s : State) (r : Reg) (v : Word) : (s.writeReg r v).inputs = s.inputs := by unfold State.writeReg State.writeSp State.writeFp; repeat (first | rfl | split)
@[simp] theorem State.writeReg_draws (s : State) (r : Reg) (v : Word) : (s.writeReg r v).draws = s.draws := by unfold State.writeReg State.writeSp State.writeFp; repeat (first | rfl | split)
@[simp] theorem State.writeReg_cfg (s : State) (r : Reg) (v : Word) : (s.writeReg r v).cfg = s.cfg := by unfold State.writeReg State.writeSp State.writeFp; repeat (first | rfl | split)

/-! ### State.put -/

@[simp] theorem State.put_flags (s : State) (r : Reg) (v : Option Word) : (s.put r v).flags = s.flags := by cases v <;> simp [State.put]
@[simp] theorem State.put_ipl (s : State) (r : Reg) (v : Option Word) : (s.put r v).ipl = s.ipl := by cases v <;> simp [State.put]
@[simp] theorem State.put_pdbr (s : State) (r : Reg) (v : Option Word) : (s.put r v).pdbr = s.pdbr := by cases v <;> simp [State.put]
@[simp] theorem State.put_intVec (s : State) (r : Reg) (v : Option Word) : (s.put r v).intVec = s.intVec := by cases v <;> simp [State.put]
@[simp] theorem State.put_cgBr (s : State) (r : Reg) (v : Option Word) : (s.put r v).cgBr = s.cgBr := by cases v <;> simp [State.put]
@[simp] theorem State.put_cgLen (s : State) (r : Reg) (v : Option Word) : (s.put r v).cgLen = s.cgLen := by cases v <;> simp [State.put]
@[simp] theorem State.put_debug (s : State) (r : Reg) (v : Option Word) : (s.put r v).debug = s.debug := by cases v <;> simp [State.put]
@[simp] theorem State.put_timer (s : State) (r : Reg) (v : Option Word) : (s.put r v).timer = s.timer := by cases v <;> simp [State.put]
@[simp] theorem State.put_watch (s : State) (r : Reg) (v : Option Word) : (s.put r v).watch = s.watch := by cases v <;> simp [State.put]
@[simp] theorem State.put_exitCode (s : State) (r : Reg) (v : Option Word) : (s.put r v).exitCode = s.exitCode := by cases v <;> simp [State.put]
@[simp] theorem State.put_emgRet (s : State) (r : Reg) (v : Option Word) : (s.put r v).emgRet = s.emgRet := by cases v <;> simp [State.put]
@[simp] theorem State.put_mem (s : State) (r : Reg) (v : Option Word) : (s.put r v).mem = s.mem := by cases v <;> simp [State.put]
@[simp] theorem State.put_timerPending (s : State) (r : Reg) (v : Option Word) : (s.put r v).timerPending = s.timerPending := by cases v <;> simp [State.put]
@[simp] theorem State.put_keyboard (s : State) (r : Reg) (v : Option Word) : (s.put r v).keyboard = s.keyboard := by cases v <;> simp [State.put]
@[simp] theorem State.put_status (s : State) (r : Reg) (v : Option Word) : (s.put r v).status = s.status := by cases v <;> simp [State.put]
@[simp] theorem State.put_events (s : State) (r : Reg) (v : Option Word) : (s.put r v).events = s.events := by cases v <;> simp [State.put]
@[simp] theorem State.put_discs (s : State) (r : Reg) (v : Option Word) : (s.put r v).discs = s.discs := by cases v <;> simp [State.put]
@[simp] theorem State.put_tapes (s : State) (r : Reg) (v : Option Word) : (s.put r v).tapes = s.tapes := by cases v <;> simp [State.put]
@[simp] theorem State.put_nets (s : State) (r : Reg) (v : Option Word) : (s.put r v).nets = s.nets := by cases v <;> simp [State.put]
@[simp] theorem State.put_clock (s : State) (r : Reg) (v : Option Word) : (s.put r v).clock = s.clock := by cases v <;> simp [State.put]
@[simp] theorem State.put_inputs (s : State) (r : Reg) (v : Option Word) : (s.put r v).inputs = s.inputs := by cases v <;> simp [State.put]
@[simp] theorem State.put_cfg (s : State) (r : Reg) (v : Option Word) : (s.put r v).cfg = s.cfg := by cases v <;> simp [State.put]

/-! ### State.tick -/

@[simp] theorem State.tick_regs (s : State) : (s.tick).regs = s.regs := by unfold State.tick; repeat (first | rfl | split)
@[simp] theorem State.tick_pc (s : State) : (s.tick).pc = s.pc := by unfold State.tick; repeat (first | rfl | split)
@[simp] theorem State.tick_sysSp (s : State) : (s.tick).sysSp = s.sysSp := by unfold State.tick; repeat (first | rfl | split)
@[simp] theorem State.tick_usrSp (s : State) : (s.tick).usrSp = s.usrSp := by unfold State.tick; repeat (first | rfl | split)
@[simp] theorem State.tick_sysFp (s : State) : (s.tick).sysFp = s.sysFp := by unfold State.tick; repeat (first | rfl | split)
@[simp] theorem State.tick_usrFp (s : State) : (s.tick).usrFp = s.usrFp := by unfold State.tick; repeat (first | rfl | split)
@[simp] theorem State.tick_plainFp (s : State) : (s.tick).plainFp = s.plainFp := by unfold State.tick; repeat (first | rfl | split)
@[simp] theorem State.tick_flags (s : State) : (s.tick).flags = s.flags := by unfold State.tick; repeat (first | rfl | split)
@[simp] theorem State.tick_ipl (s : State) : (s.tick).ipl = s.ipl := by unfold State.tick; repeat (first | rfl | split)
@[simp] theorem State.tick_pdbr (s : State) : (s.tick).pdbr = s.pdbr := by unfold State.tick; repeat (first | rfl | split)
@[simp] theorem State.tick_intVec (s : State) : (s.tick).intVec = s.intVec := by unfold State.tick; repeat (first | rfl | split)
@[simp] theorem State.tick_cgBr (s : State) : (s.tick).cgBr = s.cgBr := by unfold State.tick; repeat (first | rfl | split)
@[simp] theorem State.tick_cgLen (s : State) : (s.tick).cgLen = s.cgLen := by unfold State.tick; repeat (first | rfl | split)
@[simp] theorem State.tick_debug (s : State) : (s.tick).debug = s.debug := by unfold State.tick; repeat (first | rfl | split)
@[simp] theorem State.tick_timer (s : State) : (s.tick).timer = if s.timer = 0 then 0 else s.timer - 1 := by unfold State.tick; split <;> simp_all
@[simp] theorem State.tick_watch (s : State) : (s.tick).watch = s.watch := by unfold State.tick; repeat (first | rfl | split)
@[simp] theorem State.tick_exitCode (s : State) : (s.tick).exitCode = s.exitCode := by unfold State.tick; repeat (first | rfl | split)
@[simp] theorem State.tick_emgRet (s : State) : (s.tick).emgRet = s.emgRet := by unfold State.tick; repeat (first | rfl | split)
@[simp] theorem State.tick_mem (s : State) : (s.tick).mem = s.mem := by unfold State.tick; repeat (first | rfl | split)
@[simp] theorem State.tick_keyboard (s : State) : (s.tick).keyboard = s.keyboard := by unfold State.tick; repeat (first | rfl | split)
@[simp] theorem State.tick_status (s : State) : (s.tick).status = s.status := by unfold State.tick; repeat (first | rfl | split)
@[simp] theorem State.tick_events (s : State) : (s.tick).events = s.events := by unfold State.tick; repeat (first | rfl | split)
@[simp] theorem State.tick_discs (s : State) : (s.tick).discs = s.discs := by unfold State.tick; repeat (first | rfl | split)
@[simp] theorem State.tick_tapes (s : State) : (s.tick).tapes = s.tapes := by unfold State.tick; repeat (first | rfl | split)
@[simp] theorem State.tick_nets (s : State) : (s.tick).nets = s.nets := by unfold State.tick; repeat (first | rfl | split)
@[simp] theorem State.tick_clock (s : State) : (s.tick).clock = s.clock := by unfold State.tick; repeat (first | rfl | split)
@[simp] theorem State.tick_inputs (s : State) : (s.tick).inputs = s.inputs := by unfold State.tick; repeat (first | rfl | split)
@[simp] theorem State.tick_draws (s : State) : (s.tick).draws = s.draws := by unfold State.tick; repeat (first | rfl | split)
@[simp] theorem State.tick_cfg (s : State) : (s.tick).cfg = s.cfg := by unfold State.tick; repeat (first | rfl | split)

/-! ### State.receive -/

@[simp] theorem State.receive_regs (s : State) (n : Nat) (p : Packet) : (s.receive n p).regs = s.regs := by unfold State.receive; repeat (first | rfl | split)
@[simp] theorem State.receive_pc (s : State) (n : Nat) (p : Packet) : (s.receive n p).pc = s.pc := by unfold State.receive; repeat (first | rfl | split)
@[simp] theorem State.receive_sysSp (s : State) (n : Nat) (p : Packet) : (s.receive n p).sysSp = s.sysSp := by unfold State.receive; repeat (first | rfl | split)
@[simp] theorem State.receive_usrSp (s : State) (n : Nat) (p : Packet) : (s.receive n p).usrSp = s.usrSp := by unfold State.receive; repeat (first | rfl | split)
@[simp] theorem State.receive_sysFp (s : State) (n : Nat) (p : Packet) : (s.receive n p).sysFp = s.sysFp := by unfold State.receive; repeat (first | rfl | split)
@[simp] theorem State.receive_usrFp (s : State) (n : Nat) (p : Packet) : (s.receive n p).usrFp = s.usrFp := by unfold State.receive; repeat (first | rfl | split)
@[simp] theorem State.receive_plainFp (s : State) (n : Nat) (p : Packet) : (s.receive n p).plainFp = s.plainFp := by unfold State.receive; repeat (first | rfl | split)
@[simp] theorem State.receive_flags (s : State) (n : Nat) (p : Packet) : (s.receive n p).flags = s.flags := by unfold State.receive; repeat (first | rfl | split)
@[simp] theorem State.receive_ipl (s : State) (n : Nat) (p : Packet) : (s.receive n p).ipl = s.ipl := by unfold State.receive; repeat (first | rfl | split)
@[simp] theorem State.receive_pdbr (s : State) (n : Nat) (p : Packet) : (s.receive n p).pdbr = s.pdbr := by unfold State.receive; repeat (first | rfl | split)
@[simp] theorem State.receive_intVec (s : State) (n : Nat) (p : Packet) : (s.receive n p).intVec = s.intVec := by unfold State.receive; repeat (first | rfl | split)
@[simp] theorem State.receive_cgBr (s : State) (n : Nat) (p : Packet) : (s.receive n p).cgBr = s.cgBr := by unfold State.receive; repeat (first | rfl | split)
@[simp] theorem State.receive_cgLen (s : State) (n : Nat) (p : Packet) : (s.receive n p).cgLen = s.cgLen := by unfold State.receive; repeat (first | rfl | split)
@[simp] theorem State.receive_debug (s : State) (n : Nat) (p : Packet) : (s.receive n p).debug = s.debug := by unfold State.receive; repeat (first | rfl | split)
@[simp] theorem State.receive_timer (s : State) (n : Nat) (p : Packet) : (s.receive n p).timer = s.timer := by unfold State.receive; repeat (first | rfl | split)
@[simp] theorem State.receive_watch (s : State) (n : Nat) (p : Packet) : (s.receive n p).watch = s.watch := by unfold State.receive; repeat (first | rfl | split)
@[simp] theorem State.receive_exitCode (s : State) (n : Nat) (p : Packet) : (s.receive n p).exitCode = s.exitCode := by unfold State.receive; repeat (first | rfl | split)
@[simp] theorem State.receive_emgRet (s : State) (n : Nat) (p : Packet) : (s.receive n p).emgRet = s.emgRet := by unfold State.receive; repeat (first | rfl | split)
@[simp] theorem State.receive_mem (s : State) (n : Nat) (p : Packet) : (s.receive n p).mem = s.mem := by unfold State.receive; repeat (first | rfl | split)
@[simp] theorem State.receive_timerPending (s : State) (n : Nat) (p : Packet) : (s.receive n p).timerPending = s.timerPending := by unfold State.receive; repeat (first | rfl | split)
@[simp] theorem State.receive_keyboard (s : State) (n : Nat) (p : Packet) : (s.receive n p).keyboard = s.keyboard := by unfold State.receive; repeat (first | rfl | split)
@[simp] theorem State.receive_status (s : State) (n : Nat) (p : Packet) : (s.receive n p).status = s.status := by unfold State.receive; repeat (first | rfl | split)
@[simp] theorem State.receive_events (s : State) (n : Nat) (p : Packet) : (s.receive n p).events = s.events := by unfold State.receive; repeat (first | rfl | split)
@[simp] theorem State.receive_discs (s : State) (n : Nat) (p : Packet) : (s.receive n p).discs = s.discs := by unfold State.receive; repeat (first | rfl | split)
@[simp] theorem State.receive_tapes (s : State) (n : Nat) (p : Packet) : (s.receive n p).tapes = s.tapes := by unfold State.receive; repeat (first | rfl | split)
@[simp] theorem State.receive_clock (s : State) (n : Nat) (p : Packet) : (s.receive n p).clock = s.clock := by unfold State.receive; repeat (first | rfl | split)
@[simp] theorem State.receive_inputs (s : State) (n : Nat) (p : Packet) : (s.receive n p).inputs = s.inputs := by unfold State.receive; repeat (first | rfl | split)
@[simp] theorem State.receive_draws (s : State) (n : Nat) (p : Packet) : (s.receive n p).draws = s.draws := by unfold State.receive; repeat (first | rfl | split)
@[simp] theorem State.receive_cfg (s : State) (n : Nat) (p : Packet) : (s.receive n p).cfg = s.cfg := by unfold State.receive; repeat (first | rfl | split)

end Sys2Proof.Machine
end

