-- ==== Sys2Proof/Laws/Ops.lean ====
section
/-! SUPPORT. What each shared operation can do, said once; and `Ordinary`, what every instruction but SETFL, SETSR, FLAGSJ and IRET
keeps, with its rules of composition. -/

namespace Sys2Proof.Machine

/-! ### Results -/

theorem Res.bind_ok {α β : Type} {x : Res α} {f : α → Res β} {b : β} :
    (x >>= f) = .ok b ↔ ∃ a, x = .ok a ∧ f a = .ok b := by
  cases x with
  | error e => simp [Bind.bind, Except.bind]
  | ok a => simp [Bind.bind, Except.bind]

@[simp] theorem Res.ok_bind {α β : Type} (a : α) (f : α → Res β) : ((.ok a : Res α) >>= f) = f a := rfl
@[simp] theorem Res.error_bind {α β : Type} (e : Stop) (f : α → Res β) : ((.error e : Res α) >>= f) = .error e := rfl
@[simp] theorem raise_ne_ok {α : Type} (c : Interrupt) (a : Option Word) (x : α) : raise c a ≠ .ok x := by simp [raise]
@[simp] theorem refuse_ne_ok {α : Type} (r : Refusal) (x : α) : refuse r ≠ .ok x := by simp [refuse]
@[simp] theorem Res.raise_bind {α β : Type} (c : Interrupt) (a : Option Word) (f : α → Res β) :
    ((raise c a : Res α) >>= f) = raise c a := rfl
@[simp] theorem Res.refuse_bind {α β : Type} (r : Refusal) (f : α → Res β) : ((refuse r : Res α) >>= f) = refuse r := rfl

/-! ### Registers -/

@[simp] theorem State.readReg_writeReg_same (s : State) (r : Reg) (v : Word) : (s.writeReg r v).readReg r = v := by
  unfold State.writeReg
  split
  · next h => simp [State.readReg, h]
  · split
    · next h => simp [State.readReg, h, State.readSp, State.writeSp]; split <;> simp_all
    · split
      · next h => simp [State.readReg, h, State.readFp, State.writeFp]; split <;> (try split) <;> simp_all
      · next h1 h2 h3 => simp [State.readReg, h1, h2, h3]

theorem State.readReg_writeReg_ne (s : State) {r q : Reg} (v : Word) (h : q ≠ r) :
    (s.writeReg r v).readReg q = s.readReg q := by
  have hv : q.val ≠ r.val := fun e => h (Fin.ext e)
  have hq := q.isLt
  have hr := r.isLt
  unfold State.writeReg
  split
  · next h1 =>
    unfold State.readReg State.readSp State.readFp
    split
    · exact Vector.getElem_set_ne h1 _ (Ne.symm hv)
    · rfl
  · split
    · next h1 h2 =>
      unfold State.readReg State.readFp
      rw [if_neg (show ¬ q.val = 13 by omega), if_neg (show ¬ q.val = 13 by omega)]
      simp
    · split
      · next h1 h2 h3 =>
        unfold State.readReg State.readSp
        rw [if_neg (show ¬ q.val = 14 by omega), if_neg (show ¬ q.val = 14 by omega)]
        simp
      · next h1 h2 h3 =>
        have : q.val < 13 ∨ q.val = 13 ∨ q.val = 14 := by omega
        unfold State.readReg State.readSp State.readFp
        rcases this with h4 | h4 | h4 <;> simp [h4]

/-! ### Memory -/

theorem existing_ok {s : State} {p q : Word} (h : existing s p = .ok q) : q = p ∧ memExists s.cfg p = true := by
  unfold existing at h
  split at h
  · next hp => exact ⟨(Except.ok.inj h).symm, hp⟩
  · exact absurd h (raise_ne_ok _ _ _)

theorem physRead_ok {s : State} {p w : Word} (h : physRead s p = .ok w) :
    memExists s.cfg p = true ∧ w = s.mem.readWord p := by
  unfold physRead at h
  split at h
  · next hp => exact ⟨hp, (Except.ok.inj h).symm⟩
  · exact absurd h (raise_ne_ok _ _ _)

theorem physRead_of_exists {s : State} {p : Word} (h : memExists s.cfg p = true) : physRead s p = .ok (s.mem.readWord p) := by
  simp [physRead, h]

/-- The watch check lets a write go where it was going, or raises WATCH. -/
theorem watched_ok {s : State} {a p q : Word} (h : watched s a p = .ok q) : q = p ∧ watchHit s a = false := by
  unfold watched at h
  split at h
  · exact absurd h (raise_ne_ok _ _ _)
  · next hw => exact ⟨(Except.ok.inj h).symm, by simpa using hw⟩

/-- A word was stored where PHSTORE and CLRPP store: the address exists and trips no watch-point. -/
theorem physWrite_ok {s t : State} {p v : Word} (h : physWrite s p v = .ok t) :
    watchHit s p = false ∧ memExists s.cfg p = true ∧ t = s.poke p v := by
  obtain ⟨q, hq, h1⟩ := Res.bind_ok.1 h
  obtain ⟨r, hr, ht⟩ := Res.bind_ok.1 h1
  obtain ⟨rfl, he⟩ := existing_ok hq
  obtain ⟨rfl, hw⟩ := watched_ok hr
  exact ⟨hw, he, (Except.ok.inj ht).symm⟩

theorem memRead_ok {s : State} {a w : Word} (h : memRead s a = .ok w) :
    ∃ p, translateAddress s a = .ok p ∧ memExists s.cfg p = true ∧ w = s.mem.readWord p := by
  obtain ⟨p, hp, hw⟩ := Res.bind_ok.1 h
  exact ⟨p, hp, physRead_ok hw⟩

theorem translate_off {s : State} (h : s.flags.vm = false) (a : Word) : translateAddress s a = .ok a := by simp [translateAddress, h]

theorem memRead_off {s : State} (h : s.flags.vm = false) {a : Word} (ha : memExists s.cfg a = true) :
    memRead s a = .ok (s.mem.readWord a) := by
  simp [memRead, translate_off h, physRead_of_exists ha]

/-- When a logical write is made, and where it goes: its translation, an address that exists and no watched one. -/
theorem storeTarget_ok {s : State} {a p : Word} :
    storeTarget s a = .ok p ↔
      translateAddress s a = .ok p ∧ memExists s.cfg p = true ∧ watchHit s (watchAddress s.cfg a p) = false := by
  constructor
  · intro h
    obtain ⟨q, hq, h1⟩ := Res.bind_ok.1 h
    obtain ⟨r, hr, h2⟩ := Res.bind_ok.1 h1
    obtain ⟨rfl, he⟩ := existing_ok hr
    obtain ⟨rfl, hw⟩ := watched_ok h2
    exact ⟨hq, he, hw⟩
  · rintro ⟨hq, he, hw⟩
    simp [storeTarget, hq, existing, he, watched, hw]

theorem storeTarget_exists {s : State} {a p : Word} (h : storeTarget s a = .ok p) : memExists s.cfg p = true := (storeTarget_ok.1 h).2.1

/-- A logical write that is made goes to the address its translation gives. -/
theorem storeTarget_translate {s : State} {a p : Word} (h : storeTarget s a = .ok p) : translateAddress s a = .ok p :=
  (storeTarget_ok.1 h).1

/-- All that a logical write can do. -/
theorem memWrite_ok {s t : State} {a v : Word} (h : memWrite s a v = .ok t) :
    ∃ p, storeTarget s a = .ok p ∧ t = s.poke p v := by
  obtain ⟨p, hp, ht⟩ := Res.bind_ok.1 h
  exact ⟨p, hp, (Except.ok.inj ht).symm⟩

theorem memWrite_of_target {s : State} {a p : Word} (h : storeTarget s a = .ok p) (v : Word) :
    memWrite s a v = .ok (s.poke p v) := by simp [memWrite, h]

/-! ### Where words were stored -/

/-- A memory made from another by words stored at addresses that exist. -/
inductive StoredTo (c : Config) : Memory → Memory → Prop where
  | refl (m : Memory) : StoredTo c m m
  | step {m n : Memory} {p v : Word} : StoredTo c m n → memExists c p = true → StoredTo c m (n.writeWord p v)

theorem StoredTo.trans {c : Config} {l m n : Memory} (h : StoredTo c l m) (k : StoredTo c m n) : StoredTo c l n := by
  induction k with
  | refl => exact h
  | step _ hp ih => exact .step ih hp

theorem StoredTo.wf {c : Config} {m n : Memory} (h : StoredTo c m n) (hm : m.wf = true) : n.wf = true := by
  induction h with
  | refl => exact hm
  | step _ _ ih => exact Memory.wf_writeWord ih _ _

theorem StoredTo.exist {c : Config} {m n : Memory} (h : StoredTo c m n)
    (hm : m.all (fun x => memExists c (BitVec.ofNat 32 (x.1 / 4))) = true) :
    n.all (fun x => memExists c (BitVec.ofNat 32 (x.1 / 4))) = true := by
  induction h with
  | refl => exact hm
  | @step n p v _ hp ih =>
    rw [List.all_eq_true] at ih ⊢
    intro x hx
    rcases Memory.mem_writeWord hx with h | h
    · rw [h]; simpa using hp
    · exact ih x h

/-- A word whose address does not exist is never changed. -/
theorem StoredTo.readWord {c : Config} {m n : Memory} (h : StoredTo c m n) {a : Word} (ha : memExists c a = false) :
    n.readWord a = m.readWord a := by
  induction h with
  | refl => rfl
  | @step n p v _ hp ih =>
    rw [Memory.readWord_writeWord, if_neg, ih]
    rintro rfl
    simp [ha] at hp

/-! ### What instructions keep -/

/-- What every instruction but SETFL, SETSR, FLAGSJ and IRET keeps: the controls, memory outside what exists, run status and flag R
in agreement, system mode once entered, and the level of a user-mode program that stays in user mode. -/
structure Ordinary (s t : State) : Prop where
  controls : State.SameControls s t
  stored : StoredTo s.cfg s.mem t.mem
  status : (s.flags.r = true ↔ s.status = .running) → (t.flags.r = true ↔ t.status = .running)
  sysStays : s.flags.sys = true → t.flags.sys = true
  level : s.flags.sys = false → t.flags.sys = false → State.SameLevel s t

theorem State.SameControls.trans {s t u : State} (h : State.SameControls s t) (k : State.SameControls t u) : State.SameControls s u :=
  ⟨k.cfg.trans h.cfg, k.int.trans h.int, k.vm.trans h.vm, k.pdbr.trans h.pdbr, k.intVec.trans h.intVec, k.cgBr.trans h.cgBr,
   k.cgLen.trans h.cgLen, Eq.trans (k.debug) (h.debug), k.watch.trans h.watch, k.exitCode.trans h.exitCode⟩

theorem State.SameLevel.trans {s t u : State} (h : State.SameLevel s t) (k : State.SameLevel t u) : State.SameLevel s u :=
  ⟨k.ipl.trans h.ipl, k.em.trans h.em, k.emgRet.trans h.emgRet, k.sysSp.trans h.sysSp⟩

theorem Ordinary.refl (s : State) : Ordinary s s :=
  ⟨⟨rfl, rfl, rfl, rfl, rfl, rfl, rfl, rfl, rfl, rfl⟩, .refl _, id, id, fun _ _ => ⟨rfl, rfl, rfl, rfl⟩⟩

theorem Ordinary.trans {s t u : State} (h : Ordinary s t) (k : Ordinary t u) : Ordinary s u := by
  refine ⟨h.controls.trans k.controls, h.stored.trans (h.controls.cfg ▸ k.stored), fun x => k.status (h.status x),
    fun x => k.sysStays (h.sysStays x), fun hs hu => ?_⟩
  have ht : t.flags.sys = false := by
    cases e : t.flags.sys with
    | false => rfl
    | true => exact absurd (k.sysStays e) (by simp [hu])
  exact (h.level hs ht).trans (k.level ht hu)

/-- An update of fields that `Ordinary` does not speak of. -/
theorem Ordinary.of_fields {s t : State} (cfg : t.cfg = s.cfg) (mem : t.mem = s.mem) (status : t.status = s.status)
    (r : t.flags.r = s.flags.r) (sys : t.flags.sys = s.flags.sys) (em : t.flags.em = s.flags.em) (int : t.flags.int = s.flags.int)
    (vm : t.flags.vm = s.flags.vm) (ipl : t.ipl = s.ipl) (pdbr : t.pdbr = s.pdbr) (intVec : t.intVec = s.intVec)
    (cgBr : t.cgBr = s.cgBr) (cgLen : t.cgLen = s.cgLen) (debug : t.debug = s.debug) (watch : t.watch = s.watch)
    (exitCode : t.exitCode = s.exitCode) (emgRet : t.emgRet = s.emgRet) (sysSp : s.flags.sys = false → t.sysSp = s.sysSp) :
    Ordinary s t :=
  ⟨⟨cfg, int, vm, pdbr, intVec, cgBr, cgLen, debug, watch, exitCode⟩, mem ▸ .refl _, by rw [status, r]; exact id,
   by rw [sys]; exact id, fun h _ => ⟨ipl, em, emgRet, sysSp h⟩⟩

theorem ordinary_setZ (s : State) (b : Bool) : Ordinary s (s.setZ b) := by apply Ordinary.of_fields <;> simp
theorem ordinary_setN (s : State) (b : Bool) : Ordinary s (s.setN b) := by apply Ordinary.of_fields <;> simp
theorem ordinary_setErr (s : State) (b : Bool) : Ordinary s (s.setErr b) := by apply Ordinary.of_fields <;> simp
theorem ordinary_drawn (s : State) (k : Nat) : Ordinary s (s.drawn k) := by apply Ordinary.of_fields <;> simp
theorem ordinary_emit (s : State) (e : HostEvent) : Ordinary s (s.emit e) := by apply Ordinary.of_fields <;> simp
theorem ordinary_setDisc (s : State) (i : Fin 8) (d : Option Disc) : Ordinary s (s.setDisc i d) := by
  apply Ordinary.of_fields <;> simp
theorem ordinary_setTape (s : State) (i : Fin 8) (d : Option Tape) : Ordinary s (s.setTape i d) := by
  apply Ordinary.of_fields <;> simp
theorem ordinary_setNet (s : State) (i : Fin 2) (d : Option NetUnit) : Ordinary s (s.setNet i d) := by
  apply Ordinary.of_fields <;> simp
theorem ordinary_pc (s : State) (v : Word) : Ordinary s { s with pc := v } := by apply Ordinary.of_fields <;> simp
theorem ordinary_keyboard (s : State) (l : List Byte) : Ordinary s { s with keyboard := l } := by
  apply Ordinary.of_fields <;> simp
theorem ordinary_events (s : State) (l : List HostEvent) : Ordinary s { s with events := l } := by
  apply Ordinary.of_fields <;> simp
theorem ordinary_clock (s : State) (c : BitVec 31) : Ordinary s { s with clock := c } := by
  apply Ordinary.of_fields <;> simp
theorem ordinary_writeSp (s : State) (v : Word) : Ordinary s (s.writeSp v) := by
  apply Ordinary.of_fields <;> simp +contextual

theorem ordinary_writeReg (s : State) (r : Reg) (v : Word) : Ordinary s (s.writeReg r v) := by
  refine Ordinary.of_fields ?_ ?_ ?_ ?_ ?_ ?_ ?_ ?_ ?_ ?_ ?_ ?_ ?_ ?_ ?_ ?_ ?_ fun h => ?_ <;> try simp only [State.writeReg_cfg,
    State.writeReg_mem, State.writeReg_status, State.writeReg_flags, State.writeReg_ipl, State.writeReg_pdbr, State.writeReg_intVec,
    State.writeReg_cgBr, State.writeReg_cgLen, State.writeReg_debug, State.writeReg_watch, State.writeReg_exitCode,
    State.writeReg_emgRet]
  unfold State.writeReg State.writeSp State.writeFp
  simp only [h, Bool.false_eq_true, if_false]
  repeat (first | rfl | split)

theorem ordinary_put (s : State) (r : Reg) (v : Option Word) : Ordinary s (s.put r v) := by
  cases v with
  | some v => exact ordinary_writeReg s r v
  | none => exact (ordinary_writeReg s r _).trans (ordinary_drawn _ _)

theorem ordinary_poke {s : State} {p : Word} (h : memExists s.cfg p = true) (v : Word) : Ordinary s (s.poke p v) :=
  ⟨⟨rfl, rfl, rfl, rfl, rfl, rfl, rfl, rfl, rfl, rfl⟩, .step (.refl _) h, id, id, fun _ _ => ⟨rfl, rfl, rfl, rfl⟩⟩

/-- An update that ends the run. -/
theorem Ordinary.of_stop {s t : State} (f : t.flags = { s.flags with r := false }) (st : t.status ≠ .running)
    (cfg : t.cfg = s.cfg) (mem : t.mem = s.mem) (ipl : t.ipl = s.ipl) (pdbr : t.pdbr = s.pdbr) (intVec : t.intVec = s.intVec)
    (cgBr : t.cgBr = s.cgBr) (cgLen : t.cgLen = s.cgLen) (debug : t.debug = s.debug) (watch : t.watch = s.watch)
    (exitCode : t.exitCode = s.exitCode) (emgRet : t.emgRet = s.emgRet) (sysSp : t.sysSp = s.sysSp) : Ordinary s t := by
  refine ⟨⟨cfg, by rw [f], by rw [f], pdbr, intVec, cgBr, cgLen, debug, watch, exitCode⟩, mem ▸ .refl _, fun _ => ?_, ?_, fun _ _ => ?_⟩
  · simp [f, st]
  · rw [f]; exact id
  · exact ⟨ipl, by rw [f], emgRet, sysSp⟩

theorem ordinary_halt (s : State) : Ordinary s s.halt := by apply Ordinary.of_stop <;> simp
theorem ordinary_stopProgram (s : State) (c : Interrupt) : Ordinary s (s.stopProgram c) := by apply Ordinary.of_stop <;> simp
theorem ordinary_enterDebugger (s : State) : Ordinary s s.enterDebugger := by apply Ordinary.of_stop <;> simp

theorem ordinary_memWrite {s t : State} {a v : Word} (h : memWrite s a v = .ok t) : Ordinary s t := by
  obtain ⟨p, hp, rfl⟩ := memWrite_ok h
  exact ordinary_poke (storeTarget_exists hp) v

theorem ordinary_physWrite {s t : State} {p v : Word} (h : physWrite s p v = .ok t) : Ordinary s t := by
  obtain ⟨-, he, rfl⟩ := physWrite_ok h
  exact ordinary_poke he v

/-! ### The stack -/

/-- Every address found for a word to be pushed exists. -/
theorem targetsBelow_exist (s : State) (top : Word) (n : Nat) : ∀ p ∈ (targetsBelow s top n).1, memExists s.cfg p = true := by
  induction n generalizing top with
  | zero => simp [targetsBelow]
  | succ n ih =>
    unfold targetsBelow
    split
    · simp
    · next p hp => simpa using ⟨storeTarget_exists hp, ih _⟩

/-- The addresses of n words below `top`, when all can be stored: one each, each the target of its own logical address. -/
theorem targetsBelow_ok {s : State} {top : Word} {n : Nat} {ps : List Word} (h : targetsBelow s top n = (ps, none)) :
    ps.length = n ∧ ∀ k : Nat, k < n → ∃ p, ps[k]? = some p ∧ storeTarget s (top - 1 - BitVec.ofNat 32 k) = .ok p := by
  induction n generalizing top ps with
  | zero => cases h; simp
  | succ n ih =>
    unfold targetsBelow at h
    split at h
    · cases h
    · next p hp =>
      obtain ⟨h1, h2⟩ := Prod.mk.inj h
      obtain ⟨h3, h4⟩ := ih (Prod.ext rfl h2)
      subst h1
      refine ⟨by rw [List.length_cons, h3], fun k hk => ?_⟩
      cases k with
      | zero => exact ⟨p, rfl, by simpa using hp⟩
      | succ k =>
        obtain ⟨q, hq, ht⟩ := h4 k (by omega)
        refine ⟨q, by simpa using hq, ?_⟩
        rw [← ht, BitVec.ofNat_add]
        congr 1
        bv_omega

/-- Conversely, words whose targets are all known can be stored. -/
theorem targetsBelow_of {s : State} {top : Word} {ps : List Word}
    (h : ∀ k : Nat, (hk : k < ps.length) → storeTarget s (top - 1 - BitVec.ofNat 32 k) = .ok ps[k]) :
    targetsBelow s top ps.length = (ps, none) := by
  induction ps generalizing top with
  | nil => rfl
  | cons p ps ih =>
    have h0 := h 0 (by simp)
    have hr := ih (top := top - 1) fun k hk => by
      have := h (k + 1) (by simpa using hk)
      rw [BitVec.ofNat_add] at this
      simp only [List.getElem_cons_succ] at this
      rw [← this]
      congr 1
      bv_omega
    simp only [List.getElem_cons_zero, show BitVec.ofNat 32 0 = (0 : Word) from rfl, sub_zero] at h0
    simp only [List.length_cons, targetsBelow, h0, hr]

/-- Storing words at addresses changes memory only. -/
theorem pokeAll_eq (s : State) (l : List (Word × Word)) : pokeAll s l = { s with mem := (pokeAll s l).mem } := by
  induction l generalizing s with
  | nil => rfl
  | cons x l ih => rw [pokeAll, ih]; rfl

theorem pokeAll_stored (s : State) (l : List (Word × Word)) (h : ∀ x ∈ l, memExists s.cfg x.1 = true) :
    StoredTo s.cfg s.mem (pokeAll s l).mem := by
  induction l generalizing s with
  | nil => exact .refl _
  | cons x l ih =>
    exact (StoredTo.step (.refl _) (h x (by simp))).trans (ih (s.poke x.1 x.2) fun y hy => h y (by simp [hy]))

/-- A word that is stored nowhere in the list is kept. -/
theorem pokeAll_readWord_ne (s : State) (l : List (Word × Word)) (a : Word) (h : ∀ x ∈ l, a ≠ x.1) :
    (pokeAll s l).mem.readWord a = s.mem.readWord a := by
  induction l generalizing s with
  | nil => rfl
  | cons x l ih =>
    rw [pokeAll, ih _ fun y hy => h y (by simp [hy])]
    exact (Memory.readWord_writeWord _ _ _ _).trans (if_neg (h x (by simp)))

/-- Of words stored at different addresses, each is found at its own. -/
theorem pokeAll_readWord (s : State) (l : List (Word × Word)) (hn : (l.map (·.1)).Nodup) (k : Nat) (hk : k < l.length) :
    (pokeAll s l).mem.readWord l[k].1 = l[k].2 := by
  induction l generalizing s k with
  | nil => simp at hk
  | cons x l ih =>
    obtain ⟨hx, hn⟩ := List.nodup_cons.1 hn
    cases k with
    | zero =>
      rw [pokeAll, List.getElem_cons_zero, pokeAll_readWord_ne _ _ _ fun y hy e => hx (List.mem_map.2 ⟨y, hy, e.symm⟩)]
      exact (Memory.readWord_writeWord _ _ _ _).trans (if_pos rfl)
    | succ k => exact ih _ hn k (by simpa using hk)

theorem zip_exist {s : State} {top : Word} {n : Nat} {ps vs : List Word} {e : Option Stop} (h : targetsBelow s top n = (ps, e)) :
    ∀ x ∈ ps.zip vs, memExists s.cfg x.1 = true := fun x hx => by
  have := targetsBelow_exist s top n x.1
  rw [h] at this
  exact this (List.of_mem_zip (a := x.1) (b := x.2) hx).1

theorem ordinary_pokeAll {s : State} {l : List (Word × Word)} (h : ∀ x ∈ l, memExists s.cfg x.1 = true) : Ordinary s (pokeAll s l) := by
  rw [pokeAll_eq]
  exact ⟨⟨rfl, rfl, rfl, rfl, rfl, rfl, rfl, rfl, rfl, rfl⟩, pokeAll_stored s l h, id, id, fun _ _ => ⟨rfl, rfl, rfl, rfl⟩⟩

/-- All that pushing can do: words stored where memory exists. -/
theorem pushWords_ok {s t : State} {top : Word} {vs : List Word} (h : pushWords s top vs = .ok t) :
    t = { s with mem := t.mem } ∧ StoredTo s.cfg s.mem t.mem := by
  induction vs generalizing s top with
  | nil => cases h; exact ⟨rfl, .refl _⟩
  | cons v vs ih =>
    obtain ⟨u, hu, ht⟩ := Res.bind_ok.1 h
    obtain ⟨p, hp, rfl⟩ := memWrite_ok hu
    obtain ⟨e, hs⟩ := ih ht
    exact ⟨e, (StoredTo.step (.refl _) (storeTarget_exists hp)).trans hs⟩

/-- Pushing where every word can be written: `x k` is the state after k words. -/
theorem pushWords_chain {s : State} {top : Word} {vs : List Word} {x : Nat → State} (h0 : x 0 = s)
    (h : ∀ k (hk : k < vs.length), memWrite (x k) (top - BitVec.ofNat 32 (k + 1)) vs[k] = .ok (x (k + 1))) :
    pushWords s top vs = .ok (x vs.length) := by
  induction vs generalizing s top x with
  | nil => rw [← h0]; rfl
  | cons v vs ih =>
    have h1 := h 0 (by simp)
    rw [h0] at h1
    simp only [pushWords, show BitVec.ofNat 32 (0 + 1) = (1 : Word) from rfl, List.getElem_cons_zero] at h1 ⊢
    rw [h1, Res.ok_bind]
    refine ih (x := fun k => x (k + 1)) rfl fun k hk => ?_
    have := h (k + 1) (by simpa using hk)
    rw [List.getElem_cons_succ] at this
    rw [← this]
    congr 1
    rw [BitVec.ofNat_add (k + 1)]
    bv_omega

/-- Pushing where word j is the first that cannot be written: it answers what that write raised. -/
theorem pushWords_chain_error {s : State} {top : Word} {vs : List Word} {x : Nat → State} {j : Nat} {e : Stop} (h0 : x 0 = s)
    (hj : j < vs.length)
    (h : ∀ k (hk : k < j), memWrite (x k) (top - BitVec.ofNat 32 (k + 1)) (vs[k]'(by omega)) = .ok (x (k + 1)))
    (he : memWrite (x j) (top - BitVec.ofNat 32 (j + 1)) vs[j] = .error e) : pushWords s top vs = .error e := by
  induction vs generalizing s top x j with
  | nil => simp at hj
  | cons v vs ih =>
    cases j with
    | zero =>
      rw [h0] at he
      simp only [pushWords, show BitVec.ofNat 32 (0 + 1) = (1 : Word) from rfl, List.getElem_cons_zero] at he ⊢
      rw [he, Res.error_bind]
    | succ j =>
      have h1 := h 0 (by omega)
      rw [h0] at h1
      simp only [pushWords, show BitVec.ofNat 32 (0 + 1) = (1 : Word) from rfl, List.getElem_cons_zero] at h1 ⊢
      rw [h1, Res.ok_bind]
      have sub : ∀ k : Nat, top - 1 - BitVec.ofNat 32 (k + 1) = top - BitVec.ofNat 32 (k + 1 + 1) := fun k => by
        rw [BitVec.ofNat_add (k + 1)]
        bv_omega
      refine ih (x := fun k => x (k + 1)) rfl (by simpa using hj) (fun k hk => ?_) ?_
      · rw [sub]; simpa using h (k + 1) (by omega)
      · rw [sub]; simpa using he

theorem ordinary_pushWords {s t : State} {top : Word} {vs : List Word} (h : pushWords s top vs = .ok t) : Ordinary s t := by
  obtain ⟨e, hs⟩ := pushWords_ok h
  rw [e]
  exact ⟨⟨rfl, rfl, rfl, rfl, rfl, rfl, rfl, rfl, rfl, rfl⟩, hs, id, id, fun _ _ => ⟨rfl, rfl, rfl, rfl⟩⟩

theorem ordinary_storeWords {s t : State} {a : Word} {vs : List Word} (h : storeWords s a vs = .ok t) : Ordinary s t := by
  induction vs generalizing s a with
  | nil => cases h; exact .refl _
  | cons v vs ih =>
    obtain ⟨u, hu, ht⟩ := Res.bind_ok.1 h
    exact (ordinary_memWrite hu).trans (ih ht)

/-! ### Taking an interrupt -/

/-- A vector entry that is used is a word of memory that exists and is not zero (R460, R464). -/
theorem vectorEntry_some {s : State} {c : Interrupt} {h : Word} (e : vectorEntry s c = some h) :
    memExists s.cfg (s.intVec + BitVec.ofNat 32 c.code) = true ∧ h = s.mem.readWord (s.intVec + BitVec.ofNat 32 c.code) ∧ h ≠ 0 := by
  simp only [vectorEntry] at e
  split at e
  · next hc =>
    simp only [Bool.and_eq_true, bne_iff_ne, ne_eq] at hc
    cases e
    exact ⟨hc.1, rfl, hc.2⟩
  · cases e

theorem ordinary_keepSomeWords {s : State} {l : List (Word × Word)} (h : ∀ x ∈ l, memExists s.cfg x.1 = true) :
    Ordinary s (keepSomeWords s l) := by
  induction l generalizing s with
  | nil => exact .refl _
  | cons x l ih =>
    have hl : ∀ y ∈ l, memExists s.cfg y.1 = true := fun y hy => h y (by simp [hy])
    unfold keepSomeWords
    split
    · exact ((ordinary_poke (h x (by simp)) _).trans (ordinary_drawn _ _)).trans (ih (by simpa using hl))
    · exact (ordinary_drawn _ _).trans (ih (by simpa using hl))

/-- Entering a handler: memory apart, only SYS, EM, IPL, EMGRET, SYSSP and PC change. -/
theorem Ordinary.of_entry {s t : State} (hs : StoredTo s.cfg s.mem t.mem) (sys : t.flags.sys = true) (r : t.flags.r = s.flags.r)
    (status : t.status = s.status) (int : t.flags.int = s.flags.int) (vm : t.flags.vm = s.flags.vm) (cfg : t.cfg = s.cfg)
    (pdbr : t.pdbr = s.pdbr) (intVec : t.intVec = s.intVec) (cgBr : t.cgBr = s.cgBr) (cgLen : t.cgLen = s.cgLen)
    (debug : t.debug = s.debug) (watch : t.watch = s.watch) (exitCode : t.exitCode = s.exitCode) : Ordinary s t :=
  ⟨⟨cfg, int, vm, pdbr, intVec, cgBr, cgLen, debug, watch, exitCode⟩, hs, by rw [r, status]; exact id, fun _ => sys,
   fun _ h => absurd sys (by simp [h])⟩

theorem ordinary_emergency {s : State} (code : Interrupt) (retpc : Word) {written : List (Word × Word)}
    (h : ∀ x ∈ written, memExists s.cfg x.1 = true) : Ordinary s (emergency s code retpc written) := by
  have hk : Ordinary s (keepSomeWords s written) := ordinary_keepSomeWords h
  have hj : ∀ (k : State) (h : Word), Ordinary k { k with
      emgRet := retpc, flags := { k.flags with em := true, sys := true }, ipl := BitVec.ofNat 5 code.code, pc := h } := by
    intro k h
    apply Ordinary.of_entry <;> exact .refl _
  unfold emergency
  dsimp only
  split
  · exact hk.trans (hj _ _)
  · split
    · exact hk.trans (hj _ _)
    · exact hk.trans (ordinary_enterDebugger _)

/-- What entering a handler can answer. -/
theorem enterHandler_taken {s t : State} {code : Interrupt} {address info : Option Word} {retpc h : Word}
    (e : enterHandler s code address info retpc h = .taken t) :
    let frame := frameWords s (info.getD (s.free 1)) (address.getD (s.free 0)) (BitVec.ofNat 32 code.code) retpc
    ∃ ps x, targetsBelow (s.drawn 2).asSystem s.sysSp 21 = (ps, x) ∧
      ((x = none ∧
        t = { pokeAll (s.drawn 2).asSystem (ps.zip frame) with ipl := BitVec.ofNat 5 code.code, sysSp := s.sysSp - 21, pc := h }) ∨
      (x ≠ none ∧ t = emergency (s.drawn 2) code retpc (ps.zip frame))) := by
  simp only [enterHandler] at e
  split at e
  · next ps hu => exact ⟨ps, none, hu, .inl ⟨rfl, (Delivery.taken.inj e).symm⟩⟩
  · cases e
  · next ps x _ hu => exact ⟨ps, some x, hu, .inr ⟨by simp, (Delivery.taken.inj e).symm⟩⟩

theorem ordinary_enterHandler {s t : State} {code : Interrupt} {address info : Option Word} {retpc h : Word}
    (e : enterHandler s code address info retpc h = .taken t) : Ordinary s t := by
  obtain ⟨ps, x, hp, ⟨-, rfl⟩ | ⟨-, rfl⟩⟩ := enterHandler_taken e
  · rw [pokeAll_eq]
    apply Ordinary.of_entry <;> first | exact pokeAll_stored _ _ (zip_exist hp) | rfl
  · exact (ordinary_drawn _ _).trans (ordinary_emergency _ _ (zip_exist (s := (s.drawn 2).asSystem) hp))

/-- What delivery can answer when the interrupt was taken (R460). -/
theorem deliver_taken {s t : State} {e : Raised} {retpc : Word} (d : deliver s e retpc = .taken t) :
    s.ignores (deliveredCode s e.code) = false ∧
    ((s.processesInterrupts = false ∧ t = s.stopProgram (deliveredCode s e.code)) ∨
     (∃ h, vectorEntry s (deliveredCode s e.code) = some h ∧
        enterHandler s (deliveredCode s e.code) e.address e.info retpc h = .taken t) ∨
     (vectorEntry s (deliveredCode s e.code) = none ∧
        (t = s.stopProgram .intrfault ∨
         ∃ h, vectorEntry s .intrfault = some h ∧
          enterHandler s .intrfault e.address (some (BitVec.ofNat 32 (deliveredCode s e.code).code)) retpc h = .taken t))) := by
  simp only [deliver] at d
  split at d
  · cases d
  · next hi =>
    refine ⟨by simpa using hi, ?_⟩
    split at d
    · next hp =>
      split at d
      · cases d
      · exact .inl ⟨by simpa using hp, (Delivery.taken.inj d).symm⟩
    · split at d
      · next h hv => exact .inr (.inl ⟨h, hv, d⟩)
      · next hv =>
        refine .inr (.inr ⟨hv, ?_⟩)
        split at d
        · exact .inl (Delivery.taken.inj d).symm
        · unfold deliverIntrFault at d
          split at d
          · cases d
          · split at d
            · next h hv' => exact .inr ⟨h, hv', d⟩
            · exact .inl (Delivery.taken.inj d).symm

theorem ordinary_deliver {s t : State} {e : Raised} {retpc : Word} (d : deliver s e retpc = .taken t) : Ordinary s t := by
  obtain ⟨-, ⟨-, rfl⟩ | ⟨h, -, he⟩ | ⟨-, rfl | ⟨h, -, he⟩⟩⟩ := deliver_taken d
  · exact ordinary_stopProgram _ _
  · exact ordinary_enterHandler he
  · exact ordinary_stopProgram _ _
  · exact ordinary_enterHandler he

/-- What a stop can lead to: the interrupt taken, or a dropped one. -/
theorem stopOutcome_next {s t : State} {retpc : Word} {e : Stop} (h : stopOutcome s retpc e = .next t) :
    ∃ x, e = .raised x ∧ (deliver s x retpc = .taken t ∨ (deliver s x retpc = .dropped ∧ t = s)) := by
  cases e with
  | raised x =>
    refine ⟨x, rfl, ?_⟩
    simp only [stopOutcome] at h
    split at h
    · next hd => cases h; exact .inl hd
    · cases h
    · next hd => cases h; exact .inr ⟨hd, rfl⟩
    · cases h
  | fault f => cases h
  | refused r => cases h

theorem ordinary_stopOutcome {s t : State} {retpc : Word} {e : Stop} (h : stopOutcome s retpc e = .next t) : Ordinary s t := by
  obtain ⟨x, -, hd | ⟨-, rfl⟩⟩ := stopOutcome_next h
  · exact ordinary_deliver hd
  · exact .refl _

/-- A step that concludes an instruction either completes it or takes what it raised. -/
theorem conclude_next {s t : State} {r : Res State} (h : conclude s r = .next t) :
    r = .ok t ∨ ∃ e, r = .error e ∧ stopOutcome s s.faultPc e = .next t := by
  cases r with
  | ok u => exact .inl (by rw [Host.Outcome.next.inj h])
  | error e => exact .inr ⟨e, rfl, h⟩

theorem ordinary_conclude {s t : State} {r : Res State} (h : conclude s r = .next t) (ok : ∀ u, r = .ok u → Ordinary s u) :
    Ordinary s t := by
  rcases conclude_next h with h | ⟨e, -, h⟩
  · exact ok t h
  · exact ordinary_stopOutcome h

end Sys2Proof.Machine
end

