-- ==== Sys2Proof/Laws/Shapes.lean ====
section
/-! SUPPORT. What the shapes that several instructions share can do: operand writes, register results, shifts, divisions, jumps,
loops, device operations. -/

namespace Sys2Proof.Machine

/-! ### Operands -/

theorem operandValue_direct {s : State} {o : Operand} (h : o.indirect = false) : operandValue s o = .ok (operandTotal s o) := by
  simp [operandValue, h]

theorem operandValue_indirect {s : State} {o : Operand} (h : o.indirect = true) :
    operandValue s o = memRead s (operandTotal s o) := by
  simp [operandValue, h]

/-- All that a write of a destination can do: a memory word, or the operand's register. -/
theorem writeDest_ok {s t : State} {o : Operand} {v : Word} (h : writeDest s o v = .ok t) :
    (o.indirect = true ∧ memWrite s (operandTotal s o) v = .ok t) ∨
    (o.indirect = false ∧ o.isRegister = true ∧ t = s.writeReg o.index v) := by
  unfold writeDest at h
  split at h
  · next hi => exact .inl ⟨hi, h⟩
  · next hi =>
    split at h
    · next hr => exact .inr ⟨by simpa using hi, hr, (Except.ok.inj h).symm⟩
    · exact absurd h (raise_ne_ok _ _ _)

theorem ordinary_writeDest {s t : State} {o : Operand} {v : Word} (h : writeDest s o v = .ok t) : Ordinary s t := by
  rcases writeDest_ok h with ⟨-, h⟩ | ⟨-, -, rfl⟩
  · exact ordinary_memWrite h
  · exact ordinary_writeReg _ _ _

theorem ordinary_writeDestOpen {s t : State} {o : Operand} {v : Option Word} (h : writeDestOpen s o v = .ok t) : Ordinary s t := by
  cases v with
  | some v => exact ordinary_writeDest h
  | none =>
    obtain ⟨u, hu, ht⟩ := Res.bind_ok.1 h
    cases ht
    exact (ordinary_writeDest hu).trans (ordinary_drawn _ _)

theorem privileged_ok {s t : State} {k : Res State} (h : privileged s k = .ok t) : s.flags.sys = true ∧ k = .ok t := by
  unfold privileged at h
  split at h
  · next hs => exact ⟨hs, h⟩
  · exact absurd h (raise_ne_ok _ _ _)

theorem privileged_user {s : State} (h : s.flags.sys = false) (k : Res State) :
    privileged s k = raise .privop (some s.this) := by simp [privileged, h]

theorem privileged_system {s : State} (h : s.flags.sys = true) (k : Res State) : privileged s k = k := by simp [privileged, h]

/-! ### Register results -/

theorem regOp_eq {f : Word → Word → Word} {main : Reg} {o : Operand} {s : State} {v : Word} (h : operandValue s o = .ok v) :
    regOp f main o s = .next (s.writeReg main (f (s.readReg main) v)) := by
  simp [regOp, h, conclude]

theorem regOp_error {f : Word → Word → Word} {main : Reg} {o : Operand} {s : State} {e : Stop} (h : operandValue s o = .error e) :
    regOp f main o s = stopOutcome s s.faultPc e := by
  simp [regOp, h, conclude]

theorem ordinary_regOp {f : Word → Word → Word} {main : Reg} {o : Operand} {s t : State} (h : regOp f main o s = .next t) :
    Ordinary s t := by
  refine ordinary_conclude h fun u hu => ?_
  obtain ⟨v, -, hv⟩ := Res.bind_ok.1 hu
  cases hv
  exact ordinary_writeReg _ _ _

theorem regOpOpen_eq {f : Word → Word → Option Word} {main : Reg} {o : Operand} {s : State} {v : Word}
    (h : operandValue s o = .ok v) : regOpOpen f main o s = .next (s.put main (f (s.readReg main) v)) := by
  simp [regOpOpen, h, conclude]

theorem ordinary_regOpOpen {f : Word → Word → Option Word} {main : Reg} {o : Operand} {s t : State}
    (h : regOpOpen f main o s = .next t) : Ordinary s t := by
  refine ordinary_conclude h fun u hu => ?_
  obtain ⟨v, -, hv⟩ := Res.bind_ok.1 hu
  cases hv
  exact ordinary_put _ _ _

theorem ordinary_divideOp {pick : Word → Word → Word × Word} {bad : Word → Word → Bool} {f : Word → Word → Word} {main : Reg}
    {o : Operand} {s t : State} (h : divideOp pick bad f main o s = .next t) : Ordinary s t := by
  refine ordinary_conclude h fun u hu => ?_
  obtain ⟨v, -, hv⟩ := Res.bind_ok.1 hu
  dsimp only at hv
  split at hv
  · exact absurd hv (raise_ne_ok _ _ _)
  · split at hv
    · cases hv
    · cases hv
      exact ordinary_writeReg _ _ _

theorem ordinary_shiftOp {z : Word → Nat → Bool} {f : Word → Nat → Word} {main : Reg} {o : Operand} {s t : State}
    (h : shiftOp z f main o s = .next t) : Ordinary s t := by
  refine ordinary_conclude h fun u hu => ?_
  obtain ⟨v, -, hv⟩ := Res.bind_ok.1 hu
  split at hv
  · cases hv
    exact (ordinary_setZ _ _).trans (ordinary_writeReg _ _ _)
  · cases hv
    exact ordinary_put _ _ _

theorem ordinary_jumpIf {c : Bool} {o : Operand} {s t : State} (h : jumpIf c o s = .next t) : Ordinary s t := by
  refine ordinary_conclude h fun u hu => ?_
  obtain ⟨v, -, hv⟩ := Res.bind_ok.1 hu
  cases hv
  split
  · exact ordinary_pc _ _
  · exact .refl _

theorem ordinary_updateOp {f : Word → Word} {o : Operand} {s t : State} (h : updateOp f o s = .next t) : Ordinary s t := by
  refine ordinary_conclude h fun u hu => ?_
  obtain ⟨_, -, hu⟩ := Res.bind_ok.1 hu
  obtain ⟨v, -, hv⟩ := Res.bind_ok.1 hu
  exact ordinary_writeDest hv

theorem ordinary_findBitOp {find : Word → Option Nat} {main : Reg} {o : Operand} {s t : State}
    (h : findBitOp find main o s = .next t) : Ordinary s t := by
  refine ordinary_conclude h fun u hu => ?_
  obtain ⟨v, -, hv⟩ := Res.bind_ok.1 hu
  split at hv
  · cases hv
    exact ((ordinary_setZ _ _).trans (ordinary_setN _ _)).trans (ordinary_writeReg _ _ _)
  · cases hv
    exact ((((ordinary_setZ _ _).trans (ordinary_setN _ _)).trans (ordinary_writeReg _ _ _)).trans (ordinary_drawn _ _)).trans
      (ordinary_drawn _ _)

theorem ordinary_haltOp {s t : State} (h : haltOp s = .next t) : Ordinary s t := by
  refine ordinary_conclude h fun u hu => ?_
  split at hu
  · cases hu
    exact ordinary_halt _
  · exact absurd hu (raise_ne_ok _ _ _)

theorem ordinary_setFloatCompare (s : State) (a b : Word) : Ordinary s (s.setFloatCompare a b) := by
  unfold State.setFloatCompare
  split
  · exact (ordinary_setZ _ _).trans (ordinary_setN _ _)
  · exact (((ordinary_setZ _ _).trans (ordinary_setN _ _)).trans (ordinary_drawn _ _)).trans (ordinary_drawn _ _)

/-! ### Loops -/

theorem ordinary_moveLoop (main index : Reg) (s : State) (n : Nat) : Ordinary s (moveLoop main index s n).1 := by
  induction n generalizing s with
  | zero => exact .refl _
  | succ n ih =>
    unfold moveLoop
    split
    · exact .refl _
    · split
      · exact .refl _
      · next hw =>
        exact ((((ordinary_memWrite hw).trans (ordinary_writeReg _ _ _)).trans (ordinary_writeReg _ _ _)).trans
          (ordinary_writeReg _ _ _)).trans (ih _)

theorem ordinary_zeroLoop (main index : Reg) (s : State) (n : Nat) : Ordinary s (zeroLoop main index s n).1 := by
  induction n generalizing s with
  | zero => exact .refl _
  | succ n ih =>
    unfold zeroLoop
    split
    · exact .refl _
    · next hw =>
      exact (((ordinary_memWrite hw).trans (ordinary_writeReg _ _ _)).trans (ordinary_writeReg _ _ _)).trans (ih _)

theorem ordinary_findNonZeroLoop (main : Reg) (s : State) (n : Nat) : Ordinary s (findNonZeroLoop main s n).1 := by
  induction n generalizing s with
  | zero => exact ordinary_writeReg _ _ _
  | succ n ih =>
    unfold findNonZeroLoop
    split
    · exact .refl _
    · split
      · exact .refl _
      · exact (ordinary_writeReg _ _ _).trans (ih _)

theorem ordinary_concludeLoop {s t : State} {r : State × Option Stop} (hr : Ordinary s r.1)
    (h : concludeLoop s r = .next t) : Ordinary s t := by
  obtain ⟨u, e⟩ := r
  cases e with
  | none => cases h; exact hr
  | some e => exact hr.trans (ordinary_stopOutcome h)

theorem ordinary_clearWords (s : State) (p : Word) (n : Nat) : Ordinary s (clearWords s p n).1 := by
  induction n generalizing s p with
  | zero => exact .refl _
  | succ n ih =>
    unfold clearWords
    split
    · next hw => exact (ordinary_physWrite hw).trans (ih _ _)
    · exact .refl _

theorem existingRun_succ {c : Config} {p : Word} {n k : Nat} (h : k + 1 ≤ existingRun c p n) :
    memExists c p = true ∧ ∃ m, k ≤ existingRun c (p + 1) m := by
  cases n with
  | zero => simp [existingRun] at h
  | succ n =>
    unfold existingRun at h
    split at h
    · next hp => exact ⟨hp, n, by omega⟩
    · omega

theorem ordinary_clearSomeWords (s : State) (p : Word) (n k : Nat) (h : k ≤ existingRun s.cfg p n) :
    Ordinary s (clearSomeWords s p k) := by
  induction k generalizing s p n with
  | zero => exact .refl _
  | succ k ih =>
    obtain ⟨hp, m, hm⟩ := existingRun_succ h
    unfold clearSomeWords
    split
    · exact ((ordinary_poke hp 0).trans (ordinary_drawn _ _)).trans (ih _ _ m hm)
    · exact (ordinary_drawn _ _).trans (ih _ _ m hm)

theorem ordinary_writeRegs (s : State) (l : List (Reg × Word)) : Ordinary s (writeRegs s l) := by
  induction l generalizing s with
  | nil => exact .refl _
  | cons x l ih => exact (ordinary_writeReg _ _ _).trans (ih _)

end Sys2Proof.Machine
end

