-- ==== Sys2Proof/Laws/Peripherals.lean ====
section
/-! SUPPORT. Every device operation is `DeviceStep`, whatever it ends with, and what the parts they share answer. -/

namespace Sys2Proof.Machine

/-- What a device operation can do to the machine: store words where memory exists, take characters from the keyboard buffer, add host
events, change discs, tapes, network units and the clock, draw free values; every other field is as before. -/
structure DeviceStep (s t : State) : Prop where
  stored : StoredTo s.cfg s.mem t.mem
  frame : t = { s with
    mem := t.mem, keyboard := t.keyboard, events := t.events, discs := t.discs, tapes := t.tapes, nets := t.nets
    clock := t.clock, draws := t.draws }

theorem DeviceStep.refl (s : State) : DeviceStep s s := ⟨.refl _, rfl⟩

theorem DeviceStep.trans {s t u : State} (h : DeviceStep s t) (k : DeviceStep t u) : DeviceStep s u := by
  have hc : t.cfg = s.cfg := by rw [h.frame]
  refine ⟨h.stored.trans (hc ▸ k.stored), ?_⟩
  have e := k.frame
  rw [h.frame] at e
  exact e

theorem DeviceStep.cfg {s t : State} (h : DeviceStep s t) : t.cfg = s.cfg := by rw [h.frame]

theorem DeviceStep.ordinary {s t : State} (h : DeviceStep s t) : Ordinary s t := by
  have f := h.frame
  have hs := h.stored
  generalize t.mem = m at f hs
  rw [f]
  exact ⟨⟨rfl, rfl, rfl, rfl, rfl, rfl, rfl, rfl, rfl, rfl⟩, hs, id, id, fun _ _ => ⟨rfl, rfl, rfl, rfl⟩⟩

theorem deviceStep_drawn (s : State) (k : Nat) : DeviceStep s (s.drawn k) := ⟨.refl _, rfl⟩
theorem deviceStep_emit (s : State) (e : HostEvent) : DeviceStep s (s.emit e) := ⟨.refl _, rfl⟩
theorem deviceStep_events (s : State) (l : List HostEvent) : DeviceStep s { s with events := l } := ⟨.refl _, rfl⟩
theorem deviceStep_keyboard (s : State) (l : List Byte) : DeviceStep s { s with keyboard := l } := ⟨.refl _, rfl⟩
theorem deviceStep_clock (s : State) (c : BitVec 31) : DeviceStep s { s with clock := c } := ⟨.refl _, rfl⟩
theorem deviceStep_setDisc (s : State) (i : Fin 8) (d : Option Disc) : DeviceStep s (s.setDisc i d) := ⟨.refl _, rfl⟩
theorem deviceStep_setTape (s : State) (i : Fin 8) (d : Option Tape) : DeviceStep s (s.setTape i d) := ⟨.refl _, rfl⟩
theorem deviceStep_setNet (s : State) (i : Fin 2) (d : Option NetUnit) : DeviceStep s (s.setNet i d) := ⟨.refl _, rfl⟩
theorem deviceStep_poke {s : State} {p : Word} (h : memExists s.cfg p = true) (v : Word) : DeviceStep s (s.poke p v) :=
  ⟨.step (.refl _) h, rfl⟩

/-- A device operation does no more than that, whether it succeeds or fails. -/
def DeviceIo {α : Type} (m : Io α) : Prop := ∀ s, DeviceStep s (m.run.run s).2

theorem deviceIo_pure {α : Type} (a : α) : DeviceIo (pure a) := fun s => .refl s
theorem deviceIo_throw {α : Type} (e : Word) : DeviceIo (throw e : Io α) := fun s => .refl s
theorem deviceIo_get : DeviceIo (get : Io State) := fun s => .refl s

/-- The bind of operations: the second starts where the first left off, or is skipped. -/
theorem io_run_bind {α β : Type} (m : Io α) (f : α → Io β) (s : State) :
    ((m >>= f).run.run s) = match m.run.run s with
      | (.ok a, s') => (f a).run.run s'
      | (.error e, s') => (.error e, s') := by
  show (ExceptT.run (m >>= f)).run s = _
  rw [ExceptT.run_bind]
  show (StateT.run (m.run >>= _) s) = _
  rw [StateT.run_bind]
  show (match (m.run.run s) with | (x, s') => StateT.run _ s') = _
  rcases h : m.run.run s with ⟨x, s'⟩
  cases x <;> rfl

theorem deviceIo_bind {α β : Type} {m : Io α} {f : α → Io β} (hm : DeviceIo m) (hf : ∀ a, DeviceIo (f a)) :
    DeviceIo (m >>= f) := by
  intro s
  rw [io_run_bind]
  have h := hm s
  rcases hr : m.run.run s with ⟨x, s'⟩
  rw [hr] at h
  cases x with
  | ok a => exact h.trans (hf a s')
  | error e => exact h

/-- Reading the state and going on from it: the continuation may use that it starts in that very state. -/
theorem deviceIo_get_bind {β : Type} {f : State → Io β} (hf : ∀ s, DeviceStep s ((f s).run.run s).2) :
    DeviceIo (get >>= f) := by
  intro s
  rw [io_run_bind]
  exact hf s

theorem deviceIo_modify {f : State → State} (hf : ∀ s, DeviceStep s (f s)) : DeviceIo (modify f) := fun s => hf s

theorem deviceIo_ite {α : Type} {c : Prop} [Decidable c] {m n : Io α} (hm : DeviceIo m) (hn : DeviceIo n) :
    DeviceIo (if c then m else n) := by split <;> assumption

/-! ### Memory access and draws -/

theorem ioTarget_exists {s : State} {a p : Word} (h : ioTarget s a = some p) : memExists s.cfg p = true := by
  unfold ioTarget at h
  split at h
  · split at h
    · next hp => cases h; exact hp
    · cases h
  · cases h

theorem deviceStep_ioPutWords {s t : State} {a : Word} {vs : List Word} (h : ioPutWords s a vs = some t) : DeviceStep s t := by
  induction vs generalizing s a with
  | nil => cases h; exact .refl _
  | cons v vs ih =>
    unfold ioPutWords at h
    split at h
    · next p hp => exact (deviceStep_poke (ioTarget_exists hp) v).trans (ih h)
    · cases h

theorem deviceStep_ioKeepSome {kept full : State} (hc : full.cfg = kept.cfg) (a : Word) (vs : List Word) :
    DeviceStep kept (ioKeepSome kept full a vs) := by
  induction vs generalizing kept full a with
  | nil => exact .refl _
  | cons v vs ih =>
    unfold ioKeepSome
    split
    · next p hp =>
      have he : memExists kept.cfg p = true := hc ▸ ioTarget_exists hp
      split
      · exact ((deviceStep_poke he v).trans (deviceStep_drawn _ _)).trans (ih (by simpa using hc) _)
      · exact (deviceStep_drawn _ _).trans (ih (by simpa using hc) _)
    · exact .refl _

theorem deviceStep_ioKeepSomeOfTwo (s : State) (a b : Word) (vs ws : List Word) : DeviceStep s (ioKeepSomeOfTwo s a b vs ws) := by
  have h := deviceStep_ioKeepSome (kept := s) (full := s) rfl a vs
  unfold ioKeepSomeOfTwo
  split
  · next full hf => exact h.trans (deviceStep_ioKeepSome ((deviceStep_ioPutWords hf).cfg.trans h.cfg.symm) b ws)
  · exact h

theorem deviceIo_read (err a : Word) : DeviceIo (ioRead err a) := by
  refine deviceIo_bind deviceIo_get fun s => ?_
  split
  · exact deviceIo_pure _
  · exact deviceIo_throw _

theorem deviceIo_readWords (err a : Word) (n : Nat) : DeviceIo (ioReadWords err a n) := by
  induction n generalizing a with
  | zero => exact deviceIo_pure _
  | succ n ih => exact deviceIo_bind (deviceIo_read _ _) fun w => deviceIo_bind (ih _) fun ws => deviceIo_pure _

theorem deviceIo_writeWords (err a : Word) (vs : List Word) : DeviceIo (ioWriteWords err a vs) := by
  refine deviceIo_get_bind fun s => ?_
  split
  · next t h => exact deviceStep_ioPutWords h
  · exact deviceStep_ioKeepSome rfl _ _

theorem deviceIo_writeTwo (failed : Bool) (a b : Word) (vs ws : List Word) : DeviceIo (ioWriteTwo failed a b vs ws) := by
  refine deviceIo_get_bind fun s => ?_
  split
  · next t h =>
    obtain ⟨u, hu, h⟩ := Option.bind_eq_some_iff.1 h
    split
    · exact deviceStep_ioKeepSomeOfTwo _ _ _ _ _
    · exact (deviceStep_ioPutWords hu).trans (deviceStep_ioPutWords h)
  · exact deviceStep_ioKeepSomeOfTwo _ _ _ _ _

theorem deviceIo_readString (a : Word) : DeviceIo (ioReadString a) := by
  refine deviceIo_bind deviceIo_get fun s => ?_
  split
  · exact deviceIo_pure _
  · exact deviceIo_throw _

theorem deviceIo_readBytes (a : Word) (n : Nat) : DeviceIo (ioReadBytes a n) := by
  refine deviceIo_bind deviceIo_get fun s => ?_
  split
  · exact deviceIo_pure _
  · exact deviceIo_throw _

theorem deviceIo_drawWord : DeviceIo drawWord := fun s => deviceStep_drawn s 1

theorem deviceIo_drawBit : DeviceIo drawBit := deviceIo_bind deviceIo_drawWord fun _ => deviceIo_pure _

theorem deviceIo_drawUpTo (n : Nat) : DeviceIo (drawUpTo n) := deviceIo_bind deviceIo_drawWord fun _ => deviceIo_pure _

theorem deviceIo_drawNonNegative : DeviceIo drawNonNegative :=
  deviceIo_bind deviceIo_drawWord fun _ => deviceIo_pure _

theorem deviceIo_drawWords (n : Nat) : DeviceIo (drawWords n) := by
  induction n with
  | zero => exact deviceIo_pure _
  | succ n ih => exact deviceIo_bind deviceIo_drawWord fun w => deviceIo_bind ih fun ws => deviceIo_pure _

theorem deviceIo_drawBlock : DeviceIo drawBlock := deviceIo_bind (deviceIo_drawWords _) fun _ => deviceIo_pure _

theorem deviceIo_count (n : Nat) : DeviceIo (ioCount n) := deviceIo_ite (deviceIo_pure _) deviceIo_drawNonNegative

theorem deviceIo_drawBytes : DeviceIo drawBytes := fun s => deviceStep_drawn s 1

theorem deviceIo_mayFail (err : Word) : DeviceIo (mayFail err) := by
  refine deviceIo_bind deviceIo_drawBit fun b => ?_
  split
  · exact deviceIo_throw _
  · exact deviceIo_pure _

theorem deviceIo_unit (n : Nat) (u : Word) : DeviceIo (ioUnit n u) := by
  unfold ioUnit
  split
  · exact deviceIo_pure _
  · exact deviceIo_throw _

theorem deviceIo_present {α : Type} (err : Word) (x : Option α) : DeviceIo (ioPresent err x) := by
  cases x with
  | some x => exact deviceIo_pure _
  | none => exact deviceIo_throw _

theorem deviceIo_param (c k : Word) : DeviceIo (param c k) := deviceIo_read _ _

theorem deviceIo_blockNumber (d : Disc) (b : Word) : DeviceIo (d.blockNumber b) := by
  unfold Disc.blockNumber
  split
  · exact deviceIo_pure _
  · exact deviceIo_throw _

/-- Writing a block: it reads as the words written, and every other block as before. -/
theorem Disc.find_withBlock (d : Disc) (n m : Nat) (ws : Vector Word 128) :
    (d.withBlock n ws).blocks.find? (fun x => x.1 == m) = if m = n then some (n, ws) else d.blocks.find? fun x => x.1 == m := by
  unfold Disc.withBlock
  by_cases h : m = n
  · simp [h]
  · have : ((n == m) = false) := by simp [Ne.symm h]
    rw [List.find?_cons_of_neg (by simp [this]), List.find?_filter, if_neg h]
    congr 1
    funext x
    by_cases hx : x.1 = m <;> simp [hx, h]

@[simp] theorem Disc.withBlock_size (d : Disc) (n : Nat) (ws : Vector Word 128) : (d.withBlock n ws).size = d.size := rfl
@[simp] theorem Disc.withBlock_erased (d : Disc) (n : Nat) (ws : Vector Word 128) : (d.withBlock n ws).erased = d.erased := rfl

theorem deviceIo_blockWords (d : Disc) (n : Nat) : DeviceIo (d.blockWords n) := by
  unfold Disc.blockWords
  split
  · exact deviceIo_pure _
  · split
    · exact deviceIo_pure _
    · exact deviceIo_drawBlock

theorem deviceIo_tapeMode (w : Word) : DeviceIo (tapeMode w) := by
  unfold tapeMode
  split
  · exact deviceIo_pure _
  · split
    · exact deviceIo_pure _
    · exact deviceIo_throw _

theorem deviceIo_disturbed (t : Tape) : DeviceIo t.disturbed :=
  deviceIo_bind deviceIo_drawBytes fun _ => deviceIo_bind (deviceIo_drawUpTo _) fun _ => deviceIo_pure _

theorem deviceIo_printChars (cs : List Byte) : DeviceIo (printChars cs) := deviceIo_modify fun s => deviceStep_events s _

theorem deviceIo_readClock : DeviceIo readClock :=
  deviceIo_bind deviceIo_get fun _ => deviceIo_bind (deviceIo_drawUpTo _) fun _ =>
    deviceIo_bind (deviceIo_modify fun s => deviceStep_clock s _) fun _ => deviceIo_bind deviceIo_get fun _ =>
      deviceIo_pure _

/-! ### The operations -/

theorem deviceIo_discCheck (c : Word) : DeviceIo (discCheck c) := by
  unfold discCheck
  repeat (first
    | with_reducible refine deviceIo_bind ?_ fun _ => ?_
    | with_reducible exact deviceIo_pure _
    | with_reducible exact deviceIo_get
    | with_reducible exact deviceIo_param _ _
    | with_reducible exact deviceIo_unit _ _
    | with_reducible exact deviceIo_count _
    | split)

theorem deviceIo_discRead (c : Word) : DeviceIo (discRead c) := by
  unfold discRead
  repeat (first
    | with_reducible refine deviceIo_bind ?_ fun _ => ?_
    | with_reducible exact deviceIo_pure _
    | with_reducible exact deviceIo_get
    | with_reducible exact deviceIo_param _ _
    | with_reducible exact deviceIo_unit _ _
    | with_reducible exact deviceIo_present _ _
    | with_reducible exact deviceIo_writeWords _ _ _
    | with_reducible exact deviceIo_blockNumber _ _
    | with_reducible exact deviceIo_blockWords _ _
    | split)

theorem deviceIo_discWrite (c : Word) : DeviceIo (discWrite c) := by
  unfold discWrite
  repeat (first
    | with_reducible refine deviceIo_bind ?_ fun _ => ?_
    | with_reducible exact deviceIo_pure _
    | with_reducible exact deviceIo_throw _
    | with_reducible exact deviceIo_get
    | with_reducible exact deviceIo_param _ _
    | with_reducible exact deviceIo_unit _ _
    | with_reducible exact deviceIo_present _ _
    | with_reducible exact deviceIo_drawBit
    | with_reducible exact deviceIo_drawWord
    | with_reducible exact deviceIo_drawBlock
    | with_reducible exact deviceIo_readWords _ _ _
    | with_reducible exact deviceIo_blockNumber _ _
    | exact deviceIo_modify fun s => deviceStep_setDisc s _ _
    | split)

theorem deviceIo_discClear (c : Word) : DeviceIo (discClear c) := by
  unfold discClear
  repeat (first
    | with_reducible refine deviceIo_bind ?_ fun _ => ?_
    | with_reducible exact deviceIo_throw _
    | with_reducible exact deviceIo_get
    | with_reducible exact deviceIo_param _ _
    | with_reducible exact deviceIo_unit _ _
    | with_reducible exact deviceIo_present _ _
    | with_reducible exact deviceIo_drawBit
    | with_reducible exact deviceIo_drawNonNegative
    | exact deviceIo_modify fun s => deviceStep_setDisc s _ _
    | split)

theorem deviceIo_tapeCheck (c : Word) : DeviceIo (tapeCheck c) := by
  unfold tapeCheck
  repeat (first
    | with_reducible refine deviceIo_bind ?_ fun _ => ?_
    | with_reducible exact deviceIo_pure _
    | with_reducible exact deviceIo_get
    | with_reducible exact deviceIo_param _ _
    | with_reducible exact deviceIo_unit _ _
    | split)

theorem deviceIo_tapeRewind (c : Word) : DeviceIo (tapeRewind c) := by
  unfold tapeRewind
  repeat (first
    | with_reducible refine deviceIo_bind ?_ fun _ => ?_
    | with_reducible exact deviceIo_pure _
    | with_reducible exact deviceIo_get
    | with_reducible exact deviceIo_param _ _
    | with_reducible exact deviceIo_unit _ _
    | with_reducible exact deviceIo_present _ _
    | exact deviceIo_modify fun s => deviceStep_setTape s _ _
    | split)

theorem deviceIo_tapeLoad (c : Word) : DeviceIo (tapeLoad c) := by
  unfold tapeLoad
  repeat (first
    | with_reducible refine deviceIo_bind ?_ fun _ => ?_
    | with_reducible exact deviceIo_pure _
    | with_reducible exact deviceIo_get
    | with_reducible exact deviceIo_param _ _
    | with_reducible exact deviceIo_unit _ _
    | with_reducible exact deviceIo_drawBytes
    | with_reducible exact deviceIo_mayFail _
    | with_reducible exact deviceIo_readString _
    | with_reducible exact deviceIo_tapeMode _
    | exact deviceIo_modify fun s => deviceStep_setTape s _ _
    | split)

theorem deviceIo_tapeLength (c : Word) : DeviceIo (tapeLength c) := by
  unfold tapeLength
  repeat (first
    | with_reducible refine deviceIo_bind ?_ fun _ => ?_
    | with_reducible exact deviceIo_pure _
    | with_reducible exact deviceIo_get
    | with_reducible exact deviceIo_param _ _
    | with_reducible exact deviceIo_unit _ _
    | with_reducible exact deviceIo_present _ _
    | with_reducible exact deviceIo_mayFail _
    | with_reducible exact deviceIo_count _
    | split)

theorem deviceIo_tapeUnload (c : Word) : DeviceIo (tapeUnload c) := by
  unfold tapeUnload
  repeat (first
    | with_reducible refine deviceIo_bind ?_ fun _ => ?_
    | with_reducible exact deviceIo_pure _
    | with_reducible exact deviceIo_get
    | with_reducible exact deviceIo_param _ _
    | with_reducible exact deviceIo_unit _ _
    | with_reducible exact deviceIo_present _ _
    | exact deviceIo_modify fun s => deviceStep_setTape s _ _
    | split)

theorem deviceIo_tapeRead (c : Word) : DeviceIo (tapeRead c) := by
  unfold tapeRead
  repeat (first
    | with_reducible refine deviceIo_bind ?_ fun _ => ?_
    | with_reducible exact deviceIo_pure _
    | with_reducible exact deviceIo_get
    | with_reducible exact deviceIo_param _ _
    | with_reducible exact deviceIo_unit _ _
    | with_reducible exact deviceIo_present _ _
    | with_reducible exact deviceIo_drawWord
    | with_reducible exact deviceIo_drawUpTo _
    | with_reducible exact deviceIo_mayFail _
    | with_reducible exact deviceIo_writeWords _ _ _
    | exact deviceIo_modify fun s => deviceStep_setTape s _ _
    | split)

theorem deviceIo_tapeWrite (c : Word) : DeviceIo (tapeWrite c) := by
  unfold tapeWrite
  repeat (first
    | with_reducible refine deviceIo_bind ?_ fun _ => ?_
    | with_reducible exact deviceIo_pure _
    | with_reducible exact deviceIo_throw _
    | with_reducible exact deviceIo_get
    | with_reducible exact deviceIo_param _ _
    | with_reducible exact deviceIo_unit _ _
    | with_reducible exact deviceIo_present _ _
    | with_reducible exact deviceIo_drawBit
    | with_reducible exact deviceIo_drawWord
    | with_reducible exact deviceIo_mayFail _
    | with_reducible exact deviceIo_readBytes _ _
    | with_reducible exact deviceIo_disturbed _
    | exact deviceIo_modify fun s => deviceStep_setTape s _ _
    | split
    | dsimp only)

theorem deviceIo_tapeLoadFile (c : Word) : DeviceIo (tapeLoadFile c) := by
  unfold tapeLoadFile
  repeat (first
    | with_reducible refine deviceIo_bind ?_ fun _ => ?_
    | with_reducible exact deviceIo_pure _
    | with_reducible exact deviceIo_param _ _
    | with_reducible exact deviceIo_drawWord
    | with_reducible exact deviceIo_drawBytes
    | with_reducible exact deviceIo_mayFail _
    | with_reducible exact deviceIo_readString _
    | with_reducible exact deviceIo_writeWords _ _ _
    | with_reducible exact deviceIo_count _
    | split)

theorem deviceIo_termIn (c : Word) : DeviceIo (termIn c) := by
  unfold termIn
  repeat (first
    | with_reducible refine deviceIo_bind ?_ fun _ => ?_
    | with_reducible exact deviceIo_pure _
    | with_reducible exact deviceIo_get
    | with_reducible exact deviceIo_param _ _
    | with_reducible exact deviceIo_drawUpTo _
    | with_reducible exact deviceIo_writeWords _ _ _
    | exact deviceIo_modify fun s => deviceStep_keyboard s _
    | split)

theorem deviceIo_termOut (c : Word) : DeviceIo (termOut c) := by
  unfold termOut
  repeat (first
    | with_reducible refine deviceIo_bind ?_ fun _ => ?_
    | with_reducible exact deviceIo_pure _
    | with_reducible exact deviceIo_throw _
    | with_reducible exact deviceIo_get
    | with_reducible exact deviceIo_param _ _
    | with_reducible exact deviceIo_drawWord
    | with_reducible exact deviceIo_drawBytes
    | with_reducible exact deviceIo_drawUpTo _
    | with_reducible exact deviceIo_printChars _
    | with_reducible exact deviceIo_count _
    | split)

theorem deviceIo_netSS (c : Word) : DeviceIo (netSS c) := by
  unfold netSS
  repeat (first
    | with_reducible refine deviceIo_bind ?_ fun _ => ?_
    | with_reducible exact deviceIo_pure _
    | with_reducible exact deviceIo_throw _
    | with_reducible exact deviceIo_get
    | with_reducible exact deviceIo_param _ _
    | with_reducible exact deviceIo_unit _ _
    | with_reducible exact deviceIo_drawBit
    | with_reducible exact deviceIo_drawWord
    | with_reducible exact deviceIo_drawNonNegative
    | with_reducible exact deviceIo_readWords _ _ _
    | with_reducible exact deviceIo_writeWords _ _ _
    | exact deviceIo_modify fun s => deviceStep_setNet s _ _
    | split)

theorem deviceIo_netSend (c : Word) : DeviceIo (netSend c) := by
  unfold netSend
  repeat (first
    | with_reducible refine deviceIo_bind ?_ fun _ => ?_
    | with_reducible exact deviceIo_pure _
    | with_reducible exact deviceIo_throw _
    | with_reducible exact deviceIo_get
    | with_reducible exact deviceIo_param _ _
    | with_reducible exact deviceIo_unit _ _
    | with_reducible exact deviceIo_present _ _
    | with_reducible exact deviceIo_drawNonNegative
    | with_reducible exact deviceIo_mayFail _
    | with_reducible exact deviceIo_read _ _
    | with_reducible exact deviceIo_readBytes _ _
    | exact deviceIo_modify fun s => deviceStep_emit s _
    | with_reducible exact deviceIo_drawBit
    | split)

theorem deviceIo_netRecv (c : Word) : DeviceIo (netRecv c) := by
  unfold netRecv
  repeat (first
    | with_reducible refine deviceIo_bind ?_ fun _ => ?_
    | with_reducible exact deviceIo_pure _
    | with_reducible exact deviceIo_throw _
    | with_reducible exact deviceIo_get
    | with_reducible exact deviceIo_param _ _
    | with_reducible exact deviceIo_unit _ _
    | with_reducible exact deviceIo_present _ _
    | with_reducible exact deviceIo_drawBit
    | with_reducible exact deviceIo_drawWord
    | with_reducible exact deviceIo_drawNonNegative
    | with_reducible exact deviceIo_mayFail _
    | with_reducible exact deviceIo_readWords _ _ _
    | with_reducible exact deviceIo_writeTwo _ _ _ _ _
    | exact deviceIo_modify fun s => deviceStep_setNet s _ _
    | split)

theorem deviceIo_seconds : DeviceIo seconds := deviceIo_readClock

theorem deviceIo_useconds (c : Word) : DeviceIo (useconds c) := by
  unfold useconds
  repeat (first
    | with_reducible refine deviceIo_bind ?_ fun _ => ?_
    | with_reducible exact deviceIo_param _ _
    | with_reducible exact deviceIo_drawNonNegative
    | with_reducible exact deviceIo_drawUpTo _
    | with_reducible exact deviceIo_writeWords _ _ _
    | with_reducible exact deviceIo_readClock
    | split)

theorem deviceIo_dateTime (c : Word) : DeviceIo (dateTime c) := by
  unfold dateTime
  repeat (first
    | with_reducible refine deviceIo_bind ?_ fun _ => ?_
    | with_reducible exact deviceIo_param _ _
    | with_reducible exact deviceIo_drawWord
    | with_reducible exact deviceIo_drawNonNegative
    | with_reducible exact deviceIo_drawWords _
    | with_reducible exact deviceIo_writeWords _ _ _
    | split)

theorem deviceIo_floatFormat (c : Word) : DeviceIo (floatFormat c) := by
  unfold floatFormat
  repeat (first
    | with_reducible refine deviceIo_bind ?_ fun _ => ?_
    | with_reducible exact deviceIo_param _ _
    | with_reducible exact deviceIo_drawWord
    | with_reducible exact deviceIo_drawBytes
    | with_reducible exact deviceIo_drawNonNegative
    | with_reducible exact deviceIo_readString _
    | with_reducible exact deviceIo_writeWords _ _ _
    | split)

/-- Every one of the 21 operations, at every control structure. -/
theorem deviceIo_operation (c : Word) (op : PeriOp) : DeviceIo (periOperation c op) := by
  cases op with
  | discCheck => exact deviceIo_discCheck c
  | discRead => exact deviceIo_discRead c
  | discWrite => exact deviceIo_discWrite c
  | discClear => exact deviceIo_discClear c
  | tapeCheck => exact deviceIo_tapeCheck c
  | tapeRewind => exact deviceIo_tapeRewind c
  | tapeLoad => exact deviceIo_tapeLoad c
  | tapeLength => exact deviceIo_tapeLength c
  | tapeUnload => exact deviceIo_tapeUnload c
  | tapeRead => exact deviceIo_tapeRead c
  | tapeWrite => exact deviceIo_tapeWrite c
  | tapeLoadFile => exact deviceIo_tapeLoadFile c
  | termIn => exact deviceIo_termIn c
  | termOut => exact deviceIo_termOut c
  | netSS => exact deviceIo_netSS c
  | netSend => exact deviceIo_netSend c
  | netRecv => exact deviceIo_netRecv c
  | seconds => exact deviceIo_seconds
  | useconds => exact deviceIo_useconds c
  | dateTime => exact deviceIo_dateTime c
  | floatFormat => exact deviceIo_floatFormat c

/-- All that PERI's operation can do, whatever stands at the control structure. -/
theorem deviceStep_periRun (c : Word) (s : State) : DeviceStep s (periRun c s).2 := by
  unfold periRun
  split
  · exact .refl _
  · split
    · exact .refl _
    · next op _ =>
      refine DeviceStep.trans ?_ (deviceStep_emit _ _)
      have h := deviceIo_operation c op s
      unfold ioRun
      rcases hr : (periOperation c op).run.run s with ⟨x, s'⟩
      rw [hr] at h
      cases x <;> exact h

theorem ordinary_periRun (c : Word) (s : State) : Ordinary s (periRun c s).2 := (deviceStep_periRun c s).ordinary

/-! ### What the operations answer -/

theorem io_run_get {α : Type} (f : State → Io α) (s : State) : (get >>= f).run.run s = (f s).run.run s := rfl

/-- With VM = 0 the device side reaches the address itself, where it exists (R391). -/
theorem ioTarget_direct (s : State) (hv : s.flags.vm = false) (a : Word) :
    ioTarget s a = if memExists s.cfg a then some a else none := by
  simp [ioTarget, translate_off hv]

/-- With VM = 0 a word is read where it exists, and nothing changes; where it does not, the operation ends with its error (R391). -/
theorem ioRead_direct_run (s : State) (hv : s.flags.vm = false) (err a : Word) :
    (ioRead err a).run.run s = if memExists s.cfg a = true then (.ok (s.mem.readWord a), s) else (.error err, s) := by
  unfold ioRead
  rw [io_run_get, ioTarget_direct s hv]
  by_cases h : memExists s.cfg a = true
  · rw [if_pos h, if_pos h]; rfl
  · rw [if_neg h, if_neg h]; rfl

/-- With VM = 0 a word of the control structure that exists is read, and nothing changes (R392). -/
theorem param_direct_run (s : State) (hv : s.flags.vm = false) (c k : Word) (h : memExists s.cfg (c + k) = true) :
    (param c k).run.run s = (.ok (s.mem.readWord (c + k)), s) := by
  rw [param, ioRead_direct_run s hv, if_pos h]

/-- With VM = 0 two words, as those of an address, are read where both exist (R391, R416). -/
theorem ioReadWords_two_direct_run (s : State) (hv : s.flags.vm = false) (err d : Word) :
    (ioReadWords err d 2).run.run s =
      if memExists s.cfg d = true ∧ memExists s.cfg (d + 1) = true then (.ok [s.mem.readWord d, s.mem.readWord (d + 1)], s)
      else (.error err, s) := by
  unfold ioReadWords
  rw [io_run_bind, ioRead_direct_run s hv]
  by_cases h : memExists s.cfg d = true
  · simp only [h, if_true, true_and]
    unfold ioReadWords
    rw [io_run_bind, io_run_bind, ioRead_direct_run s hv]
    by_cases h' : memExists s.cfg (d + 1) = true
    · simp only [h', if_true]; rfl
    · rw [if_neg h', if_neg h']
  · simp [h]

/-- With VM = 0 a buffer that exists takes its words, each at its place, and no other word changes (R391). -/
theorem ioPutWords_direct (vs : List Word) (s : State) (a : Word) (hv : s.flags.vm = false) (hl : vs.length ≤ 2 ^ 32)
    (h : ∀ k < vs.length, memExists s.cfg (a + BitVec.ofNat 32 k) = true) :
    ∃ t, ioPutWords s a vs = some t ∧ t = { s with mem := t.mem } ∧
      (∀ k (hk : k < vs.length), t.mem.readWord (a + BitVec.ofNat 32 k) = vs[k]) ∧
      ∀ x, (∀ k < vs.length, x ≠ a + BitVec.ofNat 32 k) → t.mem.readWord x = s.mem.readWord x := by
  induction vs generalizing s a with
  | nil => exact ⟨s, rfl, rfl, by simp, by simp⟩
  | cons v vs ih =>
    have h0 : memExists s.cfg a = true := by simpa using h 0 (by simp)
    have e : ∀ k, a + 1 + BitVec.ofNat 32 k = a + BitVec.ofNat 32 (k + 1) := fun k => by
      apply BitVec.eq_of_toNat_eq; simp; omega
    obtain ⟨t, h1, h2, h3, h4⟩ := ih (s.poke a v) (a + 1) hv (by simp at hl; omega)
      fun k hk => by rw [e]; exact h (k + 1) (by simpa using hk)
    refine ⟨t, by rw [ioPutWords, ioTarget_direct s hv, h0]; exact h1, by rw [h2]; rfl, ?_, ?_⟩
    · intro k hk
      cases k with
      | zero =>
        simp only [BitVec.add_zero, List.getElem_cons_zero]
        have := h4 a (fun k hk c => by
          rw [e] at c
          have := congrArg BitVec.toNat c
          simp at this; simp at hl; omega)
        simp only [BitVec.ofNat_eq_ofNat] at *
        rw [this, State.poke_mem, Memory.readWord_writeWord, if_pos rfl]
      | succ k => rw [← e]; exact h3 k (by simpa using hk)
    · intro x hx
      rw [h4 x (fun k hk => by rw [e]; exact hx (k + 1) (by simpa using hk)), State.poke_mem, Memory.readWord_writeWord,
        if_neg (by simpa using hx 0 (by simp))]

/-- Drawing free words changes the count of draws only. -/
theorem drawWords_run (n : Nat) (s : State) : ∃ ws d, (drawWords n).run.run s = (.ok ws, { s with draws := d }) := by
  induction n generalizing s with
  | zero => exact ⟨[], s.draws, rfl⟩
  | succ n ih =>
    obtain ⟨ws, d, h⟩ := ih s.drawn
    refine ⟨s.free :: ws, d, ?_⟩
    have e : (drawWord).run.run s = (.ok s.free, s.drawn) := rfl
    rw [drawWords, io_run_bind, e]; simp only; rw [io_run_bind, h]; rfl

end Sys2Proof.Machine
end

