-- ==== Sys2Proof/Laws/Instructions.lean ====
section
/-! SUPPORT. Every instruction but SETFL, SETSR, FLAGSJ and IRET is `Ordinary`: one lemma each; what CLRPP leaves when it stops part-way. -/

namespace Sys2Proof.Machine

theorem ordinary_execHalt  {s t : State} (h : execHalt s = .next t) : Ordinary s t := by
  unfold execHalt at h
  exact ordinary_haltOp h

theorem ordinary_execLoad (main : Reg) (o : Operand) {s t : State} (h : execLoad main o s = .next t) : Ordinary s t := by
  unfold execLoad at h
  exact ordinary_regOp h

theorem ordinary_execLoadh (main : Reg) (o : Operand) {s t : State} (h : execLoadh main o s = .next t) : Ordinary s t := by
  unfold execLoadh at h
  exact ordinary_regOp h

theorem ordinary_execStore (m : Reg) (o : Operand) {s t : State} (h : execStore m o s = .next t) : Ordinary s t := by
  unfold execStore at h
  exact ordinary_conclude h fun u hu => ordinary_writeDest hu

theorem ordinary_execInc (o : Operand) {s t : State} (h : execInc o s = .next t) : Ordinary s t := by
  unfold execInc at h; split at h; cases h; exact ordinary_updateOp h

theorem ordinary_execDec (o : Operand) {s t : State} (h : execDec o s = .next t) : Ordinary s t := by
  unfold execDec at h; split at h; cases h; exact ordinary_updateOp h

theorem ordinary_execAdd (main : Reg) (o : Operand) {s t : State} (h : execAdd main o s = .next t) : Ordinary s t := by
  unfold execAdd at h
  exact ordinary_regOp h

theorem ordinary_execSub (main : Reg) (o : Operand) {s t : State} (h : execSub main o s = .next t) : Ordinary s t := by
  unfold execSub at h
  exact ordinary_regOp h

theorem ordinary_execMul (main : Reg) (o : Operand) {s t : State} (h : execMul main o s = .next t) : Ordinary s t := by
  unfold execMul at h
  exact ordinary_regOp h

theorem ordinary_execDiv (main : Reg) (o : Operand) {s t : State} (h : execDiv main o s = .next t) : Ordinary s t := by
  unfold execDiv at h
  exact ordinary_divideOp h

theorem ordinary_execMod (main : Reg) (o : Operand) {s t : State} (h : execMod main o s = .next t) : Ordinary s t := by
  unfold execMod at h
  exact ordinary_divideOp h

theorem ordinary_execRsub (main : Reg) (o : Operand) {s t : State} (h : execRsub main o s = .next t) : Ordinary s t := by
  unfold execRsub at h
  exact ordinary_regOp h

theorem ordinary_execRdiv (main : Reg) (o : Operand) {s t : State} (h : execRdiv main o s = .next t) : Ordinary s t := by
  unfold execRdiv at h
  exact ordinary_divideOp h

theorem ordinary_execRmod (main : Reg) (o : Operand) {s t : State} (h : execRmod main o s = .next t) : Ordinary s t := by
  unfold execRmod at h
  exact ordinary_divideOp h

theorem ordinary_execAnd (main : Reg) (o : Operand) {s t : State} (h : execAnd main o s = .next t) : Ordinary s t := by
  unfold execAnd at h
  exact ordinary_regOp h

theorem ordinary_execOr (main : Reg) (o : Operand) {s t : State} (h : execOr main o s = .next t) : Ordinary s t := by
  unfold execOr at h
  exact ordinary_regOp h

theorem ordinary_execXor (main : Reg) (o : Operand) {s t : State} (h : execXor main o s = .next t) : Ordinary s t := by
  unfold execXor at h
  exact ordinary_regOp h

theorem ordinary_execNot (main : Reg) (o : Operand) {s t : State} (h : execNot main o s = .next t) : Ordinary s t := by
  unfold execNot at h
  exact ordinary_regOp h

theorem ordinary_execShl (main : Reg) (o : Operand) {s t : State} (h : execShl main o s = .next t) : Ordinary s t := by
  unfold execShl at h
  exact ordinary_shiftOp h

theorem ordinary_execShr (main : Reg) (o : Operand) {s t : State} (h : execShr main o s = .next t) : Ordinary s t := by
  unfold execShr at h
  exact ordinary_shiftOp h

theorem ordinary_execComp (m : Reg) (o : Operand) {s t : State} (h : execComp m o s = .next t) : Ordinary s t := by
  unfold execComp at h
  refine ordinary_conclude h fun u hu => ?_
  obtain ⟨v, -, hu⟩ := Res.bind_ok.1 hu; cases hu; exact (ordinary_setZ _ _).trans (ordinary_setN _ _)

theorem ordinary_execCompz (o : Operand) {s t : State} (h : execCompz o s = .next t) : Ordinary s t := by
  unfold execCompz at h
  refine ordinary_conclude h fun u hu => ?_
  obtain ⟨v, -, hu⟩ := Res.bind_ok.1 hu; cases hu; exact (ordinary_setZ _ _).trans (ordinary_setN _ _)

theorem ordinary_execTbit (m : Reg) (o : Operand) {s t : State} (h : execTbit m o s = .next t) : Ordinary s t := by
  unfold execTbit at h
  refine ordinary_conclude h fun u hu => ?_
  obtain ⟨v, -, hu⟩ := Res.bind_ok.1 hu
  split at hu <;> cases hu
  · exact ordinary_setZ _ _
  · exact (ordinary_setZ _ _).trans (ordinary_drawn _ _)

theorem ordinary_execSbit (main : Reg) (o : Operand) {s t : State} (h : execSbit main o s = .next t) : Ordinary s t := by
  unfold execSbit at h
  exact ordinary_regOpOpen h

theorem ordinary_execCbit (main : Reg) (o : Operand) {s t : State} (h : execCbit main o s = .next t) : Ordinary s t := by
  unfold execCbit at h
  exact ordinary_regOpOpen h

theorem ordinary_execJump (o : Operand) {s t : State} (h : execJump o s = .next t) : Ordinary s t := by
  unfold execJump at h
  exact ordinary_jumpIf h

theorem ordinary_execJzer (main : Reg) (o : Operand) {s t : State} (h : execJzer main o s = .next t) : Ordinary s t := by
  unfold execJzer at h
  exact ordinary_jumpIf h

theorem ordinary_execJpos (main : Reg) (o : Operand) {s t : State} (h : execJpos main o s = .next t) : Ordinary s t := by
  unfold execJpos at h
  exact ordinary_jumpIf h

theorem ordinary_execJneg (main : Reg) (o : Operand) {s t : State} (h : execJneg main o s = .next t) : Ordinary s t := by
  unfold execJneg at h
  exact ordinary_jumpIf h

theorem ordinary_execJcond (c : Fin 16) (o : Operand) {s t : State} (h : execJcond c o s = .next t) : Ordinary s t := by
  unfold execJcond at h
  split at h
  · exact ordinary_jumpIf h
  · cases h

theorem ordinary_execGetfl (m : Reg) (o : Operand) {s t : State} (h : execGetfl m o s = .next t) : Ordinary s t := by
  unfold execGetfl at h
  refine ordinary_conclude h fun u hu => ?_
  obtain ⟨v, -, hu⟩ := Res.bind_ok.1 hu
  split at hu <;> cases hu
  · exact ordinary_writeReg _ _ _
  · exact (ordinary_writeReg _ _ _).trans (ordinary_drawn _ _)

theorem ordinary_execGetsr (m : Reg) (o : Operand) {s t : State} (h : execGetsr m o s = .next t) : Ordinary s t := by
  unfold execGetsr at h
  refine ordinary_conclude h fun u hu => ?_
  obtain ⟨v, -, hu⟩ := Res.bind_ok.1 hu
  cases hu; exact ordinary_put _ _ _

theorem ordinary_execPush (o : Operand) {s t : State} (h : execPush o s = .next t) : Ordinary s t := by
  unfold execPush at h
  refine ordinary_conclude h fun u hu => ?_
  obtain ⟨v, -, hu⟩ := Res.bind_ok.1 hu
  obtain ⟨w, hw, hu⟩ := Res.bind_ok.1 hu
  cases hu; exact (ordinary_pushWords hw).trans (ordinary_writeSp _ _)

theorem ordinary_execPop (o : Operand) {s t : State} (h : execPop o s = .next t) : Ordinary s t := by
  unfold execPop at h
  refine ordinary_conclude h fun u hu => ?_
  obtain ⟨_, -, hu⟩ := Res.bind_ok.1 hu
  obtain ⟨v, -, hu⟩ := Res.bind_ok.1 hu
  obtain ⟨w, hw, hu⟩ := Res.bind_ok.1 hu
  split at hu <;> cases hu
  · exact (ordinary_writeSp _ _).trans (ordinary_drawn _ _)
  · exact (ordinary_writeDest hw).trans (ordinary_writeSp _ _)

theorem ordinary_execCall (o : Operand) {s t : State} (h : execCall o s = .next t) : Ordinary s t := by
  unfold execCall at h
  refine ordinary_conclude h fun u hu => ?_
  obtain ⟨v, -, hu⟩ := Res.bind_ok.1 hu
  obtain ⟨w, hw, hu⟩ := Res.bind_ok.1 hu
  cases hu; exact ((ordinary_pushWords hw).trans (ordinary_writeSp _ _)).trans (ordinary_pc _ _)

theorem ordinary_execRet  {s t : State} (h : execRet s = .next t) : Ordinary s t := by
  unfold execRet at h
  refine ordinary_conclude h fun u hu => ?_
  obtain ⟨v, -, hu⟩ := Res.bind_ok.1 hu
  cases hu; exact (ordinary_writeSp _ _).trans (ordinary_pc _ _)

theorem ordinary_execLdch (m : Reg) (o : Operand) {s t : State} (h : execLdch m o s = .next t) : Ordinary s t := by
  unfold execLdch at h
  refine ordinary_conclude h fun u hu => ?_
  obtain ⟨v, -, hu⟩ := Res.bind_ok.1 hu
  obtain ⟨_, -, hu⟩ := Res.bind_ok.1 hu
  obtain ⟨_, -, hu⟩ := Res.bind_ok.1 hu
  cases hu; exact ordinary_writeReg _ _ _

theorem ordinary_execStch (m : Reg) (o : Operand) {s t : State} (h : execStch m o s = .next t) : Ordinary s t := by
  unfold execStch at h
  refine ordinary_conclude h fun u hu => ?_
  obtain ⟨v, -, hu⟩ := Res.bind_ok.1 hu
  obtain ⟨_, -, hu⟩ := Res.bind_ok.1 hu
  obtain ⟨_, -, hu⟩ := Res.bind_ok.1 hu
  exact ordinary_memWrite hu

theorem ordinary_execPeri (m : Reg) (o : Operand) {s t : State} (h : execPeri m o s = .next t) : Ordinary s t := by
  unfold execPeri at h
  refine ordinary_conclude h fun u hu => ?_
  obtain ⟨-, hu⟩ := privileged_ok hu
  obtain ⟨c, -, hu⟩ := Res.bind_ok.1 hu
  split at hu
  · exact absurd hu (refuse_ne_ok _ _)
  · cases hu
    exact ((ordinary_periRun c s).trans (ordinary_writeReg _ _ _)).trans (ordinary_setErr _ _)

theorem ordinary_execPause (o : Operand) {s t : State} (h : execPause o s = .next t) : Ordinary s t := by
  unfold execPause at h
  refine ordinary_conclude h fun u hu => ?_
  obtain ⟨v, -, hu⟩ := Res.bind_ok.1 hu
  cases hu; exact .refl _

theorem ordinary_execBreakpoint  {s t : State} (h : execBreakpoint s = .next t) : Ordinary s t := by
  unfold execBreakpoint at h
  cases h; exact (ordinary_emit _ _).trans (ordinary_enterDebugger _)

theorem ordinary_execSyscall (m : Reg) (o : Operand) {s t : State} (h : execSyscall m o s = .next t) : Ordinary s t := by
  unfold execSyscall at h
  refine ordinary_conclude h fun u hu => ?_
  obtain ⟨c, -, hu⟩ := Res.bind_ok.1 hu
  split at hu
  · cases hu
  · obtain ⟨p, -, hu⟩ := Res.bind_ok.1 hu
    obtain ⟨w, hw, hu⟩ := Res.bind_ok.1 hu
    cases hu
    obtain ⟨e, hs⟩ := pushWords_ok hw
    generalize w.mem = m at e hs
    rw [e]
    apply Ordinary.of_entry <;> first | exact hs | rfl

theorem ordinary_execAtas (m : Reg) (o : Operand) {s t : State} (h : execAtas m o s = .next t) : Ordinary s t := by
  unfold execAtas at h
  refine ordinary_conclude h fun u hu => ?_
  obtain ⟨_, -, hu⟩ := Res.bind_ok.1 hu
  obtain ⟨v, -, hu⟩ := Res.bind_ok.1 hu
  split at hu
  · obtain ⟨w, hw, hu⟩ := Res.bind_ok.1 hu
    cases hu; exact (ordinary_memWrite hw).trans (ordinary_writeReg _ _ _)
  · cases hu; exact (ordinary_writeReg _ _ _).trans (ordinary_writeReg _ _ _)

theorem ordinary_execPhload (m : Reg) (o : Operand) {s t : State} (h : execPhload m o s = .next t) : Ordinary s t := by
  unfold execPhload at h
  refine ordinary_conclude h fun u hu => ?_
  obtain ⟨-, hu⟩ := privileged_ok hu
  obtain ⟨v, -, hu⟩ := Res.bind_ok.1 hu
  obtain ⟨w, -, hu⟩ := Res.bind_ok.1 hu
  cases hu; exact ordinary_writeReg _ _ _

theorem ordinary_execPhstore (m : Reg) (o : Operand) {s t : State} (h : execPhstore m o s = .next t) : Ordinary s t := by
  unfold execPhstore at h
  refine ordinary_conclude h fun u hu => ?_
  obtain ⟨-, hu⟩ := privileged_ok hu
  obtain ⟨v, -, hu⟩ := Res.bind_ok.1 hu
  exact ordinary_physWrite hu

theorem ordinary_execVtran (m : Reg) (o : Operand) {s t : State} (h : execVtran m o s = .next t) : Ordinary s t := by
  unfold execVtran at h
  refine ordinary_conclude h fun u hu => ?_
  obtain ⟨v, -, hu⟩ := Res.bind_ok.1 hu
  split at hu
  · cases hu; exact ordinary_writeReg _ _ _
  · exact absurd hu (refuse_ne_ok _ _)
  · cases hu

theorem ordinary_execMove (m : Reg) (o : Operand) {s t : State} (h : execMove m o s = .next t) : Ordinary s t := by
  unfold execMove at h
  split at h
  · exact ordinary_conclude h fun u hu => absurd hu (raise_ne_ok _ _ _)
  · split at h
    · cases h
    · exact ordinary_concludeLoop (ordinary_moveLoop _ _ _ _) h

theorem ordinary_execSign (main : Reg) (o : Operand) {s t : State} (h : execSign main o s = .next t) : Ordinary s t := by
  unfold execSign at h
  exact ordinary_regOp h

theorem ordinary_execFadd (main : Reg) (o : Operand) {s t : State} (h : execFadd main o s = .next t) : Ordinary s t := by
  unfold execFadd at h
  exact ordinary_regOpOpen h

theorem ordinary_execFsub (main : Reg) (o : Operand) {s t : State} (h : execFsub main o s = .next t) : Ordinary s t := by
  unfold execFsub at h
  exact ordinary_regOpOpen h

theorem ordinary_execFmul (main : Reg) (o : Operand) {s t : State} (h : execFmul main o s = .next t) : Ordinary s t := by
  unfold execFmul at h
  exact ordinary_regOpOpen h

theorem ordinary_execFdiv (m : Reg) (o : Operand) {s t : State} (h : execFdiv m o s = .next t) : Ordinary s t := by
  unfold execFdiv at h
  refine ordinary_conclude h fun u hu => ?_
  obtain ⟨v, -, hu⟩ := Res.bind_ok.1 hu
  dsimp only at hu
  split at hu
  · split at hu
    · exact absurd hu (raise_ne_ok _ _ _)
    · cases hu; exact ordinary_writeReg _ _ _
  · cases hu; exact ordinary_put _ _ _

theorem ordinary_execFcomp (m : Reg) (o : Operand) {s t : State} (h : execFcomp m o s = .next t) : Ordinary s t := by
  unfold execFcomp at h
  refine ordinary_conclude h fun u hu => ?_
  obtain ⟨v, -, hu⟩ := Res.bind_ok.1 hu
  cases hu; exact ordinary_setFloatCompare _ _ _

theorem ordinary_execFcompz (o : Operand) {s t : State} (h : execFcompz o s = .next t) : Ordinary s t := by
  unfold execFcompz at h
  refine ordinary_conclude h fun u hu => ?_
  obtain ⟨v, -, hu⟩ := Res.bind_ok.1 hu
  cases hu; exact ordinary_setFloatCompare _ _ _

theorem ordinary_execFix (main : Reg) (o : Operand) {s t : State} (h : execFix main o s = .next t) : Ordinary s t := by
  unfold execFix at h
  exact ordinary_regOpOpen h

theorem ordinary_execFrnd (main : Reg) (o : Operand) {s t : State} (h : execFrnd main o s = .next t) : Ordinary s t := by
  unfold execFrnd at h
  refine ordinary_conclude h fun u hu => ?_
  obtain ⟨v, -, hu⟩ := Res.bind_ok.1 hu
  split at hu
  · split at hu
    · cases hu; exact (ordinary_writeReg _ _ _).trans (ordinary_drawn _ _)
    · cases hu; exact ordinary_writeReg _ _ _
  · cases hu; exact ordinary_put _ _ _

theorem ordinary_execFloat (main : Reg) (o : Operand) {s t : State} (h : execFloat main o s = .next t) : Ordinary s t := by
  unfold execFloat at h
  exact ordinary_regOpOpen h

theorem ordinary_execFlog (m : Reg) (o : Operand) {s t : State} (h : execFlog m o s = .next t) : Ordinary s t := by
  unfold execFlog at h
  refine ordinary_conclude h fun u hu => ?_
  obtain ⟨v, -, hu⟩ := Res.bind_ok.1 hu
  dsimp only at hu
  split at hu
  · exact absurd hu (raise_ne_ok _ _ _)
  · cases hu; exact ordinary_put _ _ _

theorem ordinary_execFexp (main : Reg) (o : Operand) {s t : State} (h : execFexp main o s = .next t) : Ordinary s t := by
  unfold execFexp at h
  exact ordinary_regOpOpen h

theorem ordinary_execFsqrt (m : Reg) (o : Operand) {s t : State} (h : execFsqrt m o s = .next t) : Ordinary s t := by
  unfold execFsqrt at h
  refine ordinary_conclude h fun u hu => ?_
  obtain ⟨v, -, hu⟩ := Res.bind_ok.1 hu
  split at hu
  · exact absurd hu (raise_ne_ok _ _ _)
  · cases hu; exact ordinary_put _ _ _

theorem ordinary_execFsin (main : Reg) (o : Operand) {s t : State} (h : execFsin main o s = .next t) : Ordinary s t := by
  unfold execFsin at h
  exact ordinary_regOpOpen h

theorem ordinary_execFcos (main : Reg) (o : Operand) {s t : State} (h : execFcos main o s = .next t) : Ordinary s t := by
  unfold execFcos at h
  exact ordinary_regOpOpen h

theorem ordinary_execFatan (main : Reg) (o : Operand) {s t : State} (h : execFatan main o s = .next t) : Ordinary s t := by
  unfold execFatan at h
  exact ordinary_regOpOpen h

theorem ordinary_execFabs (main : Reg) (o : Operand) {s t : State} (h : execFabs main o s = .next t) : Ordinary s t := by
  unfold execFabs at h
  exact ordinary_regOpOpen h

theorem ordinary_execFloor (main : Reg) (o : Operand) {s t : State} (h : execFloor main o s = .next t) : Ordinary s t := by
  unfold execFloor at h
  exact ordinary_regOpOpen h

theorem ordinary_execFsign (main : Reg) (o : Operand) {s t : State} (h : execFsign main o s = .next t) : Ordinary s t := by
  unfold execFsign at h
  exact ordinary_regOpOpen h

theorem ordinary_execFfo (main : Reg) (o : Operand) {s t : State} (h : execFfo main o s = .next t) : Ordinary s t := by
  unfold execFfo at h
  exact ordinary_findBitOp h

theorem ordinary_execFlz (main : Reg) (o : Operand) {s t : State} (h : execFlz main o s = .next t) : Ordinary s t := by
  unfold execFlz at h
  exact ordinary_findBitOp h

theorem ordinary_execRand (m : Reg) {s t : State} (h : execRand m s = .next t) : Ordinary s t := by
  unfold execRand at h
  cases h; exact (ordinary_writeReg _ _ _).trans (ordinary_drawn _ _)

theorem ordinary_execTrace (m : Reg) (o : Operand) {s t : State} (h : execTrace m o s = .next t) : Ordinary s t := by
  unfold execTrace at h
  refine ordinary_conclude h fun u hu => ?_
  obtain ⟨v, -, hu⟩ := Res.bind_ok.1 hu
  cases hu; exact ordinary_emit _ _

theorem ordinary_execType (o : Operand) {s t : State} (h : execType o s = .next t) : Ordinary s t := by
  unfold execType at h
  refine ordinary_conclude h fun u hu => ?_
  obtain ⟨v, -, hu⟩ := Res.bind_ok.1 hu
  cases hu; exact ordinary_emit _ _

theorem ordinary_execInch (o : Operand) {s t : State} (h : execInch o s = .next t) : Ordinary s t := by
  unfold execInch at h
  refine ordinary_conclude h fun u hu => ?_
  obtain ⟨_, -, hu⟩ := Res.bind_ok.1 hu
  split at hu
  · exact ordinary_writeDest hu
  · obtain ⟨w, hw, hu⟩ := Res.bind_ok.1 hu
    cases hu; exact (ordinary_writeDest hw).trans (ordinary_keyboard _ _)

theorem ordinary_execAndn (main : Reg) (o : Operand) {s t : State} (h : execAndn main o s = .next t) : Ordinary s t := by
  unfold execAndn at h
  exact ordinary_regOp h

theorem ordinary_execOrn (main : Reg) (o : Operand) {s t : State} (h : execOrn main o s = .next t) : Ordinary s t := by
  unfold execOrn at h
  exact ordinary_regOp h

theorem ordinary_execNeg (main : Reg) (o : Operand) {s t : State} (h : execNeg main o s = .next t) : Ordinary s t := by
  unfold execNeg at h
  exact ordinary_regOp h

theorem ordinary_execFneg (main : Reg) (o : Operand) {s t : State} (h : execFneg main o s = .next t) : Ordinary s t := by
  unfold execFneg at h
  exact ordinary_regOpOpen h

theorem ordinary_execRotl (main : Reg) (o : Operand) {s t : State} (h : execRotl main o s = .next t) : Ordinary s t := by
  unfold execRotl at h
  exact ordinary_regOpOpen h

theorem ordinary_execRotr (main : Reg) (o : Operand) {s t : State} (h : execRotr main o s = .next t) : Ordinary s t := by
  unfold execRotr at h
  exact ordinary_regOpOpen h

theorem ordinary_execAsr (main : Reg) (o : Operand) {s t : State} (h : execAsr main o s = .next t) : Ordinary s t := by
  unfold execAsr at h
  exact ordinary_shiftOp h

theorem ordinary_execExbr (m : Reg) (o : Operand) {s t : State} (h : execExbr m o s = .next t) : Ordinary s t := by
  unfold execExbr at h
  refine ordinary_conclude h fun u hu => ?_
  obtain ⟨v, -, hu⟩ := Res.bind_ok.1 hu
  cases hu; exact ordinary_put _ _ _

theorem ordinary_execExbrv (m : Reg) (o : Operand) {s t : State} (h : execExbrv m o s = .next t) : Ordinary s t := by
  unfold execExbrv at h
  refine ordinary_conclude h fun u hu => ?_
  obtain ⟨v, -, hu⟩ := Res.bind_ok.1 hu
  obtain ⟨w, -, hu⟩ := Res.bind_ok.1 hu
  cases hu; exact ordinary_put _ _ _

theorem ordinary_execDpbr (m : Reg) (o : Operand) {s t : State} (h : execDpbr m o s = .next t) : Ordinary s t := by
  unfold execDpbr at h
  refine ordinary_conclude h fun u hu => ?_
  obtain ⟨_, -, hu⟩ := Res.bind_ok.1 hu
  obtain ⟨v, -, hu⟩ := Res.bind_ok.1 hu
  exact ordinary_writeDestOpen hu

theorem ordinary_execDpbrv (m : Reg) (o : Operand) {s t : State} (h : execDpbrv m o s = .next t) : Ordinary s t := by
  unfold execDpbrv at h
  refine ordinary_conclude h fun u hu => ?_
  obtain ⟨v, -, hu⟩ := Res.bind_ok.1 hu
  obtain ⟨w, -, hu⟩ := Res.bind_ok.1 hu
  split at hu
  · exact ordinary_memWrite hu
  · obtain ⟨x, hx, hu⟩ := Res.bind_ok.1 hu
    cases hu; exact (ordinary_memWrite hx).trans (ordinary_drawn _ _)

theorem ordinary_execAdjs (main : Reg) (o : Operand) {s t : State} (h : execAdjs main o s = .next t) : Ordinary s t := by
  unfold execAdjs at h
  exact ordinary_regOpOpen h

theorem ordinary_execUexbr (m : Reg) (o : Operand) {s t : State} (h : execUexbr m o s = .next t) : Ordinary s t := by
  unfold execUexbr at h
  refine ordinary_conclude h fun u hu => ?_
  obtain ⟨v, -, hu⟩ := Res.bind_ok.1 hu
  cases hu; exact ordinary_put _ _ _

theorem ordinary_execUexbrv (m : Reg) (o : Operand) {s t : State} (h : execUexbrv m o s = .next t) : Ordinary s t := by
  unfold execUexbrv at h
  refine ordinary_conclude h fun u hu => ?_
  obtain ⟨v, -, hu⟩ := Res.bind_ok.1 hu
  obtain ⟨w, -, hu⟩ := Res.bind_ok.1 hu
  cases hu; exact ordinary_put _ _ _

theorem ordinary_execUcomp (m : Reg) (o : Operand) {s t : State} (h : execUcomp m o s = .next t) : Ordinary s t := by
  unfold execUcomp at h
  refine ordinary_conclude h fun u hu => ?_
  obtain ⟨v, -, hu⟩ := Res.bind_ok.1 hu; cases hu; exact (ordinary_setZ _ _).trans (ordinary_setN _ _)

theorem ordinary_execUmul (main : Reg) (o : Operand) {s t : State} (h : execUmul main o s = .next t) : Ordinary s t := by
  unfold execUmul at h
  exact ordinary_regOp h

theorem ordinary_execUdiv (main : Reg) (o : Operand) {s t : State} (h : execUdiv main o s = .next t) : Ordinary s t := by
  unfold execUdiv at h
  exact ordinary_divideOp h

theorem ordinary_execUmod (main : Reg) (o : Operand) {s t : State} (h : execUmod main o s = .next t) : Ordinary s t := by
  unfold execUmod at h
  exact ordinary_divideOp h

theorem ordinary_execClrpp (o : Operand) {s t : State} (h : execClrpp o s = .next t) : Ordinary s t := by
  unfold execClrpp at h
  split at h
  · exact ordinary_conclude h fun u hu => absurd hu (raise_ne_ok _ _ _)
  · split at h
    · exact ordinary_conclude h fun u hu => nomatch hu
    · split at h
      · exact ordinary_conclude h fun u hu => absurd hu (raise_ne_ok _ _ _)
      · next v _ _ =>
        have hc := ordinary_clearWords s (v &&& 0xFFFFF800#32) 2048
        dsimp only at h
        split at h
        · exact (ordinary_clearSomeWords _ _ _ _ le_rfl).trans (ordinary_stopOutcome h)
        · split at h
          · next hh => rw [hh] at hc; cases h; exact hc
          · next hh => rw [hh] at hc; exact hc.trans (ordinary_stopOutcome h)

theorem ordinary_execZero (m : Reg) (o : Operand) {s t : State} (h : execZero m o s = .next t) : Ordinary s t := by
  unfold execZero at h
  split at h
  · exact ordinary_conclude h fun u hu => absurd hu (raise_ne_ok _ _ _)
  · split at h
    · cases h
    · exact ordinary_concludeLoop (ordinary_zeroLoop _ _ _ _) h

theorem ordinary_execLbitf (m : Reg) (o : Operand) {s t : State} (h : execLbitf m o s = .next t) : Ordinary s t := by
  unfold execLbitf at h
  refine ordinary_conclude h fun u hu => ?_
  obtain ⟨v, -, hu⟩ := Res.bind_ok.1 hu
  obtain ⟨_, -, hu⟩ := Res.bind_ok.1 hu
  obtain ⟨_, -, hu⟩ := Res.bind_ok.1 hu
  cases hu; exact ordinary_writeReg _ _ _

theorem ordinary_execLbito (main : Reg) (o : Operand) {s t : State} (h : execLbito main o s = .next t) : Ordinary s t := by
  unfold execLbito at h
  exact ordinary_regOpOpen h

theorem ordinary_execSbitf (m : Reg) (o : Operand) {s t : State} (h : execSbitf m o s = .next t) : Ordinary s t := by
  unfold execSbitf at h
  refine ordinary_conclude h fun u hu => ?_
  obtain ⟨v, -, hu⟩ := Res.bind_ok.1 hu
  obtain ⟨_, -, hu⟩ := Res.bind_ok.1 hu
  obtain ⟨_, -, hu⟩ := Res.bind_ok.1 hu
  exact ordinary_memWrite hu

theorem ordinary_execSbito (m : Reg) (o : Operand) {s t : State} (h : execSbito m o s = .next t) : Ordinary s t := by
  unfold execSbito at h
  refine ordinary_conclude h fun u hu => ?_
  obtain ⟨_, -, hu⟩ := Res.bind_ok.1 hu
  obtain ⟨v, -, hu⟩ := Res.bind_ok.1 hu
  exact ordinary_writeDestOpen hu

theorem ordinary_execPmemr (m : Reg) (o : Operand) {s t : State} (h : execPmemr m o s = .next t) : Ordinary s t := by
  unfold execPmemr at h
  split at h
  · cases h
  · refine ordinary_conclude h fun u hu => ?_
    obtain ⟨_, -, hu⟩ := Res.bind_ok.1 hu
    dsimp only at hu
    split at hu
    · obtain ⟨x, hx, hu⟩ := Res.bind_ok.1 hu
      cases hu; exact (ordinary_storeWords hx).trans (ordinary_writeReg _ _ _)
    · obtain ⟨x, hx, hu⟩ := Res.bind_ok.1 hu
      cases hu
      exact (((ordinary_storeWords hx).trans (ordinary_writeReg _ _ _)).trans (ordinary_drawn _ _)).trans (ordinary_drawn _ _)

theorem ordinary_execFfnz (m : Reg) (o : Operand) {s t : State} (h : execFfnz m o s = .next t) : Ordinary s t := by
  unfold execFfnz at h
  split at h
  · exact ordinary_conclude h fun u hu => nomatch hu
  · dsimp only at h
    split at h
    · cases h
    · exact ordinary_concludeLoop (ordinary_findNonZeroLoop _ _ _) h

theorem ordinary_execNop  {s t : State} (h : execNop s = .next t) : Ordinary s t := by
  unfold execNop at h
  cases h; exact .refl _

theorem ordinary_execSext (main : Reg) (o : Operand) {s t : State} (h : execSext main o s = .next t) : Ordinary s t := by
  unfold execSext at h
  exact ordinary_regOpOpen h

theorem ordinary_execIntr (m : Reg) (o : Operand) {s t : State} (h : execIntr m o s = .next t) : Ordinary s t := by
  unfold execIntr at h
  split at h
  · exact ordinary_conclude h fun u hu => nomatch hu
  · split at h
    · cases h
    · split at h
      · next hd => cases h; exact ordinary_deliver hd
      · cases h; exact .refl _
      · cases h; exact .refl _
      · cases h

theorem ordinary_execMpush (o : Operand) {s t : State} (h : execMpush o s = .next t) : Ordinary s t := by
  unfold execMpush at h
  refine ordinary_conclude h fun u hu => ?_
  obtain ⟨v, -, hu⟩ := Res.bind_ok.1 hu
  split at hu
  · exact absurd hu (refuse_ne_ok _ _)
  · obtain ⟨x, hx, hu⟩ := Res.bind_ok.1 hu
    cases hu; exact (ordinary_pushWords hx).trans (ordinary_writeSp _ _)

theorem ordinary_execMpop (o : Operand) {s t : State} (h : execMpop o s = .next t) : Ordinary s t := by
  unfold execMpop at h
  refine ordinary_conclude h fun u hu => ?_
  obtain ⟨v, -, hu⟩ := Res.bind_ok.1 hu
  split at hu
  · exact absurd hu (refuse_ne_ok _ _)
  · obtain ⟨x, hx, hu⟩ := Res.bind_ok.1 hu
    cases hu; exact (ordinary_writeRegs _ _).trans (ordinary_writeSp _ _)

theorem ordinary_execFgood (o : Operand) {s t : State} (h : execFgood o s = .next t) : Ordinary s t := by
  unfold execFgood at h
  refine ordinary_conclude h fun u hu => ?_
  obtain ⟨v, -, hu⟩ := Res.bind_ok.1 hu
  cases hu; exact ordinary_setZ _ _

theorem ordinary_execNalt  {s t : State} (h : execNalt s = .next t) : Ordinary s t := by
  unfold execNalt at h
  exact ordinary_haltOp h

/-! ### CLRPP that stops part-way (R256, U29) -/

theorem next_add (p : Word) (k : Nat) : p + 1 + BitVec.ofNat 32 k = p + BitVec.ofNat 32 (k + 1) := by
  rw [BitVec.ofNat_add, BitVec.add_assoc, BitVec.add_comm 1]; rfl

/-- Zeroing a page up to word k, which cannot be zeroed: the words before it are zero, no other word changes, and what word k raised
comes back. -/
theorem clearWords_stopped {s : State} {p : Word} {n k : Nat} {e : Stop} (hk : k < n) (hn : n < 2 ^ 32)
    (h : ∀ j < k, memExists s.cfg (p + BitVec.ofNat 32 j) = true ∧ watchHit s (p + BitVec.ofNat 32 j) = false)
    (he : ∀ m : Memory, physWrite { s with mem := m } (p + BitVec.ofNat 32 k) 0 = .error e) :
    ∃ t, clearWords s p n = (t, some e) ∧ t = { s with mem := t.mem } ∧
      (∀ j < k, t.mem.readWord (p + BitVec.ofNat 32 j) = 0) ∧
      ∀ a, (∀ j < k, a ≠ p + BitVec.ofNat 32 j) → t.mem.readWord a = s.mem.readWord a := by
  induction n generalizing s p k with
  | zero => omega
  | succ n ih =>
    cases k with
    | zero =>
      have := he s.mem
      simp only [BitVec.ofNat_eq_ofNat, BitVec.add_zero] at this
      refine ⟨s, ?_, rfl, fun j hj => absurd hj (by omega), fun _ _ => rfl⟩
      unfold clearWords
      rw [show physWrite s p 0 = .error e from this]
    | succ k =>
      have h0 := h 0 (by omega)
      simp only [BitVec.add_zero] at h0
      have w : physWrite s p 0 = .ok (s.poke p 0) := by simp [physWrite, existing, watched, h0.1, h0.2]
      obtain ⟨t, h1, h2, h3, h4⟩ := ih (s := s.poke p 0) (p := p + 1) (k := k) (by omega) (by omega)
        (fun j hj => by rw [next_add]; exact h (j + 1) (by omega)) (fun m => by rw [next_add]; exact he m)
      refine ⟨t, ?_, ?_, fun j hj => ?_, fun a ha => ?_⟩
      · unfold clearWords; rw [w]; exact h1
      · rw [h2]; rfl
      · cases j with
        | zero =>
          have e0 : p + BitVec.ofNat 32 0 = p := by simp
          rw [e0, h4 p fun j hj e => ?_]
          · simp [State.poke, Memory.readWord_writeWord]
          · rw [next_add] at e
            have e' := congrArg BitVec.toNat e
            have := p.isLt
            simp only [BitVec.toNat_add, BitVec.toNat_ofNat] at e'
            omega
        | succ j => rw [← next_add]; exact h3 j (by omega)
      · rw [h4 a fun j hj => by rw [next_add]; exact ha (j + 1) (by omega)]
        have : a ≠ p := by simpa using ha 0 (by omega)
        simp [State.poke, Memory.readWord_writeWord, this]

/-- How many words exist, when word k is the first that does not. -/
theorem existingRun_eq {c : Config} {p : Word} {n k : Nat} (hk : k < n) (h : ∀ j < k, memExists c (p + BitVec.ofNat 32 j) = true)
    (he : memExists c (p + BitVec.ofNat 32 k) = false) : existingRun c p n = k := by
  induction n generalizing p k with
  | zero => omega
  | succ n ih =>
    cases k with
    | zero => simp at he; simp [existingRun, he]
    | succ k =>
      have h0 := h 0 (by omega)
      simp only [BitVec.add_zero] at h0
      rw [existingRun, if_pos h0, ih (k := k) (by omega) (fun j hj => by rw [next_add]; exact h (j+1) (by omega)) (by rw [next_add]; exact he)]

/-- How many words exist, when all do. -/
theorem existingRun_all {c : Config} {p : Word} {n : Nat} (h : ∀ j < n, memExists c (p + BitVec.ofNat 32 j) = true) :
    existingRun c p n = n := by
  induction n generalizing p with
  | zero => rfl
  | succ n ih =>
    have h0 := h 0 (by omega)
    simp only [BitVec.add_zero] at h0
    rw [existingRun, if_pos h0, ih fun j hj => by rw [next_add]; exact h (j + 1) (by omega)]

/-- The words of a page only partly there: each zeroed or not, no other word changed, one value drawn for each. -/
theorem clearSomeWords_spec (s : State) (p : Word) (n : Nat) :
    clearSomeWords s p n = { s with mem := (clearSomeWords s p n).mem, draws := s.draws + n } ∧
    (∀ a, (clearSomeWords s p n).mem.readWord a = 0 ∨ (clearSomeWords s p n).mem.readWord a = s.mem.readWord a) ∧
    (∀ a, (∀ j < n, a ≠ p + BitVec.ofNat 32 j) → (clearSomeWords s p n).mem.readWord a = s.mem.readWord a) := by
  induction n generalizing s p with
  | zero => exact ⟨rfl, fun _ => .inr rfl, fun _ _ => rfl⟩
  | succ n ih =>
    simp only [clearSomeWords]
    have one : ∀ a, (if s.freeBit then (s.poke p 0).drawn else s.drawn).mem.readWord a = s.mem.readWord a ∨
        a = p ∧ (if s.freeBit then (s.poke p 0).drawn else s.drawn).mem.readWord a = 0 := fun a => by
      split
      · by_cases e : a = p
        · right; simp [State.poke, Memory.readWord_writeWord, e]
        · left; simp [State.poke, Memory.readWord_writeWord, e]
      · left; rfl
    have fields : (if s.freeBit then (s.poke p 0).drawn else s.drawn) =
        { s with mem := (if s.freeBit then (s.poke p 0).drawn else s.drawn).mem, draws := s.draws + 1 } := by split <;> rfl
    generalize (if s.freeBit then (s.poke p 0).drawn else s.drawn) = u at one fields ⊢
    obtain ⟨h1, h2, h3⟩ := ih u (p + 1)
    refine ⟨?_, fun a => ?_, fun a ha => ?_⟩
    · rw [h1, fields]
      simp only [Nat.add_assoc, Nat.add_comm 1]
    · rcases h2 a with h | h
      · exact .inl h
      · rcases one a with g | ⟨-, g⟩
        · exact .inr (h.trans g)
        · exact .inl (h.trans g)
    · rw [h3 a fun j hj => by rw [next_add]; exact ha (j + 1) (by omega)]
      exact (one a).resolve_right fun g => ha 0 (by omega) (by simpa using g.1)

end Sys2Proof.Machine
end

