-- ==== Sys2Proof/Laws/PerInstr.lean ====
section
/-! SUPPORT. Statements about every instruction as syntax, one lemma per constructor. -/

namespace Sys2Proof.Laws.EncodeDecode

/-- The word of an instruction decodes to that instruction, whatever its operands. -/
def Statement (i : Instr) : Prop := decode (encode i) = .ok i

theorem halt : Statement .halt := decode_assemble (op := 0) (by decide) _ _
theorem load (main : Reg) (o : Operand) : Statement (.load main o) := decode_assemble (op := 1) (by decide) _ _
theorem loadh (main : Reg) (o : Operand) : Statement (.loadh main o) := decode_assemble (op := 2) (by decide) _ _
theorem store (main : Reg) (o : Operand) : Statement (.store main o) := decode_assemble (op := 3) (by decide) _ _
theorem inc (o : Operand) : Statement (.inc o) := decode_assemble (op := 4) (by decide) _ _
theorem dec (o : Operand) : Statement (.dec o) := decode_assemble (op := 5) (by decide) _ _
theorem add (main : Reg) (o : Operand) : Statement (.add main o) := decode_assemble (op := 6) (by decide) _ _
theorem sub (main : Reg) (o : Operand) : Statement (.sub main o) := decode_assemble (op := 7) (by decide) _ _
theorem mul (main : Reg) (o : Operand) : Statement (.mul main o) := decode_assemble (op := 8) (by decide) _ _
theorem div (main : Reg) (o : Operand) : Statement (.div main o) := decode_assemble (op := 9) (by decide) _ _
theorem mod (main : Reg) (o : Operand) : Statement (.mod main o) := decode_assemble (op := 10) (by decide) _ _
theorem rsub (main : Reg) (o : Operand) : Statement (.rsub main o) := decode_assemble (op := 11) (by decide) _ _
theorem rdiv (main : Reg) (o : Operand) : Statement (.rdiv main o) := decode_assemble (op := 12) (by decide) _ _
theorem rmod (main : Reg) (o : Operand) : Statement (.rmod main o) := decode_assemble (op := 13) (by decide) _ _
theorem and (main : Reg) (o : Operand) : Statement (.and main o) := decode_assemble (op := 14) (by decide) _ _
theorem or (main : Reg) (o : Operand) : Statement (.or main o) := decode_assemble (op := 15) (by decide) _ _
theorem xor (main : Reg) (o : Operand) : Statement (.xor main o) := decode_assemble (op := 16) (by decide) _ _
theorem not (main : Reg) (o : Operand) : Statement (.not main o) := decode_assemble (op := 17) (by decide) _ _
theorem shl (main : Reg) (o : Operand) : Statement (.shl main o) := decode_assemble (op := 18) (by decide) _ _
theorem shr (main : Reg) (o : Operand) : Statement (.shr main o) := decode_assemble (op := 19) (by decide) _ _
theorem comp (main : Reg) (o : Operand) : Statement (.comp main o) := decode_assemble (op := 20) (by decide) _ _
theorem compz (o : Operand) : Statement (.compz o) := decode_assemble (op := 21) (by decide) _ _
theorem tbit (main : Reg) (o : Operand) : Statement (.tbit main o) := decode_assemble (op := 22) (by decide) _ _
theorem sbit (main : Reg) (o : Operand) : Statement (.sbit main o) := decode_assemble (op := 23) (by decide) _ _
theorem cbit (main : Reg) (o : Operand) : Statement (.cbit main o) := decode_assemble (op := 24) (by decide) _ _
theorem jump (o : Operand) : Statement (.jump o) := decode_assemble (op := 25) (by decide) _ _
theorem jzer (main : Reg) (o : Operand) : Statement (.jzer main o) := decode_assemble (op := 26) (by decide) _ _
theorem jpos (main : Reg) (o : Operand) : Statement (.jpos main o) := decode_assemble (op := 27) (by decide) _ _
theorem jneg (main : Reg) (o : Operand) : Statement (.jneg main o) := decode_assemble (op := 28) (by decide) _ _
theorem jcond (cond : Fin 16) (o : Operand) : Statement (.jcond cond o) := decode_assemble (op := 29) (by decide) _ _
theorem getfl (main : Reg) (o : Operand) : Statement (.getfl main o) := decode_assemble (op := 30) (by decide) _ _
theorem setfl (main : Reg) (o : Operand) : Statement (.setfl main o) := decode_assemble (op := 31) (by decide) _ _
theorem getsr (main : Reg) (o : Operand) : Statement (.getsr main o) := decode_assemble (op := 32) (by decide) _ _
theorem setsr (main : Reg) (o : Operand) : Statement (.setsr main o) := decode_assemble (op := 33) (by decide) _ _
theorem push (o : Operand) : Statement (.push o) := decode_assemble (op := 34) (by decide) _ _
theorem pop (o : Operand) : Statement (.pop o) := decode_assemble (op := 35) (by decide) _ _
theorem call (o : Operand) : Statement (.call o) := decode_assemble (op := 36) (by decide) _ _
theorem ret : Statement .ret := decode_assemble (op := 37) (by decide) _ _
theorem ldch (main : Reg) (o : Operand) : Statement (.ldch main o) := decode_assemble (op := 38) (by decide) _ _
theorem stch (main : Reg) (o : Operand) : Statement (.stch main o) := decode_assemble (op := 39) (by decide) _ _
theorem peri (main : Reg) (o : Operand) : Statement (.peri main o) := decode_assemble (op := 40) (by decide) _ _
theorem flagsj (main : Reg) (o : Operand) : Statement (.flagsj main o) := decode_assemble (op := 41) (by decide) _ _
theorem pause (o : Operand) : Statement (.pause o) := decode_assemble (op := 42) (by decide) _ _
theorem breakpoint : Statement .breakpoint := decode_assemble (op := 43) (by decide) _ _
theorem iret : Statement .iret := decode_assemble (op := 44) (by decide) _ _
theorem syscall (main : Reg) (o : Operand) : Statement (.syscall main o) := decode_assemble (op := 45) (by decide) _ _
theorem atas (main : Reg) (o : Operand) : Statement (.atas main o) := decode_assemble (op := 46) (by decide) _ _
theorem phload (main : Reg) (o : Operand) : Statement (.phload main o) := decode_assemble (op := 47) (by decide) _ _
theorem phstore (main : Reg) (o : Operand) : Statement (.phstore main o) := decode_assemble (op := 48) (by decide) _ _
theorem vtran (main : Reg) (o : Operand) : Statement (.vtran main o) := decode_assemble (op := 49) (by decide) _ _
theorem move (main : Reg) (o : Operand) : Statement (.move main o) := decode_assemble (op := 50) (by decide) _ _
theorem sign (main : Reg) (o : Operand) : Statement (.sign main o) := decode_assemble (op := 51) (by decide) _ _
theorem fadd (main : Reg) (o : Operand) : Statement (.fadd main o) := decode_assemble (op := 52) (by decide) _ _
theorem fsub (main : Reg) (o : Operand) : Statement (.fsub main o) := decode_assemble (op := 53) (by decide) _ _
theorem fmul (main : Reg) (o : Operand) : Statement (.fmul main o) := decode_assemble (op := 54) (by decide) _ _
theorem fdiv (main : Reg) (o : Operand) : Statement (.fdiv main o) := decode_assemble (op := 55) (by decide) _ _
theorem fcomp (main : Reg) (o : Operand) : Statement (.fcomp main o) := decode_assemble (op := 56) (by decide) _ _
theorem fcompz (o : Operand) : Statement (.fcompz o) := decode_assemble (op := 57) (by decide) _ _
theorem fix (main : Reg) (o : Operand) : Statement (.fix main o) := decode_assemble (op := 58) (by decide) _ _
theorem frnd (main : Reg) (o : Operand) : Statement (.frnd main o) := decode_assemble (op := 59) (by decide) _ _
theorem float (main : Reg) (o : Operand) : Statement (.float main o) := decode_assemble (op := 60) (by decide) _ _
theorem flog (main : Reg) (o : Operand) : Statement (.flog main o) := decode_assemble (op := 61) (by decide) _ _
theorem fexp (main : Reg) (o : Operand) : Statement (.fexp main o) := decode_assemble (op := 62) (by decide) _ _
theorem fsqrt (main : Reg) (o : Operand) : Statement (.fsqrt main o) := decode_assemble (op := 63) (by decide) _ _
theorem fsin (main : Reg) (o : Operand) : Statement (.fsin main o) := decode_assemble (op := 64) (by decide) _ _
theorem fcos (main : Reg) (o : Operand) : Statement (.fcos main o) := decode_assemble (op := 65) (by decide) _ _
theorem fatan (main : Reg) (o : Operand) : Statement (.fatan main o) := decode_assemble (op := 66) (by decide) _ _
theorem fabs (main : Reg) (o : Operand) : Statement (.fabs main o) := decode_assemble (op := 67) (by decide) _ _
theorem floor (main : Reg) (o : Operand) : Statement (.floor main o) := decode_assemble (op := 68) (by decide) _ _
theorem fsign (main : Reg) (o : Operand) : Statement (.fsign main o) := decode_assemble (op := 69) (by decide) _ _
theorem ffo (main : Reg) (o : Operand) : Statement (.ffo main o) := decode_assemble (op := 70) (by decide) _ _
theorem flz (main : Reg) (o : Operand) : Statement (.flz main o) := decode_assemble (op := 71) (by decide) _ _
theorem rand (main : Reg) : Statement (.rand main) := decode_assemble (op := 72) (by decide) _ _
theorem trace (main : Reg) (o : Operand) : Statement (.trace main o) := decode_assemble (op := 73) (by decide) _ _
theorem type (o : Operand) : Statement (.type o) := decode_assemble (op := 74) (by decide) _ _
theorem inch (o : Operand) : Statement (.inch o) := decode_assemble (op := 75) (by decide) _ _
theorem andn (main : Reg) (o : Operand) : Statement (.andn main o) := decode_assemble (op := 76) (by decide) _ _
theorem orn (main : Reg) (o : Operand) : Statement (.orn main o) := decode_assemble (op := 77) (by decide) _ _
theorem neg (main : Reg) (o : Operand) : Statement (.neg main o) := decode_assemble (op := 78) (by decide) _ _
theorem fneg (main : Reg) (o : Operand) : Statement (.fneg main o) := decode_assemble (op := 79) (by decide) _ _
theorem rotl (main : Reg) (o : Operand) : Statement (.rotl main o) := decode_assemble (op := 80) (by decide) _ _
theorem rotr (main : Reg) (o : Operand) : Statement (.rotr main o) := decode_assemble (op := 81) (by decide) _ _
theorem asr (main : Reg) (o : Operand) : Statement (.asr main o) := decode_assemble (op := 82) (by decide) _ _
theorem exbr (main : Reg) (o : Operand) : Statement (.exbr main o) := decode_assemble (op := 83) (by decide) _ _
theorem exbrv (main : Reg) (o : Operand) : Statement (.exbrv main o) := decode_assemble (op := 84) (by decide) _ _
theorem dpbr (main : Reg) (o : Operand) : Statement (.dpbr main o) := decode_assemble (op := 85) (by decide) _ _
theorem dpbrv (main : Reg) (o : Operand) : Statement (.dpbrv main o) := decode_assemble (op := 86) (by decide) _ _
theorem adjs (main : Reg) (o : Operand) : Statement (.adjs main o) := decode_assemble (op := 87) (by decide) _ _
theorem uexbr (main : Reg) (o : Operand) : Statement (.uexbr main o) := decode_assemble (op := 88) (by decide) _ _
theorem uexbrv (main : Reg) (o : Operand) : Statement (.uexbrv main o) := decode_assemble (op := 89) (by decide) _ _
theorem ucomp (main : Reg) (o : Operand) : Statement (.ucomp main o) := decode_assemble (op := 90) (by decide) _ _
theorem umul (main : Reg) (o : Operand) : Statement (.umul main o) := decode_assemble (op := 91) (by decide) _ _
theorem udiv (main : Reg) (o : Operand) : Statement (.udiv main o) := decode_assemble (op := 92) (by decide) _ _
theorem umod (main : Reg) (o : Operand) : Statement (.umod main o) := decode_assemble (op := 93) (by decide) _ _
theorem clrpp (o : Operand) : Statement (.clrpp o) := decode_assemble (op := 94) (by decide) _ _
theorem zero (main : Reg) (o : Operand) : Statement (.zero main o) := decode_assemble (op := 95) (by decide) _ _
theorem lbitf (main : Reg) (o : Operand) : Statement (.lbitf main o) := decode_assemble (op := 96) (by decide) _ _
theorem lbito (main : Reg) (o : Operand) : Statement (.lbito main o) := decode_assemble (op := 97) (by decide) _ _
theorem sbitf (main : Reg) (o : Operand) : Statement (.sbitf main o) := decode_assemble (op := 98) (by decide) _ _
theorem sbito (main : Reg) (o : Operand) : Statement (.sbito main o) := decode_assemble (op := 99) (by decide) _ _
theorem pmemr (main : Reg) (o : Operand) : Statement (.pmemr main o) := decode_assemble (op := 100) (by decide) _ _
theorem ffnz (main : Reg) (o : Operand) : Statement (.ffnz main o) := decode_assemble (op := 101) (by decide) _ _
theorem nop : Statement .nop := decode_assemble (op := 102) (by decide) _ _
theorem sext (main : Reg) (o : Operand) : Statement (.sext main o) := decode_assemble (op := 103) (by decide) _ _
theorem intr (main : Reg) (o : Operand) : Statement (.intr main o) := decode_assemble (op := 104) (by decide) _ _
theorem mpush (o : Operand) : Statement (.mpush o) := decode_assemble (op := 105) (by decide) _ _
theorem mpop (o : Operand) : Statement (.mpop o) := decode_assemble (op := 106) (by decide) _ _
theorem fgood (o : Operand) : Statement (.fgood o) := decode_assemble (op := 107) (by decide) _ _
theorem nalt : Statement .nalt := decode_assemble (op := 127) (by decide) _ _

end Sys2Proof.Laws.EncodeDecode
end

