-- ==== Sys2Proof/Laws/Stack.lean ====
section
/-! SUPPORT. Words pushed and read back, with VM = 0 and a stack that exists and is not watched; what is left of a frame that cannot be
finished; what the FLAGS word holds. -/

namespace Sys2Proof.Machine

/-! ### A store that nothing hinders -/

theorem storeTarget_plain {s : State} {a : Word} (hv : s.flags.vm = false) (he : memExists s.cfg a = true)
    (hw : watchHit s a = false) : storeTarget s a = .ok a :=
  storeTarget_ok.2 ⟨translate_off hv a, he, by unfold watchAddress; split <;> exact hw⟩

theorem watchHit_poke (s : State) (p v a : Word) : watchHit (s.poke p v) a = watchHit s a := rfl

theorem top_sub (top : Word) (k : Nat) : top - 1 - BitVec.ofNat 32 k = top - BitVec.ofNat 32 (k + 1) := by
  apply BitVec.eq_of_toNat_eq
  simp only [BitVec.toNat_sub, BitVec.toNat_ofNat, show (1 : Word).toNat = 1 from rfl]
  omega

theorem top_sub_ne (top : Word) {j k : Nat} (hj : j < 2 ^ 32) (hk : k < 2 ^ 32) (h : j ≠ k) :
    top - BitVec.ofNat 32 j ≠ top - BitVec.ofNat 32 k := by
  intro e
  have e' := congrArg BitVec.toNat e
  simp only [BitVec.toNat_sub, BitVec.toNat_ofNat] at e'
  have := top.isLt
  omega

/-- Pushing where nothing hinders it: the k-th word lies k + 1 below the top, and every other word is as before. -/
theorem pushWords_plain {s : State} {top : Word} {vs : List Word} (hv : s.flags.vm = false) (hl : vs.length < 2 ^ 32)
    (hs : ∀ k < vs.length, memExists s.cfg (top - BitVec.ofNat 32 (k + 1)) = true ∧
      watchHit s (top - BitVec.ofNat 32 (k + 1)) = false) :
    ∃ t, pushWords s top vs = .ok t ∧ t = { s with mem := t.mem } ∧
      (∀ k (h : k < vs.length), t.mem.readWord (top - BitVec.ofNat 32 (k + 1)) = vs[k]) ∧
      ∀ a, (∀ k < vs.length, a ≠ top - BitVec.ofNat 32 (k + 1)) → t.mem.readWord a = s.mem.readWord a := by
  induction vs generalizing s top with
  | nil => exact ⟨s, rfl, rfl, fun k h => absurd h (by simp), fun _ _ => rfl⟩
  | cons v vs ih =>
    have h0 := hs 0 (by simp)
    have ht : storeTarget s (top - 1) = .ok (top - 1) := storeTarget_plain hv h0.1 h0.2
    obtain ⟨t, h1, h2, h3, h4⟩ := ih (s := s.poke (top - 1) v) (top := top - 1) hv (by simp at hl; omega) (by
      intro k hk
      rw [top_sub top (_ + 1)]
      exact hs (k + 1) (by simp; omega))
    refine ⟨t, ?_, ?_, ?_, ?_⟩
    · simp only [pushWords, memWrite_of_target ht, Res.ok_bind, h1]
    · rw [h2]; rfl
    · intro k hk
      cases k with
      | zero =>
        have : t.mem.readWord (top - 1) = (s.poke (top - 1) v).mem.readWord (top - 1) := by
          refine h4 _ fun j hj => ?_
          rw [top_sub top (_ + 1)]
          exact top_sub_ne top (j := 1) (k := j + 2) (by decide) (by simp at hl; omega) (by omega)
        simpa [State.poke, Memory.readWord_writeWord] using this
      | succ k =>
        have := h3 k (by simpa using hk)
        rw [top_sub top (_ + 1)] at this
        simpa using this
    · intro a ha
      rw [h4 a fun k hk => ?_]
      · have : a ≠ top - 1 := ha 0 (by simp)
        simp only [State.poke_mem, Memory.readWord_writeWord]
        rw [if_neg this]
      · rw [top_sub top (_ + 1)]
        exact ha (k + 1) (by simp; omega)

/-! ### The frame -/

theorem frameWords_length (s : State) (i a c r : Word) : (frameWords s i a c r).length = 21 := by
  simp [frameWords]

/-- The k-th word of a frame, R0 first. -/
theorem frameWords_regs (s : State) (i a c r : Word) (k : Fin 13) :
    (frameWords s i a c r)[k.val]'(by rw [frameWords_length]; omega) = s.regs[k] := by
  simp only [frameWords]
  rw [List.getElem_append_left (by simp)]
  simp

theorem frameWords_tail (s : State) (i a c r : Word) (k : Nat) (h : k < 8) :
    (frameWords s i a c r)[13 + k]'(by rw [frameWords_length]; omega) =
      [s.readSp, s.readFp, i, a, c, s.flagsWord, 38, r][k] := by
  simp only [frameWords]
  rw [List.getElem_append_right (by simp)]
  simp

/-- A frame whose words' addresses are known and differ: the k-th word lies where the address k + 1 below the top says, and every other
word is as before. -/
theorem pokeAll_targets {s : State} {top : Word} {vs : List Word} {p : Nat → Word}
    (ht : ∀ k < vs.length, storeTarget s (top - BitVec.ofNat 32 (k + 1)) = .ok (p k))
    (hp : ∀ j < vs.length, ∀ k < vs.length, p j = p k → j = k) :
    ∃ ps, targetsBelow s top vs.length = (ps, none) ∧
      (∀ k (h : k < vs.length), (pokeAll s (ps.zip vs)).mem.readWord (p k) = vs[k]) ∧
      ∀ a, (∀ k < vs.length, a ≠ p k) → (pokeAll s (ps.zip vs)).mem.readWord a = s.mem.readWord a := by
  have hl : ((List.range vs.length).map p).length = vs.length := by simp
  have e := targetsBelow_of (s := s) (top := top) (ps := (List.range vs.length).map p) fun k hk => by
    rw [top_sub]
    simpa using ht k (by simpa using hk)
  rw [hl] at e
  refine ⟨_, e, fun k h => ?_, fun a ha => ?_⟩
  · have := pokeAll_readWord s (((List.range vs.length).map p).zip vs) ?_ k (by simpa using h)
    · simpa using this
    · rw [List.map_fst_zip (by simp)]
      exact List.Nodup.map_on (fun j hj k hk => hp j (by simpa using hj) k (by simpa using hk)) List.nodup_range
  · refine pokeAll_readWord_ne _ _ _ fun x hx => ?_
    obtain ⟨k, hk, e⟩ := List.mem_map.1 (List.of_mem_zip (a := x.1) (b := x.2) hx).1
    exact e ▸ ha k (by simpa using hk)

/-! ### A frame that cannot be finished -/

/-- All that is left of a frame whose pushing failed: each word is in memory or not, no other word changes, and as many values as there
are words were drawn. -/
theorem keepSomeWords_spec (s : State) (l : List (Word × Word)) :
    keepSomeWords s l = { s with mem := (keepSomeWords s l).mem, draws := s.draws + l.length } ∧
    (∀ a, (∀ x ∈ l, a ≠ x.1) → (keepSomeWords s l).mem.readWord a = s.mem.readWord a) ∧
    ((l.map (·.1)).Nodup → ∀ x ∈ l,
      (keepSomeWords s l).mem.readWord x.1 = s.mem.readWord x.1 ∨ (keepSomeWords s l).mem.readWord x.1 = x.2) := by
  induction l generalizing s with
  | nil => exact ⟨rfl, fun _ _ => rfl, fun _ x hx => absurd hx (by simp)⟩
  | cons y l ih =>
    obtain ⟨p, v⟩ := y
    simp only [keepSomeWords]
    have same : ∀ a, a ≠ p → (if s.freeBit then (s.poke p v).drawn else s.drawn).mem.readWord a = s.mem.readWord a := fun a h => by
      split
      · simp [State.poke, Memory.readWord_writeWord, h]
      · rfl
    have here : (if s.freeBit then (s.poke p v).drawn else s.drawn).mem.readWord p = s.mem.readWord p ∨
        (if s.freeBit then (s.poke p v).drawn else s.drawn).mem.readWord p = v := by
      split
      · right; simp [State.poke, Memory.readWord_writeWord]
      · left; rfl
    have fields : (if s.freeBit then (s.poke p v).drawn else s.drawn) =
        { s with mem := (if s.freeBit then (s.poke p v).drawn else s.drawn).mem, draws := s.draws + 1 } := by split <;> rfl
    generalize (if s.freeBit then (s.poke p v).drawn else s.drawn) = u at same here fields ⊢
    obtain ⟨h1, h2, h3⟩ := ih u
    refine ⟨?_, fun a ha => ?_, fun hn x hx => ?_⟩
    · rw [h1, fields]
      simp only [List.length_cons, Nat.add_assoc, Nat.add_comm 1]
    · rw [h2 a fun x hx => ha x (by simp [hx]), same a (ha (p, v) (by simp))]
    · simp only [List.map_cons, List.nodup_cons, List.mem_map, not_exists, not_and] at hn
      rcases List.mem_cons.1 hx with rfl | hx
      · rw [h2 _ fun y hy e => hn.1 y hy e.symm]
        exact here
      · rw [← same x.1 (fun e => hn.1 x hx e)]
        exact h3 hn.2 x hx

/-- Where the words below `top` go as far as they can be stored, when word k is the first that cannot. -/
theorem targetsBelow_error {s : State} {e : Stop} {p : Nat → Word} {top : Word} (n k : Nat) (hk : k < n)
    (h : ∀ j < k, storeTarget s (top - BitVec.ofNat 32 (j + 1)) = .ok (p j))
    (he : storeTarget s (top - BitVec.ofNat 32 (k + 1)) = .error e) :
    targetsBelow s top n = ((List.range k).map p, some e) := by
  induction n generalizing top k p with
  | zero => omega
  | succ n ih =>
    have h1 : BitVec.ofNat 32 (0 + 1) = (1 : Word) := rfl
    cases k with
    | zero => rw [h1] at he; unfold targetsBelow; rw [he]; rfl
    | succ k =>
      have h0 := h 0 (by omega)
      rw [h1] at h0
      have := ih (p := fun j => p (j + 1)) (top := top - 1) k (by omega) (fun j hj => by rw [top_sub]; exact h (j + 1) (by omega))
        (by rw [top_sub]; exact he)
      unfold targetsBelow
      rw [h0, List.range_succ_eq_map, List.map_cons, List.map_map]
      simp only [this]
      rfl

/-! ### The FLAGS word -/

theorem bitAt_getLsbD (b : Bool) {n i : Nat} (hn : n < 32) : (bitAt b n).getLsbD i = (b && decide (i = n)) := by
  unfold bitAt
  cases b with
  | false => simp
  | true =>
    simp only [if_true, Bool.true_and, BitVec.getLsbD_shiftLeft, BitVec.getLsbD_one]
    by_cases h : i = n
    · subst h; simp [hn]
    · simp only [h, decide_false]
      by_cases h2 : i < n
      · simp [h2]
      · simp [show i - n ≠ 0 by omega]

/-- What FLAGNUM's well-formedness says of two flags: different bits, all above IPL. -/
theorem flagNum_wf {k : FlagNumbers} (h : k.wf = true) :
    (5 ≤ k.r ∧ k.r < 32) ∧ (5 ≤ k.z ∧ k.z < 32) ∧ (5 ≤ k.n ∧ k.n < 32) ∧ (5 ≤ k.err ∧ k.err < 32) ∧ (5 ≤ k.sys ∧ k.sys < 32) ∧
    (5 ≤ k.em ∧ k.em < 32) ∧ (5 ≤ k.int ∧ k.int < 32) ∧ (5 ≤ k.vm ∧ k.vm < 32) ∧
    (Flag.all.map k.of).Nodup := by
  simp only [FlagNumbers.wf, Flag.all, List.map, FlagNumbers.of, List.all_cons, List.all_nil, Bool.and_eq_true, decide_eq_true_eq,
    Bool.and_true] at h
  simp only [Flag.all, List.map, FlagNumbers.of]
  obtain ⟨⟨-, h1, h2, h3, h4, h5, h6, h7, h8⟩, hd⟩ := h
  exact ⟨h1, h2, h3, h4, h5, h6, h7, h8, by simpa using hd⟩

/-- The FLAGS word holds the flags where FLAGNUM says (R31). -/
theorem flagsOfWord_flagsWord {s : State} (h : s.cfg.flagNum.wf = true) : flagsOfWord s.cfg.flagNum s.flagsWord = s.flags := by
  obtain ⟨h1, h2, h3, h4, h5, h6, h7, h8, hd⟩ := flagNum_wf h
  simp only [Flag.all, List.map, FlagNumbers.of, List.nodup_cons, List.mem_cons, List.not_mem_nil, or_false, not_or] at hd
  have low : ∀ n, 5 ≤ n → s.ipl.getLsbD n = false := fun n hn => BitVec.getLsbD_of_ge _ _ hn
  obtain ⟨⟨a1, a2, a3, a4, a5, a6, a7⟩, ⟨b1, b2, b3, b4, b5, b6⟩, ⟨c1, c2, c3, c4, c5⟩, ⟨d1, d2, d3, d4⟩, ⟨e1, e2, e3⟩, ⟨f1, f2⟩,
    g1, -, -⟩ := hd
  rcases hf : s.flags with ⟨r, z, n, err, sys, em, int, vm⟩
  simp only [flagsOfWord, State.flagsWord, BitVec.getLsbD_or, BitVec.getLsbD_setWidth, bitAt_getLsbD, h1.2, h2.2, h3.2, h4.2, h5.2,
    h6.2, h7.2, h8.2, low _ h1.1, low _ h2.1, low _ h3.1, low _ h4.1, low _ h5.1, low _ h6.1, low _ h7.1, low _ h8.1, hf]
  simp [*, Ne.symm]

/-- The FLAGS word holds IPL in its low bits (R31, R32). -/
theorem ipl_flagsWord {s : State} (h : s.cfg.flagNum.wf = true) : s.flagsWord.extractLsb' 0 5 = s.ipl := by
  obtain ⟨h1, h2, h3, h4, h5, h6, h7, h8, -⟩ := flagNum_wf h
  apply BitVec.eq_of_getLsbD_eq
  intro i hi
  simp only [State.flagsWord, BitVec.getLsbD_extractLsb', hi, decide_true, Bool.true_and, Nat.zero_add, BitVec.getLsbD_or,
    BitVec.getLsbD_setWidth, bitAt_getLsbD, h1.2, h2.2, h3.2, h4.2, h5.2, h6.2, h7.2, h8.2]
  simp [show i < 32 by omega, show i ≠ s.cfg.flagNum.r by omega, show i ≠ s.cfg.flagNum.z by omega, show i ≠ s.cfg.flagNum.n by omega,
    show i ≠ s.cfg.flagNum.err by omega, show i ≠ s.cfg.flagNum.sys by omega, show i ≠ s.cfg.flagNum.em by omega,
    show i ≠ s.cfg.flagNum.int by omega, show i ≠ s.cfg.flagNum.vm by omega]

end Sys2Proof.Machine
end

