-- ==== Sys2Proof/Tests/Slice0.lean ====
section
/-! SUPPORT. Tests: words written out from the spec's encoding, vectors of spec/95_test_vectors.md, ill-formed terms that WellFormed
refuses, and for every obligation with hypotheses a state and operands that meet them. -/

namespace Sys2Proof.Tests
open Sys2Proof.Machine

/-- A part of the state that a vector of 95_test_vectors.md names. -/
inductive Cell where
  | reg (r : Reg)
  | mem (a : Word)
  | flag (f : Flag)
  | flags
  | special (x : SpecialReg)
  | pc
deriving DecidableEq, Repr

def Cell.put (s : State) (v : Word) : Cell → State
  | .reg r => s.writeReg r v
  | .mem a => s.poke a v
  | .flag f => { s with flags := s.flags.set (v != 0) f }
  | .flags => s.writeFlagsWord v
  | .special x => s.writeSpecial v x
  | .pc => { s with pc := v }

def Cell.read (s : State) : Cell → Word
  | .reg r => s.readReg r
  | .mem a => s.mem.readWord a
  | .flag f => bitWord (s.flags.get f)
  | .flags => s.flagsWord
  | .special x => s.readSpecial x
  | .pc => s.pc

/-- The start-up state with these parts set and an instruction word at the PC. -/
def started (pre : List (Cell × Word)) (w : Word) : State :=
  let s := pre.foldl (fun s p => Cell.put s p.2 p.1) State.reset
  s.poke s.pc w

/-- One step from there has a next state with these parts. -/
def leads (pre : List (Cell × Word)) (w : Word) (post : List (Cell × Word)) : Bool :=
  match step (started pre w) with
  | .next t => post.all fun p => Cell.read t p.1 == p.2
  | _ => false

/-- One step from there ends the run with this interrupt, since interrupts are off. -/
def stopsWith (pre : List (Cell × Word)) (w : Word) (code : Interrupt) : Bool :=
  match step (started pre w) with
  | .next t => t.status == .stopped code
  | _ => false

/-! ### Every opcode's word, made of its fields by 30_encoding.md R120, R121 and the opcode map R130 -/

def decodesTo (w : Word) (i : Instr) : Bool :=
  match decode w with
  | .ok j => j == i
  | .error _ => false

theorem test_decode_core_integer : (
  decodesTo 0x00120024 (.halt) &&
  decodesTo 0x0347FE89 (.load 4 ⟨true, 7, -375⟩) &&
  decodesTo 0x047C0000 (.loadh 7 ⟨false, 12, 0⟩) &&
  decodesTo 0x07A104D2 (.store 10 ⟨true, 1, 1234⟩) &&
  decodesTo 0x08D6FFFF (.inc ⟨false, 6, -1⟩) &&
  decodesTo 0x0B0B012C (.dec ⟨true, 11, 300⟩) &&
  decodesTo 0x0C308000 (.add 3 ⟨false, 0, -32768⟩) &&
  decodesTo 0x0F657FFF (.sub 6 ⟨true, 5, 32767⟩) &&
  decodesTo 0x109A0024 (.mul 9 ⟨false, 10, 36⟩) &&
  decodesTo 0x13CFFE89 (.div 12 ⟨true, 15, -375⟩) &&
  decodesTo 0x14F40000 (.mod 15 ⟨false, 4, 0⟩) &&
  decodesTo 0x172904D2 (.rsub 2 ⟨true, 9, 1234⟩) &&
  decodesTo 0x185EFFFF (.rdiv 5 ⟨false, 14, -1⟩) &&
  decodesTo 0x1B83012C (.rmod 8 ⟨true, 3, 300⟩) &&
  decodesTo 0x1CB88000 (.and 11 ⟨false, 8, -32768⟩) &&
  decodesTo 0x1FED7FFF (.or 14 ⟨true, 13, 32767⟩) &&
  decodesTo 0x20120024 (.xor 1 ⟨false, 2, 36⟩) &&
  decodesTo 0x2347FE89 (.not 4 ⟨true, 7, -375⟩) &&
  decodesTo 0x247C0000 (.shl 7 ⟨false, 12, 0⟩) &&
  decodesTo 0x27A104D2 (.shr 10 ⟨true, 1, 1234⟩) &&
  decodesTo 0x28D6FFFF (.comp 13 ⟨false, 6, -1⟩) &&
  decodesTo 0x2B0B012C (.compz ⟨true, 11, 300⟩) &&
  decodesTo 0x2C308000 (.tbit 3 ⟨false, 0, -32768⟩) &&
  decodesTo 0x2F657FFF (.sbit 6 ⟨true, 5, 32767⟩) &&
  decodesTo 0x309A0024 (.cbit 9 ⟨false, 10, 36⟩)) = true := by decide

theorem test_decode_control : (
  decodesTo 0x33CFFE89 (.jump ⟨true, 15, -375⟩) &&
  decodesTo 0x34F40000 (.jzer 15 ⟨false, 4, 0⟩) &&
  decodesTo 0x372904D2 (.jpos 2 ⟨true, 9, 1234⟩) &&
  decodesTo 0x385EFFFF (.jneg 5 ⟨false, 14, -1⟩) &&
  decodesTo 0x3B83012C (.jcond 8 ⟨true, 3, 300⟩) &&
  decodesTo 0x3CB88000 (.getfl 11 ⟨false, 8, -32768⟩) &&
  decodesTo 0x3FED7FFF (.setfl 14 ⟨true, 13, 32767⟩) &&
  decodesTo 0x40120024 (.getsr 1 ⟨false, 2, 36⟩) &&
  decodesTo 0x4347FE89 (.setsr 4 ⟨true, 7, -375⟩) &&
  decodesTo 0x447C0000 (.push ⟨false, 12, 0⟩) &&
  decodesTo 0x47A104D2 (.pop ⟨true, 1, 1234⟩) &&
  decodesTo 0x48D6FFFF (.call ⟨false, 6, -1⟩) &&
  decodesTo 0x4B0B012C (.ret)) = true := by decide

theorem test_decode_strings_system : (
  decodesTo 0x4C308000 (.ldch 3 ⟨false, 0, -32768⟩) &&
  decodesTo 0x4F657FFF (.stch 6 ⟨true, 5, 32767⟩) &&
  decodesTo 0x509A0024 (.peri 9 ⟨false, 10, 36⟩) &&
  decodesTo 0x53CFFE89 (.flagsj 12 ⟨true, 15, -375⟩) &&
  decodesTo 0x54F40000 (.pause ⟨false, 4, 0⟩) &&
  decodesTo 0x572904D2 (.breakpoint) &&
  decodesTo 0x585EFFFF (.iret) &&
  decodesTo 0x5B83012C (.syscall 8 ⟨true, 3, 300⟩) &&
  decodesTo 0x5CB88000 (.atas 11 ⟨false, 8, -32768⟩) &&
  decodesTo 0x5FED7FFF (.phload 14 ⟨true, 13, 32767⟩) &&
  decodesTo 0x60120024 (.phstore 1 ⟨false, 2, 36⟩) &&
  decodesTo 0x6347FE89 (.vtran 4 ⟨true, 7, -375⟩) &&
  decodesTo 0x647C0000 (.move 7 ⟨false, 12, 0⟩)) = true := by decide

theorem test_decode_floating_point : (
  decodesTo 0x67A104D2 (.sign 10 ⟨true, 1, 1234⟩) &&
  decodesTo 0x68D6FFFF (.fadd 13 ⟨false, 6, -1⟩) &&
  decodesTo 0x6B0B012C (.fsub 0 ⟨true, 11, 300⟩) &&
  decodesTo 0x6C308000 (.fmul 3 ⟨false, 0, -32768⟩) &&
  decodesTo 0x6F657FFF (.fdiv 6 ⟨true, 5, 32767⟩) &&
  decodesTo 0x709A0024 (.fcomp 9 ⟨false, 10, 36⟩) &&
  decodesTo 0x73CFFE89 (.fcompz ⟨true, 15, -375⟩) &&
  decodesTo 0x74F40000 (.fix 15 ⟨false, 4, 0⟩) &&
  decodesTo 0x772904D2 (.frnd 2 ⟨true, 9, 1234⟩) &&
  decodesTo 0x785EFFFF (.float 5 ⟨false, 14, -1⟩) &&
  decodesTo 0x7B83012C (.flog 8 ⟨true, 3, 300⟩) &&
  decodesTo 0x7CB88000 (.fexp 11 ⟨false, 8, -32768⟩) &&
  decodesTo 0x7FED7FFF (.fsqrt 14 ⟨true, 13, 32767⟩) &&
  decodesTo 0x80120024 (.fsin 1 ⟨false, 2, 36⟩) &&
  decodesTo 0x8347FE89 (.fcos 4 ⟨true, 7, -375⟩) &&
  decodesTo 0x847C0000 (.fatan 7 ⟨false, 12, 0⟩) &&
  decodesTo 0x87A104D2 (.fabs 10 ⟨true, 1, 1234⟩) &&
  decodesTo 0x88D6FFFF (.floor 13 ⟨false, 6, -1⟩) &&
  decodesTo 0x8B0B012C (.fsign 0 ⟨true, 11, 300⟩)) = true := by decide

theorem test_decode_extended : (
  decodesTo 0x8C308000 (.ffo 3 ⟨false, 0, -32768⟩) &&
  decodesTo 0x8F657FFF (.flz 6 ⟨true, 5, 32767⟩) &&
  decodesTo 0x909A0024 (.rand 9) &&
  decodesTo 0x93CFFE89 (.trace 12 ⟨true, 15, -375⟩) &&
  decodesTo 0x94F40000 (.type ⟨false, 4, 0⟩) &&
  decodesTo 0x972904D2 (.inch ⟨true, 9, 1234⟩) &&
  decodesTo 0x985EFFFF (.andn 5 ⟨false, 14, -1⟩) &&
  decodesTo 0x9B83012C (.orn 8 ⟨true, 3, 300⟩) &&
  decodesTo 0x9CB88000 (.neg 11 ⟨false, 8, -32768⟩) &&
  decodesTo 0x9FED7FFF (.fneg 14 ⟨true, 13, 32767⟩) &&
  decodesTo 0xA0120024 (.rotl 1 ⟨false, 2, 36⟩) &&
  decodesTo 0xA347FE89 (.rotr 4 ⟨true, 7, -375⟩) &&
  decodesTo 0xA47C0000 (.asr 7 ⟨false, 12, 0⟩) &&
  decodesTo 0xA7A104D2 (.exbr 10 ⟨true, 1, 1234⟩) &&
  decodesTo 0xA8D6FFFF (.exbrv 13 ⟨false, 6, -1⟩) &&
  decodesTo 0xAB0B012C (.dpbr 0 ⟨true, 11, 300⟩) &&
  decodesTo 0xAC308000 (.dpbrv 3 ⟨false, 0, -32768⟩) &&
  decodesTo 0xAF657FFF (.adjs 6 ⟨true, 5, 32767⟩) &&
  decodesTo 0xB09A0024 (.uexbr 9 ⟨false, 10, 36⟩) &&
  decodesTo 0xB3CFFE89 (.uexbrv 12 ⟨true, 15, -375⟩) &&
  decodesTo 0xB4F40000 (.ucomp 15 ⟨false, 4, 0⟩) &&
  decodesTo 0xB72904D2 (.umul 2 ⟨true, 9, 1234⟩) &&
  decodesTo 0xB85EFFFF (.udiv 5 ⟨false, 14, -1⟩) &&
  decodesTo 0xBB83012C (.umod 8 ⟨true, 3, 300⟩)) = true := by decide

theorem test_decode_blocks : (
  decodesTo 0xBCB88000 (.clrpp ⟨false, 8, -32768⟩) &&
  decodesTo 0xBFED7FFF (.zero 14 ⟨true, 13, 32767⟩) &&
  decodesTo 0xC0120024 (.lbitf 1 ⟨false, 2, 36⟩) &&
  decodesTo 0xC347FE89 (.lbito 4 ⟨true, 7, -375⟩) &&
  decodesTo 0xC47C0000 (.sbitf 7 ⟨false, 12, 0⟩) &&
  decodesTo 0xC7A104D2 (.sbito 10 ⟨true, 1, 1234⟩) &&
  decodesTo 0xC8D6FFFF (.pmemr 13 ⟨false, 6, -1⟩) &&
  decodesTo 0xCB0B012C (.ffnz 0 ⟨true, 11, 300⟩) &&
  decodesTo 0xCC308000 (.nop) &&
  decodesTo 0xCF657FFF (.sext 6 ⟨true, 5, 32767⟩) &&
  decodesTo 0xD09A0024 (.intr 9 ⟨false, 10, 36⟩) &&
  decodesTo 0xD3CFFE89 (.mpush ⟨true, 15, -375⟩) &&
  decodesTo 0xD4F40000 (.mpop ⟨false, 4, 0⟩) &&
  decodesTo 0xD72904D2 (.fgood ⟨true, 9, 1234⟩) &&
  decodesTo 0xFFED7FFF (.nalt)) = true := by decide

/-- Fields an instruction does not use are ignored (R128, R131). -/
theorem test_decode_ignores_unused : (decodesTo 0xFFFFFFFF .nalt && decodesTo 0x4BFFFFFF .ret && decodesTo 0x91F80001 (.rand 15)) = true := by
  decide

/-! ### Vectors of 95_test_vectors.md part 2, sections A to F: one instruction each -/

theorem test_load : leads [] 0x0210FFFF [(.reg 1, 0xFFFFFFFF)] = true := by decide
theorem test_load_2 : leads [(.reg 2, 0x7FFFFFFF)] 0x02320001 [(.reg 3, 0x80000000)] = true := by decide
theorem test_loadh : leads [(.reg 1, 0xFFFF5678)] 0x04101234 [(.reg 1, 0x12345678)] = true := by decide
theorem test_loadh_2 : leads [(.reg 1, 1), (.reg 2, 0xABCD8000)] 0x04120000 [(.reg 1, 0x80000001)] = true := by decide
theorem test_store : leads [(.reg 1, 9), (.reg 2, 4)] 0x06120000 [(.reg 2, 9)] = true := by decide
theorem test_store_2 : stopsWith [(.reg 1, 9)] 0x061069DD .unwrop = true := by decide
theorem test_inc : leads [(.reg 6, 0xFFFFFFFF)] 0x08060000 [(.reg 6, 0)] = true := by decide
theorem test_inc_2 : stopsWith [] 0x08000048 .unwrop = true := by decide
theorem test_dec : leads [(.mem 500, 0)] 0x0B0001F4 [(.mem 500, 0xFFFFFFFF)] = true := by decide
theorem test_add : leads [(.reg 1, 0x7FFFFFFF)] 0x0C100001 [(.reg 1, 0x80000000)] = true := by decide
theorem test_add_2 : leads [(.reg 3, 21)] 0x0C330000 [(.reg 3, 42)] = true := by decide
theorem test_sub : leads [(.reg 1, 0)] 0x0E100001 [(.reg 1, 0xFFFFFFFF)] = true := by decide
theorem test_mul : leads [(.reg 1, 65536)] 0x10110000 [(.reg 1, 0)] = true := by decide
theorem test_div : leads [(.reg 1, 0xFFFFFFF9)] 0x12100002 [(.reg 1, 0xFFFFFFFD)] = true := by decide
theorem test_div_2 : leads [(.reg 1, 7)] 0x1210FFFE [(.reg 1, 0xFFFFFFFD)] = true := by decide
theorem test_mod : leads [(.reg 1, 0xFFFFFFF9)] 0x14100002 [(.reg 1, 0xFFFFFFFF)] = true := by decide
theorem test_mod_2 : stopsWith [(.reg 1, 5)] 0x14100000 .divzero = true := by decide
theorem test_rsub : leads [(.reg 1, 0xFFFFFFFF)] 0x16100000 [(.reg 1, 1)] = true := by decide
theorem test_rdiv : stopsWith [(.reg 1, 0)] 0x18100064 .divzero = true := by decide
theorem test_rmod : leads [(.reg 1, 0xFFFFFFFD)] 0x1A100064 [(.reg 1, 1)] = true := by decide
theorem test_and : leads [(.reg 1, 0x12345678)] 0x1C10FF00 [(.reg 1, 0x12345600)] = true := by decide
theorem test_or : leads [(.reg 1, 65280)] 0x1E1000FF [(.reg 1, 65535)] = true := by decide
theorem test_xor : leads [(.reg 1, 0xAAAAAAAA)] 0x20110000 [(.reg 1, 0)] = true := by decide
theorem test_not : leads [(.reg 1, 0x12345678)] 0x22100000 [(.reg 1, 0xFFFFFFFF)] = true := by decide
theorem test_shl : leads [(.reg 1, 0x40000000)] 0x24100001 [(.reg 1, 0x80000000), (.flag .z, 1)] = true := by decide
theorem test_shl_2 : leads [(.reg 1, 0x80000000)] 0x24100001 [(.reg 1, 0), (.flag .z, 0)] = true := by decide
theorem test_shr : leads [(.reg 1, 0x80000001)] 0x26100001 [(.reg 1, 0x40000000), (.flag .z, 0)] = true := by decide
theorem test_shr_2 : leads [(.reg 1, 0xFFFFFF00)] 0x26100008 [(.reg 1, 0x00FFFFFF), (.flag .z, 1)] = true := by decide
theorem test_comp : leads [(.reg 1, 0x80000000)] 0x28100001 [(.flag .z, 0), (.flag .n, 1)] = true := by decide
theorem test_comp_2 : leads [(.reg 1, 5)] 0x28100005 [(.flag .z, 1), (.flag .n, 0)] = true := by decide
theorem test_compz : leads [(.mem 500, 0)] 0x2B0001F4 [(.flag .z, 1), (.flag .n, 0)] = true := by decide
theorem test_tbit : leads [(.reg 1, 0x80000000)] 0x2C10001F [(.flag .z, 1)] = true := by decide
theorem test_tbit_2 : leads [(.reg 1, 0x80000000)] 0x2C100000 [(.flag .z, 0)] = true := by decide
theorem test_sbit : leads [(.reg 1, 0)] 0x2E10001F [(.reg 1, 0x80000000)] = true := by decide
theorem test_cbit : leads [(.reg 1, 0xFFFFFFFF)] 0x30100000 [(.reg 1, 0xFFFFFFFE)] = true := by decide
theorem test_halt : leads [(.flag .sys, 1)] 0x00000000 [(.flag .r, 0)] = true := by decide
theorem test_halt_2 : stopsWith [(.flag .sys, 0)] 0x00000000 .halt = true := by decide
theorem test_jump : leads [(.pc, 100)] 0x320F0005 [(.pc, 106)] = true := by decide
theorem test_jump_2 : leads [(.mem 700, 1234)] 0x330002BC [(.pc, 1234)] = true := by decide
theorem test_getfl : leads [(.flag .n, 1)] 0x3C200007 [(.reg 2, 1)] = true := by decide
theorem test_setfl : leads [(.flag .sys, 0), (.reg 1, 5)] 0x3E100006 [(.flag .z, 1)] = true := by decide
theorem test_setfl_2 : stopsWith [(.flag .sys, 0), (.reg 1, 0)] 0x3E10000B .privop = true := by decide
theorem test_getsr : leads [(.flags, 2599)] 0x4010000D [(.reg 1, 7)] = true := by decide
theorem test_setsr : leads [(.flags, 2592), (.reg 1, 0xFFFFFFE3), (.flag .sys, 1)] 0x4210000D [(.flags, 2595)] = true := by decide
theorem test_setsr_2 : stopsWith [(.flag .sys, 0)] 0x42100006 .privop = true := by decide
theorem test_getsr_2 : leads [(.flag .sys, 0), (.special .usrsp, 2500)] 0x40100009 [(.reg 1, 2500)] = true := by decide
theorem test_push : leads [(.reg 13, 1000)] 0x440D0000 [(.mem 999, 1000), (.reg 13, 999)] = true := by decide
theorem test_push_2 : leads [(.reg 13, 1000)] 0x4400FFFD [(.mem 999, 0xFFFFFFFD), (.reg 13, 999)] = true := by decide
theorem test_pop : leads [(.reg 13, 999), (.mem 999, 77)] 0x470001F4 [(.mem 500, 77), (.reg 13, 1000)] = true := by decide
theorem test_pop_2 : stopsWith [(.reg 13, 999)] 0x46000005 .unwrop = true := by decide
theorem test_call : leads [(.reg 13, 1000), (.reg 1, 600), (.mem 603, 750), (.pc, 200)]
    0x49010003 [(.mem 999, 201), (.reg 13, 999), (.pc, 750)] = true := by decide
theorem test_ret : leads [(.reg 13, 999), (.mem 999, 201)] 0x4A000000 [(.pc, 201), (.reg 13, 1000)] = true := by decide
theorem test_iret : stopsWith [(.flag .sys, 0)] 0x58000000 .privop = true := by decide
theorem test_flagsj : stopsWith [(.flag .sys, 0)] 0x52100000 .privop = true := by decide
theorem test_syscall : stopsWith [(.special .cglen, 2)] 0x5A100002 .badcall = true := by decide
theorem test_syscall_2 : stopsWith [(.special .cglen, 2)] 0x5A10FFFF .badcall = true := by decide
theorem test_atas : leads [(.mem 600, 0)] 0x5D100258 [(.reg 1, 0), (.mem 600, 1)] = true := by decide
theorem test_atas_2 : leads [(.reg 2, 9)] 0x5C120000 [(.reg 1, 9), (.reg 2, 1)] = true := by decide
theorem test_phload : stopsWith [(.flag .sys, 0)] 0x5E100000 .privop = true := by decide
theorem test_phload_2 : stopsWith [(.flag .sys, 1), (.reg 2, 0x00100000)] 0x5E120000 .memory = true := by decide
theorem test_pmemr : leads [(.reg 1, 2), (.reg 2, 5000)] 0xC9120000 [(.mem 5000, 1000), (.mem 5001, 2000), (.reg 1, 4)] = true := by decide
theorem test_inch : leads [] 0x96010000 [(.reg 1, 0xFFFFFFFF)] = true := by decide
theorem test_ldch : leads [(.mem 700, 0x64636261), (.mem 701, 26213), (.reg 1, 5)] 0x4C1002BC [(.reg 1, 102)] = true := by decide
theorem test_ldch_2 : leads [(.mem 700, 0x646362FF), (.reg 1, 0)] 0x4C1002BC [(.reg 1, 255)] = true := by decide
theorem test_stch : leads [(.mem 700, 0x64636261), (.reg 0, 0x12345699), (.reg 1, 3)]
    0x4E1002BC [(.mem 700, 0x99636261)] = true := by decide
theorem test_move : leads [(.reg 0, 3), (.reg 1, 800), (.reg 2, 801), (.mem 800, 1), (.mem 801, 2), (.mem 802, 3), (.mem 803, 4)]
    0x64120000 [(.mem 800, 1), (.mem 801, 1), (.mem 802, 1), (.mem 803, 1), (.reg 0, 0), (.reg 1, 803), (.reg 2, 804)] = true := by decide
theorem test_move_2 : stopsWith [] 0x65120000 .badop = true := by decide
theorem test_zero : stopsWith [] 0xBE100384 .badop = true := by decide
theorem test_lbitf : leads [(.mem 700, 0x80000000), (.reg 1, 31)] 0xC01002BC [(.reg 1, 1)] = true := by decide
theorem test_lbito : leads [(.reg 1, 0)] 0xC2100006 [(.reg 1, 0)] = true := by decide
theorem test_sbitf : leads [(.mem 700, 0xFFFFFFFF), (.reg 0, 2), (.reg 1, 0)] 0xC41002BC [(.mem 700, 0xFFFFFFFE)] = true := by decide
theorem test_sbito : leads [(.mem 500, 0), (.reg 0, 1), (.reg 1, 31)] 0xC71001F4 [(.mem 500, 0x80000000)] = true := by decide
theorem test_ffnz : leads [(.mem 900, 0), (.mem 901, 0), (.mem 902, 0), (.mem 903, 0), (.reg 1, 900)]
    0xCA100387 [(.reg 1, 0xFFFFFFFF)] = true := by decide
theorem test_ffnz_2 : leads [(.mem 900, 7), (.reg 1, 900)] 0xCA100387 [(.reg 1, 900)] = true := by decide
theorem test_mpush : leads [(.reg 13, 1000), (.reg 0, 10), (.reg 14, 224)]
    0xD2004001 [(.mem 999, 10), (.mem 998, 224), (.reg 13, 998)] = true := by decide
theorem test_mpop : leads [(.reg 13, 998), (.mem 998, 224), (.mem 999, 10)]
    0xD4004001 [(.reg 14, 224), (.reg 0, 10), (.reg 13, 1000)] = true := by decide
theorem test_sign : leads [] 0x66100000 [(.reg 1, 0)] = true := by decide
theorem test_sign_2 : leads [] 0x6610004D [(.reg 1, 1)] = true := by decide
theorem test_ffo : leads [(.reg 2, 74565)] 0x8C120000 [(.reg 1, 16)] = true := by decide
theorem test_ffo_2 : leads [(.reg 2, 0)] 0x8C120000 [(.reg 1, 0xFFFFFFFF), (.flag .z, 1), (.flag .n, 1)] = true := by decide
theorem test_flz : leads [] 0x8E10FFFF [(.reg 1, 0xFFFFFFFF), (.flag .z, 1), (.flag .n, 1)] = true := by decide
theorem test_flz_2 : leads [(.reg 2, 65535)] 0x8E120000 [(.reg 1, 16)] = true := by decide
theorem test_andn : leads [(.reg 1, 0xFFFFFFFF)] 0x9810FFFF [(.reg 1, 0)] = true := by decide
theorem test_orn : leads [(.reg 1, 15)] 0x9A10FFFF [(.reg 1, 15)] = true := by decide
theorem test_neg : leads [(.reg 2, 0x80000000)] 0x9C120000 [(.reg 1, 0x80000000)] = true := by decide
theorem test_rotl : leads [(.reg 1, 0x12345678)] 0xA0100008 [(.reg 1, 0x34567812)] = true := by decide
theorem test_rotr : leads [(.reg 1, 0x12345678)] 0xA2100008 [(.reg 1, 0x78123456)] = true := by decide
theorem test_asr : leads [(.reg 1, 0x80000000)] 0xA410001F [(.reg 1, 0xFFFFFFFF), (.flag .z, 1)] = true := by decide
theorem test_asr_2 : leads [(.reg 1, 0x7FFFFFFF)] 0xA4100004 [(.reg 1, 0x07FFFFFF), (.flag .z, 0)] = true := by decide
theorem test_ucomp : leads [(.reg 1, 1)] 0xB410FFFF [(.flag .z, 0), (.flag .n, 1)] = true := by decide
theorem test_umul : leads [(.reg 1, 0xFFFFFFFF)] 0xB6110000 [(.reg 1, 1)] = true := by decide
theorem test_udiv : leads [(.reg 1, 0x80000000)] 0xB810FFFF [(.reg 1, 0)] = true := by decide
theorem test_udiv_2 : stopsWith [(.reg 1, 7)] 0xB8100000 .divzero = true := by decide
theorem test_umod : leads [(.reg 1, 0x80000000)] 0xBA100003 [(.reg 1, 2)] = true := by decide
theorem test_sext : leads [(.reg 1, 32768)] 0xCE10000F [(.reg 1, 0xFFFF8000)] = true := by decide
theorem test_sext_2 : leads [(.reg 1, 1)] 0xCE100000 [(.reg 1, 0xFFFFFFFF)] = true := by decide
theorem test_exbr : leads [(.reg 1, 0), (.reg 2, 0x89ABCDEF)] 0xA6120000 [(.reg 0, 0x89ABCDEF)] = true := by decide
theorem test_exbr_2 : leads [(.reg 1, 897), (.reg 2, 0x10000000)] 0xA6120000 [(.reg 0, 0xFFFFFFFF)] = true := by decide
theorem test_uexbr : leads [(.reg 1, 897), (.reg 2, 0x10000000)] 0xB0120000 [(.reg 0, 1)] = true := by decide
theorem test_dpbr : leads [(.reg 1, 993), (.reg 0, 3), (.mem 500, 0)] 0xAB1001F4 [(.mem 500, 0x80000000)] = true := by decide
theorem test_dpbr_2 : stopsWith [(.reg 1, 520)] 0xAA100005 .unwrop = true := by decide
theorem test_exbrv : leads [(.reg 1, 1028), (.mem 701, 156)] 0xA81002BC [(.reg 0, 0xFFFFFFFC)] = true := by decide
theorem test_uexbrv : leads [(.reg 1, 1028), (.mem 701, 156)] 0xB21002BC [(.reg 0, 12)] = true := by decide
theorem test_dpbrv : leads [(.reg 1, 1028), (.reg 0, 245), (.mem 701, 156)] 0xAC1002BC [(.mem 701, 149)] = true := by decide
theorem test_adjs : leads [(.reg 1, 776)] 0xAE100001 [(.reg 1, 1032)] = true := by decide
theorem test_fadd : leads [(.reg 1, 0x3DCCCCCD), (.reg 2, 0x3E4CCCCD)] 0x68120000 [(.reg 1, 0x3E99999A)] = true := by decide
theorem test_fadd_2 : leads [(.reg 1, 0x3F800000)] 0x68100002 [(.reg 1, 0x3F800000)] = true := by decide
theorem test_fsub : leads [(.reg 1, 0x3F800000), (.mem 500, 0x40000000)] 0x6B1001F4 [(.reg 1, 0xBF800000)] = true := by decide
theorem test_fmul : leads [(.reg 1, 0x3F000000), (.reg 2, 0xC1000000)] 0x6C120000 [(.reg 1, 0xC0800000)] = true := by decide
theorem test_fdiv : leads [(.reg 1, 0x3F800000), (.reg 2, 0x40400000)] 0x6E120000 [(.reg 1, 0x3EAAAAAB)] = true := by decide
theorem test_fcomp : leads [(.reg 1, 0), (.reg 2, 0x80000000)] 0x70120000 [(.flag .z, 1), (.flag .n, 0)] = true := by decide
theorem test_fcompz : leads [(.reg 2, 0xBF800000)] 0x72020000 [(.flag .z, 0), (.flag .n, 1)] = true := by decide
theorem test_fix : leads [(.reg 2, 0xC0200000)] 0x74120000 [(.reg 1, 0xFFFFFFFE)] = true := by decide
theorem test_frnd : leads [(.reg 2, 0xC0300000)] 0x76120000 [(.reg 1, 0xC0400000)] = true := by decide
theorem test_float : leads [(.reg 2, 0x01000001)] 0x78120000 [(.reg 1, 0x4B800000)] = true := by decide
theorem test_float_2 : leads [(.reg 2, 0x80000000)] 0x78120000 [(.reg 1, 0xCF000000)] = true := by decide
theorem test_flog : stopsWith [(.reg 1, 0xBF800000)] 0x7A100000 .fltneg = true := by decide
theorem test_fsqrt : leads [(.reg 2, 0x40100000)] 0x7E120000 [(.reg 1, 0x3FC00000)] = true := by decide +kernel
theorem test_fsqrt_2 : leads [(.reg 2, 0x80000000)] 0x7E120000 [(.reg 1, 0x80000000)] = true := by decide
theorem test_fcos : leads [(.reg 2, 0)] 0x82120000 [(.reg 1, 0x3F800000)] = true := by decide
theorem test_fabs : leads [(.reg 2, 0x3FC00000)] 0x86120000 [(.reg 1, 0x3FC00000)] = true := by decide
theorem test_floor : leads [(.reg 2, 0xC0000000)] 0x88120000 [(.reg 1, 0xC0000000)] = true := by decide
theorem test_floor_2 : leads [(.reg 2, 0xBE800000)] 0x88120000 [(.reg 1, 0xBF800000)] = true := by decide
theorem test_fsign : leads [(.reg 2, 0x80000000)] 0x8A120000 [(.reg 1, 0)] = true := by decide
theorem test_fsign_2 : leads [(.reg 2, 1)] 0x8A120000 [(.reg 1, 1)] = true := by decide
theorem test_fneg : leads [(.reg 2, 0xBF800000)] 0x9E120000 [(.reg 1, 0x3F800000)] = true := by decide
theorem test_fgood : leads [(.reg 2, 0xFF800000)] 0xD6020000 [(.flag .z, 0)] = true := by decide
theorem test_fgood_2 : leads [(.reg 2, 1)] 0xD6020000 [(.flag .z, 1)] = true := by decide

/-! ### WellFormed refuses an ill-formed term of each check (93_implementation_defined.md U6, U19, R257) -/

theorem test_wellFormed_inc_constant_zero : (Instr.inc ⟨false, 0, 0⟩).wellFormed = false := by decide
theorem test_wellFormed_dec_constant_zero : (Instr.dec ⟨false, 0, 0⟩).wellFormed = false := by decide
theorem test_wellFormed_move_same_register : (Instr.move 3 ⟨false, 3, 0⟩).wellFormed = false := by decide
theorem test_wellFormed_move_from_r0 : (Instr.move 0 ⟨false, 3, 0⟩).wellFormed = false := by decide
theorem test_wellFormed_move_to_sp : (Instr.move 1 ⟨false, 13, 0⟩).wellFormed = false := by decide
theorem test_wellFormed_zero_same_register : (Instr.zero 2 ⟨false, 2, 0⟩).wellFormed = false := by decide
theorem test_wellFormed_zero_counted_by_pc : (Instr.zero 15 ⟨false, 2, 0⟩).wellFormed = false := by decide
theorem test_wellFormed_pmemr_register : (Instr.pmemr 1 ⟨false, 2, 0⟩).wellFormed = false := by decide
theorem test_wellFormed_accepts : ((Instr.inc ⟨false, 6, 0⟩).wellFormed && (Instr.dec ⟨true, 0, 0⟩).wellFormed &&
    (Instr.move 1 ⟨false, 2, 0⟩).wellFormed && (Instr.zero 0 ⟨false, 2, 0⟩).wellFormed && (Instr.pmemr 1 ⟨true, 2, 0⟩).wellFormed) = true := by
  decide

/-! ### States that meet the hypotheses of the obligations, each clause at a boundary of its range -/

/-- System mode, VM = 0, all of memory 0 to 65535 zero. -/
def sys : State := State.reset

def user : State := { State.reset with flags := { State.reset.flags with sys := false } }

/-- A constant, a register, a memory word, an operand that is no destination, and one that cannot be read. -/
def five : Operand := ⟨false, 0, 5⟩
def reg2 : Operand := ⟨false, 2, 0⟩
def word500 : Operand := ⟨true, 0, 500⟩
def unreadable : Operand := ⟨true, 0, -1⟩

def setRegs (s : State) (r0 r1 r2 : Word) : State := { s with regs := ((s.regs.set 0 r0).set 1 r1).set 2 r2 }

/-- A word in register 2 is the value of the operand R2. -/
def valued (r0 r1 r2 : Word) : State := setRegs sys r0 r1 r2

theorem witness_value (r0 r1 r2 : Word) : operandValue (valued r0 r1 r2) reg2 = .ok r2 := by
  show Except.ok (0#32 + r2) = Except.ok r2
  rw [BitVec.zero_add]

theorem witness_StepRunsDecodedInstruction :
    (started [] 0x0210FFFF).flags.r = true ∧ (started [] 0x0210FFFF).inputs = [] ∧ (started [] 0x0210FFFF).keyboard = [] ∧
    (started [] 0x0210FFFF).timerPending = false ∧ debugHit (started [] 0x0210FFFF) = false ∧
    memRead (started [] 0x0210FFFF) (started [] 0x0210FFFF).pc = .ok 0x0210FFFF ∧ decode 0x0210FFFF = .ok (.load 1 ⟨false, 0, -1⟩) :=
  ⟨rfl, rfl, rfl, rfl, by decide, by rfl, by rfl⟩

theorem witness_UnimplementedOpcodesTrap :
    debugHit (started [] 0xD8000000) = false ∧ memRead (started [] 0xD8000000) (started [] 0xD8000000).pc = .ok 0xD8000000 ∧
    (0xD8000000#32).toNat / 2 ^ 25 = 108 ∧ (0xFDFFFFFF#32).toNat / 2 ^ 25 = 126 ∧
    memRead (started [] 0xFDFFFFFF) (started [] 0xFDFFFFFF).pc = .ok 0xFDFFFFFF :=
  ⟨by decide, by rfl, by decide, by decide, by rfl⟩

theorem witness_EveryStepKeepsConsistency : State.reset.consistent = true ∧ ∃ t, step State.reset = .next t := ⟨by decide, _, rfl⟩

theorem witness_UserModeIsContained :
    user.flags.sys = false ∧ (∃ t, step user = .next t) ∧
    ∃ t, step (user.poke 1000 0x0210FFFF) = .next t ∧ t.flags.sys = false := ⟨rfl, ⟨_, rfl⟩, _, rfl, rfl⟩

theorem witness_OnlyFourInstructionsWriteControls : exec .nop user = .next user := rfl

theorem witness_NoStepStoresOutsideMemory : (∃ t, step State.reset = .next t) ∧ memExists State.reset.cfg 65536 = false :=
  ⟨⟨_, rfl⟩, by decide⟩

theorem witness_ResetFlags : resetConfig.wf = true ∧
    resetConfig.loadArea.first.toNat + (List.replicate 1001 (0 : Word)).length ≤ resetConfig.loadArea.last.toNat + 1 := by decide +kernel

theorem witness_StoreThenLoad : sys.flags.vm = false ∧ (∃ t, memWrite sys 65535 7 = .ok t) ∧ (∃ t, memWrite sys 0 7 = .ok t) ∧
    (translateAddress sys 65536 = .ok 65536 ∧ memExists sys.cfg 65536 = false) ∧
    (({ sys with watch := 65535 } : State).watch = 65535 ∧ ({ sys with ipl := 13 } : State).ipl.toNat < 14 ∧ sys.cfg.watchSpace = .logical) ∧
    14 ≤ ({ sys with ipl := 14 } : State).ipl.toNat :=
  ⟨rfl, ⟨_, rfl⟩, ⟨_, rfl⟩, ⟨rfl, by decide⟩, by decide, by decide⟩

theorem witness_RegisterWriteFrame : (12 : Reg) ≠ 13 ∧ (0 : Reg) ≠ 15 ∧ sys.flags.sys = true ∧ user.flags.sys = false ∧ sys.cfg.fpBanked = true ∧
    ({ sys with cfg := { sys.cfg with fpBanked := false } } : State).cfg.fpBanked = false :=
  ⟨by decide, by decide, rfl, rfl, rfl, rfl⟩

/-- Interrupts on, vector at 16, handlers at 500, and only just room for one frame on the system stack. -/
def ready : State :=
  ((((({ sys with intVec := 16, sysSp := 21, flags := { sys.flags with int := true } }.poke 17 501).poke 18 502).poke 19 503).poke 32
    516).poke 33 517).poke 35 519

theorem witness_stack : ∀ k < 21, memExists ready.cfg (ready.sysSp - BitVec.ofNat 32 (k + 1)) = true ∧
    watchHit ready (ready.sysSp - BitVec.ofNat 32 (k + 1)) = false := by decide

theorem witness_HandlerEntryBuildsTheFrame :
    ready.flags.vm = false ∧ ready.ignores (deliveredCode ready .halt) = false ∧ ready.flags.int = true ∧ ready.intVec ≠ 0 ∧
    vectorEntry ready (deliveredCode ready .halt) = some 501 := ⟨rfl, by decide, rfl, by decide, by decide⟩

/-- VM = 1, one page at 0 that holds the stack at 21 downward, kept at 8192, with the page table at 4096 and the directory at 1024. -/
def pagedStack : State :=
  ((({ ready with pdbr := 1024, cgLen := 6, flags := { ready.flags with vm := true } }.poke 1024 4096).poke 4096 0x2001).poke 4097 0)

/-- The stack words of the first frame go to 8212 downward, in the handler as before it; no other address has them. -/
theorem witness_HandlerEntryBuildsTheFrame_paged :
    pagedStack.flags.vm = true ∧ pagedStack.ignores (deliveredCode pagedStack .halt) = false ∧
    vectorEntry pagedStack (deliveredCode pagedStack .halt) = some 501 ∧
    (∀ k < 21, storeTarget { pagedStack with flags := { pagedStack.flags with sys := true } } (pagedStack.sysSp - BitVec.ofNat 32 (k + 1)) =
      .ok (8212 - BitVec.ofNat 32 k)) ∧
    (∀ j < 21, ∀ k < 21, (8212 : Word) - BitVec.ofNat 32 j = 8212 - BitVec.ofNat 32 k → j = k) :=
  ⟨by decide, by decide, by decide, by decide, by decide⟩

theorem witness_UndeliverableInterrupts :
    (deliveredCode { sys with ipl := 2 } .timer).code ≤ ({ sys with ipl := 2 } : State).ipl.toNat ∧
    ({ sys with ipl := 1 } : State).ipl.toNat < (deliveredCode { sys with ipl := 1 } .timer).code ∧
    ({ sys with ipl := 21 } : State).ipl.toNat < (deliveredCode { sys with ipl := 21 } .rterror).code ∧
    sys.flags.int = false ∧ ({ ready with intVec := 0 } : State).intVec = 0 := ⟨by decide, by decide, by decide, rfl, rfl⟩

theorem witness_BadVectorGivesIntrfault :
    ({ ready with ipl := 16 } : State).ignores (deliveredCode { ready with ipl := 16 } .fltneg) = false ∧
    vectorEntry ready .fltneg = none ∧ vectorEntry ready .intrfault = some 517 ∧ ({ ready with ipl := 16 } : State).ipl.toNat < 17 ∧
    vectorEntry { ready with intVec := 100 } .fltneg = none ∧ vectorEntry { ready with intVec := 100 } .intrfault = none ∧
    ({ ready with ipl := 17 } : State).ignores (deliveredCode { ready with ipl := 17 } .usrint2) = false ∧
    vectorEntry ready .usrint2 = none ∧ deliveredCode ready .fltneg = .fltneg ∧ deliveredCode ready .usrint2 = .usrint2 := by decide

theorem witness_EmergencyProcedure :
    vectorEntry { ready with sysSp := 0 } .halt = some 501 ∧ vectorEntry { ready with sysSp := 0 } .sysstkfl = some 516 ∧
    (∃ x, storeTarget { ready with sysSp := 0, flags := { ready.flags with sys := true } } (0 - 1) = .error (.raised x)) ∧
    vectorEntry (ready.poke 32 0) .sysstkfl = none ∧ vectorEntry (ready.poke 32 0) .intrfault = some 517 ∧
    vectorEntry ((ready.poke 32 0).poke 33 0) .sysstkfl = none ∧ vectorEntry ((ready.poke 32 0).poke 33 0) .intrfault = none ∧
    vectorEntry ((ready.poke 32 0).poke 33 0) .halt = some 501 :=
  ⟨by decide, by decide, ⟨_, rfl⟩, by decide, by decide, by decide, by decide, by decide⟩

/-- Room for all but the last word of a frame, and for one word. -/
theorem witness_EmergencyProcedure_part :
    vectorEntry { ready with sysSp := 20 } .halt = some 501 ∧
    (∀ j < 20, storeTarget { ready with sysSp := 20, flags := { ready.flags with sys := true } } (20 - BitVec.ofNat 32 (j + 1)) =
      .ok (19 - BitVec.ofNat 32 j)) ∧
    (∃ x, storeTarget { ready with sysSp := 20, flags := { ready.flags with sys := true } } (20 - BitVec.ofNat 32 21) = .error (.raised x)) ∧
    (∀ i < 20, ∀ j < 20, (19 : Word) - BitVec.ofNat 32 i = 19 - BitVec.ofNat 32 j → i = j) ∧
    (∀ j < 20, (19 : Word) - BitVec.ofNat 32 j ≠ ready.intVec + 16 ∧ (19 : Word) - BitVec.ofNat 32 j ≠ ready.intVec + 17) ∧
    storeTarget { ready with sysSp := 1, flags := { ready.flags with sys := true } } 0 = .ok 0 :=
  ⟨by decide, by decide, ⟨_, rfl⟩, by decide, by decide, by rfl⟩

/-- IRET's last clause: after delivery with VM = 1 the frame's addresses still translate as they did. -/
theorem witness_IretUndoesTheInterrupt_paged : ∃ t, deliver pagedStack ⟨.halt, some 1000, some 0⟩ 1000 = .taken t ∧
    ∀ k < 21, translateAddress t (pagedStack.sysSp - BitVec.ofNat 32 (k + 1)) = .ok (8212 - BitVec.ofNat 32 k) :=
  ⟨_, rfl, by decide +kernel⟩

theorem witness_IretUndoesTheInterrupt : ready.cfg.flagNum.wf = true ∧ ready.flags.r = true ∧ user.cfg.flagNum.wf = true := by decide

theorem witness_FlagsWordRoundTrip : sys.cfg.flagNum.wf = true ∧ sys.flags.r = true ∧ sys.cfg.flagNum = defaultFlagNum ∧
    (∀ f ∈ Flag.all, sys.cfg.flagNum.of f ≠ 13) ∧ 5 ≤ 13 := by decide

theorem witness_TimerCountsInstructions :
    (∃ u, instructionOutcome (started [] 0xCC000000) = .next u ∧ u.timer = 0) ∧
    (∃ u, instructionOutcome { started [] 0xCC000000 with timer := 1 } = .next u ∧ u.timer = 1) ∧
    ({ ready with timerPending := true, ipl := 2 } : State).ipl.toNat = 2 ∧ ({ sys with timerPending := true, ipl := 1 } : State).ipl.toNat < 2 ∧
    (∃ t, deliver { ready with timerPending := true } ⟨.timer, none, none⟩ ready.pc = .taken t) :=
  ⟨⟨_, rfl, rfl⟩, ⟨_, rfl, rfl⟩, rfl, by decide, _, rfl⟩

theorem witness_KeyboardInterruptComesFirst :
    (∃ t, deliver { ready with keyboard := [97] } ⟨.keybd, none, none⟩ ready.pc = .taken t) ∧
    ({ sys with inputs := [[.key 97, .key 98]] } : State).flags.r = true ∧
    (({ sys with debug := 1000, ipl := 14 } : State).pc = 1000 ∧ ({ sys with debug := 1000, ipl := 14 } : State).ipl.toNat < 15) ∧
    (15 ≤ ({ sys with debug := 1000, ipl := 15 } : State).ipl.toNat ∧ memRead sys sys.pc = .ok 0 ∧ decode 0 = .ok .halt) ∧
    (∃ x, memRead { sys with pc := 65536 } 65536 = .error (.raised x)) ∧ (65536 : Word) ≠ sys.debug ∧
    memRead { sys with pdbr := 1, flags := { sys.flags with vm := true } } 0 = .error (.refused .misalignedPageDirectory) :=
  ⟨⟨_, rfl⟩, rfl, by decide, ⟨by decide, by rfl, by rfl⟩, ⟨_, rfl⟩, by decide, by rfl⟩

theorem witness_EndOfTheRun : sys.halt.flags.r = false ∧ ({ sys with inputs := [[.controlC]] } : State).flags.r = true := ⟨rfl, rfl⟩

/-- Keys that wait: at IPL 3, and with interrupts off. A fetch with VM = 1 whose page table is not there. -/
theorem witness_KeyboardInterruptComesFirst_waiting :
    3 ≤ ({ ready with keyboard := [97], ipl := 3, timerPending := true } : State).ipl.toNat ∧
    (({ sys with keyboard := [97], timerPending := true } : State).flags.int = false ∧ sys.ipl.toNat < 2) ∧
    (({ ready with keyboard := [97], intVec := 0 } : State).intVec = 0) ∧
    memRead ({ sys with pdbr := 1024, pc := 0, flags := { sys.flags with vm := true } }.poke 1024 0x20000) 0 =
      .error (.raised ⟨.memory, some 0x20000, none⟩) := ⟨by decide, by decide, rfl, by rfl⟩

/-- VM = 1: the page at 0 is a user page, the page at 2048 a system page, the page at 4096 not there; no page table for 2^22. -/
def paged : State :=
  (((({ sys with pdbr := 1024, flags := { sys.flags with vm := true } }.poke 1024 4096).poke 4096 0x2001).poke 4097 0x2803).poke 1026
    0x20000)

def pagedUser : State := { paged with flags := { paged.flags with sys := false } }

theorem witness_TranslationWalk :
    paged.flags.vm = true ∧ paged.pdbr &&& 0x3FF#32 = 0 ∧ sys.flags.vm = false ∧
    memExists paged.cfg ((0 >>> 22) + paged.pdbr) = true ∧
    paged.mem.readWord ((0x3FFFFF#32 >>> 22) + paged.pdbr) = 4096 ∧ paged.mem.readWord ((0x400000#32 >>> 22) + paged.pdbr) = 0 ∧
    memExists paged.cfg ((4096 &&& 0xFFFFF800#32) + (2047#32 >>> 11 &&& 0x7FF#32)) = true ∧
    (paged.mem.readWord 4096).getLsbD 0 = true ∧ (paged.mem.readWord 4096).getLsbD 1 = false ∧
    (paged.mem.readWord 4097).getLsbD 1 = true ∧ (paged.mem.readWord 4098).getLsbD 0 = false ∧ pagedUser.flags.sys = false ∧
    memExists paged.cfg ((0x20000 &&& 0xFFFFF800#32) + (0x800000#32 >>> 11 &&& 0x7FF#32)) = false ∧
    memExists paged.cfg ((0 >>> 22) + 0x10000) = false ∧ (0x10000#32 &&& 0x3FF#32 = 0) ∧ (1023#32 &&& 0x3FF#32 ≠ 0) := by decide

theorem witness_PagesProtectSystemMemory :
    translateAddress pagedUser 2047 = .ok 10239 ∧ ∃ t, memWrite pagedUser 2047 7 = .ok t := ⟨by rfl, _, rfl⟩

theorem witness_PrivilegedOperationsTrap :
    user.flags.sys = false ∧ user.cfg.flagNum.wf = true ∧ operandValue user five = .ok (BitVec.ofNat 32 (user.cfg.flagNum.of .r)) ∧
    operandValue user ⟨false, 0, 12⟩ = .ok (BitVec.ofNat 32 (user.cfg.flagNum.of .vm)) := ⟨rfl, by decide, rfl, rfl⟩

/-- An operand that cannot be read: also the witness of the clauses on unreadable operands in RegisterResults, ShiftsAndRotations,
ComparisonFlags, BitUpdates and Jumps. -/
theorem witness_OperandReadFaults :
    operandValue sys unreadable = .error (.raised ⟨.memory, some 0xFFFFFFFF, none⟩) ∧ sys.flags.sys = true := ⟨by rfl, rfl⟩

theorem witness_UnwritableOperandTraps :
    (five.indirect = false ∧ ¬ (five.index ≠ 0 ∧ five.number = 0)) ∧
    ((⟨false, 2, 1⟩ : Operand).indirect = false ∧ ¬ ((1 : BitVec 16) = 0)) ∧
    (Operand.unused.indirect = false ∧ Operand.unused.index = 0 ∧ Operand.unused.number = 0) := by decide

theorem witness_RegisterResults : operandValue sys five = .ok 5 ∧ operandValue sys word500 = .ok 0 ∧ operandValue sys ⟨false, 15, -1⟩ = .ok 999 :=
  ⟨rfl, by rfl, by rfl⟩

theorem witness_DivisionResults :
    (0xFFFFFFFF#32 ≠ 0 ∧ ¬ ((valued 0 0x80000001 0xFFFFFFFF).readReg 1 = 0x80000000#32 ∧ 0xFFFFFFFF#32 = 0xFFFFFFFF#32)) ∧
    ((valued 0 0xFFFFFFFF 0x80000001).readReg 1 ≠ 0 ∧ ¬ (0x80000001#32 = 0x80000000#32)) ∧
    sys.cfg.rounding = .truncate ∧ ({ sys with cfg := { sys.cfg with rounding := .floor } } : State).cfg.rounding = .floor ∧
    ({ sys with cfg := { sys.cfg with rounding := .euclid } } : State).cfg.rounding = .euclid := by decide

theorem witness_DivisionCorners :
    operandValue sys ⟨false, 0, 0⟩ = .ok 0 ∧ (valued 0 0 5).readReg 1 = 0 ∧ (valued 0 0x80000000 0xFFFFFFFF).readReg 1 = 0x80000000 ∧
    (valued 0 0xFFFFFFFF 0x80000000).readReg 1 = 0xFFFFFFFF := ⟨rfl, rfl, rfl, rfl⟩

theorem witness_ShiftsAndRotations :
    (operandValue sys ⟨false, 0, 0⟩ = .ok 0 ∧ (0 : Word).toNat < 32) ∧ (operandValue sys ⟨false, 0, 31⟩ = .ok 31 ∧ (31 : Word).toNat < 32) ∧
    (operandValue sys ⟨false, 0, 32⟩ = .ok 32 ∧ 32 ≤ (32 : Word).toNat) := ⟨⟨rfl, by decide⟩, ⟨rfl, by decide⟩, rfl, by decide⟩

/-- Bit numbers 31 and 32, for ComparisonFlags and BitUpdates alike. -/
theorem witness_ComparisonFlags : operandValue (valued 0 0x80000000 31) reg2 = .ok 31 ∧ (31 : Word).toNat < 32 ∧
    operandValue (valued 0 0x80000000 32) reg2 = .ok 32 ∧ 32 ≤ (32 : Word).toNat := ⟨by rfl, by decide, by rfl, by decide⟩

theorem witness_BitUpdates : operandValue (valued 0 0 0) reg2 = .ok 0 ∧ (0 : Word).toNat < 32 ∧
    operandValue (valued 0 0 0xFFFFFFFF) reg2 = .ok 0xFFFFFFFF ∧ 32 ≤ (0xFFFFFFFF : Word).toNat :=
  ⟨by rfl, by decide, by rfl, by decide⟩

theorem witness_SimpleSystemInstructions : sys.flags.sys = true ∧ operandValue sys five = .ok 5 := ⟨rfl, rfl⟩

theorem witness_FindBit :
    operandValue sys ⟨false, 0, 0⟩ = .ok 0 ∧ operandValue sys ⟨false, 0, 1⟩ = .ok 1 ∧ operandValue sys ⟨false, 0, -1⟩ = .ok 0xFFFFFFFF ∧
    operandValue sys ⟨false, 0, -2⟩ = .ok 0xFFFFFFFE := ⟨rfl, rfl, rfl, rfl⟩

/-- Selectors: a whole word, one bit at 31, and one bit too many. -/
theorem witness_BitRangesExtract :
    ((valued 0 0 5).readReg 1).toNat / 32 % 32 + 32 = 32 ∧ ((valued 0 993 5).readReg 1).toNat / 32 % 32 + 1 = 32 ∧
    ((valued 0 994 5).readReg 1).toNat / 32 % 32 + 2 = 33 ∧ memRead (valued 0 0 5) (5 + BitVec.ofNat 32 (0 / 1024)) = .ok 0 :=
  ⟨by decide, by decide, by decide, by rfl⟩

/-- A selector that skips to a word outside memory, and one to a word that is read but watched. -/
theorem witness_BitRangesExtract_fault :
    operandValue (valued 0 1024 65535) reg2 = .ok 65535 ∧
    (∃ e, memRead (valued 0 1024 65535) (65535 + BitVec.ofNat 32 (((valued 0 1024 65535).readReg 1).toNat / 1024)) = .error e) ∧
    (∃ w, memRead { sys with watch := 500 } (499 + BitVec.ofNat 32 (1024 / 1024)) = .ok w) ∧
    ∃ e, storeTarget { sys with watch := 500 } (499 + BitVec.ofNat 32 (1024 / 1024)) = .error e := ⟨by rfl, ⟨_, rfl⟩, ⟨_, rfl⟩, _, rfl⟩

theorem witness_BitRangesDepositAndAdjust :
    (reg2.indirect = false ∧ reg2.index ≠ 0 ∧ reg2.number = 0) ∧ storeTarget sys (operandTotal sys word500) = .ok 500 ∧
    storeTarget (valued 0 0 5) (5 + BitVec.ofNat 32 0) = .ok 5 ∧ 32 < ((valued 0 994 5).readReg 1).toNat / 32 % 32 + 2 ∧
    sys.cfg.adjs = .packedArray := ⟨by decide, by rfl, by rfl, by decide, rfl⟩

/-- ADJS: from the last element of a word to the next word, one element too far at each end, and a selector of no element. -/
theorem witness_BitRangesDepositAndAdjust_adjs :
    (0x308 / 32 % 32 = 3 * 8 ∧ 3 < 32 / 8 ∧ (4 : Int) = (0x308 / 1024 * (32 / 8) + 3 : Nat) + (1 : Word).toInt ∧ (4 : Int).toNat / (32 / 8) < 2 ^ 22) ∧
    ((-1 : Int) = (0x008 / 1024 * (32 / 8) + 0 : Nat) + (0xFFFFFFFF : Word).toInt ∧ (-1 : Int) < 0) ∧
    ((2 ^ 24 : Int) = (0xFFFFFF08 / 1024 * (32 / 8) + 3 : Nat) + (1 : Word).toInt ∧ 2 ^ 22 ≤ (2 ^ 24 : Int).toNat / (32 / 8)) ∧
    (∀ e < 32 / 3, 0x23 / 32 % 32 ≠ e * 3) := by decide

theorem witness_RegisterDestinations :
    (reg2.indirect = false ∧ reg2.index ≠ 0 ∧ reg2.number = 0) ∧ ((⟨false, 15, 0⟩ : Operand).index ≠ 0) ∧ sys.keyboard = [] ∧
    ({ sys with keyboard := [255] } : State).keyboard = 255 :: [] := by decide

theorem witness_MemoryDestinations :
    word500.indirect = true ∧ storeTarget sys (operandTotal sys word500) = .ok 500 ∧ operandValue sys word500 = .ok 0 ∧
    storeTarget sys (operandTotal sys ⟨true, 0, 0⟩) = .ok 0 ∧
    (∃ e, storeTarget { sys with watch := 500 } (operandTotal { sys with watch := 500 } word500) = .error e) ∧
    operandValue { sys with watch := 500 } word500 = .ok 0 := ⟨rfl, by rfl, by rfl, by rfl, ⟨_, rfl⟩, by rfl⟩

theorem witness_Jumps :
    operandValue sys five = .ok 5 ∧ 6 ≤ (6 : Fin 16).val ∧ (6 : Fin 16) = sys.cfg.jcondErr ∧ (7 : Fin 16) ≠ sys.cfg.jcondErr ∧
    6 ≤ (15 : Fin 16).val := ⟨rfl, by decide, rfl, by decide, by decide⟩

theorem witness_FlagInstructions :
    sys.cfg.flagNum.wf = true ∧ operandValue sys five = .ok 5 ∧ (5 : Word).toNat = sys.cfg.flagNum.of .r ∧
    (12 : Word).toNat = sys.cfg.flagNum.of .vm ∧ (∀ f : Flag, f ∈ Flag.all → (4 : Word).toNat ≠ sys.cfg.flagNum.of f) ∧
    (∀ f : Flag, f ∈ Flag.all → (13 : Word).toNat ≠ sys.cfg.flagNum.of f) ∧ (∀ f : Flag, f ∈ Flag.all) ∧ (6 : Word).toNat = user.cfg.flagNum.of .z :=
  ⟨by decide, rfl, rfl, rfl, by decide, by decide, fun f => by cases f <;> decide, rfl⟩

theorem witness_SpecialRegisterInstructions :
    sys.cfg.srNum[(0 : Word).toNat]? = some .flags ∧ sys.cfg.srNum[(14 : Word).toNat]? = some .emgret ∧
    sys.cfg.srNum[(15 : Word).toNat]? = none ∧ sys.flags.sys = true ∧ sys.cfg.fpBanked = true ∧ SpecialReg.watch ≠ .flags := by decide

theorem witness_StackInstructions :
    storeTarget ready (ready.readReg 13 - 1) = .ok 20 ∧ memRead ready (ready.readReg 13) = .ok 0 ∧
    (∃ e, storeTarget sys (sys.readReg 13 - 1) = .error e) ∧ (∃ e, memRead { sys with sysSp := 65536 } 65536 = .error e) ∧
    (13 : Reg) ≠ 0 ∧ (2 : Reg) ≠ 13 ∧ memRead { sys with watch := 500 } (({ sys with watch := 500 } : State).readReg 13) = .ok 0 ∧
    (∃ e, storeTarget { sys with watch := 500 } (operandTotal { sys with watch := 500 } word500) = .error e) :=
  ⟨by rfl, by rfl, ⟨_, rfl⟩, ⟨_, rfl⟩, by decide, by decide, by rfl, _, rfl⟩

theorem witness_MultipleRegisters :
    operandValue (valued 0 0 0x5FFF) reg2 = .ok 0x5FFF ∧ 0x5FFF#32 &&& 0xFFFFA000#32 = 0 ∧ 0x2000#32 &&& 0xFFFFA000#32 ≠ 0 ∧
    ((List.finRange 16).filter fun r => (0x5FFF : Word).getLsbD r.val).length = 14 ∧
    (∃ t, exec (.mpush ⟨false, 0, 0x4001⟩) { sys with sysSp := 14 } = .next t ∧ operandValue t ⟨false, 0, 0x4001⟩ = .ok 0x4001) ∧
    (∃ e, storeTarget { sys with sysSp := 13 } (13 - BitVec.ofNat 32 14) = .error e) ∧
    (∃ e, memRead { sys with sysSp := 65523 } (65523 + BitVec.ofNat 32 13) = .error e) :=
  ⟨by rfl, by decide, by decide, by decide, ⟨_, rfl, by rfl⟩, ⟨_, rfl⟩, _, rfl⟩

/-- A first word pushed, and a second that cannot be, as states of the chain. -/
theorem witness_MultipleRegisters_chain :
    ((List.finRange 16).filter fun r => (0x4001 : Word).getLsbD r.val) = [0, 14] ∧
    (∃ x y, memWrite { sys with sysSp := 2 } (2 - BitVec.ofNat 32 1) 0 = .ok x ∧ memWrite x (2 - BitVec.ofNat 32 2) 0 = .ok y) ∧
    (∃ x e, memWrite { sys with sysSp := 1 } (1 - BitVec.ofNat 32 1) 0 = .ok x ∧ memWrite x (1 - BitVec.ofNat 32 2) 0 = .error e) :=
  ⟨by decide, ⟨_, _, rfl, rfl⟩, _, _, rfl, rfl⟩

/-- Fourteen words of stack at the ends of memory, to push to, to read from. -/
theorem witness_MultipleRegisters_stack :
    (∀ k < 14, storeTarget { sys with sysSp := 14 } (({ sys with sysSp := 14 } : State).readReg 13 - BitVec.ofNat 32 (k + 1)) =
      .ok (13 - BitVec.ofNat 32 k)) ∧
    (∀ j < 14, ∀ k < 14, (13 : Word) - BitVec.ofNat 32 j = 13 - BitVec.ofNat 32 k → j = k) ∧
    (∀ k < 14, memRead { sys with sysSp := 65522 } (({ sys with sysSp := 65522 } : State).readReg 13 + BitVec.ofNat 32 k) = .ok 0) ∧
    (∀ j < 13, ∃ p, storeTarget { sys with sysSp := 13 } (13 - BitVec.ofNat 32 (j + 1)) = .ok p) :=
  ⟨by decide, by decide, by decide, fun j hj => ⟨12 - BitVec.ofNat 32 j, by revert j; decide⟩⟩

theorem witness_SyscallEntersGate :
    operandValue { ready with cgLen := 6, cgBr := 100 } five = .ok 5 ∧ (5 : Word).toInt < ({ ready with cgLen := 6 } : State).cgLen.toInt ∧
    ({ ready with cgLen := 5 } : State).cgLen.toInt ≤ (5 : Word).toInt ∧ (0xFFFFFFFF : Word).toInt < 0 ∧
    memExists ready.cfg (100 + 5) = true := ⟨rfl, by decide, by decide, by decide, by decide⟩

/-- A gate that does not exist; every word of a frame that fits, with VM = 0 and 1; the first word of one that cannot be written. -/
theorem witness_SyscallEntersGate_frame :
    memExists sys.cfg (0x10000 + 5) = false ∧ memExists pagedStack.cfg (pagedStack.cgBr + 5) = true ∧
    (List.range 21).foldlM (fun x k => (memWrite x (21 - BitVec.ofNat 32 (k + 1)) 7).toOption)
      { ready with flags := { ready.flags with sys := true } } ≠ none ∧
    (List.range 21).foldlM (fun x k => (memWrite x (21 - BitVec.ofNat 32 (k + 1)) 7).toOption)
      { pagedStack with flags := { pagedStack.flags with sys := true } } ≠ none ∧
    (∃ e, memWrite { sys with sysSp := 0, flags := { sys.flags with sys := true } } (0 - BitVec.ofNat 32 (0 + 1)) 0 = .error e) :=
  ⟨by decide, by decide, by decide, by decide, _, rfl⟩

/-- IRET's frame read with VM = 1, and a frame whose last word, R0's, is outside memory. -/
theorem witness_FlagsjAndIret_words :
    (∀ k < 21, memRead { pagedStack with sysSp := 0 } (0 + BitVec.ofNat 32 k) = .ok (pagedStack.mem.readWord (8192 + BitVec.ofNat 32 k))) ∧
    (∃ e, memRead { sys with sysSp := 65516 } (65516 + BitVec.ofNat 32 20) = .error e) ∧
    ∀ j < 21, j ≠ 20 → memRead { sys with sysSp := 65516 } (65516 + BitVec.ofNat 32 j) = .ok 0 :=
  ⟨by decide, ⟨_, rfl⟩, by decide⟩

/-- FP_BANKED = 0, for IRET's and MPOP's clauses on the plain register 14. -/
theorem witness_FlagsjAndIret_plain : ({ sys with cfg := { sys.cfg with fpBanked := false } } : State).cfg.fpBanked = false ∧
    ∀ k < 21, memRead { sys with cfg := { sys.cfg with fpBanked := false } } (sys.sysSp + BitVec.ofNat 32 k) = .ok 0 := by decide

theorem witness_FlagsjAndIret :
    sys.flags.sys = true ∧ (∀ k < 21, k = 0 ∨ k = 2 ∨ 6 ≤ k → memExists sys.cfg (sys.sysSp + BitVec.ofNat 32 k) = true) ∧
    sys.cfg.fpBanked = true ∧ (flagsOfWord sys.cfg.flagNum 0x20).sys = false ∧ (flagsOfWord sys.cfg.flagNum 0x220).sys = true := by decide

theorem witness_PhysicalMemoryInstructions :
    memExists sys.cfg 65535 = true ∧ memExists sys.cfg 65536 = false ∧ watchHit sys 65535 = false ∧
    (memExists sys.cfg 65535 = true ∧ watchHit { sys with watch := 65535 } 65535 = true) ∧
    translateAddress { paged with flags := { paged.flags with vm := true } } 2047 = .ok 10239 ∧
    (∃ x, translateAddress { paged with flags := { paged.flags with vm := true } } 4096 = .error (.raised x)) :=
  ⟨by decide, by decide, by decide, by decide, by rfl, _, rfl⟩

theorem witness_exists (a : Word) (h : a.toNat ≤ 65535) : memExists sys.cfg a = true := by
  simp [memExists, show sys.cfg.memAreas = [⟨0, 65535⟩] from rfl, BitVec.le_def, h]

theorem witness_ClrppClearsOnePage :
    (∀ k < 2048, memExists sys.cfg ((65535 &&& 0xFFFFF800#32) + BitVec.ofNat 32 k) = true ∧
      watchHit sys ((65535 &&& 0xFFFFF800#32) + BitVec.ofNat 32 k) = false) ∧ memExists sys.cfg 65536 = false := by
  refine ⟨fun k h => ?_, by decide⟩
  have e : ((65535 &&& 0xFFFFF800#32) + BitVec.ofNat 32 k).toNat = 63488 + k := by
    simp [BitVec.toNat_add]; omega
  refine ⟨witness_exists _ (by omega), ?_⟩
  have w : ((65535 &&& 0xFFFFF800#32) + BitVec.ofNat 32 k == sys.watch) = false :=
    beq_false_of_ne fun c => by rw [c] at e; revert e; rw [show sys.watch.toNat = 0xFFFFFFFF by decide]; omega
  rw [watchHit, w, Bool.false_and]

/-- A watched word and a missing word of a page, each the third, after two that are there and not watched. -/
theorem witness_ClrppClearsOnePage_stopped :
    (memExists sys.cfg 65535 = true ∧ (65535 &&& 0xFFFFF800#32) + BitVec.ofNat 32 2 = 63490 ∧ watchHit { sys with watch := 63490 } 63490 = true ∧
      ∀ j < 2, watchHit { sys with watch := 63490 } (63488 + BitVec.ofNat 32 j) = false) ∧
    (memExists { sys.cfg with memAreas := [⟨0, 1⟩] } 0 = true ∧ (0 &&& 0xFFFFF800#32) + BitVec.ofNat 32 2 = 2 ∧
      memExists { sys.cfg with memAreas := [⟨0, 1⟩] } 2 = false ∧
      ∀ j < 2, memExists { sys.cfg with memAreas := [⟨0, 1⟩] } (0 + BitVec.ofNat 32 j) = true ∧ watchHit sys (0 + BitVec.ofNat 32 j) = false) := by
  decide

/-- A page with a missing word meets the premises of the MEMORY clause of O47 when a word before the missing one is watched too. -/
theorem witness_ClrppClearsOnePage_watched_and_missing :
    watchHit { sys with watch := 1, cfg := { sys.cfg with memAreas := [⟨0, 1⟩] } } 1 = true ∧
      memExists { sys.cfg with memAreas := [⟨0, 1⟩] } 0 = true ∧ memExists { sys.cfg with memAreas := [⟨0, 1⟩] } 1 = true ∧
      memExists { sys.cfg with memAreas := [⟨0, 1⟩] } 2 = false := by
  decide

theorem witness_PmemrReportsMemory :
    word500.indirect = true ∧ ((valued 0 4 0).readReg 1).toNat % 2 = 0 ∧ 0 ≤ ((valued 0 4 0).readReg 1).toInt ∧
    (∃ u v, memWrite (valued 0 2 0) 500 1000 = .ok u ∧ memWrite u 501 2000 = .ok v) ∧
    (∃ u e, memWrite { valued 0 4 0 with watch := 501 } 500 1000 = .ok u ∧ memWrite u 501 2000 = .error e) ∧
    (∀ k < 4, memExists sys.cfg (500 + BitVec.ofNat 32 k) = true ∧ watchHit sys (500 + BitVec.ofNat 32 k) = false) ∧
    ((valued 0 1 0).readReg 1).toNat % 2 = 1 ∧ ((valued 0 0x80000000 0).readReg 1).toInt < 0 ∧
    (reg2.indirect = false ∧ reg2.index ≠ 0 ∧ reg2.number = 0) :=
  ⟨rfl, by decide, by decide, ⟨_, _, rfl, rfl⟩, ⟨_, _, rfl, rfl⟩, by decide, by decide, by decide, by decide⟩

theorem witness_IntrRaisesItsInterrupt :
    operandValue ready ⟨false, 0, 19⟩ = .ok (BitVec.ofNat 32 Interrupt.usrint1.code) ∧
    (∃ t, deliver ready ⟨.usrint1, some (ready.readReg 3), none⟩ ready.pc = .taken t) ∧
    (deliveredCode { ready with ipl := 19 } .usrint1).code ≤ ({ ready with ipl := 19 } : State).ipl.toNat ∧
    sys.ipl.toNat < (deliveredCode sys .halt).code ∧ sys.flags.int = false ∧ operandValue sys ⟨false, 0, 0⟩ = .ok 0 ∧
    operandValue sys ⟨false, 0, 23⟩ = .ok 23 ∧ 22 < (23 : Word).toNat :=
  ⟨by rfl, ⟨_, rfl⟩, by decide, by decide, rfl, rfl, rfl, by decide⟩

theorem witness_CharacterInstructions :
    memRead (valued 0 3 65535) (65535 + BitVec.ofNat 32 (3 / 4)) = .ok 0 ∧
    storeTarget (valued 0 0x7FFFFFFF 0xE0000001) (0xE0000001 + BitVec.ofNat 32 (0x7FFFFFFF / 4)) = .ok 0 ∧
    (0x7FFFFFFF#32).toNat < 2 ^ 31 ∧ 2 ^ 31 ≤ (0x80000000#32).toNat := ⟨by rfl, by rfl, by decide, by decide⟩

/-- An array's word that cannot be read, and one that is read but watched. -/
theorem witness_CharacterInstructions_fault :
    (∃ e, memRead (valued 0 4 65535) (65535 + BitVec.ofNat 32 (4 / 4)) = .error e) ∧
    (∃ e, memRead (valued 0 32 65535) (65535 + BitVec.ofNat 32 (32 / 32)) = .error e) ∧
    memRead { valued 0 3 500 with watch := 500 } (500 + BitVec.ofNat 32 (3 / 4)) = .ok 0 ∧
    (∃ e, storeTarget { valued 0 3 500 with watch := 500 } (500 + BitVec.ofNat 32 (3 / 4)) = .error e) ∧
    memRead { valued 0 31 500 with watch := 500 } (500 + BitVec.ofNat 32 (31 / 32)) = .ok 0 ∧
    ∃ e, storeTarget { valued 0 31 500 with watch := 500 } (500 + BitVec.ofNat 32 (31 / 32)) = .error e :=
  ⟨⟨_, rfl⟩, ⟨_, rfl⟩, by rfl, ⟨_, rfl⟩, by rfl, _, rfl⟩

theorem witness_BitArrayInstructions :
    memRead (valued 0 31 65535) (65535 + BitVec.ofNat 32 (31 / 32)) = .ok 0 ∧
    storeTarget (valued 0 0x7FFFFFFF 0xFC000001) (0xFC000001 + BitVec.ofNat 32 (0x7FFFFFFF / 32)) = .ok 0 ∧
    (31#32).toNat < 32 ∧ 32 ≤ (32#32).toNat ∧ (reg2.indirect = false ∧ reg2.index ≠ 0 ∧ reg2.number = 0) ∧ 2 ^ 31 ≤ (0x80000000#32).toNat ∧ storeTarget sys (operandTotal sys word500) = .ok 500 :=
  ⟨by rfl, by rfl, by decide, by decide, by decide, by decide, by rfl⟩

theorem witness_MoveCopiesWords :
    (reg2.indirect = false ∧ reg2.number = 0 ∧ reg2.index ≠ 0 ∧ (1 : Reg) ≠ 0 ∧ (1 : Reg) ≠ reg2.index) ∧
    ((valued 0 100 200).readReg 0).toInt ≤ 0 ∧ ((valued 2 65534 200).readReg 0).toInt = (2 : Nat) ∧
    (∀ k < 2, memExists sys.cfg (65534 + BitVec.ofNat 32 k) = true ∧ memExists sys.cfg (200 + BitVec.ofNat 32 k) = true ∧
      watchHit sys (200 + BitVec.ofNat 32 k) = false) ∧
    (∀ j < 2, ∀ k < 2, j < k → (65534 : Word) + BitVec.ofNat 32 k ≠ 200 + BitVec.ofNat 32 j) ∧
    ¬ (five.indirect = false ∧ five.index ≠ 0 ∧ five.number = 0) := by decide

/-- The state MOVE and ZERO leave after the first of two words, and a second word that is outside memory; registers of U19. -/
theorem witness_MoveCopiesWords_fault :
    (∃ y, memRead (valued 2 65535 200) (65535 + BitVec.ofNat 32 0) = .ok 0 ∧ memWrite (valued 2 65535 200) (200 + BitVec.ofNat 32 0) 0 = .ok y ∧
      ∃ e, memRead (((y.writeReg 2 (200 + BitVec.ofNat 32 (0 + 1))).writeReg 1 (65535 + BitVec.ofNat 32 (0 + 1))).writeReg 0
        (BitVec.ofNat 32 (2 - (0 + 1)))) (65535 + BitVec.ofNat 32 1) = .error e) ∧
    (∃ y, memWrite (valued 0 2 65535) (65535 + BitVec.ofNat 32 0) 0 = .ok y ∧
      ∃ e, memWrite ((y.writeReg 2 (65535 + BitVec.ofNat 32 (0 + 1))).writeReg 1 (BitVec.ofNat 32 (2 - (0 + 1))))
        (65535 + BitVec.ofNat 32 1) 0 = .error e) ∧
    13 ≤ (13 : Reg).val ∧ (1 : Reg).val < 13 := ⟨⟨_, by rfl, rfl, _, rfl⟩, ⟨_, rfl, _, rfl⟩, by decide, by decide⟩

theorem witness_ZeroClearsWords :
    ((valued 0 0 200).readReg 1).toInt ≤ 0 ∧ ((valued 0 2 65534).readReg 1).toInt = (2 : Nat) ∧
    (∀ k < 2, memExists sys.cfg (65534 + BitVec.ofNat 32 k) = true ∧ watchHit sys (65534 + BitVec.ofNat 32 k) = false) := by decide

theorem witness_FfnzFindsFirstNonZero :
    operandValue sys five = .ok 5 ∧ ((valued 0 5 0).readReg 1).toNat ≤ 5 ∧
    (∀ k ≤ 5, 5 ≤ k → memExists sys.cfg (BitVec.ofNat 32 k) = true) ∧ ((valued 0 5 0).poke 5 1).mem.readWord (BitVec.ofNat 32 5) ≠ 0 ∧
    (∀ k ≤ 5, 0 ≤ k → memExists sys.cfg (BitVec.ofNat 32 k) = true ∧ sys.mem.readWord (BitVec.ofNat 32 k) = 0) :=
  ⟨rfl, by decide, by decide, by decide, by decide⟩

/-- A search that meets the end of memory, and addresses that FFNZ cannot compare. -/
theorem witness_FfnzFindsFirstNonZero_fault :
    (∃ e, memRead (valued 0 65535 65536) (BitVec.ofNat 32 65536) = .error e) ∧
    (∀ k < 65536, 65535 ≤ k → memRead (valued 0 65535 65536) (BitVec.ofNat 32 k) = .ok 0) ∧
    operandValue sys ⟨false, 0, -1⟩ = .ok 0xFFFFFFFF ∧ 2 ^ 31 ≤ (0xFFFFFFFF : Word).toNat ∧ 2 ^ 31 ≤ ((valued 0 0x80000000 0).readReg 1).toNat :=
  ⟨⟨_, rfl⟩, fun k h h' => by
    obtain rfl : k = 65535 := by omega
    rfl, rfl, by decide, by decide⟩

theorem test_floatNumber : floatNumber 0x3F800000 = 1 ∧ floatNumber 0xC0200000 = -5 / 2 ∧ floatNumber 1 = 1 / 2 ^ 149 ∧
    floatNumber 0x80000000 = 0 ∧ floatNumber 0x7F7FFFFF = 2 ^ 128 - 2 ^ 104 := by decide +kernel

theorem witness_FloatArithmetic :
    sys.cfg.fp32 = .binary32 ∧ (isZero sys.fp32 0x80000000 = true ∧ isZero sys.fp32 1 = false) ∧
    (isNegative sys.fp32 0x80000001 = true ∧ isNegative sys.fp32 0x80000000 = false) ∧
    (floatProper 0x7F7FFFFF = true ∧ floatProper 0x7F800000 = false) ∧ (0x7F800000#32).toNat % 2 ^ 31 ≠ 0 ∧ 0x7F800000#32 ≠ 0xFF800000#32 ∧
    floatNumber 1 ≠ 0 ∧ ¬ floatNumber 1 < 0 ∧ floatNumber 0xBE800000 < 0 ∧ (0x01000000#32).toInt.natAbs ≤ 2 ^ 24 := by decide +kernel

/-- Results below and at the bound; whole numbers at the ends of the signed range and beyond, nearest and tied. -/
theorem witness_FloatArithmetic_ranges :
    |(floatNumber 0x3F800000 + floatNumber 0x80000000 : ℝ)| < roundingBound ∧
    (roundingBound : ℝ) ≤ |(floatNumber 0x7F7FFFFF + floatNumber 0x7F7FFFFF : ℝ)| ∧
    (⌊floatNumber 0x4EFFFFFF⌋ < (2 : Int) ^ 31 ∧ -(2 : Int) ^ 31 ≤ ⌈floatNumber 0xCF000000⌉ ∧ ¬ ⌊floatNumber 0x4F000000⌋ < (2 : Int) ^ 31) ∧
    (|floatNumber 0xCF000000 - (-2 ^ 31 : Int)| < 1 / 2 ∧ |floatNumber 0xBE800000 - (0 : Int)| < 1 / 2) ∧
    (∀ n : Int, |floatNumber 0x3F000000 - n| < 1 / 2 → ¬ (-2 ^ 31 ≤ n ∧ n < 2 ^ 31)) := by
  have h1 : floatNumber 0x3F800000 = 1 := by decide +kernel
  have h2 : floatNumber 0x80000000 = 0 := by decide +kernel
  have h3 : floatNumber 0x7F7FFFFF = 2 ^ 128 - 2 ^ 104 := by decide +kernel
  have h4 : floatNumber 0x3F000000 = 1 / 2 := by decide +kernel
  refine ⟨?_, ?_, by decide +kernel, by decide +kernel, fun n hn => ?_⟩
  · rw [h1, h2, roundingBound]; norm_num
  · rw [h3, roundingBound]; norm_num
  · rw [h4, abs_lt] at hn
    have a : ((0 : Int) : ℚ) < n := by push_cast; linarith [hn.2]
    have b : (n : ℚ) < ((1 : Int) : ℚ) := by push_cast; linarith [hn.1]
    have a' : 0 < n := by exact_mod_cast a
    have b' : n < 1 := by exact_mod_cast b
    omega

theorem witness_FloatSignsAndComparisons :
    (0xFF800000#32).toNat % 2 ^ 31 ≤ 0x7F800000 ∧ (0x7F800000#32).toNat % 2 ^ 31 ≤ 0x7F800000 ∧ 0xFF800000#32 ≠ 0x80000000#32 ∧
    0x7F800000 < (0x7F800001#32).toNat % 2 ^ 31 ∧ sys.cfg.fp32 = .binary32 := by decide

theorem witness_ElementaryFunctions :
    (floatProper 0x7F7FFFFF = true ∧ floatNegative 0x7F7FFFFF = false ∧ floatZero 0x7F7FFFFF = false ∧ 0x7F7FFFFF#32 ≠ 0x3F800000#32) ∧
    (floatProper 0x80000000 = true ∧ floatZero 0x80000000 = true ∧ floatNegative 0x80000000 = false) ∧
    (floatProper 0 = true ∧ floatZero 0 = true) ∧ (floatProper 1 = true ∧ floatZero 1 = false ∧ floatNegative 1 = false) ∧
    floatProper 0x3F800000 = true ∧ floatNegative 0x80000001 = true ∧ floatProper 0x7F800000 = false ∧
    isNegative sys.fp32 0x80000001 = true ∧ isNegative sys.fp32 0x80000000 = false := by decide

theorem witness_PeriCompletes :
    sys.flags.sys = true ∧ operandValue sys word500 = .ok 0 ∧ (paged.flags.vm = true ∧ paged.pdbr &&& 0x3FF#32 = 0) ∧
    ioTarget sys 65536 = none ∧ ioTarget sys 65535 = some 65535 ∧ (∀ q ∈ sys.cfg.periCodes, q.2 ≠ sys.mem.readWord 65535) ∧
    ioTarget paged 4096 = none ∧ (sys.cfg.wf = true ∧ ioTarget (sys.poke 65535 21) 65535 = some 65535 ∧
      (PeriOp.floatFormat, (sys.poke 65535 21).mem.readWord 65535) ∈ sys.cfg.periCodes) :=
  ⟨rfl, by rfl, by decide, by decide, by decide, by decide, by decide, by decide⟩

/-- Buffers of USECONDS and DATETIME at the end of memory, and an empty string as FLOATFORMAT's format. -/
theorem witness_PeriCompletes_buffers :
    ((sys.poke 601 65534).mem.readWord (600 + 1) = 65534 ∧ memExists sys.cfg 65534 = true ∧ memExists sys.cfg (65534 + 1) = true) ∧
    ((sys.poke 602 65529).mem.readWord (600 + 2) = 65529 ∧ ∀ k < 7, memExists sys.cfg (65529 + BitVec.ofNat 32 k) = true) ∧
    (∀ k < 4, memExists sys.cfg (600 + BitVec.ofNat 32 k) = true) ∧
    ((sys.poke 602 65535).mem.readWord (65535 + BitVec.ofNat 32 0)).extractLsb' (8 * 3) 8 = 0 ∧
    (sys.poke 603 65535).mem.readWord (600 + 3) = 65535 ∧ memExists sys.cfg (65535 + BitVec.ofNat 32 0) = true ∧
    (sys.poke 603 65536).mem.readWord (600 + 3) = 65536 ∧ memExists sys.cfg (65536 + BitVec.ofNat 32 0) = false := by decide

/-- A control structure at 600 for block 5999 of disc 1, whose buffer is the last 128 words of memory. -/
def discState : State :=
  let s := ((sys.poke 601 1).poke 602 5999).poke 603 65408
  { s with discs := s.discs.set 0 (some (Disc.withBlock ⟨6000, true, []⟩ 5999 (Vector.replicate 128 7))) }

theorem witness_DiscKeepsItsBlocks :
    (discState.mem.readWord (600 + 1)).toNat = (0 : Fin 8).val + 1 ∧ discState.mem.readWord (600 + 2) = 5999 ∧
    discState.mem.readWord (600 + 3) = 65408 ∧ (∀ k < 4, memExists discState.cfg (600 + BitVec.ofNat 32 k) = true) ∧
    (∀ k < 128, memExists discState.cfg (65408 + BitVec.ofNat 32 k) = true) ∧
    (discState.discs[(0 : Fin 8)] = some (Disc.withBlock ⟨6000, true, []⟩ (5999 : Word).toNat (Vector.replicate 128 7))) ∧
    ((5999 : Word).toNat < 6000 ∧ 6000 ≤ (6000 : Word).toNat ∧ 2 ^ 31 ≤ (0x80000000 : Word).toNat) ∧
    ((sys.poke 601 8).mem.readWord (600 + 1)).toNat = (7 : Fin 8).val + 1 ∧
    (memExists sys.cfg (65409 + BitVec.ofNat 32 127) = false ∧ sys.discs[(7 : Fin 8)] = none) ∧
    ((sys.mem.readWord (600 + 1)).toNat = 0 ∧ 8 < ((sys.poke 601 9).mem.readWord (600 + 1)).toNat) ∧
    ((⟨2 ^ 31 - 1, true, []⟩ : Disc).size < 2 ^ 31 ∧ 2 ^ 31 ≤ (⟨2 ^ 31, true, []⟩ : Disc).size) :=
  ⟨by decide, by decide, by decide, by decide, by decide, rfl, by decide, by decide, by decide,
   by decide, by decide⟩

/-- DISCREAD of a block written before another one, of one of a cleared disc after another was written, and of one that holds neither; a
second drive. -/
theorem witness_DiscKeepsItsBlocks_blocks :
    (((⟨6000, true, []⟩ : Disc).withBlock 5999 (Vector.replicate 128 7)).withBlock 5 (Vector.replicate 128 9)).blocks.find?
      (fun x => x.1 == (5999 : Word).toNat) = some ((5999 : Word).toNat, Vector.replicate 128 7) ∧
    (((⟨6000, true, []⟩ : Disc).withBlock 5 (Vector.replicate 128 9)).blocks.find? (fun x => x.1 == (5999 : Word).toNat) = none ∧
      ((⟨6000, true, []⟩ : Disc).withBlock 5 (Vector.replicate 128 9)).erased = true) ∧
    ((⟨6000, false, []⟩ : Disc).blocks.find? (fun x => x.1 == (5999 : Word).toNat) = none ∧ (⟨6000, false, []⟩ : Disc).erased = false) ∧
    (1 : Fin 8) ≠ 0 := by decide +kernel

/-- Tape unit 1 loaded with 513 bytes, one of them passed, its buffer the last 128 words of memory. -/
def tapeState (mode : TapeMode) : State :=
  let s := ((sys.poke 601 1).poke 602 65408).poke 603 512
  { s with tapes := s.tapes.set 0 (some ⟨mode, [], List.replicate 513 7, 1⟩) }

theorem witness_DiscKeepsItsBlocks_tapes :
    ((tapeState .read).mem.readWord (600 + 1)).toNat = (0 : Fin 8).val + 1 ∧ (tapeState .write).mem.readWord (600 + 2) = 65408 ∧
    ((tapeState .write).mem.readWord (600 + 3)).toNat < 2 ^ 31 ∧ (tapeState .read).tapes[(0 : Fin 8)] = some ⟨.read, [], List.replicate 513 7, 1⟩ ∧
    512 = min 512 ((List.replicate 513 (7 : Byte)).length - 1) ∧ (∀ k < (512 + 3) / 4, memExists sys.cfg (65408 + BitVec.ofNat 32 k) = true) ∧
    sys.tapes[(0 : Fin 8)] = none ∧ (tapeState .read).tapes[(0 : Fin 8)] ≠ none ∧ ((sys.poke 602 65535).mem.readWord (65535 + BitVec.ofNat 32 0)).extractLsb' (8 * 3) 8 = 0 :=
  ⟨by decide, by decide +kernel, by decide +kernel, rfl, by decide +kernel, by decide +kernel, rfl, by decide +kernel, by decide +kernel⟩

theorem witness_TerminalInput :
    (((sys.poke 601 3).poke 602 65535).mem.readWord (600 + 1) = 3 ∧ ((sys.poke 601 3).poke 602 65535).mem.readWord (600 + 2) = 65535) ∧
    3 = min (3 : Word).toNat ([97, 98, 99, 100] : List Byte).length ∧
    (∀ k ≤ 3 / 4, memExists sys.cfg (65535 + BitVec.ofNat 32 k) = true) ∧ (3 : Word).toNat < 2 ^ 31 ∧
    (∀ k < (4 + 3) / 4, memExists sys.cfg (65535 + BitVec.ofNat 32 k) = true) ∧ memExists sys.cfg (65535 + BitVec.ofNat 32 1) = false := by decide

/-- A string that fills the last word of memory and has no end there. -/
theorem witness_TerminalInput_string :
    (((sys.poke 602 65535).poke 65535 0x64636261).mem.readWord (600 + 1) = 0 ∧
      ((sys.poke 602 65535).poke 65535 0x64636261).mem.readWord (600 + 2) = 65535) ∧
    (∀ k < 1, memExists sys.cfg (65535 + BitVec.ofNat 32 k) = true) ∧ memExists sys.cfg (65535 + BitVec.ofNat 32 1) = false ∧
    ∀ k < 4 * 1, (((sys.poke 602 65535).poke 65535 0x64636261).mem.readWord (65535 + BitVec.ofNat 32 (k / 4))).extractLsb' (8 * (k % 4)) 8 ≠ 0 := by
  decide

/-- Network unit 2 on, with one packet of two bytes; buffers at the end of memory. -/
def netState : State :=
  let s := ((((sys.poke 601 2).poke 602 65530).poke 603 65535).poke 604 65535).poke 65535 0x00636261
  { s with nets := s.nets.set 1 (some ⟨(1, 2), [⟨(3, 4), [97, 98]⟩]⟩) }

theorem witness_TerminalInput_network :
    (netState.mem.readWord (600 + 1)).toNat = (1 : Fin 2).val + 1 ∧ netState.nets[(1 : Fin 2)] = some ⟨(1, 2), [⟨(3, 4), [97, 98]⟩]⟩ ∧
    netState.nets[(0 : Fin 2)] = none ∧ netState.mem.readWord (600 + 2) = 65530 ∧ (∀ k < 5, memExists sys.cfg (600 + BitVec.ofNat 32 k) = true) ∧
    (memExists sys.cfg 65530 = true ∧ memExists sys.cfg (65530 + 1) = true) ∧
    (2 = min 1024 ([97, 98] : List Byte).length ∧ ∀ k < (2 + 3) / 4, memExists sys.cfg (65535 + BitVec.ofNat 32 k) = true ∧
      65535 + BitVec.ofNat 32 k ≠ 65530 ∧ 65535 + BitVec.ofNat 32 k ≠ (65530 : Word) + 1) ∧
    ((sys.poke 603 1024).mem.readWord (600 + 3)).toNat < 2 ^ 31 ∧ (∀ k < (1025 + 3) / 4, memExists sys.cfg (64000 + BitVec.ofNat 32 k) = true) ∧
    ((sys.mem.readWord (600 + 1)).toNat = 0 ∧ 2 < ((sys.poke 601 3).mem.readWord (600 + 1)).toNat) ∧
    ([97] : List Byte).length ≤ 1024 ∧ 1024 < (List.replicate 1025 (97 : Byte)).length := by decide +kernel

/-- A unit that is on with no packet, and an address for the sender of which one word is there, or none. -/
theorem witness_TerminalInput_no_packet :
    ({ netState with nets := netState.nets.set 1 (some ⟨(1, 2), []⟩) }).nets[(1 : Fin 2)] = some ⟨(1, 2), []⟩ ∧
    (netState.poke 602 65535).mem.readWord (600 + 2) = 65535 ∧ memExists sys.cfg 65535 = true ∧ memExists sys.cfg (65535 + 1) = false ∧
    (netState.poke 602 65536).mem.readWord (600 + 2) = 65536 ∧ memExists sys.cfg 65536 = false := by decide +kernel

/-- NETSS: the mode word 0 or 1, and the unit on or off. -/
theorem witness_TerminalInput_modes :
    sys.mem.readWord (600 + 2) = 0 ∧ (sys.poke 602 1).mem.readWord (600 + 2) = 1 ∧ netState.nets[(1 : Fin 2)] ≠ none ∧
    (∀ k < 0, (sys.mem.readWord (65535 + BitVec.ofNat 32 (k / 4))).extractLsb' (8 * (k % 4)) 8 ≠ 0) ∧
    (sys.mem.readWord (65535 + BitVec.ofNat 32 (0 / 4))).extractLsb' (8 * (0 % 4)) 8 = 0 := by decide

/-! ### Steps that 95_test_vectors.md part 2 H and the rules give (R160, R251, R261, R262, R263, R461, R484) -/

theorem test_nalt_halts : (match exec .nalt sys with | .next t => t.status == .halted && !t.flags.r | _ => false) = true := by decide
theorem test_break_enters_debugger : (match exec .breakpoint sys with | .next t => t.status == .debugger | _ => false) = true := by decide
theorem test_type_prints : (match exec (.type ⟨false, 0, 72⟩) sys with | .next t => t.events == [.consoleOut 72] | _ => false) = true := by
  decide
theorem test_trace_reports : (match exec (.trace 1 five) (valued 0 9 0) with | .next t => t.events == [.trace 999 9 5] | _ => false) = true := by
  decide
theorem test_inch_takes_one : (match exec (.inch word500) { sys with keyboard := [97, 98] } with
    | .next t => t.mem.readWord 500 == 97 && t.keyboard == [98]
    | _ => false) = true := by decide
theorem test_interrupt_enters_handler : (match deliver ready ⟨.halt, some 1000, none⟩ 1000 with
    | .taken t => t.pc == 501 && t.sysSp == 0 && t.ipl == 1
    | _ => false) = true := by decide
theorem test_key_interrupts : (match step { ready with inputs := [[.key 97]] } with
    | .next t => t.pc == 503 && t.keyboard == [97]
    | _ => false) = true := by decide
theorem test_fetch_word_runs : (match step (State.reset.withFetchWord 32 0x0210FFFF) with
    | .next t => t.readReg 1 == 0xFFFFFFFF && t.pc == 1001
    | _ => false) = true := by decide
theorem test_decodeTableWord : decodeTableWord 32 0x02200024 = some (.load 2 ⟨false, 0, 36⟩) := by decide
theorem test_decodeTableWord_refuses : decodeTableWord 32 0xD8000000 = none := by decide

end Sys2Proof.Tests
end

section
/-! PROOFS. The family 00_scope.md: registers written (R9, R20 to R25) and operands that cannot be written (R12, R470 g). -/

namespace Sys2Proof.Machine

/-! ### A register write (R9, R20 to R25) -/

/-- All that a register write can do: it sets one field, which the number, SYS and FP_BANKED choose. -/
theorem State.writeReg_cases (s : State) (r : Reg) (v : Word) :
    (∃ h : r.val < 13, s.writeReg r v = { s with regs := s.regs.set r.val v }) ∨
    (r.val = 13 ∧ s.flags.sys = true ∧ s.writeReg r v = { s with sysSp := v }) ∨
    (r.val = 13 ∧ s.flags.sys = false ∧ s.writeReg r v = { s with usrSp := v }) ∨
    (r.val = 14 ∧ s.cfg.fpBanked = true ∧ s.flags.sys = true ∧ s.writeReg r v = { s with sysFp := v }) ∨
    (r.val = 14 ∧ s.cfg.fpBanked = true ∧ s.flags.sys = false ∧ s.writeReg r v = { s with usrFp := v }) ∨
    (r.val = 14 ∧ s.cfg.fpBanked = false ∧ s.writeReg r v = { s with plainFp := v }) ∨
    (r.val = 15 ∧ s.writeReg r v = { s with pc := v }) := by
  have number : r.val < 13 ∨ r.val = 13 ∨ r.val = 14 ∨ r.val = 15 := by omega
  rcases number with h | h | h | h
  · exact .inl ⟨h, by simp [State.writeReg, h]⟩
  · cases hs : s.flags.sys <;> simp [State.writeReg, State.writeSp, h, hs]
  · cases hb : s.cfg.fpBanked
    · simp [State.writeReg, State.writeFp, h, hb]
    · cases hs : s.flags.sys <;> simp [State.writeReg, State.writeFp, h, hb, hs]
  · simp [State.writeReg, h]

/-- Settles O12: what is read back are the read-after-write laws, and the frame is read off the one field a write sets. -/
theorem registerWriteFrame : Obligations.RegisterWriteFrame := by
  rintro s _ r v rfl
  refine ⟨s.readReg_writeReg_same r v, fun q hq => s.readReg_writeReg_ne v hq, ?_⟩
  rcases s.writeReg_cases r v with ⟨_, e⟩ | ⟨_, hs, e⟩ | ⟨_, hs, e⟩ | ⟨_, hb, hs, e⟩ | ⟨_, hb, hs, e⟩ | ⟨_, hb, e⟩ | ⟨_, e⟩ <;>
    simp [*]

/-! ### An operand that cannot be written (R12, R470 g) -/

theorem Operand.isRegister_eq_false {o : Operand} (h : ¬ (o.index ≠ 0 ∧ o.number = 0)) : o.isRegister = false := by
  simp only [Operand.isRegister, Bool.and_eq_false_iff, bne_eq_false_iff_eq, beq_eq_false_iff_ne]
  tauto

theorem conclude_raise (s : State) (c : Interrupt) (a : Option Word) :
    conclude s (raise c a) = stopOutcome s s.faultPc (.raised ⟨c, a, none⟩) := rfl

section
variable {s : State} {o : Operand} (direct : o.indirect = false) (noRegister : o.isRegister = false)
include direct noRegister

theorem checkWritable_unwritable : checkWritable s o = raise .unwrop (some s.this) := by
  simp [checkWritable, Operand.isWritable, direct, noRegister]

theorem writeDest_unwritable (v : Word) : writeDest s o v = raise .unwrop (some s.this) := by
  simp [writeDest, direct, noRegister]

/-- An instruction that checks its destination first does nothing else when the check fails. -/
theorem conclude_checkWritable_unwritable (k : Unit → Res State) :
    conclude s (checkWritable s o >>= k) = stopOutcome s s.faultPc (.raised ⟨.unwrop, some (s.pc - 1), none⟩) := by
  rw [checkWritable_unwritable direct noRegister, Res.raise_bind, conclude_raise, State.this]

theorem execStore_unwritable (m : Reg) :
    execStore m o s = stopOutcome s s.faultPc (.raised ⟨.unwrop, some (s.pc - 1), none⟩) := by
  rw [execStore, writeDest_unwritable direct noRegister, conclude_raise, State.this]

theorem execPmemr_unwritable (m : Reg) :
    execPmemr m o s = stopOutcome s s.faultPc (.raised ⟨.unwrop, some (s.pc - 1), none⟩) := by
  rw [execPmemr, if_neg (by simp [noRegister])]
  exact conclude_checkWritable_unwritable direct noRegister _

theorem updateOp_unwritable (f : Word → Word) :
    updateOp f o s = stopOutcome s s.faultPc (.raised ⟨.unwrop, some (s.pc - 1), none⟩) :=
  conclude_checkWritable_unwritable direct noRegister _

end

theorem exec_inc (o : Operand) (s : State) :
    exec (.inc o) s = if o.isConstantZero then .refused .ambiguousIncrement else updateOp (fun v => v + 1) o s := rfl

theorem exec_dec (o : Operand) (s : State) :
    exec (.dec o) s = if o.isConstantZero then .refused .ambiguousIncrement else updateOp (fun v => v - 1) o s := rfl

/-- Settles O26: STORE raises at its only write and the others at the check they begin with; INC and DEC look for the constant 0
before that. -/
theorem unwritableOperandTraps : Obligations.UnwritableOperandTraps := by
  intro s m o
  refine ⟨fun direct notRegister => ?_, fun direct noIndex zero => ?_⟩
  · have noRegister := Operand.isRegister_eq_false notRegister
    simp only [List.forall_mem_cons, List.not_mem_nil, false_implies, implies_true, and_true]
    refine ⟨⟨?store, ?atas, ?pop, ?inch, ?dpbr, ?sbito, ?pmemr⟩, fun notZero => ?update⟩
    case store => exact execStore_unwritable direct noRegister m
    case pmemr => exact execPmemr_unwritable direct noRegister m
    case update =>
      have hz : o.isConstantZero = false := by simpa [Operand.isConstantZero, direct] using notZero
      simp only [exec_inc, exec_dec, hz, Bool.false_eq_true, if_false]
      exact ⟨updateOp_unwritable direct noRegister _, updateOp_unwritable direct noRegister _⟩
    all_goals exact conclude_checkWritable_unwritable direct noRegister _
  · have hz : o.isConstantZero = true := by simp [Operand.isConstantZero, direct, noIndex, zero]
    exact ⟨by rw [exec_inc, if_pos hz], by rw [exec_dec, if_pos hz]⟩

end Sys2Proof.Machine
end

section
/-! PROOFS. The family 10_state.md: what every step keeps, and what user mode may not change (R33, R34, R61, R71, R74, R467, R481). -/

namespace Sys2Proof.Machine

/-! ### What a step keeps -/

/-- What every step of a running processor keeps: the parameters, memory outside what exists, run status and flag R in agreement. -/
structure Sound (s t : State) : Prop where
  cfg : t.cfg = s.cfg
  stored : StoredTo s.cfg s.mem t.mem
  status : (s.flags.r = true ↔ s.status = .running) → (t.flags.r = true ↔ t.status = .running)

theorem Ordinary.sound {s t : State} (h : Ordinary s t) : Sound s t := ⟨h.controls.cfg, h.stored, h.status⟩

theorem Sound.trans {s t u : State} (h : Sound s t) (k : Sound t u) : Sound s u :=
  ⟨k.cfg.trans h.cfg, h.stored.trans (h.cfg ▸ k.stored), k.status ∘ h.status⟩

/-- A write of flags that halts when it has cleared R. -/
theorem Sound.of_flagWrite {s t : State} (running : s.flags.r = true) (cfg : t.cfg = s.cfg) (mem : t.mem = s.mem)
    (status : t.status = if t.flags.r = true then s.status else .halted) : Sound s t := by
  refine ⟨cfg, mem ▸ .refl _, fun agrees => ?_⟩
  have hs : s.status = .running := agrees.1 running
  rw [status]
  cases t.flags.r <;> simp [hs]

/-- The run status agreeing with flag R (R61), as a proposition. -/
theorem State.statusAgrees_iff (s : State) : s.statusAgrees = true ↔ (s.flags.r = true ↔ s.status = .running) := by
  rw [State.statusAgrees, beq_iff_eq, Bool.eq_iff_iff, decide_eq_true_iff]

/-- What a sound step keeps is enough for the invariant of the machine. -/
theorem Sound.consistent {s t : State} (h : Sound s t) (hs : s.consistent = true) : t.consistent = true := by
  simp only [State.consistent, State.storesExist, Bool.and_eq_true, State.statusAgrees_iff] at hs ⊢
  obtain ⟨⟨⟨cfg, wf⟩, exist⟩, agrees⟩ := hs
  rw [h.cfg]
  exact ⟨⟨⟨cfg, h.stored.wf wf⟩, h.stored.exist exist⟩, h.status agrees⟩

/-- Sound, and besides `Ordinary` when it starts in user mode. -/
structure Kept (s t : State) : Prop where
  sound : Sound s t
  user : s.flags.sys = false → Ordinary s t

theorem Ordinary.kept {s t : State} (h : Ordinary s t) : Kept s t := ⟨h.sound, fun _ => h⟩

theorem Kept.of_system {s t : State} (sys : s.flags.sys = true) (h : Sound s t) : Kept s t := ⟨h, fun user => by simp [sys] at user⟩

theorem Kept.ordinary {s t u : State} (h : Kept s t) (k : Ordinary t u) : Kept s u :=
  ⟨h.sound.trans k.sound, fun user => (h.user user).trans k⟩

/-- What goes before may be anything ordinary that leaves the mode as it is. -/
theorem Kept.after {s t u : State} (k : Kept t u) (h : Ordinary s t) (mode : t.flags.sys = s.flags.sys) : Kept s u :=
  ⟨h.sound.trans k.sound, fun user => h.trans (k.user (mode.trans user))⟩

theorem kept_conclude {s t : State} {r : Res State} (h : conclude s r = .next t) (ok : ∀ u, r = .ok u → Kept s u) : Kept s t := by
  rcases conclude_next h with h | ⟨e, -, h⟩
  · exact ok t h
  · exact (ordinary_stopOutcome h).kept

/-! ### The four instructions that write controls (R33) -/

/-- SETFL of a flag that user mode may write (R34). -/
theorem ordinary_writeFlag {s : State} (running : s.flags.r = true) {f : Flag} (free : flagProtected f = false) (b : Bool) :
    Ordinary s (s.writeFlag f b) := by
  cases f with
  | z | n | err => apply Ordinary.of_fields <;> simp [Flags.set, running]
  | r | sys | em | int | vm => cases free

theorem sound_writeFlag {s : State} (running : s.flags.r = true) (f : Flag) (b : Bool) : Sound s (s.writeFlag f b) :=
  .of_flagWrite running (by simp) (by simp) (by simp)

theorem sound_writeFlagsWord {s : State} (running : s.flags.r = true) (w : Word) : Sound s (s.writeFlagsWord w) :=
  .of_flagWrite running (by simp) (by simp) (by simp)

theorem sound_writeSpecial {s : State} (running : s.flags.r = true) (v : Word) (x : SpecialReg) : Sound s (s.writeSpecial v x) := by
  cases x with
  | flags => exact sound_writeFlagsWord running v
  | _ => exact ⟨rfl, .refl _, id⟩

/-- What IRET does to the fields the invariant speaks of is what its write of the FLAGS word does. -/
theorem restoreContext_fields (s : State) (c : SavedContext) :
    (restoreContext s c).cfg = s.cfg ∧ (restoreContext s c).mem = s.mem ∧
    (restoreContext s c).flags = flagsOfWord s.cfg.flagNum c.flags ∧
    (restoreContext s c).status = if (flagsOfWord s.cfg.flagNum c.flags).r = true then s.status else .halted := by
  simp only [restoreContext]
  split
  · split <;> simp
  · simp

theorem sound_restoreContext {s : State} (running : s.flags.r = true) (c : SavedContext) : Sound s (restoreContext s c) := by
  obtain ⟨cfg, mem, flags, status⟩ := restoreContext_fields s c
  exact .of_flagWrite running cfg mem (by rw [flags, status])

theorem kept_execSetfl {s t : State} {m : Reg} {o : Operand} (running : s.flags.r = true) (h : execSetfl m o s = .next t) :
    Kept s t := by
  refine kept_conclude h fun u hu => ?_
  obtain ⟨n, -, hu⟩ := Res.bind_ok.1 hu
  split at hu
  · next f _ =>
    split at hu
    · exact absurd hu (raise_ne_ok _ _ _)
    · next allowed =>
      cases hu
      refine ⟨sound_writeFlag running f _, fun user => ordinary_writeFlag running ?_ _⟩
      simpa [user] using allowed
  · exact absurd hu (refuse_ne_ok _ _)

theorem kept_execSetsr {s t : State} {m : Reg} {o : Operand} (running : s.flags.r = true) (h : execSetsr m o s = .next t) :
    Kept s t := by
  refine kept_conclude h fun u hu => ?_
  obtain ⟨sys, hu⟩ := privileged_ok hu
  obtain ⟨n, -, hu⟩ := Res.bind_ok.1 hu
  split at hu
  · cases hu
    exact .of_system sys (sound_writeSpecial running _ _)
  · exact absurd hu (refuse_ne_ok _ _)

theorem kept_execFlagsj {s t : State} {m : Reg} {o : Operand} (running : s.flags.r = true) (h : execFlagsj m o s = .next t) :
    Kept s t := by
  refine kept_conclude h fun u hu => ?_
  obtain ⟨sys, hu⟩ := privileged_ok hu
  obtain ⟨v, -, hu⟩ := Res.bind_ok.1 hu
  cases hu
  exact .of_system sys ((sound_writeFlagsWord running _).trans (ordinary_pc _ v).sound)

theorem kept_execIret {s t : State} (running : s.flags.r = true) (h : execIret s = .next t) : Kept s t := by
  refine kept_conclude h fun u hu => ?_
  obtain ⟨sys, hu⟩ := privileged_ok hu
  obtain ⟨c, -, hu⟩ := Res.bind_ok.1 hu
  cases hu
  exact .of_system sys (sound_restoreContext running c)

/-! ### Every instruction -/

/-- Every instruction is ordinary but the four (R33). -/
theorem exec_next {i : Instr} {s t : State} (h : exec i s = .next t) :
    Ordinary s t ∨ (∃ m o, i = .setfl m o) ∨ (∃ m o, i = .setsr m o) ∨ (∃ m o, i = .flagsj m o) ∨ i = .iret := by
  cases i with
  | setfl main o => exact .inr (.inl ⟨main, o, rfl⟩)
  | setsr main o => exact .inr (.inr (.inl ⟨main, o, rfl⟩))
  | flagsj main o => exact .inr (.inr (.inr (.inl ⟨main, o, rfl⟩)))
  | iret => exact .inr (.inr (.inr (.inr rfl)))
  | halt => exact .inl (ordinary_execHalt h)
  | load main o => exact .inl (ordinary_execLoad _ _ h)
  | loadh main o => exact .inl (ordinary_execLoadh _ _ h)
  | store main o => exact .inl (ordinary_execStore _ _ h)
  | inc o => exact .inl (ordinary_execInc _ h)
  | dec o => exact .inl (ordinary_execDec _ h)
  | add main o => exact .inl (ordinary_execAdd _ _ h)
  | sub main o => exact .inl (ordinary_execSub _ _ h)
  | mul main o => exact .inl (ordinary_execMul _ _ h)
  | div main o => exact .inl (ordinary_execDiv _ _ h)
  | mod main o => exact .inl (ordinary_execMod _ _ h)
  | rsub main o => exact .inl (ordinary_execRsub _ _ h)
  | rdiv main o => exact .inl (ordinary_execRdiv _ _ h)
  | rmod main o => exact .inl (ordinary_execRmod _ _ h)
  | and main o => exact .inl (ordinary_execAnd _ _ h)
  | or main o => exact .inl (ordinary_execOr _ _ h)
  | xor main o => exact .inl (ordinary_execXor _ _ h)
  | not main o => exact .inl (ordinary_execNot _ _ h)
  | shl main o => exact .inl (ordinary_execShl _ _ h)
  | shr main o => exact .inl (ordinary_execShr _ _ h)
  | comp main o => exact .inl (ordinary_execComp _ _ h)
  | compz o => exact .inl (ordinary_execCompz _ h)
  | tbit main o => exact .inl (ordinary_execTbit _ _ h)
  | sbit main o => exact .inl (ordinary_execSbit _ _ h)
  | cbit main o => exact .inl (ordinary_execCbit _ _ h)
  | jump o => exact .inl (ordinary_execJump _ h)
  | jzer main o => exact .inl (ordinary_execJzer _ _ h)
  | jpos main o => exact .inl (ordinary_execJpos _ _ h)
  | jneg main o => exact .inl (ordinary_execJneg _ _ h)
  | jcond cond o => exact .inl (ordinary_execJcond _ _ h)
  | getfl main o => exact .inl (ordinary_execGetfl _ _ h)
  | getsr main o => exact .inl (ordinary_execGetsr _ _ h)
  | push o => exact .inl (ordinary_execPush _ h)
  | pop o => exact .inl (ordinary_execPop _ h)
  | call o => exact .inl (ordinary_execCall _ h)
  | ret => exact .inl (ordinary_execRet h)
  | ldch main o => exact .inl (ordinary_execLdch _ _ h)
  | stch main o => exact .inl (ordinary_execStch _ _ h)
  | peri main o => exact .inl (ordinary_execPeri _ _ h)
  | pause o => exact .inl (ordinary_execPause _ h)
  | breakpoint => exact .inl (ordinary_execBreakpoint h)
  | syscall main o => exact .inl (ordinary_execSyscall _ _ h)
  | atas main o => exact .inl (ordinary_execAtas _ _ h)
  | phload main o => exact .inl (ordinary_execPhload _ _ h)
  | phstore main o => exact .inl (ordinary_execPhstore _ _ h)
  | vtran main o => exact .inl (ordinary_execVtran _ _ h)
  | move main o => exact .inl (ordinary_execMove _ _ h)
  | sign main o => exact .inl (ordinary_execSign _ _ h)
  | fadd main o => exact .inl (ordinary_execFadd _ _ h)
  | fsub main o => exact .inl (ordinary_execFsub _ _ h)
  | fmul main o => exact .inl (ordinary_execFmul _ _ h)
  | fdiv main o => exact .inl (ordinary_execFdiv _ _ h)
  | fcomp main o => exact .inl (ordinary_execFcomp _ _ h)
  | fcompz o => exact .inl (ordinary_execFcompz _ h)
  | fix main o => exact .inl (ordinary_execFix _ _ h)
  | frnd main o => exact .inl (ordinary_execFrnd _ _ h)
  | float main o => exact .inl (ordinary_execFloat _ _ h)
  | flog main o => exact .inl (ordinary_execFlog _ _ h)
  | fexp main o => exact .inl (ordinary_execFexp _ _ h)
  | fsqrt main o => exact .inl (ordinary_execFsqrt _ _ h)
  | fsin main o => exact .inl (ordinary_execFsin _ _ h)
  | fcos main o => exact .inl (ordinary_execFcos _ _ h)
  | fatan main o => exact .inl (ordinary_execFatan _ _ h)
  | fabs main o => exact .inl (ordinary_execFabs _ _ h)
  | floor main o => exact .inl (ordinary_execFloor _ _ h)
  | fsign main o => exact .inl (ordinary_execFsign _ _ h)
  | ffo main o => exact .inl (ordinary_execFfo _ _ h)
  | flz main o => exact .inl (ordinary_execFlz _ _ h)
  | rand main => exact .inl (ordinary_execRand _ h)
  | trace main o => exact .inl (ordinary_execTrace _ _ h)
  | type o => exact .inl (ordinary_execType _ h)
  | inch o => exact .inl (ordinary_execInch _ h)
  | andn main o => exact .inl (ordinary_execAndn _ _ h)
  | orn main o => exact .inl (ordinary_execOrn _ _ h)
  | neg main o => exact .inl (ordinary_execNeg _ _ h)
  | fneg main o => exact .inl (ordinary_execFneg _ _ h)
  | rotl main o => exact .inl (ordinary_execRotl _ _ h)
  | rotr main o => exact .inl (ordinary_execRotr _ _ h)
  | asr main o => exact .inl (ordinary_execAsr _ _ h)
  | exbr main o => exact .inl (ordinary_execExbr _ _ h)
  | exbrv main o => exact .inl (ordinary_execExbrv _ _ h)
  | dpbr main o => exact .inl (ordinary_execDpbr _ _ h)
  | dpbrv main o => exact .inl (ordinary_execDpbrv _ _ h)
  | adjs main o => exact .inl (ordinary_execAdjs _ _ h)
  | uexbr main o => exact .inl (ordinary_execUexbr _ _ h)
  | uexbrv main o => exact .inl (ordinary_execUexbrv _ _ h)
  | ucomp main o => exact .inl (ordinary_execUcomp _ _ h)
  | umul main o => exact .inl (ordinary_execUmul _ _ h)
  | udiv main o => exact .inl (ordinary_execUdiv _ _ h)
  | umod main o => exact .inl (ordinary_execUmod _ _ h)
  | clrpp o => exact .inl (ordinary_execClrpp _ h)
  | zero main o => exact .inl (ordinary_execZero _ _ h)
  | lbitf main o => exact .inl (ordinary_execLbitf _ _ h)
  | lbito main o => exact .inl (ordinary_execLbito _ _ h)
  | sbitf main o => exact .inl (ordinary_execSbitf _ _ h)
  | sbito main o => exact .inl (ordinary_execSbito _ _ h)
  | pmemr main o => exact .inl (ordinary_execPmemr _ _ h)
  | ffnz main o => exact .inl (ordinary_execFfnz _ _ h)
  | nop => exact .inl (ordinary_execNop h)
  | sext main o => exact .inl (ordinary_execSext _ _ h)
  | intr main o => exact .inl (ordinary_execIntr _ _ h)
  | mpush o => exact .inl (ordinary_execMpush _ h)
  | mpop o => exact .inl (ordinary_execMpop _ h)
  | fgood o => exact .inl (ordinary_execFgood _ h)
  | nalt => exact .inl (ordinary_execNalt h)

/-- Settles O9: of the instructions only the four are not ordinary, and ordinary ones keep the controls. -/
theorem onlyFourInstructionsWriteControls : Obligations.OnlyFourInstructionsWriteControls := by
  intro i s t setfl setsr flagsj iret h
  rcases exec_next h with ord | ⟨m, o, e⟩ | ⟨m, o, e⟩ | ⟨m, o, e⟩ | e
  · exact ord.controls
  · exact absurd e (setfl m o)
  · exact absurd e (setsr m o)
  · exact absurd e (flagsj m o)
  · exact absurd e iret

theorem kept_exec {i : Instr} {s t : State} (running : s.flags.r = true) (h : exec i s = .next t) : Kept s t := by
  rcases exec_next h with ord | ⟨m, o, rfl⟩ | ⟨m, o, rfl⟩ | ⟨m, o, rfl⟩ | rfl
  · exact ord.kept
  · exact kept_execSetfl running h
  · exact kept_execSetsr running h
  · exact kept_execFlagsj running h
  · exact kept_execIret running h

/-! ### The step -/

theorem ordinary_advanced (s : State) : Ordinary s s.advanced := ordinary_pc s _
theorem ordinary_tick (s : State) : Ordinary s s.tick := by apply Ordinary.of_fields <;> simp
theorem ordinary_receive (s : State) (n : Nat) (p : Packet) : Ordinary s (s.receive n p) := by apply Ordinary.of_fields <;> simp
theorem ordinary_timerPending (s : State) (b : Bool) : Ordinary s { s with timerPending := b } := by apply Ordinary.of_fields <;> simp
theorem ordinary_inputs (s : State) (l : List (List HostInput)) : Ordinary s { s with inputs := l } := by
  apply Ordinary.of_fields <;> simp

theorem ordinary_applyInputs (s : State) (l : List HostInput) : Ordinary s (applyInputs s l).1 := by
  induction l generalizing s with
  | nil => exact .refl s
  | cons x more ih =>
    cases x with
    | key c => exact (ordinary_keyboard s _).trans (ih _)
    | controlC => exact ordinary_enterDebugger s
    | packet n p => exact (ordinary_receive s n p).trans (ih _)

/-- What the host does changes no flag, unless it ends the run. -/
theorem applyInputs_flags (s : State) (l : List HostInput) (goesOn : (applyInputs s l).2 = false) :
    (applyInputs s l).1.flags = s.flags := by
  induction l generalizing s with
  | nil => rfl
  | cons x more ih =>
    cases x with
    | key c => exact ih _ goesOn
    | controlC => cases goesOn
    | packet n p => exact (ih _ goesOn).trans (s.receive_flags n p)

theorem ordinary_acceptInput (s : State) : Ordinary s (acceptInput s).1 := by
  unfold acceptInput
  split
  · exact .refl s
  · exact (ordinary_inputs s _).trans (ordinary_applyInputs _ _)

theorem acceptInput_flags (s : State) (goesOn : (acceptInput s).2 = false) : (acceptInput s).1.flags = s.flags := by
  unfold acceptInput at goesOn ⊢
  split at goesOn
  · rfl
  · exact applyInputs_flags _ _ goesOn

/-- A step's instruction is executed with the PC advanced, or what stops it before that is taken. -/
theorem instructionOutcome_next {s t : State} (h : instructionOutcome s = .next t) :
    Ordinary s t ∨ ∃ i, exec i s.advanced = .next t := by
  unfold instructionOutcome at h
  split at h
  · exact .inl (ordinary_stopOutcome h)
  · split at h
    · exact .inl (ordinary_stopOutcome h)
    · split at h
      · next i _ => exact .inr ⟨i, h⟩
      · exact .inl ((ordinary_advanced s).trans (ordinary_conclude h fun u hu => absurd hu (raise_ne_ok _ _ _)))

theorem ticked_next {r : Host.Outcome State Fault Refusal} {t : State} (h : ticked r = .next t) : ∃ u, r = .next u ∧ t = u.tick := by
  cases r with
  | next u => exact ⟨u, rfl, (Host.Outcome.next.inj h).symm⟩
  | fault f => cases h
  | refused r => cases h

theorem kept_executeOne {s t : State} (running : s.flags.r = true) (h : executeOne s = .next t) : Kept s t := by
  obtain ⟨u, hu, rfl⟩ := ticked_next h
  refine Kept.ordinary ?_ (ordinary_tick u)
  rcases instructionOutcome_next hu with ord | ⟨i, hi⟩
  · exact ord.kept
  · have executed : Kept s.advanced u := kept_exec running hi
    exact executed.after (ordinary_advanced s) rfl

theorem keyboardInterrupt_taken {s t : State} (h : keyboardInterrupt s = .taken t) :
    deliver s ⟨.keybd, none, none⟩ s.pc = .taken t := by
  unfold keyboardInterrupt at h
  split at h
  · cases h
  · exact h

theorem timerInterrupt_taken {s t : State} (h : timerInterrupt s = .taken t) : deliver s ⟨.timer, none, none⟩ s.pc = .taken t := by
  unfold timerInterrupt at h
  split at h
  · exact h
  · cases h

theorem kept_afterInput {s t : State} (running : s.flags.r = true) (h : afterInput s = .next t) : Kept s t := by
  unfold afterInput at h
  split at h
  · next hk =>
    cases h
    exact (ordinary_deliver (keyboardInterrupt_taken hk)).kept
  · cases h
  all_goals
    split at h
    · next ht =>
      cases h
      exact ((ordinary_deliver (timerInterrupt_taken ht)).trans (ordinary_timerPending _ _)).kept
    · cases h
    · exact kept_executeOne running h
    · have kept : Kept { s with timerPending := false } t := kept_executeOne running h
      exact kept.after (ordinary_timerPending s _) rfl

/-- Every step, of a processor that runs or of one that does not. -/
theorem kept_step {s t : State} (h : step s = .next t) : Kept s t := by
  unfold step cycle at h
  split at h
  · next running =>
    have accepted := ordinary_acceptInput s
    have flags := acceptInput_flags s
    split at h
    · next hu =>
      rw [hu] at accepted
      cases h
      exact accepted.kept
    · next u hu =>
      rw [hu] at accepted flags
      have same : u.flags = s.flags := flags rfl
      exact (kept_afterInput (by rw [same, running]) h).after accepted (by rw [same])
  · cases h
    exact (Ordinary.refl s).kept

/-- Settles O5: every step is sound. -/
theorem everyStepKeepsConsistency : Obligations.EveryStepKeepsConsistency :=
  fun _ _ consistent h => (kept_step h).sound.consistent consistent

/-- Settles O8: a step from user mode is ordinary, since SETSR, FLAGSJ and IRET trap there and SETFL writes Z, N and ERR only. -/
theorem userModeIsContained : Obligations.UserModeIsContained := fun _ _ user h =>
  have ord := (kept_step h).user user
  ⟨ord.controls, ord.level user⟩

end Sys2Proof.Machine
end

section
/-! PROOFS. The family 10_state.md: the FLAGS word, the flag and special-register instructions, privilege (R23, R24, R31 to R34, R40, R41,
R56, R160, R210 to R213, R264, R481). -/

namespace Sys2Proof.Machine

/-! ### Flags by number (R31) -/

theorem Flag.mem_all (f : Flag) : f ∈ Flag.all := by cases f <;> decide

/-- Under a well-formed FLAGNUM every flag has a bit of its own, above IPL. -/
theorem FlagNumbers.of_bounds {k : FlagNumbers} (h : k.wf = true) (f : Flag) : 5 ≤ k.of f ∧ k.of f < 32 := by
  obtain ⟨r, z, n, err, sys, em, int, vm, -⟩ := flagNum_wf h
  cases f <;> assumption

theorem FlagNumbers.of_injective {k : FlagNumbers} (h : k.wf = true) {f g : Flag} (e : k.of f = k.of g) : f = g := by
  obtain ⟨-, -, -, -, -, -, -, -, distinct⟩ := flagNum_wf h
  exact List.inj_on_of_nodup_map distinct (Flag.mem_all f) (Flag.mem_all g) e

/-- The search by number finds the flag that has the number. -/
theorem flagOfNumber_of {c : Config} (h : c.flagNum.wf = true) {n : Word} {f : Flag} (hn : n.toNat = c.flagNum.of f) :
    flagOfNumber c n = some f := by
  cases found : flagOfNumber c n with
  | none =>
    have := List.find?_eq_none.1 found f (Flag.mem_all f)
    simp [hn] at this
  | some g =>
    have hg : c.flagNum.of g = n.toNat := by simpa using List.find?_some found
    rw [FlagNumbers.of_injective h (hg.trans hn)]

theorem flagOfNumber_none {c : Config} {n : Word} (hn : ∀ f, n.toNat ≠ c.flagNum.of f) : flagOfNumber c n = none :=
  List.find?_eq_none.2 fun f _ => by simpa using (hn f).symm

theorem flagsOfWord_get (k : FlagNumbers) (w : Word) (f : Flag) : (flagsOfWord k w).get f = w.getLsbD (k.of f) := by cases f <;> rfl

/-! ### The FLAGS word (R31, R32, R41) -/

theorem flagsWord_flag {s : State} (h : s.cfg.flagNum.wf = true) (f : Flag) :
    s.flagsWord.getLsbD (s.cfg.flagNum.of f) = s.flags.get f := by
  rw [← flagsOfWord_get, flagsOfWord_flagsWord h]

/-- A bit above IPL that is no flag's reads 0 (entry 11). -/
theorem flagsWord_other {s : State} (h : s.cfg.flagNum.wf = true) {i : Nat} (above : 5 ≤ i)
    (other : ∀ f, s.cfg.flagNum.of f ≠ i) : s.flagsWord.getLsbD i = false := by
  obtain ⟨r, z, n, err, sys, em, int, vm, -⟩ := flagNum_wf h
  simp only [State.flagsWord, BitVec.getLsbD_or, BitVec.getLsbD_setWidth, BitVec.getLsbD_of_ge s.ipl i above, bitAt_getLsbD _ r.2,
    bitAt_getLsbD _ z.2, bitAt_getLsbD _ n.2, bitAt_getLsbD _ err.2, bitAt_getLsbD _ sys.2, bitAt_getLsbD _ em.2,
    bitAt_getLsbD _ int.2, bitAt_getLsbD _ vm.2]
  simp [show i ≠ s.cfg.flagNum.r from (other .r).symm, show i ≠ s.cfg.flagNum.z from (other .z).symm,
    show i ≠ s.cfg.flagNum.n from (other .n).symm, show i ≠ s.cfg.flagNum.err from (other .err).symm,
    show i ≠ s.cfg.flagNum.sys from (other .sys).symm, show i ≠ s.cfg.flagNum.em from (other .em).symm,
    show i ≠ s.cfg.flagNum.int from (other .int).symm, show i ≠ s.cfg.flagNum.vm from (other .vm).symm]

theorem State.noteHalt_eq (s : State) : s.noteHalt = { s with status := if s.flags.r = true then s.status else .halted } := by
  unfold State.noteHalt
  split <;> rfl

/-- Writing back the FLAGS word of a running processor changes nothing. -/
theorem writeFlagsWord_flagsWord {s : State} (h : s.cfg.flagNum.wf = true) (running : s.flags.r = true) :
    s.writeFlagsWord s.flagsWord = s := by
  rw [State.writeFlagsWord, flagsOfWord_flagsWord h, ipl_flagsWord h, State.noteHalt_eq, if_pos running]

/-- The flag that bit i is under the default FLAGNUM (D3). -/
theorem defaultFlagNum_cover {i : Nat} (low : 5 ≤ i) (high : i < 13) : ∃ f, defaultFlagNum.of f = i := by
  interval_cases i
  exacts [⟨.r, rfl⟩, ⟨.z, rfl⟩, ⟨.n, rfl⟩, ⟨.err, rfl⟩, ⟨.sys, rfl⟩, ⟨.em, rfl⟩, ⟨.int, rfl⟩, ⟨.vm, rfl⟩]

theorem defaultFlagNum_lt (f : Flag) : defaultFlagNum.of f < 13 := by cases f <;> decide

theorem and_lowBits_getLsbD (w : Word) {i : Nat} (hi : i < 32) :
    (w &&& 0x00001FFF#32).getLsbD i = (w.getLsbD i && decide (i < 13)) := by
  rw [BitVec.getLsbD_and]
  congr 1
  interval_cases i <;> rfl

/-- Under the default FLAGNUM the FLAGS word has no field above bit 12, so those bits of a word written are lost. -/
theorem flagsWord_writeFlagsWord {s : State} (default : s.cfg.flagNum = defaultFlagNum) (w : Word) :
    (s.writeFlagsWord w).flagsWord = w &&& 0x00001FFF#32 := by
  have cfg : (s.writeFlagsWord w).cfg.flagNum = defaultFlagNum := by rw [State.writeFlagsWord_cfg, default]
  have wf : (s.writeFlagsWord w).cfg.flagNum.wf = true := by rw [cfg]; decide
  have flag (f : Flag) : (s.writeFlagsWord w).flagsWord.getLsbD (defaultFlagNum.of f) = w.getLsbD (defaultFlagNum.of f) := by
    have := flagsWord_flag wf f
    rwa [cfg, State.writeFlagsWord_flags, flagsOfWord_get, default] at this
  have ipl : (s.writeFlagsWord w).flagsWord.extractLsb' 0 5 = w.extractLsb' 0 5 := by rw [ipl_flagsWord wf, State.writeFlagsWord_ipl]
  apply BitVec.eq_of_getLsbD_eq
  intro i hi
  rw [and_lowBits_getLsbD w hi]
  rcases lt_or_ge i 5 with low | above
  · have := congrArg (·.getLsbD i) ipl
    simp only [BitVec.getLsbD_extractLsb', low, decide_true, Bool.true_and, Nat.zero_add] at this
    simp [this, show i < 13 by omega]
  · rcases lt_or_ge i 13 with field | none
    · obtain ⟨f, rfl⟩ := defaultFlagNum_cover above field
      simp [flag, field]
    · have other : ∀ f, (s.writeFlagsWord w).cfg.flagNum.of f ≠ i := fun f => by
        rw [cfg]
        exact ((defaultFlagNum_lt f).trans_le none).ne
      simp [flagsWord_other wf above other, show ¬ i < 13 by omega]

/-- Settles O18: each bit of the word is a flag's, IPL's, or nobody's. -/
theorem flagsWordRoundTrip : Obligations.FlagsWordRoundTrip := by
  refine ⟨fun s wf => ⟨flagsWord_flag wf, ipl_flagsWord wf, fun i => flagsWord_other wf⟩, fun s w _ => ⟨fun f => ?_, ?_⟩,
    fun s wf running => writeFlagsWord_flagsWord wf running, fun s w default => flagsWord_writeFlagsWord default w⟩
  · rw [State.writeFlagsWord_flags, flagsOfWord_get]
  · rw [State.writeFlagsWord_ipl]

/-! ### Privilege (R34, R160, R264, R481) -/

/-- A privileged operation does nothing in user mode but raise PRIVOP. -/
theorem conclude_privileged_user {s : State} (user : s.flags.sys = false) (k : Res State) :
    conclude s (privileged s k) = stopOutcome s s.faultPc (.raised ⟨.privop, some (s.pc - 1), none⟩) := by
  rw [privileged_user user, conclude_raise, State.this]

theorem execClrpp_user {s : State} (user : s.flags.sys = false) (o : Operand) :
    execClrpp o s = stopOutcome s s.faultPc (.raised ⟨.privop, some (s.pc - 1), none⟩) := by
  rw [execClrpp, if_pos (by simp [user]), conclude_raise, State.this]

theorem haltOp_user {s : State} (user : s.flags.sys = false) :
    haltOp s = stopOutcome s s.faultPc (.raised ⟨.halt, some (s.pc - 1), none⟩) := by
  rw [haltOp, if_neg (by simp [user]), conclude_raise, State.this]

/-- SETFL of a flag, by the privilege it needs (R211). -/
theorem execSetfl_flag {s : State} {m : Reg} {o : Operand} {v : Word} {f : Flag} (read : operandValue s o = .ok v)
    (found : flagOfNumber s.cfg v = some f) :
    execSetfl m o s =
      if (flagProtected f && !s.flags.sys) = true then stopOutcome s s.faultPc (.raised ⟨.privop, some (s.pc - 1), none⟩)
      else .next (s.writeFlag f (s.readReg m != 0)) := by
  simp only [execSetfl, read, Res.ok_bind, found]
  split
  · rw [conclude_raise, State.this]
  · rfl

/-- Settles O24: each operation begins with its privilege check, SETFL after its operand. -/
theorem privilegedOperationsTrap : Obligations.PrivilegedOperationsTrap := by
  intro s m o user
  refine ⟨?privileged, ?halt, fun f hf wf read => ?setfl⟩
  case privileged =>
    simp only [List.forall_mem_cons, List.not_mem_nil, false_implies, implies_true, and_true]
    refine ⟨?setsr, ?peri, ?iret, ?phload, ?phstore, ?flagsj, ?clrpp⟩
    case clrpp => exact execClrpp_user user o
    all_goals exact conclude_privileged_user user _
  case halt =>
    simp only [List.forall_mem_cons, List.not_mem_nil, false_implies, implies_true, and_true]
    exact ⟨haltOp_user user, haltOp_user user⟩
  case setfl =>
    have number : (BitVec.ofNat 32 (s.cfg.flagNum.of f)).toNat = s.cfg.flagNum.of f := by
      have := FlagNumbers.of_bounds wf f
      rw [BitVec.toNat_ofNat]
      omega
    have guarded : flagProtected f = true := by
      simp only [List.mem_cons, List.not_mem_nil, or_false] at hf
      rcases hf with rfl | rfl | rfl | rfl | rfl <;> rfl
    exact (execSetfl_flag read (flagOfNumber_of wf number)).trans (if_pos (by simp [guarded, user]))

/-! ### GETFL and SETFL (R210, R211) -/

theorem State.drawn_writeReg (s : State) (r : Reg) (v : Word) : (s.writeReg r v).drawn = { s.writeReg r v with draws := s.draws + 1 } := by
  rw [State.drawn, State.writeReg_draws]

theorem State.writeFlag_eq (s : State) (f : Flag) (b : Bool) :
    s.writeFlag f b = { s with
      flags := s.flags.set b f
      status := if (s.flags.set b f).r = true then s.status else .halted } := by
  rw [State.writeFlag, State.noteHalt_eq]

/-- Settles O39: the number finds its flag or none, and SETFL's privilege check lets system mode and Z, N and ERR pass. -/
theorem flagInstructions : Obligations.FlagInstructions := by
  intro s m o v wf read
  refine ⟨fun f hv => ?named, fun hv => ?unnamed⟩
  case named =>
    have found := flagOfNumber_of wf hv
    refine ⟨?_, fun allowed => ?_⟩
    · show execGetfl m o s = _
      simp only [execGetfl, read, Res.ok_bind, found]
      rfl
    · have passes : ¬ (flagProtected f && !s.flags.sys) = true := by
        rcases allowed with sys | rfl | rfl | rfl <;> simp [flagProtected, *]
      exact (execSetfl_flag read found).trans (by rw [if_neg passes, State.writeFlag_eq])
  case unnamed =>
    have none := flagOfNumber_none hv
    refine ⟨⟨s.freeBit, ?_⟩, ?_⟩
    · show execGetfl m o s = _
      simp only [execGetfl, read, Res.ok_bind, none, State.drawn_writeReg]
      rfl
    · show execSetfl m o s = _
      simp only [execSetfl, read, Res.ok_bind, none]
      rfl

/-! ### GETSR and SETSR (R212, R213) -/

theorem readSpecial_writeSpecial_same (s : State) (w : Word) {x : SpecialReg} (notFlags : x ≠ .flags) (notIpl : x ≠ .ipl) :
    (s.writeSpecial w x).readSpecial x = w := by
  cases x with
  | flags => exact absurd rfl notFlags
  | ipl => exact absurd rfl notIpl
  | _ => rfl

/-- IPL apart, no special register is part of the FLAGS word. -/
theorem flagsWord_writeSpecial (s : State) (w : Word) {x : SpecialReg} (notFlags : x ≠ .flags) (notIpl : x ≠ .ipl) :
    (s.writeSpecial w x).flagsWord = s.flagsWord := by
  cases x with
  | flags => exact absurd rfl notFlags
  | ipl => exact absurd rfl notIpl
  | _ => rfl

theorem readSpecial_writeSpecial_ne (s : State) (w : Word) {x y : SpecialReg} (notFlags : x ≠ .flags) (ne : y ≠ x)
    (other : y ≠ .flags) : (s.writeSpecial w x).readSpecial y = s.readSpecial y := by
  cases x with
  | flags => exact absurd rfl notFlags
  | _ =>
    cases y with
    | flags => exact absurd rfl other
    | _ => simp [State.readSpecial, State.writeSpecial] at ne ⊢

/-- IPL written reads back with its low five bits (R32). -/
theorem readSpecial_writeSpecial_ipl (s : State) (w : Word) : (s.writeSpecial w .ipl).readSpecial .ipl = w &&& 31 := by
  show (w.extractLsb' 0 5).setWidth 32 = w &&& 31#32
  apply BitVec.eq_of_toNat_eq
  rw [BitVec.toNat_setWidth, BitVec.extractLsb'_toNat, BitVec.toNat_and, show (31#32 : Word).toNat = 2 ^ 5 - 1 from rfl,
    Nat.and_two_pow_sub_one_eq_mod]
  simp only [Nat.shiftRight_zero]
  omega

theorem readSpecial_ipl (s : State) : s.readSpecial .ipl = BitVec.ofNat 32 s.ipl.toNat := by
  show s.ipl.setWidth 32 = _
  apply BitVec.eq_of_toNat_eq
  rw [BitVec.toNat_setWidth, BitVec.toNat_ofNat]

theorem execGetsr_read {s : State} {m : Reg} {o : Operand} {v : Word} (read : operandValue s o = .ok v) :
    execGetsr m o s = .next (s.put m ((specialOfNumber s.cfg v).map s.readSpecial)) := by
  simp only [execGetsr, read, Res.ok_bind, conclude]

theorem execSetsr_named {s : State} {m : Reg} {o : Operand} {v : Word} {x : SpecialReg} (sys : s.flags.sys = true)
    (read : operandValue s o = .ok v) (named : specialOfNumber s.cfg v = some x) :
    execSetsr m o s = .next (s.writeSpecial (s.readReg m) x) := by
  rw [execSetsr, privileged_system sys, read, Res.ok_bind, named, conclude]

theorem execSetsr_unnamed {s : State} {m : Reg} {o : Operand} {v : Word} (sys : s.flags.sys = true)
    (read : operandValue s o = .ok v) (unnamed : specialOfNumber s.cfg v = none) :
    execSetsr m o s = .refused .notASpecialRegister := by
  rw [execSetsr, privileged_system sys, read, Res.ok_bind, unnamed, refuse, conclude, stopOutcome]

theorem getsr_setsr {s : State} {m : Reg} {o : Operand} {v : Word} (read : operandValue s o = .ok v) :
    (∀ x : SpecialReg, s.cfg.srNum[v.toNat]? = some x →
      exec (.getsr m o) s = .next (s.writeReg m (s.readSpecial x)) ∧
      (s.flags.sys = true → exec (.setsr m o) s = .next (s.writeSpecial (s.readReg m) x))) ∧
    (s.cfg.srNum[v.toNat]? = none →
      (∃ w, exec (.getsr m o) s = .next { s.writeReg m w with draws := s.draws + 1 }) ∧
      (s.flags.sys = true → exec (.setsr m o) s = .refused .notASpecialRegister)) := by
  have getsr : exec (.getsr m o) s = .next (s.put m ((specialOfNumber s.cfg v).map s.readSpecial)) := execGetsr_read read
  refine ⟨fun x named => ?_, fun unnamed => ?_⟩
  · have found : specialOfNumber s.cfg v = some x := named
    exact ⟨by rw [getsr, found]; rfl, fun sys => execSetsr_named sys read found⟩
  · have none : specialOfNumber s.cfg v = none := unnamed
    exact ⟨⟨s.free, by rw [getsr, none, Option.map_none, State.put, State.drawn_writeReg]⟩,
      fun sys => execSetsr_unnamed sys read none⟩

/-- Registers 13 and 14 are the special registers of the mode's bank (R23, R24). -/
theorem readReg_banked (s : State) :
    s.readReg 13 = s.readSpecial (if s.flags.sys = true then .syssp else .usrsp) ∧
    (s.cfg.fpBanked = true → s.readReg 14 = s.readSpecial (if s.flags.sys = true then .sysfp else .usrfp)) := by
  refine ⟨?_, fun banked => ?_⟩
  · show s.readSp = _
    unfold State.readSp
    split <;> rfl
  · show s.readFp = _
    rw [State.readFp, if_pos banked]
    split <;> rfl

/-- Settles O40: the two instructions by number, what reads back, the cells by name, the banked registers. -/
theorem specialRegisterInstructions : Obligations.SpecialRegisterInstructions := by
  refine ⟨fun s m o v read => getsr_setsr read, fun s w x notFlags notIpl => ⟨?_, ?_, fun y ne other => ?_⟩,
    fun s w => ⟨readSpecial_writeSpecial_ipl s w, rfl⟩, fun s => ?read, fun s w => ?write, readReg_banked⟩
  · exact readSpecial_writeSpecial_same s w notFlags notIpl
  · exact flagsWord_writeSpecial s w notFlags notIpl
  · exact readSpecial_writeSpecial_ne s w notFlags ne other
  case read => exact ⟨rfl, rfl, rfl, rfl, rfl, rfl, rfl, rfl, rfl, rfl, rfl, rfl, rfl, readSpecial_ipl s, rfl⟩
  case write =>
    refine ⟨?_, rfl, rfl, rfl, rfl, rfl, rfl, rfl, rfl, rfl, rfl, rfl, rfl, rfl, rfl⟩
    rw [State.writeSpecial, State.writeFlagsWord, State.noteHalt_eq]

end Sys2Proof.Machine
end

section
/-! PROOFS. The family 10_state.md: start-up, and what comes before an instruction (R26, R35, R61, R65, R74, R97, R461, R462, R470, R473,
R484, R485, R522). -/

namespace Sys2Proof.Machine

/-! ### The program image at start-up (entry 7) -/

/-- Loading stores words where memory exists, if every address of the image does. -/
theorem load_stored {c : Config} (image : List Word) (m : Memory) (a : Word)
    (h : ∀ k < image.length, memExists c (a + BitVec.ofNat 32 k) = true) : StoredTo c m (m.load a image) := by
  induction image generalizing m a with
  | nil => exact .refl m
  | cons v vs ih =>
    have first : memExists c a = true := by simpa using h 0 (by simp)
    have rest : StoredTo c (m.writeWord a v) ((m.writeWord a v).load (a + 1) vs) :=
      ih _ _ fun k hk => by rw [next_add]; exact h (k + 1) (by simpa using hk)
    exact (StoredTo.step (.refl m) first).trans rest

theorem load_readWord_ne (image : List Word) (m : Memory) (a b : Word) (h : ∀ k < image.length, b ≠ a + BitVec.ofNat 32 k) :
    (m.load a image).readWord b = m.readWord b := by
  induction image generalizing m a with
  | nil => rfl
  | cons v vs ih =>
    have ne : b ≠ a := by simpa using h 0 (by simp)
    rw [Memory.load, ih _ _ fun k hk => by rw [next_add]; exact h (k + 1) (by simpa using hk), Memory.readWord_writeWord, if_neg ne]

/-- Each word of an image no longer than the address space is found at its place. -/
theorem load_readWord (image : List Word) (m : Memory) (a : Word) (short : image.length ≤ 2 ^ 32) (k : Nat) (hk : k < image.length) :
    (m.load a image).readWord (a + BitVec.ofNat 32 k) = image.getD k 0 := by
  induction image generalizing m a k with
  | nil => simp at hk
  | cons v vs ih =>
    rw [List.length_cons] at short hk
    cases k with
    | zero =>
      have later : ∀ j < vs.length, a ≠ a + 1 + BitVec.ofNat 32 j := fun j hj e => by
        have := congrArg BitVec.toNat e
        rw [next_add, BitVec.toNat_add, BitVec.toNat_ofNat] at this
        omega
      rw [Memory.load, show a + BitVec.ofNat 32 0 = a by simp, load_readWord_ne vs _ _ _ later, Memory.readWord_writeWord, if_pos rfl]
      rfl
    | succ k =>
      rw [Memory.load, ← next_add, ih _ _ (by omega) k (by omega)]
      rfl

/-- The load area lies in one of the areas that exist (R71). -/
theorem Config.loadArea_exists {c : Config} (h : c.wf = true) {p : Word} (low : c.loadArea.first ≤ p) (high : p ≤ c.loadArea.last) :
    memExists c p = true := by
  simp only [Config.wf, Bool.and_eq_true, List.any_eq_true, decide_eq_true_eq] at h
  obtain ⟨⟨⟨⟨⟨⟨⟨⟨⟨⟨-, area⟩, -⟩, -⟩, -⟩, -⟩, -⟩, -⟩, -⟩, -⟩, -⟩ := h
  obtain ⟨area, mem, first, last⟩ := area
  simp only [memExists, List.any_eq_true, Bool.and_eq_true, decide_eq_true_eq]
  exact ⟨area, mem, BitVec.le_trans first low, BitVec.le_trans high last⟩

/-- Every address of an image that fits the load area exists. -/
theorem image_exists {c : Config} (h : c.wf = true) {n : Nat} (fits : c.loadArea.first.toNat + n ≤ c.loadArea.last.toNat + 1) :
    ∀ k < n, memExists c (c.loadArea.first + BitVec.ofNat 32 k) = true := fun k hk => by
  have := c.loadArea.last.isLt
  have place : (c.loadArea.first + BitVec.ofNat 32 k).toNat = c.loadArea.first.toNat + k := by
    rw [BitVec.toNat_add, BitVec.toNat_ofNat]
    omega
  exact Config.loadArea_exists h (by rw [BitVec.le_def, place]; omega) (by rw [BitVec.le_def, place]; omega)

/-- Start-up with a well-formed configuration is consistent: the empty memory is, and the image is stored where memory exists. -/
theorem startUp_consistent {c : Config} (h : c.wf = true) {image : List Word}
    (fits : c.loadArea.first.toNat + image.length ≤ c.loadArea.last.toNat + 1) : (State.startUp c image).consistent = true := by
  have stored : StoredTo c [] (State.startUp c image).mem := load_stored image [] _ (image_exists h fits)
  have wf : (State.startUp c image).mem.wf = true := stored.wf rfl
  have exist : (State.startUp c image).storesExist = true := stored.exist rfl
  have cfg : (State.startUp c image).cfg.wf = true := h
  have status : (State.startUp c image).statusAgrees = true := rfl
  rw [State.consistent, cfg, wf, exist, status]
  rfl

theorem resetConfig_wf : resetConfig.wf = true := by decide

/-- Settles O6: reset is the start-up with no image. -/
theorem resetIsConsistent : Obligations.ResetIsConsistent := startUp_consistent resetConfig_wf (image := []) (by decide)

/-- Settles O7: the fields are what start-up writes, and the image lies where it was loaded. -/
theorem resetFlags : Obligations.ResetFlags := by
  refine ⟨rfl, rfl, rfl, rfl, rfl, rfl, rfl, fun c image wf fits => ?_⟩
  have short : image.length ≤ 2 ^ 32 := by have := c.loadArea.last.isLt; omega
  exact ⟨_, rfl, startUp_consistent wf fits, rfl, rfl, rfl, rfl, rfl, rfl, rfl, rfl, rfl, rfl, rfl,
    load_readWord image [] c.loadArea.first short⟩

/-! ### Before an instruction (R470 a) -/

/-- KEYBD cannot be taken: no key waits, or IPL is not below its code, or interrupts are off. -/
def KeyboardQuiet (s : State) : Prop := s.keyboard = [] ∨ 3 ≤ s.ipl.toNat ∨ s.flags.int = false ∨ s.intVec = 0

/-- KEYBD that IPL ignores or that is off is not taken (R461, R462). -/
theorem keyboardInterrupt_quiet {s : State} (quiet : KeyboardQuiet s) :
    keyboardInterrupt s = .ignored ∨ keyboardInterrupt s = .dropped := by
  unfold keyboardInterrupt
  split
  · exact .inl rfl
  · next waiting =>
    have code : deliveredCode s .keybd = .keybd := rfl
    by_cases ignored : s.ignores .keybd = true
    · exact .inl (by simp only [deliver, code, ignored, if_true])
    · have off : s.processesInterrupts = false := by
        rcases quiet with none | level | int | vec
        · simp [none] at waiting
        · exact absurd (decide_eq_true level) ignored
        · simp [State.processesInterrupts, int]
        · simp [State.processesInterrupts, vec]
      exact .inr (by simp [deliver, code, ignored, off])

theorem keyboardInterrupt_waiting {s : State} (waiting : s.keyboard ≠ []) :
    keyboardInterrupt s = deliver s ⟨.keybd, none, none⟩ s.pc := by
  simp [keyboardInterrupt, waiting]

theorem timerInterrupt_none {s : State} (none : s.timerPending = false) : timerInterrupt s = .ignored := by
  simp [timerInterrupt, none]

/-- With a quiet host a step begins with the interrupts. -/
theorem step_afterInput {s : State} (running : s.flags.r = true) (host : s.inputs = []) : step s = afterInput s := by
  simp only [step, cycle, running, if_true, acceptInput, host]

/-- With nothing to take, a step is one instruction. -/
theorem step_executeOne {s : State} (running : s.flags.r = true) (host : s.inputs = []) (quiet : KeyboardQuiet s)
    (timer : s.timerPending = false) : step s = executeOne s := by
  rw [step_afterInput running host, afterInput]
  rcases keyboardInterrupt_quiet quiet with k | k <;> rw [k, timerInterrupt_none timer]

/-! ### One instruction (R470 b to j) -/

theorem instructionOutcome_debug {s : State} (hit : debugHit s = true) :
    instructionOutcome s = stopOutcome s s.advanced.faultPc (.raised ⟨.debug, some s.pc, none⟩) := by
  rw [instructionOutcome, if_pos hit]

theorem instructionOutcome_exec {s : State} {w : Word} {i : Instr} (noHit : debugHit s = false) (fetched : memRead s s.pc = .ok w)
    (decoded : decode w = .ok i) : instructionOutcome s = exec i { s with pc := s.pc + 1 } := by
  simp only [instructionOutcome, noHit, Bool.false_eq_true, if_false, fetch, fetched, decoded, State.advanced]

theorem instructionOutcome_noFetch {s : State} {e : Stop} (noHit : debugHit s = false) (failed : memRead s s.pc = .error e) :
    instructionOutcome s = stopOutcome s s.advanced.faultPc e := by
  simp only [instructionOutcome, noHit, Bool.false_eq_true, if_false, fetch, failed]

/-- Settles O1: an empty keyboard buffer is quiet. -/
theorem stepRunsDecodedInstruction : Obligations.StepRunsDecodedInstruction := by
  intro s w i running host keys timer noHit fetched decoded
  rw [step_executeOne running host (.inl keys) timer, executeOne, instructionOutcome_exec noHit fetched decoded]

/-! ### A fetch that faults (R455, entry 49) -/

theorem Res.bind_error {α β : Type} {x : Res α} {f : α → Res β} {e : Stop} :
    (x >>= f) = .error e ↔ x = .error e ∨ ∃ a, x = .ok a ∧ f a = .error e := by
  cases x with
  | error d => simp
  | ok a => simp

theorem physRead_error {s : State} {p : Word} {e : Stop} (h : physRead s p = .error e) : e = .raised ⟨.memory, some p, none⟩ := by
  unfold physRead at h
  split at h
  · cases h
  · exact (Except.error.inj h).symm

theorem raise_error {α : Type} {c : Interrupt} {a : Option Word} {e : Stop} (h : (raise c a : Res α) = .error e) :
    e = .raised ⟨c, a, none⟩ := (Except.error.inj h).symm

/-- What the walk raises names the address translated, except a MEMORY, which names the table word that is missing. -/
theorem pageWalk_raised {s : State} {a : Word} {x : Raised} (h : pageWalk s a = .error (.raised x)) :
    x.address = some a ∨ x.code = .memory := by
  unfold pageWalk at h
  split at h
  · cases h
  rcases Res.bind_error.1 h with directory | ⟨table, -, h⟩
  · cases physRead_error directory
    exact .inr rfl
  split at h
  · cases raise_error h
    exact .inl rfl
  rcases Res.bind_error.1 h with entry | ⟨page, -, h⟩
  · cases physRead_error entry
    exact .inr rfl
  split at h
  · cases raise_error h
    exact .inl rfl
  split at h
  · cases raise_error h
    exact .inl rfl
  · cases h

/-- What a read raises names the address read; only a MEMORY under translation names another, the physical address that is missing. -/
theorem memRead_raised {s : State} {a : Word} {x : Raised} (h : memRead s a = .error (.raised x)) :
    x.address = some a ∨ x.code = .memory ∧ s.flags.vm = true := by
  cases vm : s.flags.vm with
  | false =>
    rw [memRead, translate_off vm, Res.ok_bind] at h
    cases physRead_error h
    exact .inl rfl
  | true =>
    rcases Res.bind_error.1 h with walk | ⟨p, -, read⟩
    · rw [translateAddress, if_pos vm] at walk
      exact (pageWalk_raised walk).imp id fun memory => ⟨memory, rfl⟩
    · cases physRead_error read
      exact .inr ⟨rfl, rfl⟩

/-! ### The order before an instruction (R470 a to c, R484, R485) -/

/-- The PC a fault before the advance saves is the one it would save after it (R473). -/
theorem faultPc_advanced_faulting {s : State} (h : s.cfg.faultPc = .faulting) : s.advanced.faultPc = s.pc := by
  simp [State.faultPc, h, State.this, State.advanced]

theorem faultPc_advanced_following {s : State} (h : s.cfg.faultPc = .following) : s.advanced.faultPc = s.pc + 1 := by
  simp [State.faultPc, h, State.advanced]

/-- DEBUG is raised at its address while IPL is below its code. -/
theorem debugHit_iff (s : State) : debugHit s = true ↔ s.pc = s.debug ∧ s.ipl.toNat < 15 := by
  simp only [debugHit, State.ignores, Bool.and_eq_true, beq_iff_eq, Bool.not_eq_true', decide_eq_false_iff_not, Nat.not_le]
  rfl

/-- A key pressed before a step joins the end of the keyboard buffer. -/
theorem step_key {s : State} (running : s.flags.r = true) {c : Byte} {more : List HostInput} {later : List (List HostInput)}
    (host : s.inputs = (.key c :: more) :: later) :
    step s = step { s with inputs := more :: later, keyboard := s.keyboard ++ [c] } := by
  simp only [step, cycle, running, if_true, acceptInput, host, applyInputs]

/-- Settles O20: keys first, then the DEBUG check, then the fetch; KEYBD that cannot be taken leaves the step one instruction. -/
theorem keyboardInterruptComesFirst : Obligations.KeyboardInterruptComesFirst := by
  refine ⟨fun s t running host waiting taken => ?keybd, fun s c more later running host => step_key running host,
    fun s retpc running host timer quiet saved => ?quiet⟩
  case keybd => rw [step_afterInput running host, afterInput, keyboardInterrupt_waiting waiting, taken]
  case quiet =>
    have one : step s = ticked (instructionOutcome s) := step_executeOne running host quiet timer
    have saved : s.advanced.faultPc = retpc := by
      cases h : s.cfg.faultPc with
      | faulting => rw [faultPc_advanced_faulting h, saved, h]
      | following => rw [faultPc_advanced_following h, saved, h]
    refine ⟨fun here low => ?_, fun past => ?_⟩
    · rw [one, instructionOutcome_debug ((debugHit_iff s).2 ⟨here, low⟩), saved]
    · have noHit : debugHit s = false := by
        rw [Bool.eq_false_iff, ne_eq, debugHit_iff]
        rintro ⟨here, low⟩
        rcases past with away | high
        · exact away here
        · omega
      refine ⟨fun w i fetched decoded => ?_, fun x failed => ⟨?_, memRead_raised failed⟩, fun x failed => ?_⟩
      · rw [one, instructionOutcome_exec noHit fetched decoded]
      · rw [one, instructionOutcome_noFetch noHit failed, saved]
      · rw [one, instructionOutcome_noFetch noHit failed, stopOutcome, ticked]

/-! ### The end of the run (R61, R484) -/

/-- Settles O21: a processor that does not run keeps its state, and control-c, first in the inputs, enters the debugger. -/
theorem endOfTheRun : Obligations.EndOfTheRun := by
  refine ⟨fun s halted => ?_, fun s more later running host => ?_⟩
  · simp only [step, cycle, halted, Bool.false_eq_true, if_false]
  · simp only [step, cycle, running, if_true, acceptInput, host, applyInputs, State.enterDebugger]

end Sys2Proof.Machine
end

section
/-! PROOFS. The family 20_memory.md: memory, translation, physical memory (R71, R74, R84, R86, R90 to R97, R253 to R255, R470 j, R482). -/

namespace Sys2Proof.Machine

/-! ### Where words can change (R71, R74) -/

/-- Settles O10: a step stores words at addresses that exist and nowhere else. -/
theorem noStepStoresOutsideMemory : Obligations.NoStepStoresOutsideMemory :=
  fun _ _ _ h absent => (kept_step h).sound.stored.readWord absent

theorem readWord_poke (s : State) (p v b : Word) : (s.poke p v).mem.readWord b = if b = p then v else s.mem.readWord b :=
  s.mem.readWord_writeWord p b v

theorem physRead_missing {s : State} {p : Word} (missing : memExists s.cfg p = false) : physRead s p = raise .memory (some p) := by
  simp [physRead, missing]

/-! ### The walk, case by case (R90 to R97) -/

theorem translate_on {s : State} (on : s.flags.vm = true) (a : Word) : translateAddress s a = pageWalk s a := by
  simp [translateAddress, on]

theorem pageWalk_misaligned {s : State} (misaligned : s.pdbr &&& 0x3FF#32 ≠ 0) (a : Word) :
    pageWalk s a = refuse .misalignedPageDirectory := by
  rw [pageWalk, if_pos (by simpa using misaligned)]

section
variable {s : State} {a dir table : Word} (aligned : s.pdbr &&& 0x3FF#32 = 0)
include aligned

theorem pageWalk_directoryMissing (missing : memExists s.cfg ((a >>> 22) + s.pdbr) = false) :
    pageWalk s a = raise .memory (some ((a >>> 22) + s.pdbr)) := by
  simp [pageWalk, aligned, physRead_missing missing]

variable (directory : memExists s.cfg ((a >>> 22) + s.pdbr) = true) (hdir : dir = s.mem.readWord ((a >>> 22) + s.pdbr))
include directory hdir

theorem pageWalk_noTable (zero : dir = 0) : pageWalk s a = raise .pagefault (some a) := by
  simp [pageWalk, aligned, physRead_of_exists directory, ← hdir, zero]

variable (nonzero : dir ≠ 0#32)
include nonzero

theorem pageWalk_tableMissing (missing : memExists s.cfg ((dir &&& 0xFFFFF800#32) + (a >>> 11 &&& 0x7FF#32)) = false) :
    pageWalk s a = raise .memory (some ((dir &&& 0xFFFFF800#32) + (a >>> 11 &&& 0x7FF#32))) := by
  simp [pageWalk, aligned, physRead_of_exists directory, ← hdir, nonzero, physRead_missing missing]

/-- With both entries there, the table entry's two low bits decide. -/
theorem pageWalk_entry (entry : memExists s.cfg ((dir &&& 0xFFFFF800#32) + (a >>> 11 &&& 0x7FF#32)) = true)
    (htable : table = s.mem.readWord ((dir &&& 0xFFFFF800#32) + (a >>> 11 &&& 0x7FF#32))) :
    pageWalk s a =
      if table.getLsbD 0 = false then raise .pagefault (some a)
      else if table.getLsbD 1 = true ∧ s.flags.sys = false then raise .pagepriv (some a)
      else .ok ((table &&& 0xFFFFF800#32) + (a &&& 0x7FF#32)) := by
  simp [pageWalk, aligned, physRead_of_exists directory, ← hdir, nonzero, physRead_of_exists entry, ← htable]

end

/-- All that the walk needs to answer an address: an aligned directory, both entries there, a valid page, and one of the mode's. -/
theorem pageWalk_ok {s : State} {a p : Word} (h : pageWalk s a = .ok p) :
    ∃ dir table : Word, dir = s.mem.readWord ((a >>> 22) + s.pdbr) ∧ dir ≠ 0 ∧
      table = s.mem.readWord ((dir &&& 0xFFFFF800#32) + (a >>> 11 &&& 0x7FF#32)) ∧
      table.getLsbD 0 = true ∧ (table.getLsbD 1 = true → s.flags.sys = true) ∧
      p = (table &&& 0xFFFFF800#32) + (a &&& 0x7FF#32) := by
  unfold pageWalk at h
  split at h
  · exact absurd h (refuse_ne_ok _ _)
  obtain ⟨dir, readDir, h⟩ := Res.bind_ok.1 h
  obtain ⟨-, hdir⟩ := physRead_ok readDir
  split at h
  · exact absurd h (raise_ne_ok _ _ _)
  next nonzero =>
  obtain ⟨table, readTable, h⟩ := Res.bind_ok.1 h
  obtain ⟨-, htable⟩ := physRead_ok readTable
  split at h
  · exact absurd h (raise_ne_ok _ _ _)
  next valid =>
  split at h
  · exact absurd h (raise_ne_ok _ _ _)
  next allowed =>
  exact ⟨dir, table, hdir, nonzero, htable, by simpa using valid, by simpa using allowed, (Except.ok.inj h).symm⟩

/-- Settles O22: each clause is a case of the walk. -/
theorem translationWalk : Obligations.TranslationWalk := by
  intro s a
  refine ⟨fun off => translate_off off a, fun on aligned dir table directory hdir => ?walk, fun on aligned missing => ?directory,
    fun on misaligned => ?misaligned⟩
  all_goals rw [translate_on on]
  case walk =>
    refine ⟨fun zero => pageWalk_noTable aligned directory hdir zero, fun nonzero entry htable => ?_,
      fun nonzero missing => pageWalk_tableMissing aligned directory hdir nonzero missing⟩
    rw [pageWalk_entry aligned directory hdir nonzero entry htable]
    refine ⟨fun invalid => if_pos invalid, fun valid system user => ?_, fun valid allowed => ?_⟩
    · rw [if_neg (by simp [valid]), if_pos ⟨system, user⟩]
      rfl
    · rw [if_neg (by simp [valid]), if_neg]
      rintro ⟨system, user⟩
      rw [system, user] at allowed
      exact absurd allowed (by decide)
  case directory => exact pageWalk_directoryMissing aligned missing
  case misaligned => exact pageWalk_misaligned misaligned a

/-! ### Pages (R92, R95, R482) -/

/-- A page's address and an offset joined: the offset is the low 11 bits. -/
theorem page_add_offset (w a : Word) : (w &&& 0xFFFFF800#32) + (a &&& 0x7FF#32) &&& 0x7FF#32 = a &&& 0x7FF#32 := by
  have page : (w &&& 0xFFFFF800#32) &&& 0x7FF#32 = 0#32 := by
    rw [BitVec.and_assoc, show 0xFFFFF800#32 &&& 0x7FF#32 = 0#32 from rfl, BitVec.and_zero]
  have apart : (w &&& 0xFFFFF800#32) &&& (a &&& 0x7FF#32) = 0#32 := by
    rw [BitVec.and_comm a, ← BitVec.and_assoc, page, BitVec.zero_and]
  rw [BitVec.add_eq_or_of_and_eq_zero _ _ apart, BitVec.and_or_distrib_right, page, BitVec.zero_or, BitVec.and_assoc, BitVec.and_self]

/-- Settles O23: both parts read off what the walk needs to answer an address. -/
theorem pagesProtectSystemMemory : Obligations.PagesProtectSystemMemory := by
  refine ⟨fun s a p on h => ?offset, fun s t a v dir table p on user h hdir htable hp => ?write⟩
  case offset =>
    rw [translate_on on] at h
    obtain ⟨_, table, -, -, -, -, -, rfl⟩ := pageWalk_ok h
    exact page_add_offset table a
  case write =>
    obtain ⟨q, target, rfl⟩ := memWrite_ok h
    have walk := storeTarget_translate target
    rw [translate_on on] at walk
    obtain ⟨_, _, rfl, nonzero, rfl, valid, allowed, rfl⟩ := pageWalk_ok walk
    subst hdir htable hp
    refine ⟨nonzero, valid, ?_, rfl, ?_, fun b hb => ?_⟩
    · simpa [user] using allowed
    · rw [readWord_poke, if_pos rfl]
    · rw [readWord_poke, if_neg hb]

/-! ### A logical write (R84, R86, R470 j) -/

/-- A write to WATCH's address trips while IPL is below WATCH's code. -/
theorem watchHit_iff (s : State) (a : Word) : watchHit s a = true ↔ s.watch = a ∧ s.ipl.toNat < 14 := by
  simp only [watchHit, State.ignores, Bool.and_eq_true, beq_iff_eq, Bool.not_eq_true', decide_eq_false_iff_not, Nat.not_le,
    eq_comm (a := a)]
  rfl

theorem storeTarget_untranslated {s : State} {a : Word} {e : Stop} (h : translateAddress s a = .error e) :
    storeTarget s a = .error e := by
  rw [storeTarget, h, Res.error_bind]

theorem storeTarget_missing {s : State} {a p : Word} (translated : translateAddress s a = .ok p)
    (missing : memExists s.cfg p = false) : storeTarget s a = raise .memory (some p) := by
  simp [storeTarget, translated, existing, missing]

theorem storeTarget_watched {s : State} {a p : Word} (translated : translateAddress s a = .ok p)
    (present : memExists s.cfg p = true) (hit : watchHit s (watchAddress s.cfg a p) = true) :
    storeTarget s a = raise .watch (some (watchAddress s.cfg a p)) := by
  simp [storeTarget, translated, existing, present, watched, hit]

theorem memWrite_error {s : State} {a : Word} {e : Stop} (h : storeTarget s a = .error e) (v : Word) : memWrite s a v = .error e := by
  rw [memWrite, h, Res.error_bind]

theorem memRead_translated {s : State} {a p : Word} (translated : translateAddress s a = .ok p)
    (present : memExists s.cfg p = true) : memRead s a = .ok (s.mem.readWord p) := by
  rw [memRead, translated, Res.ok_bind, physRead_of_exists present]

/-- With VM = 0 a word stored leaves every other address's reading as it was, its faults too. -/
theorem memRead_poke_ne {s : State} (off : s.flags.vm = false) {p b : Word} (v : Word) (ne : b ≠ p) :
    memRead (s.poke p v) b = memRead s b := by
  rw [memRead, memRead, translate_off (s := s.poke p v) off, translate_off off, Res.ok_bind, Res.ok_bind, physRead, physRead,
    readWord_poke, if_neg ne, State.poke_cfg]

/-- Settles O11: a write made was stored where its address translates; one not made stops at the translation, the existence check or
the watch check, in that order. -/
theorem storeThenLoad : Obligations.StoreThenLoad := by
  intro s a v
  refine ⟨fun t h => ?made, fun e h => memWrite_error (storeTarget_untranslated h) v, fun p w translated hw => ?notMade⟩
  case made =>
    obtain ⟨p, target, rfl⟩ := memWrite_ok h
    obtain ⟨translated, present, -⟩ := storeTarget_ok.1 target
    have same_off (off : s.flags.vm = false) : translateAddress (s.poke p v) a = translateAddress s a := by
      rw [translate_off (s := s.poke p v) off, translate_off off]
    refine ⟨fun alike => ?_, fun off b ne => memRead_poke_ne off v ?_⟩
    · have same : translateAddress (s.poke p v) a = .ok p := (alike.elim same_off id).trans translated
      rw [memRead_translated same present, readWord_poke, if_pos rfl]
    · rw [translate_off off] at translated
      cases translated
      exact ne
  case notMade =>
    have named : watchAddress s.cfg a p = w := hw.symm
    refine ⟨fun missing => memWrite_error (storeTarget_missing translated missing) v, fun present here low => ?_,
      fun present past => ?_⟩
    · have hit : watchHit s (watchAddress s.cfg a p) = true := (watchHit_iff s _).2 ⟨here.trans named.symm, low⟩
      rw [memWrite_error (storeTarget_watched translated present hit), named]
    · have noHit : watchHit s (watchAddress s.cfg a p) = false := by
        rw [Bool.eq_false_iff, ne_eq, watchHit_iff, named]
        rintro ⟨here, low⟩
        exact past.elim (fun away => away here) (fun high => absurd low (not_lt.2 high))
      exact memWrite_of_target (storeTarget_ok.2 ⟨translated, present, noHit⟩) v

/-! ### Physical memory (R253 to R255) -/

theorem physWrite_plain {s : State} {p : Word} (present : memExists s.cfg p = true) (noHit : watchHit s p = false) (v : Word) :
    physWrite s p v = .ok (s.poke p v) := by
  simp [physWrite, existing, present, watched, noHit]

theorem physWrite_missing {s : State} {p : Word} (missing : memExists s.cfg p = false) (v : Word) :
    physWrite s p v = raise .memory (some p) := by
  simp [physWrite, existing, missing]

theorem physWrite_watched {s : State} {p : Word} (present : memExists s.cfg p = true) (hit : watchHit s p = true) (v : Word) :
    physWrite s p v = raise .watch (some p) := by
  simp [physWrite, existing, present, watched, hit]

section
variable {s : State} {m : Reg} {o : Operand} {v : Word} (read : operandValue s o = .ok v)
include read

theorem exec_phload (sys : s.flags.sys = true) :
    exec (.phload m o) s = conclude s (physRead s v >>= fun w => .ok (s.writeReg m w)) := by
  show execPhload m o s = _
  rw [execPhload, privileged_system sys, read, Res.ok_bind]

theorem exec_phstore (sys : s.flags.sys = true) : exec (.phstore m o) s = conclude s (physWrite s v (s.readReg m)) := by
  show execPhstore m o s = _
  rw [execPhstore, privileged_system sys, read, Res.ok_bind]

theorem exec_vtran_ok {p : Word} (walk : pageWalk s v = .ok p) : exec (.vtran m o) s = .next (s.writeReg m p) := by
  show execVtran m o s = _
  simp only [execVtran, read, Res.ok_bind, walk, conclude]

theorem exec_vtran_raised {x : Raised} (walk : pageWalk s v = .error (.raised x)) :
    exec (.vtran m o) s = .fault .translationFailed := by
  show execVtran m o s = _
  simp only [execVtran, read, Res.ok_bind, walk, conclude, stopOutcome]

end

/-- Settles O46: PHLOAD and PHSTORE are a physical read and write of the value, VTRAN a walk, which does not look at VM. -/
theorem physicalMemoryInstructions : Obligations.PhysicalMemoryInstructions := by
  intro s m o v p read
  have walk : translateAddress { s with flags := { s.flags with vm := true } } v = pageWalk s v := rfl
  refine ⟨fun sys present => ⟨?_, fun noHit => ?_⟩, fun sys missing => ⟨?_, ?_⟩, fun sys present hit => ?_,
    fun h => exec_vtran_ok read (walk.symm.trans h), fun x h => exec_vtran_raised read (walk.symm.trans h)⟩
  · rw [exec_phload read sys, physRead_of_exists present, Res.ok_bind, conclude]
  · rw [exec_phstore read sys, physWrite_plain present noHit, conclude]
  · rw [exec_phload read sys, physRead_missing missing, Res.raise_bind, conclude_raise]
  · rw [exec_phstore read sys, physWrite_missing missing, conclude_raise]
  · rw [exec_phstore read sys, physWrite_watched present hit, conclude_raise]

end Sys2Proof.Machine
end

section
/-! PROOFS. The family 20_memory.md: the characters of a packed string (R76, R281, R282). -/

namespace Sys2Proof.Machine

/-! ### Characters of a word (R76) -/

/-- Character k of a word as a number: its k-th digit to the base 256. -/
theorem charOf_setWidth (w : Word) (k : Nat) : (charOf w k).setWidth 32 = BitVec.ofNat 32 (w.toNat / 256 ^ k % 256) := by
  apply BitVec.eq_of_toNat_eq
  rw [BitVec.toNat_setWidth, charOf, BitVec.extractLsb'_toNat, BitVec.toNat_ofNat, Nat.shiftRight_eq_div_pow,
    show (256 : Nat) = 2 ^ 8 from rfl, ← pow_mul]

/-- Bit i of a word in which a character was replaced: the character's bit inside its eight, the old bit elsewhere. -/
theorem withChar_getLsbD (w : Word) (k : Nat) (c : Byte) {i : Nat} (hi : i < 32) :
    (withChar w k c).getLsbD i = if 8 * k ≤ i ∧ i < 8 * k + 8 then c.getLsbD (i - 8 * k) else w.getLsbD i := by
  have ones (j : Nat) : (0xFF#32).getLsbD j = decide (j < 8) := by
    rw [BitVec.getLsbD_ofNat, show (0xFF : Nat) = 2 ^ 8 - 1 from rfl, Nat.testBit_two_pow_sub_one]
    rw [Bool.and_eq_right_iff_imp]
    simp only [decide_eq_true_eq]
    omega
  simp only [withChar, BitVec.getLsbD_or, BitVec.getLsbD_and, BitVec.getLsbD_not, BitVec.getLsbD_shiftLeft, BitVec.getLsbD_setWidth, ones,
    hi, decide_true, Bool.true_and]
  split
  · next inside =>
    simp [show ¬ i < 8 * k by omega, show i - 8 * k < 8 by omega, show i - 8 * k < 32 by omega]
  · next outside =>
    rcases lt_or_ge i (8 * k) with below | above
    · simp [below]
    · simp [show ¬ i < 8 * k by omega, show ¬ i - 8 * k < 8 by omega, show 8 ≤ i - 8 * k by omega]

/-- A character replaced: it is the new one, and the other three are as before. -/
theorem extractLsb'_withChar (w : Word) (c : Byte) {j k : Nat} (hj : j < 4) :
    (withChar w k c).extractLsb' (8 * j) 8 = if j = k then c else w.extractLsb' (8 * j) 8 := by
  apply BitVec.eq_of_getLsbD_eq
  intro i hi
  rw [BitVec.getLsbD_extractLsb', withChar_getLsbD w k c (by omega)]
  by_cases same : j = k
  · subst same
    simp [hi]
  · rw [if_neg (by omega), if_neg same, BitVec.getLsbD_extractLsb']

/-! ### LDCH and STCH (R281, R282) -/

theorem elementIndex_nonneg {k : Word} (small : k.toNat < 2 ^ 31) : elementIndex k = .ok k.toNat := by
  rw [elementIndex, if_neg (by rw [BitVec.msb_eq_decide]; simpa using small)]

theorem elementIndex_negative {k : Word} (large : 2 ^ 31 ≤ k.toNat) : elementIndex k = .error (.fault .negativeIndex) := by
  rw [elementIndex, if_pos (by rw [BitVec.msb_eq_decide]; simpa using large)]

section
variable {s : State} {m : Reg} {o : Operand} {v : Word} (read : operandValue s o = .ok v)
include read

theorem exec_ldch (small : (s.readReg m).toNat < 2 ^ 31) :
    exec (.ldch m o) s = conclude s (memRead s (v + BitVec.ofNat 32 ((s.readReg m).toNat / 4)) >>= fun w =>
      .ok (s.writeReg m ((charOf w ((s.readReg m).toNat % 4)).setWidth 32))) := by
  show execLdch m o s = _
  rw [execLdch, read, Res.ok_bind, elementIndex_nonneg small, Res.ok_bind]

theorem exec_stch (small : (s.readReg m).toNat < 2 ^ 31) :
    exec (.stch m o) s = conclude s (memRead s (v + BitVec.ofNat 32 ((s.readReg m).toNat / 4)) >>= fun w =>
      memWrite s (v + BitVec.ofNat 32 ((s.readReg m).toNat / 4))
        (withChar w ((s.readReg m).toNat % 4) ((s.readReg 0).setWidth 8))) := by
  show execStch m o s = _
  rw [execStch, read, Res.ok_bind, elementIndex_nonneg small, Res.ok_bind]

theorem exec_ldch_negative (large : 2 ^ 31 ≤ (s.readReg m).toNat) : exec (.ldch m o) s = .fault .negativeIndex := by
  show execLdch m o s = _
  rw [execLdch, read, Res.ok_bind, elementIndex_negative large, Res.error_bind, conclude, stopOutcome]

theorem exec_stch_negative (large : 2 ^ 31 ≤ (s.readReg m).toNat) : exec (.stch m o) s = .fault .negativeIndex := by
  show execStch m o s = _
  rw [execStch, read, Res.ok_bind, elementIndex_negative large, Res.error_bind, conclude, stopOutcome]

end

/-- Settles O50: both read the character's word first, and STCH writes it back with that character replaced. -/
theorem characterInstructions : Obligations.CharacterInstructions := by
  rintro s m o v w p _ read rfl
  refine ⟨fun small here => ⟨?_, fun target => ⟨_, ?_, fun j hj => extractLsb'_withChar w ((s.readReg 0).setWidth 8) hj⟩⟩,
    fun e small failed => ⟨?_, ?_⟩, fun e small here failed => ?_,
    fun large => ⟨exec_ldch_negative read large, exec_stch_negative read large⟩⟩
  · rw [exec_ldch read small, here, Res.ok_bind, charOf_setWidth, conclude]
  · rw [exec_stch read small, here, Res.ok_bind, memWrite_of_target target, conclude]
  · rw [exec_ldch read small, failed, Res.error_bind, conclude]
  · rw [exec_stch read small, failed, Res.error_bind, conclude]
  · rw [exec_stch read small, here, Res.ok_bind, memWrite_error failed, conclude]

end Sys2Proof.Machine
end

section
/-! PROOFS. The family 20_memory.md: words pushed and popped through the tables as they stand, MPUSH and MPOP (R98, R290, R291), SYSCALL
(R233). -/

namespace Sys2Proof.Machine

/-! ### Words read upward (R98) -/

theorem popWords_ok {s : State} {a : Word} {n : Nat} {w : Nat → Word} (h : ∀ k < n, memRead s (a + BitVec.ofNat 32 k) = .ok (w k)) :
    popWords s a n = .ok ((List.range n).map w) := by
  induction n generalizing a w with
  | zero => rfl
  | succ n ih =>
    have first : memRead s a = .ok (w 0) := by simpa using h 0 (by omega)
    have rest := ih (a := a + 1) (w := fun k => w (k + 1)) fun k hk => by rw [next_add]; exact h (k + 1) (by omega)
    rw [popWords, first, Res.ok_bind, rest, Res.ok_bind, List.range_succ_eq_map, List.map_cons, List.map_map]
    rfl

/-- The first word that cannot be read ends it with what that read raised. -/
theorem popWords_error {s : State} {a : Word} {n k : Nat} {e : Stop} (hk : k < n)
    (before : ∀ j < k, ∃ w, memRead s (a + BitVec.ofNat 32 j) = .ok w) (failed : memRead s (a + BitVec.ofNat 32 k) = .error e) :
    popWords s a n = .error e := by
  induction n generalizing a k with
  | zero => omega
  | succ n ih =>
    rw [popWords]
    cases k with
    | zero => rw [show memRead s a = .error e by simpa using failed, Res.error_bind]
    | succ k =>
      obtain ⟨w, first⟩ : ∃ w, memRead s a = .ok w := by simpa using before 0 (by omega)
      have rest : popWords s (a + 1) n = .error e := by
        refine ih (k := k) (by omega) (fun j hj => ?_) ?_
        · rw [next_add]
          exact before (j + 1) (by omega)
        · rw [next_add]
          exact failed
      rw [first, Res.ok_bind, rest, Res.error_bind]

/-! ### Registers written one after another -/

theorem State.writeReg_readReg (s : State) (r : Reg) : s.writeReg r (s.readReg r) = s := by
  rcases s.writeReg_cases r (s.readReg r) with
    ⟨h, e⟩ | ⟨h, sys, e⟩ | ⟨h, sys, e⟩ | ⟨h, banked, sys, e⟩ | ⟨h, banked, sys, e⟩ | ⟨h, banked, e⟩ | ⟨h, e⟩ <;>
    rw [e] <;> simp [State.readReg, State.readSp, State.readFp, *]

theorem State.writeReg_writeReg (s : State) (r : Reg) (v w : Word) : (s.writeReg r v).writeReg r w = s.writeReg r w := by
  rcases s.writeReg_cases r v with
    ⟨h, e⟩ | ⟨h, sys, e⟩ | ⟨h, sys, e⟩ | ⟨h, banked, sys, e⟩ | ⟨h, banked, sys, e⟩ | ⟨h, banked, e⟩ | ⟨h, e⟩ <;>
    rw [e] <;> simp [State.writeReg, State.writeSp, State.writeFp, *]

/-- A register write and a change of memory commute. -/
theorem State.writeReg_withMem (s : State) (mem : Memory) (r : Reg) (v : Word) :
    State.writeReg { s with mem := mem } r v = { s.writeReg r v with mem := mem } := by
  rcases s.writeReg_cases r v with
    ⟨h, e⟩ | ⟨h, sys, e⟩ | ⟨h, sys, e⟩ | ⟨h, banked, sys, e⟩ | ⟨h, banked, sys, e⟩ | ⟨h, banked, e⟩ | ⟨h, e⟩ <;>
    rw [e] <;> simp [State.writeReg, State.writeSp, State.writeFp, *]

theorem writeRegs_readReg_ne (s : State) (l : List (Reg × Word)) {q : Reg} (h : q ∉ l.map (·.1)) :
    (writeRegs s l).readReg q = s.readReg q := by
  induction l generalizing s with
  | nil => rfl
  | cons x l ih =>
    obtain ⟨ne, rest⟩ : q ≠ x.1 ∧ q ∉ l.map (·.1) := by simpa using h
    rw [writeRegs, ih _ rest, State.readReg_writeReg_ne _ _ ne]

/-- Of different registers written, each reads as written. -/
theorem writeRegs_readReg (s : State) (l : List (Reg × Word)) (distinct : (l.map (·.1)).Nodup) (k : Nat) (hk : k < l.length) :
    (writeRegs s l).readReg l[k].1 = l[k].2 := by
  induction l generalizing s k with
  | nil => simp at hk
  | cons x l ih =>
    obtain ⟨first, rest⟩ := List.nodup_cons.1 distinct
    cases k with
    | zero => rw [writeRegs, List.getElem_cons_zero, writeRegs_readReg_ne _ _ first, State.readReg_writeReg_same]
    | succ k => exact ih _ rest k (by simpa using hk)

/-- Registers written with what they hold. -/
theorem writeRegs_same (s : State) (l : List (Reg × Word)) (h : ∀ x ∈ l, s.readReg x.1 = x.2) : writeRegs s l = s := by
  induction l with
  | nil => rfl
  | cons x l ih =>
    have first : s.writeReg x.1 x.2 = s := by rw [← h x (by simp), State.writeReg_readReg]
    rw [writeRegs, first]
    exact ih fun y hy => h y (by simp [hy])

/-- Only R0 to R12 and the stack and frame pointers of the mode's bank may differ (R20 to R24). -/
structure OnlyRegisters (s t : State) : Prop where
  frame : t = { s with
    regs := t.regs, sysSp := t.sysSp, usrSp := t.usrSp, sysFp := t.sysFp, usrFp := t.usrFp, plainFp := t.plainFp }
  banked : s.cfg.fpBanked = true → t.plainFp = s.plainFp
  plain : s.cfg.fpBanked = false → t.sysFp = s.sysFp ∧ t.usrFp = s.usrFp
  system : s.flags.sys = true → t.usrSp = s.usrSp ∧ (s.cfg.fpBanked = true → t.usrFp = s.usrFp)
  user : s.flags.sys = false → t.sysSp = s.sysSp ∧ (s.cfg.fpBanked = true → t.sysFp = s.sysFp)

theorem OnlyRegisters.refl (s : State) : OnlyRegisters s s :=
  ⟨rfl, fun _ => rfl, fun _ => ⟨rfl, rfl⟩, fun _ => ⟨rfl, fun _ => rfl⟩, fun _ => ⟨rfl, fun _ => rfl⟩⟩

theorem OnlyRegisters.trans {s t u : State} (h : OnlyRegisters s t) (k : OnlyRegisters t u) : OnlyRegisters s u := by
  have cfg : t.cfg = s.cfg := by rw [h.frame]
  have flags : t.flags = s.flags := by rw [h.frame]
  obtain ⟨frame, banked, plain, system, user⟩ := k
  rw [cfg] at banked plain system user
  rw [flags] at system user
  refine ⟨?_, fun b => (banked b).trans (h.banked b), fun p => ?_, fun sys => ?_, fun usr => ?_⟩
  · rw [h.frame] at frame
    exact frame
  · exact ⟨(plain p).1.trans (h.plain p).1, (plain p).2.trans (h.plain p).2⟩
  · exact ⟨(system sys).1.trans (h.system sys).1, fun b => ((system sys).2 b).trans ((h.system sys).2 b)⟩
  · exact ⟨(user usr).1.trans (h.user usr).1, fun b => ((user usr).2 b).trans ((h.user usr).2 b)⟩

theorem onlyRegisters_writeReg (s : State) {r : Reg} (v : Word) (notPc : r ≠ 15) : OnlyRegisters s (s.writeReg r v) := by
  have notPc : r.val ≠ 15 := fun e => notPc (Fin.ext e)
  rcases s.writeReg_cases r v with
    ⟨h, e⟩ | ⟨h, sys, e⟩ | ⟨h, sys, e⟩ | ⟨h, banked, sys, e⟩ | ⟨h, banked, sys, e⟩ | ⟨h, banked, e⟩ | ⟨h, e⟩
  case inr.inr.inr.inr.inr.inr => exact absurd h notPc
  all_goals
    rw [e]
    constructor <;> simp [*]

theorem onlyRegisters_writeRegs (s : State) (l : List (Reg × Word)) (notPc : ∀ x ∈ l, x.1 ≠ 15) : OnlyRegisters s (writeRegs s l) := by
  induction l generalizing s with
  | nil => exact .refl s
  | cons x l ih => exact (onlyRegisters_writeReg s _ (notPc x (by simp))).trans (ih _ fun y hy => notPc y (by simp [hy]))

/-! ### The registers of a mask (R290) -/

theorem getElem_map_getD {rs : List Reg} (f : Reg → Word) {k : Nat} (hk : k < rs.length) :
    (rs.map f)[k]'(by rwa [List.length_map]) = f (rs.getD k 0) := by
  rw [List.getElem_map, List.getD_eq_getElem _ _ hk]

theorem mem_maskRegisters {mask : Word} {r : Reg} : r ∈ maskRegisters mask ↔ mask.getLsbD r.val = true := by
  simp [maskRegisters]

theorem maskRegisters_nodup (mask : Word) : (maskRegisters mask).Nodup := (List.nodup_finRange 16).filter _

theorem maskRegisters_length_le (mask : Word) : (maskRegisters mask).length ≤ 16 :=
  (List.length_filter_le _ _).trans (by simp)

/-- A mask that is not refused names neither SP nor PC. -/
theorem ne_of_mem_maskRegisters {mask : Word} (defined : mask &&& 0xFFFFA000#32 = 0) {r : Reg} (h : r ∈ maskRegisters mask) :
    r ≠ 13 ∧ r ≠ 15 := by
  have named := mem_maskRegisters.1 h
  have clear (i : Nat) (hi : (0xFFFFA000#32).getLsbD i = true) : mask.getLsbD i = false := by
    simpa [hi] using congrArg (·.getLsbD i) defined
  constructor
  · rintro rfl
    exact Bool.noConfusion (named.symm.trans (clear 13 (by decide)))
  · rintro rfl
    exact Bool.noConfusion (named.symm.trans (clear 15 (by decide)))

theorem maskUndefined_false {mask : Word} (defined : mask &&& 0xFFFFA000#32 = 0) : maskUndefined mask = false := by
  simp [maskUndefined, defined]

/-! ### MPUSH and MPOP, in terms of the words pushed and popped (R290, R291) -/

section
variable {s : State} {o : Operand} {mask : Word} (read : operandValue s o = .ok mask)
include read

theorem exec_mpush_mpop_undefined (undefined : mask &&& 0xFFFFA000#32 ≠ 0) :
    exec (.mpush o) s = .refused .undefinedStackMask ∧ exec (.mpop o) s = .refused .undefinedStackMask := by
  have refused : maskUndefined mask = true := by simpa [maskUndefined] using undefined
  constructor
  · show execMpush o s = _
    rw [execMpush, read, Res.ok_bind, if_pos refused, refuse, conclude, stopOutcome]
  · show execMpop o s = _
    rw [execMpop, read, Res.ok_bind, if_pos refused, refuse, conclude, stopOutcome]

variable (defined : mask &&& 0xFFFFA000#32 = 0)
include defined

theorem exec_mpush_pushed {t : State} (pushed : pushWords s (s.readReg 13) ((maskRegisters mask).map s.readReg) = .ok t) :
    exec (.mpush o) s = .next (t.writeReg 13 (s.readReg 13 - BitVec.ofNat 32 (maskRegisters mask).length)) := by
  have pushed : pushWords s s.readSp ((maskRegisters mask).map s.readReg) = .ok t := pushed
  show execMpush o s = _
  simp only [execMpush, read, Res.ok_bind, maskUndefined_false defined, Bool.false_eq_true, if_false, pushed]
  rfl

theorem exec_mpush_stopped {e : Stop} (stopped : pushWords s (s.readReg 13) ((maskRegisters mask).map s.readReg) = .error e) :
    exec (.mpush o) s = stopOutcome s s.faultPc e := by
  have stopped : pushWords s s.readSp ((maskRegisters mask).map s.readReg) = .error e := stopped
  show execMpush o s = _
  simp only [execMpush, read, Res.ok_bind, maskUndefined_false defined, Bool.false_eq_true, if_false, stopped, Res.error_bind, conclude]

theorem exec_mpop_popped {vs : List Word} (popped : popWords s (s.readReg 13) (maskRegisters mask).length = .ok vs) :
    exec (.mpop o) s = .next
      ((writeRegs s ((maskRegisters mask).reverse.zip vs)).writeReg 13 (s.readReg 13 + BitVec.ofNat 32 (maskRegisters mask).length)) := by
  have popped : popWords s s.readSp (maskRegisters mask).length = .ok vs := popped
  show execMpop o s = _
  simp only [execMpop, read, Res.ok_bind, maskUndefined_false defined, Bool.false_eq_true, if_false, List.length_reverse, popped]
  rfl

theorem exec_mpop_stopped {e : Stop} (stopped : popWords s (s.readReg 13) (maskRegisters mask).length = .error e) :
    exec (.mpop o) s = stopOutcome s s.faultPc e := by
  have stopped : popWords s s.readSp (maskRegisters mask).length = .error e := stopped
  show execMpop o s = _
  simp only [execMpop, read, Res.ok_bind, maskUndefined_false defined, Bool.false_eq_true, if_false, List.length_reverse, stopped,
    Res.error_bind, conclude]

/-- MPUSH where nothing hinders it: each register lies at its place, and only memory and SP change. -/
theorem exec_mpush_plain (off : s.flags.vm = false)
    (stack : ∀ k < (maskRegisters mask).length, memExists s.cfg (s.readReg 13 - BitVec.ofNat 32 (k + 1)) = true ∧
      watchHit s (s.readReg 13 - BitVec.ofNat 32 (k + 1)) = false) :
    ∃ mem, exec (.mpush o) s =
        .next { s.writeReg 13 (s.readReg 13 - BitVec.ofNat 32 (maskRegisters mask).length) with mem := mem } ∧
      (∀ k < (maskRegisters mask).length,
        mem.readWord (s.readReg 13 - BitVec.ofNat 32 (k + 1)) = s.readReg ((maskRegisters mask).getD k 0)) ∧
      ∀ a, (∀ k < (maskRegisters mask).length, a ≠ s.readReg 13 - BitVec.ofNat 32 (k + 1)) → mem.readWord a = s.mem.readWord a := by
  have short := maskRegisters_length_le mask
  obtain ⟨t, pushed, frame, words, others⟩ := pushWords_plain (vs := (maskRegisters mask).map s.readReg) off
    (by rw [List.length_map]; omega) (by simpa using stack)
  refine ⟨t.mem, ?_, fun k hk => ?_, fun a ha => others a (by simpa using ha)⟩
  · rw [exec_mpush_pushed read defined pushed, frame, State.writeReg_withMem]
  · rw [words k (by simpa using hk), getElem_map_getD s.readReg hk]

/-- MPOP of a stack that can be read: each register gets its word, SP moves above them, and nothing else changes. -/
theorem exec_mpop_plain {w : Nat → Word}
    (stack : ∀ k < (maskRegisters mask).length, memRead s (s.readReg 13 + BitVec.ofNat 32 k) = .ok (w k)) :
    ∃ t, exec (.mpop o) s = .next t ∧ OnlyRegisters s t ∧
      (∀ k < (maskRegisters mask).length, t.readReg ((maskRegisters mask).getD k 0) = w ((maskRegisters mask).length - 1 - k)) ∧
      t.readReg 13 = s.readReg 13 + BitVec.ofNat 32 (maskRegisters mask).length ∧
      ∀ q : Reg, q ∉ maskRegisters mask → q ≠ 13 → t.readReg q = s.readReg q := by
  have names : (((maskRegisters mask).reverse.zip ((List.range (maskRegisters mask).length).map w)).map (·.1)) =
      (maskRegisters mask).reverse := List.map_fst_zip (by simp)
  refine ⟨_, exec_mpop_popped read defined (popWords_ok stack), ?_, fun k hk => ?_, State.readReg_writeReg_same _ _ _,
    fun q out notSp => ?_⟩
  · refine (onlyRegisters_writeRegs s _ fun x hx => ?_).trans (onlyRegisters_writeReg _ _ (by decide))
    have mem : x.1 ∈ (maskRegisters mask).reverse := (List.of_mem_zip (a := x.1) (b := x.2) hx).1
    exact (ne_of_mem_maskRegisters defined (List.mem_reverse.1 mem)).2
  · have here : (maskRegisters mask).getD k 0 = (maskRegisters mask)[k] := List.getD_eq_getElem _ _ hk
    have notSp : (maskRegisters mask)[k] ≠ 13 := (ne_of_mem_maskRegisters defined (List.getElem_mem hk)).1
    have written := writeRegs_readReg s ((maskRegisters mask).reverse.zip ((List.range (maskRegisters mask).length).map w))
      (by rw [names]; exact List.nodup_reverse.2 (maskRegisters_nodup mask)) ((maskRegisters mask).length - 1 - k) (by simp; omega)
    simp only [List.getElem_zip, List.getElem_reverse, List.getElem_map, List.getElem_range,
      show (maskRegisters mask).length - 1 - ((maskRegisters mask).length - 1 - k) = k by omega] at written
    rw [here, State.readReg_writeReg_ne _ _ notSp, written]
  · rw [State.readReg_writeReg_ne _ _ notSp, writeRegs_readReg_ne]
    rw [names, List.mem_reverse]
    exact out

end

/-- MPOP after MPUSH, in the state MPUSH left: every register is written with what it holds, and SP goes back. -/
theorem exec_mpop_pushed {s : State} {o : Operand} {mask : Word} (defined : mask &&& 0xFFFFA000#32 = 0) (off : s.flags.vm = false)
    (stack : ∀ k < (maskRegisters mask).length, memExists s.cfg (s.readReg 13 - BitVec.ofNat 32 (k + 1)) = true) {mem : Memory}
    (words : ∀ k < (maskRegisters mask).length,
      mem.readWord (s.readReg 13 - BitVec.ofNat 32 (k + 1)) = s.readReg ((maskRegisters mask).getD k 0)) {t : State}
    (pushed : t = { s.writeReg 13 (s.readReg 13 - BitVec.ofNat 32 (maskRegisters mask).length) with mem := mem })
    (read : operandValue t o = .ok mask) :
    exec (.mpop o) t = .next { s with mem := mem } := by
  have sp : t.readReg 13 = s.readReg 13 - BitVec.ofNat 32 (maskRegisters mask).length := by
    rw [pushed]
    exact State.readReg_writeReg_same s 13 _
  have others (q : Reg) (ne : q ≠ 13) : t.readReg q = s.readReg q := by
    rw [pushed]
    exact State.readReg_writeReg_ne s _ ne
  have vm : t.flags.vm = false := by rw [pushed]; simp [off]
  have place (k : Nat) (hk : k < (maskRegisters mask).length) : t.readReg 13 + BitVec.ofNat 32 k =
      s.readReg 13 - BitVec.ofNat 32 ((maskRegisters mask).length - 1 - k + 1) := by
    have short := maskRegisters_length_le mask
    rw [sp]
    apply BitVec.eq_of_toNat_eq
    simp only [BitVec.toNat_add, BitVec.toNat_sub, BitVec.toNat_ofNat]
    omega
  have popped := popWords_ok (s := t) (a := t.readReg 13) (n := (maskRegisters mask).length)
    (w := fun k => s.readReg ((maskRegisters mask).getD ((maskRegisters mask).length - 1 - k) 0)) fun k hk => by
      have inside : (maskRegisters mask).length - 1 - k < (maskRegisters mask).length := by omega
      have present : memExists t.cfg (t.readReg 13 + BitVec.ofNat 32 k) = true := by
        rw [place k hk, pushed]
        simpa using stack _ inside
      rw [memRead_off vm present, place k hk, ← words _ inside, pushed]
  rw [exec_mpop_popped read defined popped, writeRegs_same]
  · rw [sp, BitVec.sub_add_cancel, pushed, State.writeReg_withMem, State.writeReg_writeReg, State.writeReg_readReg]
  · intro x hx
    obtain ⟨k, hk, rfl⟩ := List.getElem_of_mem hx
    have inside : k < (maskRegisters mask).length := by simpa using hk
    have last : (maskRegisters mask).length - 1 - k < (maskRegisters mask).length := by omega
    simp only [List.getElem_zip, List.getElem_reverse, List.getElem_map, List.getElem_range, List.getD_eq_getElem _ _ last]
    exact others _ (ne_of_mem_maskRegisters defined (List.getElem_mem last)).1

/-- Settles O42: both are words pushed or popped, one register each. -/
theorem multipleRegisters : Obligations.MultipleRegisters := by
  intro s o mask rs read named
  obtain rfl : rs = maskRegisters mask := named
  refine ⟨exec_mpush_mpop_undefined read, fun defined => ⟨fun x start => ⟨fun chain => ?pushed, fun j e hj chain failed => ?stopped⟩,
    fun off stack => ?plain, fun w stack => ?popped, fun k e hk before failed => ?unreadable⟩⟩
  case pushed =>
    have pushed := pushWords_chain (top := s.readReg 13) (vs := (maskRegisters mask).map s.readReg) start fun k hk => by
      have hk : k < (maskRegisters mask).length := by simpa using hk
      rw [getElem_map_getD s.readReg hk]
      exact chain k hk
    rw [List.length_map] at pushed
    exact exec_mpush_pushed read defined pushed
  case stopped =>
    refine exec_mpush_stopped read defined (pushWords_chain_error (x := x) (j := j) start (by simpa using hj) (fun k hk => ?_) ?_)
    · rw [getElem_map_getD s.readReg (hk.trans hj)]
      exact chain k hk
    · rw [getElem_map_getD s.readReg hj]
      exact failed
  case plain =>
    obtain ⟨mem, next, words, others⟩ := exec_mpush_plain read defined off stack
    exact ⟨_, next, rfl, words, others, exec_mpop_pushed defined off (fun k hk => (stack k hk).1) words rfl⟩
  case popped =>
    obtain ⟨t, next, only, words, sp, others⟩ := exec_mpop_plain read defined stack
    exact ⟨t, next, words, sp, others, only.frame, only.banked, only.plain, only.system, only.user⟩
  case unreadable => exact exec_mpop_stopped read defined (popWords_error hk before failed)

/-! ### SYSCALL (R233) -/

section
variable {s : State} {m : Reg} {o : Operand} {code : Word} (read : operandValue s o = .ok code)
include read

theorem exec_syscall_badcall (bad : code.toInt < 0 ∨ s.cgLen.toInt ≤ code.toInt) :
    exec (.syscall m o) s = stopOutcome s s.faultPc (.raised ⟨.badcall, some (s.pc - 1), some code⟩) := by
  show execSyscall m o s = _
  rw [execSyscall, read, Res.ok_bind, if_pos bad, conclude, State.this]

variable (nonneg : 0 ≤ code.toInt) (below : code.toInt < s.cgLen.toInt)
include nonneg below

theorem exec_syscall_gate :
    exec (.syscall m o) s = conclude s (physRead s (s.cgBr + code) >>= fun target =>
      pushWords s.asSystem s.sysSp (frameWords s (BitVec.ofNat 32 m.val) code 0 s.pc) >>= fun t =>
        .ok { t with sysSp := s.sysSp - 21, pc := target }) := by
  show execSyscall m o s = _
  rw [execSyscall, read, Res.ok_bind, if_neg (by omega)]

theorem exec_syscall_gateMissing (missing : memExists s.cfg (s.cgBr + code) = false) :
    exec (.syscall m o) s = stopOutcome s s.faultPc (.raised ⟨.memory, some (s.cgBr + code), none⟩) := by
  rw [exec_syscall_gate read nonneg below, physRead_missing missing, Res.raise_bind, conclude_raise]

variable (gate : memExists s.cfg (s.cgBr + code) = true)
include gate

theorem exec_syscall_pushed {t : State}
    (pushed : pushWords s.asSystem s.sysSp (frameWords s (BitVec.ofNat 32 m.val) code 0 s.pc) = .ok t) :
    exec (.syscall m o) s = .next { t with sysSp := s.sysSp - 21, pc := s.mem.readWord (s.cgBr + code) } := by
  rw [exec_syscall_gate read nonneg below, physRead_of_exists gate, Res.ok_bind, pushed, Res.ok_bind, conclude]

theorem exec_syscall_stopped {e : Stop}
    (stopped : pushWords s.asSystem s.sysSp (frameWords s (BitVec.ofNat 32 m.val) code 0 s.pc) = .error e) :
    exec (.syscall m o) s = stopOutcome s s.faultPc e := by
  rw [exec_syscall_gate read nonneg below, physRead_of_exists gate, Res.ok_bind, stopped, Res.error_bind, conclude]

end

theorem frame_place (top : Word) {i : Nat} (hi : i < 21) :
    top - 21 + BitVec.ofNat 32 i = top - BitVec.ofNat 32 (20 - i + 1) := by
  apply BitVec.eq_of_toNat_eq
  simp only [BitVec.toNat_add, BitVec.toNat_sub, BitVec.toNat_ofNat, show (21 : Word).toNat = 21 from rfl]
  omega

/-- A 21-word frame pushed where nothing hinders it: from its lowest address upward it holds the frame's words in opposite order, and
no other word changes. -/
theorem pushWords_frame {s : State} {top : Word} {vs : List Word} (length : vs.length = 21) (off : s.flags.vm = false)
    (stack : ∀ k < 21, memExists s.cfg (top - BitVec.ofNat 32 (k + 1)) = true ∧
      watchHit s (top - BitVec.ofNat 32 (k + 1)) = false) :
    ∃ mem, pushWords s top vs = .ok { s with mem := mem } ∧
      (∀ i (hi : i < 21), mem.readWord (top - 21 + BitVec.ofNat 32 i) = vs[20 - i]) ∧
      ∀ a, (∀ i < 21, a ≠ top - 21 + BitVec.ofNat 32 i) → mem.readWord a = s.mem.readWord a := by
  obtain ⟨t, pushed, frame, words, others⟩ := pushWords_plain (vs := vs) off (by omega) (by rwa [length])
  refine ⟨t.mem, by rw [pushed, ← frame], fun i hi => ?_, fun a ha => others a fun k hk => ?_⟩
  · rw [frame_place top hi]
    exact words (20 - i) (by omega)
  · have := ha (20 - k) (by omega)
    rw [frame_place top (by omega)] at this
    rwa [show 20 - (20 - k) = k by omega] at this

/-- Settles O43: behind the two checks SYSCALL is the frame pushed as a system-mode access. -/
theorem syscallEntersGate : Obligations.SyscallEntersGate := by
  intro s m o code read
  refine ⟨exec_syscall_badcall read, fun nonneg below gate off stack => ?plain,
    fun nonneg below missing => exec_syscall_gateMissing read nonneg below missing, fun nonneg below gate x frame start named => ?chain⟩
  case plain =>
    have length := frameWords_length s (BitVec.ofNat 32 m.val) code 0 s.pc
    obtain ⟨mem, pushed, words, others⟩ := pushWords_frame (s := s.asSystem) length off stack
    have tail (k : Nat) (hk : k < 8) := frameWords_tail s (BitVec.ofNat 32 m.val) code 0 s.pc k hk
    refine ⟨_, exec_syscall_pushed read nonneg below gate pushed, rfl, ?_, (words 1 (by omega)).trans (tail 6 (by omega)),
      (words 2 (by omega)).trans (tail 5 (by omega)), (words 3 (by omega)).trans (tail 4 (by omega)),
      (words 4 (by omega)).trans (tail 3 (by omega)), (words 5 (by omega)).trans (tail 2 (by omega)),
      (words 6 (by omega)).trans (tail 1 (by omega)), (words 7 (by omega)).trans (tail 0 (by omega)), fun k => ?_, others⟩
    · have lowest := (words 0 (by omega)).trans (tail 7 (by omega))
      rwa [show s.sysSp - 21 + BitVec.ofNat 32 0 = s.sysSp - 21 from BitVec.add_zero _] at lowest
    · rw [← frameWords_regs s (BitVec.ofNat 32 m.val) code 0 s.pc k]
      refine (words (20 - k.val) (by omega)).trans ?_
      congr 1
      omega
  case chain =>
    have named : frame = frameWords s (BitVec.ofNat 32 m.val) code 0 s.pc := named
    have length : frame.length = 21 := named ▸ frameWords_length s _ _ _ _
    have entry (k : Nat) (hk : k < 21) : frame.getD k 0 = frame[k]'(by omega) := List.getD_eq_getElem _ _ (by omega)
    refine ⟨fun chain => ?_, fun j e hj chain failed => ?_⟩
    · have pushed := pushWords_chain (top := s.sysSp) (vs := frame) start fun k hk => by
        rw [← entry k (by omega)]
        exact chain k (by omega)
      rw [length] at pushed
      exact exec_syscall_pushed read nonneg below gate (named ▸ pushed)
    · have stopped := pushWords_chain_error (top := s.sysSp) (vs := frame) (j := j) (e := e) start (by omega)
        (fun k hk => by rw [← entry k (by omega)]; exact chain k hk) (by rw [← entry j hj]; exact failed)
      exact exec_syscall_stopped read nonneg below gate (named ▸ stopped)

end Sys2Proof.Machine
end

section
/-! PROOFS. The family 30_encoding.md: the fields of a word, the opcode map, decoding against encoding, the opcodes that are no
instruction (R120, R121, R128, R130, R131, R134). -/

namespace Sys2Proof

/-! ### The fields of a word (R121) -/

theorem opcodeField_eq (w : Word) : opcodeField w = w.toNat / 2 ^ 25 := by
  simp only [opcodeField, BitVec.extractLsb'_toNat, Nat.shiftRight_eq_div_pow]
  omega

theorem opcodeField_lt (w : Word) : opcodeField w < 128 := (w.extractLsb' 25 7).isLt

theorem ofBool_getLsbD (w : Word) (k : Nat) : BitVec.ofBool (w.getLsbD k) = w.extractLsb' k 1 := by
  rw [BitVec.getLsbD_eq_extractLsb']
  generalize w.extractLsb' k 1 = b
  revert b
  decide

/-- A word is its fields and nothing else: they lie side by side, from bit 31 down to bit 0. -/
theorem assemble_fields (w : Word) : assemble (opcodeField w) (mainField w) (operandField w) = w := by
  simp only [assemble, opcodeField, mainField, operandField, BitVec.ofNat_toNat, BitVec.setWidth_eq, ofBool_getLsbD]
  change w.extractLsb' 25 7 ++ w.extractLsb' 24 1 ++ w.extractLsb' 20 4 ++ w.extractLsb' 16 4 ++ w.extractLsb' 0 16 = w
  rw [BitVec.extractLsb'_append_extractLsb'_eq_extractLsb' (show 25 = 24 + 1 from rfl),
    BitVec.extractLsb'_append_extractLsb'_eq_extractLsb' (show 24 = 20 + 4 from rfl),
    BitVec.extractLsb'_append_extractLsb'_eq_extractLsb' (show 20 = 16 + 4 from rfl),
    BitVec.extractLsb'_append_extractLsb'_eq_extractLsb' (show 16 = 0 + 16 from rfl)]
  exact BitVec.extractLsb'_eq_self

/-! ### The bits an instruction uses (R128) -/

/-- A field of a mask: all its bits or none of them. -/
def fieldOnes (k : Nat) (used : Bool) : BitVec k := if used then BitVec.allOnes k else 0

theorem and_fieldOnes {k : Nat} (x : BitVec k) (used : Bool) : x &&& fieldOnes k used = if used then x else 0 := by
  cases used <;> simp [fieldOnes]

/-- The bits of the opcode, with those of the main register field and those of the operand fields where they are used. -/
def fieldMask (main operand : Bool) : Word :=
  fieldOnes 7 true ++ fieldOnes 1 operand ++ fieldOnes 4 main ++ fieldOnes 4 operand ++ fieldOnes 16 operand

theorem append_and_append_fields {a a' : BitVec 7} {b b' : BitVec 1} {c c' d d' : BitVec 4} {e e' : BitVec 16} :
    (a ++ b ++ c ++ d ++ e) &&& (a' ++ b' ++ c' ++ d' ++ e') =
      (a &&& a') ++ (b &&& b') ++ (c &&& c') ++ (d &&& d') ++ (e &&& e') := by
  simp only [BitVec.and_append]

/-- The mask keeps the opcode and the fields it covers, and clears the others. -/
theorem assemble_and_fieldMask (op : Nat) (m : Reg) (o : Operand) (main operand : Bool) :
    assemble op m o &&& fieldMask main operand = assemble op (if main then m else 0) (if operand then o else .unused) := by
  refine append_and_append_fields.trans ?_
  simp only [and_fieldOnes]
  cases main <;> cases operand <;> rfl

theorem Instr.usedMask_cases (i : Instr) :
    i.usedMask = 0xFE000000 ∨ i.usedMask = 0xFF0FFFFF ∨ i.usedMask = 0xFEF00000 ∨ i.usedMask = 0xFFFFFFFF := by
  unfold usedMask
  split <;> simp

/-- A mask holds whole fields, so one bit of each field tells which. -/
theorem Instr.usedMask_eq_fieldMask (i : Instr) : i.usedMask = fieldMask (i.usedMask.getLsbD 20) (i.usedMask.getLsbD 0) := by
  rcases i.usedMask_cases with h | h | h | h <;> rw [h] <;> decide

/-! ### The opcode map (R130) -/

theorem findOpcode_some {op : Nat} {rows : List OpcodeRow} {row : OpcodeRow} (h : findOpcode op rows = some row) :
    row ∈ rows ∧ row.opcode = op := by
  induction rows with
  | nil => cases h
  | cons r rest ih =>
    rw [findOpcode] at h
    split at h
    · next found =>
      cases h
      exact ⟨.head _, found⟩
    · obtain ⟨mem, opcode⟩ := ih h
      exact ⟨.tail _ mem, opcode⟩

theorem findOpcode_eq_none {op : Nat} {rows : List OpcodeRow} : findOpcode op rows = none ↔ op ∉ rows.map OpcodeRow.opcode := by
  induction rows with
  | nil => simp [findOpcode]
  | cons r rest ih =>
    by_cases found : r.opcode = op
    · simp [findOpcode, found]
    · simp [findOpcode, found, ih, Ne.symm found]

theorem opcodeMap_opcodes : opcodeMap.map OpcodeRow.opcode = List.range 108 ++ [127] := rfl

theorem findOpcode_opcodeMap_eq_none {op : Nat} : findOpcode op opcodeMap = none ↔ 108 ≤ op ∧ op ≠ 127 := by
  rw [findOpcode_eq_none, opcodeMap_opcodes]
  simp

/-- The bits used by the instructions of a row. -/
def OpcodeRow.mask (row : OpcodeRow) : Word := (row.build 0 .unused).usedMask

theorem usedMask_build {row : OpcodeRow} (mem : row ∈ opcodeMap) (m : Reg) (o : Operand) : (row.build m o).usedMask = row.mask := by
  have table : opcodeMap.map (fun row => (row.build m o).usedMask) = opcodeMap.map OpcodeRow.mask := rfl
  exact List.map_inj_left.1 table row mem

/-- An instruction has the opcode of its row, and keeps the fields that its row's mask covers. -/
theorem parts_build {row : OpcodeRow} (mem : row ∈ opcodeMap) (m : Reg) (o : Operand) :
    (row.build m o).parts = (row.opcode, if row.mask.getLsbD 20 then m else 0, if row.mask.getLsbD 0 then o else .unused) := by
  have table : opcodeMap.map (fun row => (row.build m o).parts) = opcodeMap.map fun row =>
    (row.opcode, if row.mask.getLsbD 20 then m else 0, if row.mask.getLsbD 0 then o else .unused) := rfl
  exact List.map_inj_left.1 table row mem

/-- Every instruction has a row, which builds it from its own fields. -/
theorem Instr.exists_row (i : Instr) :
    ∃ row, findOpcode i.parts.1 opcodeMap = some row ∧ row.build i.parts.2.1 i.parts.2.2 = i := by
  have found : (findOpcode i.parts.1 opcodeMap).map (fun row => row.build i.parts.2.1 i.parts.2.2) = some i := by cases i <;> rfl
  exact Option.map_eq_some_iff.1 found

theorem Instr.opcode_lt (i : Instr) : i.parts.1 < 128 := by
  obtain ⟨row, found, -⟩ := i.exists_row
  by_contra high
  rw [findOpcode_opcodeMap_eq_none.2 (by omega)] at found
  cases found

/-! ### Decoding against encoding (R134) -/

theorem decode_ok_iff_findOpcode {w : Word} {i : Instr} :
    decode w = .ok i ↔ ∃ row, findOpcode (opcodeField w) opcodeMap = some row ∧ row.build (mainField w) (operandField w) = i := by
  unfold decode
  split <;> simp [*]

theorem decode_error_iff_findOpcode {w : Word} : (∃ e, decode w = .error e) ↔ findOpcode (opcodeField w) opcodeMap = none := by
  unfold decode
  split <;> simp [*]

theorem decode_encode (i : Instr) : decode (encode i) = .ok i := by
  obtain ⟨row, found, built⟩ := i.exists_row
  rw [encode, decode_assemble i.opcode_lt, found]
  exact congrArg Except.ok built

/-- A word is its instruction's in the bits the instruction uses. -/
theorem and_usedMask_of_decode {w : Word} {i : Instr} (h : decode w = .ok i) : w &&& i.usedMask = encode i := by
  obtain ⟨row, found, rfl⟩ := decode_ok_iff_findOpcode.1 h
  obtain ⟨mem, opcode⟩ := findOpcode_some found
  calc w &&& (row.build (mainField w) (operandField w)).usedMask
      = assemble (opcodeField w) (mainField w) (operandField w) &&& fieldMask (row.mask.getLsbD 20) (row.mask.getLsbD 0) := by
        rw [assemble_fields, Instr.usedMask_eq_fieldMask, usedMask_build mem]
    _ = encode (row.build (mainField w) (operandField w)) := by
        rw [assemble_and_fieldMask, encode, parts_build mem, opcode]

/-- The opcode is always among the used bits. -/
theorem opcodeField_of_and_usedMask {w : Word} {i : Instr} (h : w &&& i.usedMask = encode i) : opcodeField w = i.parts.1 := by
  rw [← assemble_fields w, i.usedMask_eq_fieldMask, assemble_and_fieldMask, encode] at h
  have same := congrArg opcodeField h
  rwa [opcodeField_assemble (opcodeField_lt w), opcodeField_assemble i.opcode_lt] at same

/-- Such a word decodes to an instruction of the same row, which has the same mask and so the same encoding. -/
theorem decode_of_and_usedMask {w : Word} {i : Instr} (h : w &&& i.usedMask = encode i) : decode w = .ok i := by
  obtain ⟨row, found, built⟩ := i.exists_row
  have mem : row ∈ opcodeMap := (findOpcode_some found).1
  have decoded : decode w = .ok (row.build (mainField w) (operandField w)) :=
    decode_ok_iff_findOpcode.2 ⟨row, by rw [opcodeField_of_and_usedMask h, found], rfl⟩
  have same : encode i = encode (row.build (mainField w) (operandField w)) := by
    rw [← and_usedMask_of_decode decoded, usedMask_build mem, ← usedMask_build mem i.parts.2.1 i.parts.2.2, built, h]
  rw [decoded, ← decode_encode, ← same, decode_encode]

/-- Settles O3: a row of the opcode map builds an instruction whose encoding keeps the fields that its mask covers. -/
theorem decodeAndEncodeAgree : Obligations.DecodeAndEncodeAgree :=
  ⟨decode_encode, fun _ _ => ⟨and_usedMask_of_decode, decode_of_and_usedMask⟩⟩

/-- Settles O2: each of the words is the encoding of its instruction. -/
theorem wordsOfTheManualDecode : Obligations.WordsOfTheManualDecode := by
  have reads {w : Word} {i : Instr} (h : encode i = w) : decode w = .ok i := h ▸ decode_encode i
  exact ⟨reads rfl, reads rfl, reads rfl, reads rfl, reads rfl, reads rfl, reads rfl, reads rfl, reads rfl, reads rfl⟩

end Sys2Proof

namespace Sys2Proof.Machine

/-! ### Opcodes that are no instruction (R131) -/

theorem decode_error_iff_opcode (w : Word) : (∃ e, decode w = .error e) ↔ 108 ≤ w.toNat / 2 ^ 25 ∧ w.toNat / 2 ^ 25 ≤ 126 := by
  have := opcodeField_lt w
  rw [decode_error_iff_findOpcode, findOpcode_opcodeMap_eq_none, ← opcodeField_eq]
  omega

theorem instructionOutcome_unimplemented {s : State} {w : Word} (noHit : debugHit s = false) (fetched : memRead s s.pc = .ok w)
    (undecoded : ∃ e, decode w = .error e) :
    instructionOutcome s = stopOutcome s.advanced s.advanced.faultPc (.raised ⟨.unimpop, some s.pc, none⟩) := by
  obtain ⟨e, undecoded⟩ := undecoded
  simp only [instructionOutcome, noHit, Bool.false_eq_true, if_false, fetch, fetched, undecoded, conclude_raise]

/-- Settles O4: the opcode map names 0 to 107 and 127, and a word it does not name raises UNIMPOP. -/
theorem unimplementedOpcodesTrap : Obligations.UnimplementedOpcodesTrap := by
  refine ⟨decode_error_iff_opcode, fun s w running host keys timer noHit fetched low high => ?_⟩
  have undecoded := (decode_error_iff_opcode w).2 ⟨low, high⟩
  rw [step_executeOne running host (.inl keys) timer, executeOne, instructionOutcome_unimplemented noHit fetched undecoded,
    State.advanced]

end Sys2Proof.Machine
end

section
/-! PROOFS. The family 40_core_integer.md: operands that cannot be read, destinations in registers and memory, the simple system
instructions (R12, R160, R163 to R166, R250 to R252, R258, R260 to R264, R470 g to j). -/

namespace Sys2Proof.Machine

/-! ### A destination that can be written (R12, R165, R166, R263) -/

section
variable {o : Operand} {s : State} (writable : o.isWritable = true)
include writable

theorem checkWritable_writable : checkWritable s o = .ok () := by
  rw [checkWritable, if_pos writable]

theorem Operand.isConstantZero_of_writable : o.isConstantZero = false := by
  cases o with
  | mk indirect index number => cases indirect <;> simp_all [Operand.isWritable, Operand.isRegister, Operand.isConstantZero]

theorem updateOp_writable (f : Word → Word) :
    updateOp f o s = conclude s (operandValue s o >>= fun v => writeDest s o (f v)) := by
  rw [updateOp, checkWritable_writable writable, Res.ok_bind]

theorem exec_inc_writable : exec (.inc o) s = conclude s (operandValue s o >>= fun v => writeDest s o (v + 1)) := by
  rw [exec_inc, if_neg (by simp [Operand.isConstantZero_of_writable writable]), updateOp_writable writable]

theorem exec_dec_writable : exec (.dec o) s = conclude s (operandValue s o >>= fun v => writeDest s o (v - 1)) := by
  rw [exec_dec, if_neg (by simp [Operand.isConstantZero_of_writable writable]), updateOp_writable writable]

/-- INCH without a character waiting writes -1. -/
theorem exec_inch_none (none : s.keyboard = []) : exec (.inch o) s = conclude s (writeDest s o 0xFFFFFFFF#32) := by
  show execInch o s = _
  simp only [execInch, checkWritable_writable writable, Res.ok_bind, none]
  rfl

/-- INCH takes the first character out of the buffer once it is written. -/
theorem exec_inch_some {c : Byte} {rest : List Byte} (waiting : s.keyboard = c :: rest) :
    exec (.inch o) s =
      conclude s (writeDest s o (BitVec.ofNat 32 c.toNat) >>= fun t => .ok { t with keyboard := rest }) := by
  show execInch o s = _
  simp only [execInch, checkWritable_writable writable, Res.ok_bind, waiting, BitVec.ofNat_toNat]

end

theorem Operand.isWritable_memory {o : Operand} (memory : o.indirect = true) : o.isWritable = true := by
  simp [Operand.isWritable, memory]

/-! ### An operand that cannot be read (R164, R470 h) -/

theorem Operand.indirect_of_unreadable {s : State} {o : Operand} {e : Stop} (unreadable : operandValue s o = .error e) :
    o.indirect = true := by
  by_contra direct
  rw [operandValue_direct (by simpa using direct)] at unreadable
  cases unreadable

section
variable {s : State} {o : Operand} {e : Stop} (unreadable : operandValue s o = .error e)
include unreadable

/-- An instruction that reads its operand first does nothing else when the read fails. -/
theorem conclude_unreadable (k : Word → Res State) : conclude s (operandValue s o >>= k) = stopOutcome s s.faultPc e := by
  rw [unreadable, Res.error_bind, conclude]

/-- An operand that cannot be read is a memory word, and so passes the check of its form (R12). -/
theorem Operand.isWritable_of_unreadable : o.isWritable = true :=
  Operand.isWritable_memory (Operand.indirect_of_unreadable unreadable)

theorem conclude_checkWritable_unreadable (k : Word → Res State) :
    conclude s (checkWritable s o >>= fun _ => operandValue s o >>= k) = stopOutcome s s.faultPc e := by
  rw [checkWritable_writable (Operand.isWritable_of_unreadable unreadable), Res.ok_bind, conclude_unreadable unreadable]

theorem exec_inc_unreadable : exec (.inc o) s = stopOutcome s s.faultPc e := by
  rw [exec_inc_writable (Operand.isWritable_of_unreadable unreadable), conclude_unreadable unreadable]

theorem exec_dec_unreadable : exec (.dec o) s = stopOutcome s s.faultPc e := by
  rw [exec_dec_writable (Operand.isWritable_of_unreadable unreadable), conclude_unreadable unreadable]

theorem execFfnz_unreadable (m : Reg) : execFfnz m o s = stopOutcome s s.faultPc e := by
  simp only [execFfnz, unreadable, conclude]

theorem execIntr_unreadable (m : Reg) : execIntr m o s = stopOutcome s s.faultPc e := by
  simp only [execIntr, unreadable, conclude]

variable (sys : s.flags.sys = true)
include sys

theorem conclude_privileged_unreadable (k : Word → Res State) :
    conclude s (privileged s (operandValue s o >>= k)) = stopOutcome s s.faultPc e := by
  rw [privileged_system sys, conclude_unreadable unreadable]

theorem execClrpp_unreadable : execClrpp o s = stopOutcome s s.faultPc e := by
  simp only [execClrpp, sys, Bool.not_true, Bool.false_eq_true, if_false, unreadable, conclude]

end

/-- Settles O25: an instruction reads its operand first, or behind a check that an operand in memory, or system mode, passes; FFNZ,
INTR and CLRPP match on the read. -/
theorem operandReadFaults : Obligations.OperandReadFaults := by
  intro s m o e unreadable
  refine ⟨?anyMode, fun sys => ?system⟩
  case anyMode =>
    simp only [List.forall_mem_cons, List.not_mem_nil, false_implies, implies_true, and_true]
    refine ⟨?load, ?loadh, ?inc, ?dec, ?add, ?sub, ?mul, ?div, ?mod, ?rsub, ?rdiv, ?rmod, ?and, ?or, ?xor, ?not, ?shl, ?shr,
      ?comp, ?compz, ?tbit, ?sbit, ?cbit, ?jump, ?jzer, ?jpos, ?jneg, ?getfl, ?setfl, ?getsr, ?push, ?call, ?ldch, ?stch, ?pause,
      ?syscall, ?atas, ?vtran, ?sign, ?fadd, ?fsub, ?fmul, ?fdiv, ?fcomp, ?fcompz, ?fix, ?frnd, ?float, ?flog, ?fexp, ?fsqrt,
      ?fsin, ?fcos, ?fatan, ?fabs, ?floor, ?fsign, ?ffo, ?flz, ?trace, ?type, ?andn, ?orn, ?neg, ?fneg, ?rotl, ?rotr, ?asr, ?exbr,
      ?exbrv, ?dpbr, ?dpbrv, ?adjs, ?uexbr, ?uexbrv, ?ucomp, ?umul, ?udiv, ?umod, ?lbitf, ?lbito, ?sbitf, ?sbito, ?ffnz, ?sext,
      ?intr, ?mpush, ?mpop, ?fgood⟩
    case inc => exact exec_inc_unreadable unreadable
    case dec => exact exec_dec_unreadable unreadable
    case atas | dpbr | sbito => exact conclude_checkWritable_unreadable unreadable _
    case ffnz => exact execFfnz_unreadable unreadable m
    case intr => exact execIntr_unreadable unreadable m
    all_goals exact conclude_unreadable unreadable _
  case system =>
    simp only [List.forall_mem_cons, List.not_mem_nil, false_implies, implies_true, and_true]
    refine ⟨?setsr, ?peri, ?flagsj, ?phload, ?phstore, ?clrpp⟩
    case clrpp => exact execClrpp_unreadable unreadable sys
    all_goals exact conclude_privileged_unreadable unreadable sys _

/-! ### A bare register as destination (R12, R163, R165, R166, R252, R263) -/

section
variable {o : Operand} (direct : o.indirect = false) (index : o.index ≠ 0) (number : o.number = 0) (s : State)
include direct index number

theorem Operand.isRegister_bare : o.isRegister = true := by
  simp [Operand.isRegister, direct, index, number]

theorem Operand.isWritable_bare : o.isWritable = true := by
  simp [Operand.isWritable, Operand.isRegister_bare direct index number]

theorem operandValue_bare : operandValue s o = .ok (s.readReg o.index) := by
  rw [operandValue_direct direct, operandTotal, number, if_neg index]
  simp

theorem writeDest_bare (v : Word) : writeDest s o v = .ok (s.writeReg o.index v) := by
  simp [writeDest, direct, Operand.isRegister_bare direct index number]

theorem exec_atas_bare (m : Reg) : exec (.atas m o) s = .next ((s.writeReg m (s.readReg o.index)).writeReg o.index 1) := by
  show execAtas m o s = _
  rw [execAtas, checkWritable_writable (Operand.isWritable_bare direct index number), Res.ok_bind,
    operandValue_bare direct index number, Res.ok_bind, if_neg (by simp [direct]), conclude]

end

theorem exec_store (m : Reg) (o : Operand) (s : State) : exec (.store m o) s = conclude s (writeDest s o (s.readReg m)) := rfl

/-- Settles O36: the destination is written with what the operand reads, a register's contents. -/
theorem registerDestinations : Obligations.RegisterDestinations := by
  intro s m o direct index number
  have writable := Operand.isWritable_bare direct index number
  have read := operandValue_bare direct index number s
  have write := writeDest_bare direct index number s
  refine ⟨?store, ?inc, ?dec, exec_atas_bare direct index number s m, fun none => ?inchNone, fun c rest waiting => ?inchSome⟩
  case store => rw [exec_store, write, conclude]
  case inc => rw [exec_inc_writable writable, read, Res.ok_bind, write, conclude]
  case dec => rw [exec_dec_writable writable, read, Res.ok_bind, write, conclude]
  case inchNone => rw [exec_inch_none writable none, write, conclude]
  case inchSome => rw [exec_inch_some writable waiting, write, Res.ok_bind, conclude]

/-! ### A memory word as destination (R12, R163 to R166, R252, R263, R470 j) -/

section
variable {s : State} {o : Operand} (memory : o.indirect = true)
include memory

theorem writeDest_memory (v : Word) : writeDest s o v = memWrite s (operandTotal s o) v := by
  rw [writeDest, if_pos memory]

theorem exec_atas_memory {v : Word} (read : operandValue s o = .ok v) (m : Reg) :
    exec (.atas m o) s = conclude s (memWrite s (operandTotal s o) 1 >>= fun t => .ok (t.writeReg m v)) := by
  show execAtas m o s = _
  rw [execAtas, checkWritable_writable (Operand.isWritable_memory memory), Res.ok_bind, read, Res.ok_bind, if_pos memory]

/-- What is read at an address is the word that a store there would replace. -/
theorem operandValue_target {p v : Word} (target : storeTarget s (operandTotal s o) = .ok p) (read : operandValue s o = .ok v) :
    v = s.mem.readWord p := by
  rw [operandValue_indirect memory, memRead_translated (storeTarget_translate target) (storeTarget_exists target)] at read
  exact (Except.ok.inj read).symm

variable {e : Stop} (unstorable : storeTarget s (operandTotal s o) = .error e)
include unstorable

theorem writeDest_unstorable (v : Word) : writeDest s o v = .error e := by
  rw [writeDest_memory memory, memWrite_error unstorable]

theorem writeDestOpen_unstorable (v : Option Word) : writeDestOpen s o v = .error e := by
  cases v with
  | some v => exact writeDest_unstorable memory unstorable v
  | none => rw [writeDestOpen, writeDest_unstorable memory unstorable, Res.error_bind]

/-- DPBR and SBITO: the store is all that follows the read. -/
theorem conclude_writeDestOpen_unstorable {v : Word} (read : operandValue s o = .ok v) (f : Word → Option Word) :
    conclude s (checkWritable s o >>= fun _ => operandValue s o >>= fun v => writeDestOpen s o (f v)) =
      stopOutcome s s.faultPc e := by
  rw [checkWritable_writable (Operand.isWritable_memory memory), Res.ok_bind, read, Res.ok_bind,
    writeDestOpen_unstorable memory unstorable, conclude]

theorem exec_inch_unstorable : exec (.inch o) s = stopOutcome s s.faultPc e := by
  have writable := Operand.isWritable_memory memory
  cases keys : s.keyboard with
  | nil => rw [exec_inch_none writable keys, writeDest_unstorable memory unstorable, conclude]
  | cons c rest => rw [exec_inch_some writable keys, writeDest_unstorable memory unstorable, Res.error_bind, conclude]

end

/-- Settles O37: the destination is the word that `storeTarget` gives, and nothing precedes the store but the operand's read. -/
theorem memoryDestinations : Obligations.MemoryDestinations := by
  refine ⟨fun s m o e memory unstorable => ⟨?_, exec_inch_unstorable memory unstorable, fun v read => ?_⟩,
    fun s m o p v memory target => ?stored⟩
  · rw [exec_store, writeDest_unstorable memory unstorable, conclude]
  · have writable := Operand.isWritable_memory memory
    simp only [List.forall_mem_cons, List.not_mem_nil, false_implies, implies_true, and_true]
    refine ⟨?inc, ?dec, ?atas, ?dpbr, ?sbito⟩
    case inc => rw [exec_inc_writable writable, read, Res.ok_bind, writeDest_unstorable memory unstorable, conclude]
    case dec => rw [exec_dec_writable writable, read, Res.ok_bind, writeDest_unstorable memory unstorable, conclude]
    case atas => rw [exec_atas_memory memory read, memWrite_error unstorable, Res.error_bind, conclude]
    all_goals exact conclude_writeDestOpen_unstorable memory unstorable read _
  case stored =>
    have writable := Operand.isWritable_memory memory
    have write (x : Word) : writeDest s o x = .ok (s.poke p x) := by rw [writeDest_memory memory, memWrite_of_target target]
    refine ⟨?store, fun none => ?inchNone, fun c rest waiting => ?inchSome,
      fun read => ⟨operandValue_target memory target read, ?inc, ?dec, ?atas⟩, fun x a => readWord_poke s p x a, fun x => rfl⟩
    case store => rw [exec_store, write, conclude]
    case inchNone => rw [exec_inch_none writable none, write, conclude]
    case inchSome => rw [exec_inch_some writable waiting, write, Res.ok_bind, conclude]
    case inc => rw [exec_inc_writable writable, read, Res.ok_bind, write, conclude]
    case dec => rw [exec_dec_writable writable, read, Res.ok_bind, write, conclude]
    case atas => rw [exec_atas_memory memory read, memWrite_of_target target, Res.ok_bind, conclude]

/-! ### HALT, NALT, NOP, PAUSE, BREAK, TRACE, TYPE and RAND (R160, R250, R251, R258, R260 to R262, R264) -/

theorem haltOp_system {s : State} (sys : s.flags.sys = true) : haltOp s = .next s.halt := by
  rw [haltOp, if_pos sys, conclude]

/-- RAND's word has the sign bit clear and is not 0 (R260, D43). -/
theorem randomPositive_pos (w : Word) : 0 < (randomPositive w).toInt := by
  have clear : (w &&& 0x7FFFFFFF#32).toNat = w.toNat % 2 ^ 31 := by
    rw [BitVec.toNat_and]
    exact Nat.and_two_pow_sub_one_eq_mod _ 31
  unfold randomPositive
  split
  · decide
  · next notZero =>
    have : (w &&& 0x7FFFFFFF#32).toNat ≠ 0 := fun zero => notZero (BitVec.eq_of_toNat_eq zero)
    rw [BitVec.toInt_eq_toNat_of_lt (by omega)]
    omega

/-- Settles O45: each is one named update of the state, behind the operand's value where it has an operand. -/
theorem simpleSystemInstructions : Obligations.SimpleSystemInstructions := by
  intro s m o v
  refine ⟨fun sys => ?halt, rfl, rfl, ⟨randomPositive s.free, randomPositive_pos _, ?rand⟩, fun read => ⟨?pause, ?trace, ?type⟩⟩
  case halt =>
    simp only [List.forall_mem_cons, List.not_mem_nil, false_implies, implies_true, and_true]
    exact ⟨haltOp_system sys, haltOp_system sys⟩
  case rand =>
    show execRand m s = _
    rw [execRand, State.drawn_writeReg]
  case pause =>
    show execPause o s = _
    rw [execPause, read, Res.ok_bind, conclude]
  case trace =>
    show execTrace m o s = _
    rw [execTrace, read, Res.ok_bind, conclude, State.emit, State.this]
  case type =>
    show execType o s = _
    rw [execType, read, Res.ok_bind, conclude, State.emit]

end Sys2Proof.Machine
end

section
/-! PROOFS. The family 40_core_integer.md: arithmetic, division, comparisons, shifts and single bits (R161, R162, R167 to R188,
R310, R313 to R323). -/

namespace Sys2Proof.Machine

/-! ### Words as signed and unsigned numbers -/

theorem ofInt_toInt_sub (a b : Word) : BitVec.ofInt 32 (a.toInt - b.toInt) = a - b := by
  rw [Int.sub_eq_add_neg, BitVec.ofInt_add, BitVec.ofInt_neg, BitVec.ofInt_toInt, BitVec.ofInt_toInt, BitVec.sub_eq_add_neg]

theorem ofInt_toInt_mul (a b : Word) : BitVec.ofInt 32 (a.toInt * b.toInt) = a * b := by
  rw [BitVec.ofInt_mul, BitVec.ofInt_toInt, BitVec.ofInt_toInt]

theorem ofInt_neg_toInt (a : Word) : BitVec.ofInt 32 (-a.toInt) = 0 - a := by
  rw [BitVec.ofInt_neg, BitVec.ofInt_toInt]
  exact (BitVec.zero_sub a).symm

theorem ofNat_toNat_add (a b : Word) : BitVec.ofNat 32 (a.toNat + b.toNat) = a + b := by
  rw [BitVec.ofNat_add, BitVec.ofNat_toNat, BitVec.ofNat_toNat, BitVec.setWidth_eq, BitVec.setWidth_eq]

theorem ofNat_toNat_mul (a b : Word) : BitVec.ofNat 32 (a.toNat * b.toNat) = a * b := by
  rw [BitVec.ofNat_mul, BitVec.ofNat_toNat, BitVec.ofNat_toNat, BitVec.setWidth_eq, BitVec.setWidth_eq]

theorem toInt_ne_zero {a : Word} (h : a ≠ 0) : a.toInt ≠ 0 := fun zero => h (BitVec.eq_of_toInt_eq zero)

/-! ### Register results (R161, R162, R167 to R169, R175 to R178, R310, R313 to R315, R320) -/

/-- The ones below bit n. -/
theorem lowOnes_getLsbD {n : Nat} (hn : n < 32) (i : Nat) : (1#32 <<< n - 1#32).getLsbD i = decide (i < n) := by
  have small : 2 ^ n < 2 ^ 32 := Nat.pow_lt_pow_right (by decide) hn
  have value : (1#32 <<< n - 1#32).toNat = 2 ^ n - 1 := by
    have := Nat.two_pow_pos n
    rw [BitVec.toNat_sub, BitVec.toNat_shiftLeft, Nat.shiftLeft_eq]
    simp only [BitVec.toNat_ofNat]
    omega
  rw [← BitVec.testBit_toNat, value, Nat.testBit_two_pow_sub_one]

/-- LOADH keeps the low half and replaces the high one (R162). -/
theorem loadh_halves (r v : Word) : r &&& 0x0000FFFF#32 ||| v <<< 16 = v.extractLsb' 0 16 ++ r.extractLsb' 0 16 := by
  apply BitVec.eq_of_getLsbD_eq
  intro i hi
  have ones : (0x0000FFFF#32).getLsbD i = decide (i < 16) := lowOnes_getLsbD (n := 16) (by decide) i
  simp only [BitVec.getLsbD_or, BitVec.getLsbD_and, ones, BitVec.getLsbD_shiftLeft, BitVec.getLsbD_append, BitVec.getLsbD_extractLsb']
  rcases lt_or_ge i 16 with low | high
  · simp [low]
  · simp [show ¬ i < 16 by omega, show i - 16 < 16 by omega, hi]

theorem signWord_eq (v : Word) : signWord v = BitVec.ofInt 32 v.toInt.sign := by
  unfold signWord
  rw [BitVec.msb_eq_toInt]
  split
  · next negative => rw [Int.sign_eq_neg_one_of_neg (by simpa using negative)]; rfl
  · next notNegative =>
    split
    · next zero => subst zero; rfl
    · next notZero =>
      have := toInt_ne_zero notZero
      rw [Int.sign_eq_one_of_pos (by simp only [decide_eq_true_eq] at notNegative; omega)]
      rfl

/-- Settles O27: each instruction writes its function of register and value, which the word lemmas give as a number. -/
theorem registerResults : Obligations.RegisterResults := by
  intro s m o
  refine ⟨fun e unreadable => ?faults, fun v read => ?results⟩
  case faults =>
    simp only [List.forall_mem_cons, List.not_mem_nil, false_implies, implies_true, and_true]
    refine ⟨?_, ?_, ?_, ?_, ?_, ?_, ?_, ?_, ?_, ?_, ?_, ?_, ?_, ?_, ?_⟩ <;> exact conclude_unreadable unreadable _
  case results =>
    rw [ofNat_toNat_add, ofInt_toInt_sub, ofInt_toInt_mul, ofInt_toInt_sub, ← signWord_eq, ofInt_neg_toInt, ofNat_toNat_mul,
      ← loadh_halves]
    exact ⟨regOp_eq (f := fun _ v => v) read, regOp_eq (f := fun r v => r &&& 0x0000FFFF#32 ||| v <<< 16) read,
      regOp_eq (f := fun r v => r + v) read, regOp_eq (f := fun r v => r - v) read, regOp_eq (f := fun r v => r * v) read,
      regOp_eq (f := fun r v => v - r) read, regOp_eq (f := fun r v => r &&& v) read, regOp_eq (f := fun r v => r ||| v) read,
      regOp_eq (f := fun r v => r ^^^ v) read, regOp_eq (f := fun _ v => ~~~v) read, regOp_eq (f := fun _ v => signWord v) read,
      regOp_eq (f := fun r v => r &&& ~~~v) read, regOp_eq (f := fun r v => r ||| ~~~v) read, regOp_eq (f := fun _ v => 0 - v) read,
      regOp_eq (f := fun r v => r * v) read⟩

/-! ### Comparisons and TBIT (R181 to R183, R319) -/

theorem bitNumber_inside {v : Word} (inside : v.toNat < 32) : bitNumber v = some v.toNat := by
  rw [bitNumber, if_pos inside]

theorem bitNumber_outside {v : Word} (outside : 32 ≤ v.toNat) : bitNumber v = none := by
  rw [bitNumber, if_neg (by omega)]

theorem State.setSignedCompare_eq (s : State) (a b : Word) :
    s.setSignedCompare a b =
      { s with flags := { s.flags with z := decide (a.toInt = b.toInt), n := decide (a.toInt < b.toInt) } } := by
  have equal : (a == b) = decide (a.toInt = b.toInt) := by rw [Bool.eq_iff_iff, beq_iff_eq, decide_eq_true_iff, BitVec.toInt_inj]
  rw [State.setSignedCompare, equal, BitVec.slt_eq_decide]
  rfl

theorem State.setUnsignedCompare_eq (s : State) (a b : Word) :
    s.setUnsignedCompare a b =
      { s with flags := { s.flags with z := decide (a.toNat = b.toNat), n := decide (a.toNat < b.toNat) } } := by
  have equal : (a == b) = decide (a.toNat = b.toNat) := by rw [Bool.eq_iff_iff, beq_iff_eq, decide_eq_true_iff, BitVec.toNat_inj]
  rw [State.setUnsignedCompare, equal, BitVec.ult_eq_decide]
  rfl

section
variable {s : State} {o : Operand} {v : Word} (read : operandValue s o = .ok v)
include read

theorem exec_comp (m : Reg) : exec (.comp m o) s = .next (s.setSignedCompare (s.readReg m) v) := by
  show execComp m o s = _
  rw [execComp, read, Res.ok_bind, conclude]

theorem exec_compz : exec (.compz o) s = .next (s.setSignedCompare v 0) := by
  show execCompz o s = _
  rw [execCompz, read, Res.ok_bind, conclude]

theorem exec_ucomp (m : Reg) : exec (.ucomp m o) s = .next (s.setUnsignedCompare (s.readReg m) v) := by
  show execUcomp m o s = _
  rw [execUcomp, read, Res.ok_bind, conclude]

theorem exec_tbit_inside (m : Reg) (inside : v.toNat < 32) :
    exec (.tbit m o) s = .next (s.setZ ((s.readReg m).getLsbD v.toNat)) := by
  show execTbit m o s = _
  simp only [execTbit, read, Res.ok_bind, bitNumber_inside inside, conclude]

theorem exec_tbit_outside (m : Reg) (outside : 32 ≤ v.toNat) : exec (.tbit m o) s = .next (s.setZ s.freeBit).drawn := by
  show execTbit m o s = _
  simp only [execTbit, read, Res.ok_bind, bitNumber_outside outside, conclude]

end

/-- Settles O31: words are equal and in order as the numbers they stand for are; TBIT looks at one bit. -/
theorem comparisonFlags : Obligations.ComparisonFlags := by
  intro s m o
  refine ⟨fun e unreadable => ?faults, fun v read => ⟨?comp, ?compz, ?ucomp, exec_tbit_inside read m, fun outside => ?tbit⟩⟩
  case faults =>
    simp only [List.forall_mem_cons, List.not_mem_nil, false_implies, implies_true, and_true]
    exact ⟨conclude_unreadable unreadable _, conclude_unreadable unreadable _, conclude_unreadable unreadable _,
      conclude_unreadable unreadable _⟩
  case comp => rw [exec_comp read, State.setSignedCompare_eq]
  case compz => rw [exec_compz read, State.setSignedCompare_eq, show (0 : Word).toInt = 0 from rfl]
  case ucomp => rw [exec_ucomp read, State.setUnsignedCompare_eq]
  case tbit => exact ⟨s.freeBit, exec_tbit_outside read m outside⟩

/-! ### Shifts and rotations (R179, R180, R316 to R318, R188) -/

/-- SHL: the bits shifted out are the n at the left (R179). -/
theorem zOfShiftLeft_eq (x : Word) {n : Nat} (hn : n < 32) :
    zOfShiftLeft x n = decide (∀ i < n, x.getLsbD (31 - i) = false) := by
  rw [Bool.eq_iff_iff, zOfShiftLeft, beq_iff_eq, decide_eq_true_iff]
  constructor
  · intro zero i hi
    have bit : (x >>> (32 - n)).getLsbD (n - 1 - i) = false := by rw [zero]; exact BitVec.getLsbD_zero
    rwa [BitVec.getLsbD_ushiftRight, show 32 - n + (n - 1 - i) = 31 - i by omega] at bit
  · intro out
    apply BitVec.eq_of_getLsbD_eq
    intro j _
    rw [BitVec.getLsbD_ushiftRight]
    rcases lt_or_ge (32 - n + j) 32 with inside | outside
    · simpa [show 31 - (31 - (32 - n + j)) = 32 - n + j by omega] using out (31 - (32 - n + j)) (by omega)
    · simpa using BitVec.getLsbD_of_ge x _ outside

/-- SHR and ASR: the bits shifted out are the n at the right (R180, R318). -/
theorem zOfShiftRight_eq (x : Word) {n : Nat} (hn : n < 32) :
    zOfShiftRight x n = decide (∀ i < n, x.getLsbD i = false) := by
  rw [Bool.eq_iff_iff, zOfShiftRight, beq_iff_eq, decide_eq_true_iff]
  constructor
  · intro zero i hi
    have bit : (x &&& (1#32 <<< n - 1#32)).getLsbD i = false := by rw [zero]; exact BitVec.getLsbD_zero
    simpa [lowOnes_getLsbD hn, hi] using bit
  · intro out
    apply BitVec.eq_of_getLsbD_eq
    intro j _
    rw [BitVec.getLsbD_and, lowOnes_getLsbD hn]
    rcases lt_or_ge j n with below | above
    · simp [out j below]
    · simp [show ¬ j < n by omega]

theorem shiftLeft_eq_ofNat (x : Word) (n : Nat) : x <<< n = BitVec.ofNat 32 (x.toNat * 2 ^ n) := by
  apply BitVec.eq_of_toNat_eq
  rw [BitVec.toNat_shiftLeft, Nat.shiftLeft_eq, BitVec.toNat_ofNat]

theorem ushiftRight_eq_ofNat (x : Word) (n : Nat) : x >>> n = BitVec.ofNat 32 (x.toNat / 2 ^ n) := by
  apply BitVec.eq_of_toNat_eq
  have bound : x.toNat / 2 ^ n < 2 ^ 32 := (Nat.div_le_self _ _).trans_lt x.isLt
  rw [BitVec.toNat_ushiftRight, Nat.shiftRight_eq_div_pow, BitVec.toNat_ofNat, Nat.mod_eq_of_lt bound]

theorem sshiftRight_eq_ofInt (x : Word) (n : Nat) : x.sshiftRight n = BitVec.ofInt 32 (x.toInt / 2 ^ n) := by
  rw [← BitVec.ofInt_toInt (x := x.sshiftRight n), BitVec.toInt_sshiftRight, Int.shiftRight_eq_div_pow]
  norm_cast

theorem rotateLeftWord_eq (x : Word) {n : Nat} (hn : n < 32) : rotateLeftWord x n = x.rotateLeft n := by
  rw [BitVec.rotateLeft_def, Nat.mod_eq_of_lt hn, rotateLeftWord]

theorem rotateRightWord_eq (x : Word) {n : Nat} (hn : n < 32) : rotateRightWord x n = x.rotateRight n := by
  rw [BitVec.rotateRight_def, Nat.mod_eq_of_lt hn, rotateRightWord]

section
variable {s : State} {m : Reg} {o : Operand} {v : Word} (read : operandValue s o = .ok v)
include read

theorem shiftOp_inside {z : Word → Nat → Bool} {f : Word → Nat → Word} (inside : v.toNat < 32) :
    shiftOp z f m o s = .next ((s.setZ (z (s.readReg m) v.toNat)).writeReg m (f (s.readReg m) v.toNat)) := by
  simp only [shiftOp, read, Res.ok_bind, bitNumber_inside inside, conclude]

/-- A count outside 0 to 31 leaves the flags and gives a free word (U1). -/
theorem shiftOp_outside {z : Word → Nat → Bool} {f : Word → Nat → Word} (outside : 32 ≤ v.toNat) :
    ∃ w, shiftOp z f m o s = .next { s.writeReg m w with draws := s.draws + 1 } := by
  refine ⟨s.free, ?_⟩
  simp only [shiftOp, read, Res.ok_bind, bitNumber_outside outside, State.put, State.drawn_writeReg, conclude]

theorem bitOp_inside {f : Word → Nat → Word} (inside : v.toNat < 32) :
    regOpOpen (fun r v => (bitNumber v).map (f r)) m o s = .next (s.writeReg m (f (s.readReg m) v.toNat)) := by
  rw [regOpOpen_eq read, bitNumber_inside inside]
  rfl

/-- A bit number outside 0 to 31 gives a free word (U1, U2). -/
theorem bitOp_outside {f : Word → Nat → Word} (outside : 32 ≤ v.toNat) :
    ∃ w, regOpOpen (fun r v => (bitNumber v).map (f r)) m o s = .next { s.writeReg m w with draws := s.draws + 1 } := by
  refine ⟨s.free, ?_⟩
  rw [regOpOpen_eq read, bitNumber_outside outside, Option.map_none, State.put, State.drawn_writeReg]

end

/-- Settles O30: SHL, SHR and ASR have one shape, ROTL and ROTR another, and each word function is the one of its rule. -/
theorem shiftsAndRotations : Obligations.ShiftsAndRotations := by
  intro s m o
  simp only [List.forall_mem_cons, List.not_mem_nil, false_implies, implies_true, and_true]
  refine ⟨fun e unreadable => ?faults, fun v read => ⟨fun inside => ?inside, fun outside => ?outside⟩⟩
  case faults =>
    exact ⟨conclude_unreadable unreadable _, conclude_unreadable unreadable _, conclude_unreadable unreadable _,
      conclude_unreadable unreadable _, conclude_unreadable unreadable _⟩
  case inside =>
    rw [← zOfShiftLeft_eq _ inside, ← zOfShiftRight_eq _ inside, ← shiftLeft_eq_ofNat, ← ushiftRight_eq_ofNat,
      ← sshiftRight_eq_ofInt, ← rotateLeftWord_eq _ inside, ← rotateRightWord_eq _ inside]
    exact ⟨shiftOp_inside read inside, shiftOp_inside read inside, shiftOp_inside read inside, bitOp_inside read inside,
      bitOp_inside read inside⟩
  case outside =>
    exact ⟨shiftOp_outside read outside, shiftOp_outside read outside, shiftOp_outside read outside, bitOp_outside read outside,
      bitOp_outside read outside⟩

/-! ### Single bits (R184, R185, R323) -/

theorem withBit_getLsbD (x : Word) (k : Nat) (b : Bool) {i : Nat} (hi : i < 32) :
    (withBit x k b).getLsbD i = if i = k then b else x.getLsbD i := by
  have one : (1#32 <<< k).getLsbD i = decide (i = k) := by
    rw [← BitVec.twoPow_eq, BitVec.getLsbD_twoPow, Bool.eq_iff_iff]
    simp only [Bool.and_eq_true, decide_eq_true_eq]
    omega
  cases b with
  | false =>
    simp only [withBit, Bool.false_eq_true, if_false, BitVec.getLsbD_and, BitVec.getLsbD_not, one, hi]
    split <;> simp [*]
  | true =>
    simp only [withBit, if_true, BitVec.getLsbD_or, one]
    split <;> simp [*]

theorem signExtendFrom_getLsbD (x : Word) {k : Nat} (hk : k < 32) {i : Nat} (hi : i < 32) :
    (signExtendFrom x k).getLsbD i = if i ≤ k then x.getLsbD i else x.getLsbD k := by
  have top : (x.extractLsb' 0 (k + 1)).msb = x.getLsbD k := by simp [BitVec.msb_eq_getLsbD_last]
  rw [signExtendFrom, BitVec.getLsbD_signExtend, top, BitVec.getLsbD_extractLsb']
  simp only [hi, decide_true, Bool.true_and, Nat.lt_succ_iff, Nat.zero_add]
  split <;> simp_all

/-- Settles O32: the three are register results by bit number, given here bit by bit. -/
theorem bitUpdates : Obligations.BitUpdates := by
  intro s m o
  simp only [List.forall_mem_cons, List.not_mem_nil, false_implies, implies_true, and_true]
  refine ⟨fun e unreadable => ?faults, fun v read => ⟨fun inside => ⟨?sbit, ?cbit, ?sext⟩, fun outside => ?outside⟩⟩
  case faults =>
    exact ⟨conclude_unreadable unreadable _, conclude_unreadable unreadable _, conclude_unreadable unreadable _⟩
  case sbit => exact ⟨_, bitOp_inside (f := fun r n => withBit r n true) read inside, fun i hi => withBit_getLsbD _ _ true hi⟩
  case cbit => exact ⟨_, bitOp_inside (f := fun r n => withBit r n false) read inside, fun i hi => withBit_getLsbD _ _ false hi⟩
  case sext => exact ⟨_, bitOp_inside (f := signExtendFrom) read inside, fun i hi => signExtendFrom_getLsbD _ inside hi⟩
  case outside =>
    exact ⟨bitOp_outside (f := fun r n => withBit r n true) read outside,
      bitOp_outside (f := fun r n => withBit r n false) read outside, bitOp_outside (f := signExtendFrom) read outside⟩

/-! ### Division (R170, R171, R173, R174, R187, R321, R322) -/

theorem divisionOverflows_iff (a b : Word) : divisionOverflows a b = true ↔ a = 0x80000000#32 ∧ b = 0xFFFFFFFF#32 := by
  simp [divisionOverflows]

section
variable {pick : Word → Word → Word × Word} {bad : Word → Word → Bool} {f : Word → Word → Word} {m : Reg} {o : Operand}
  {s : State} {v a b : Word} (read : operandValue s o = .ok v) (order : pick (s.readReg m) v = (a, b))
include read order

theorem divideOp_zero (zero : b = 0) :
    divideOp pick bad f m o s = stopOutcome s s.faultPc (.raised ⟨.divzero, some (s.pc - 1), none⟩) := by
  simp only [divideOp, read, Res.ok_bind, order, zero, if_true, conclude_raise, State.this]

theorem divideOp_bad (nonzero : b ≠ 0) (overflows : bad a b = true) : divideOp pick bad f m o s = .fault .divisionOverflow := by
  simp only [divideOp, read, Res.ok_bind, order, nonzero, overflows, if_true, if_false, conclude, stopOutcome]

theorem divideOp_ok (nonzero : b ≠ 0) (fits : bad a b = false) : divideOp pick bad f m o s = .next (s.writeReg m (f a b)) := by
  simp only [divideOp, read, Res.ok_bind, order, nonzero, fits, Bool.false_eq_true, if_false, conclude]

end

section
variable (m : Reg) (o : Operand) (s : State)

theorem exec_div : exec (.div m o) s = divideOp (fun r v => (r, v)) divisionOverflows (sdivWord s.cfg.rounding) m o s := rfl
theorem exec_mod : exec (.mod m o) s = divideOp (fun r v => (r, v)) divisionOverflows (smodWord s.cfg.rounding) m o s := rfl
theorem exec_rdiv : exec (.rdiv m o) s = divideOp (fun r v => (v, r)) divisionOverflows (sdivWord s.cfg.rounding) m o s := rfl
theorem exec_rmod : exec (.rmod m o) s = divideOp (fun r v => (v, r)) divisionOverflows (smodWord s.cfg.rounding) m o s := rfl
theorem exec_udiv : exec (.udiv m o) s = divideOp (fun r v => (r, v)) (fun _ _ => false) (fun a b => a.udiv b) m o s := rfl
theorem exec_umod : exec (.umod m o) s = divideOp (fun r v => (r, v)) (fun _ _ => false) (fun a b => a.umod b) m o s := rfl

end

/-- Settles O29: the zero check comes before the overflow check, and -1 is not zero. -/
theorem divisionCorners : Obligations.DivisionCorners := by
  intro s m o v read
  simp only [List.forall_mem_cons, List.not_mem_nil, false_implies, implies_true, and_true, exec_div, exec_mod, exec_rdiv, exec_rmod,
    exec_udiv, exec_umod]
  refine ⟨fun zero => ⟨?_, ?_, ?_, ?_⟩, fun zero => ⟨?_, ?_⟩, fun least minusOne => ?div, fun least minusOne => ?rdiv⟩
  case div =>
    have overflows := (divisionOverflows_iff _ _).2 ⟨least, minusOne⟩
    have nonzero : v ≠ 0 := by rw [minusOne]; decide
    exact ⟨divideOp_bad read rfl nonzero overflows, divideOp_bad read rfl nonzero overflows⟩
  case rdiv =>
    have overflows := (divisionOverflows_iff _ _).2 ⟨least, minusOne⟩
    have nonzero : s.readReg m ≠ 0 := by rw [minusOne]; decide
    exact ⟨divideOp_bad read rfl nonzero overflows, divideOp_bad read rfl nonzero overflows⟩
  all_goals exact divideOp_zero read rfl zero

/-- The quotient of SDIV as an integer, before it is cut to a word (R187). -/
def signedQuotient (r : Rounding) (a b : Word) : Int :=
  match r with
  | .truncate => a.toInt.tdiv b.toInt
  | .floor => a.toInt.fdiv b.toInt
  | .euclid => a.toInt / b.toInt
  | .other => chosenQuotient a b

theorem sdivWord_eq (r : Rounding) (a b : Word) : sdivWord r a b = BitVec.ofInt 32 (signedQuotient r a b) := by cases r <;> rfl

/-- What the quotient leaves does not depend on the quotient being cut to a word. -/
theorem smodWord_eq (r : Rounding) (a b : Word) :
    smodWord r a b = BitVec.ofInt 32 (a.toInt - signedQuotient r a b * b.toInt) := by
  rw [smodWord, sdivWord_eq, Int.sub_eq_add_neg, BitVec.ofInt_add, BitVec.ofInt_neg, BitVec.ofInt_mul, BitVec.ofInt_toInt,
    BitVec.ofInt_toInt, BitVec.sub_eq_add_neg]

/-- A quotient that R187 allows: it leaves less than the divisor, and is rounded down where both are positive. -/
def IsQuotient (a b q : Int) : Prop := |a - q * b| < |b| ∧ (0 ≤ a → 0 < b → 0 ≤ a - q * b)

theorem isQuotient_tdiv (a : Int) {b : Int} (nonzero : b ≠ 0) : IsQuotient a b (a.tdiv b) := by
  rw [IsQuotient, mul_comm, ← Int.tmod_def]
  refine ⟨?_, fun positive _ => Int.tmod_nonneg b positive⟩
  rw [Int.abs_eq_natAbs, Int.abs_eq_natAbs, Int.natAbs_tmod]
  exact_mod_cast Nat.mod_lt _ (Int.natAbs_pos.2 nonzero)

theorem isQuotient_ediv (a : Int) {b : Int} (nonzero : b ≠ 0) : IsQuotient a b (a / b) := by
  have nonneg := Int.emod_nonneg a nonzero
  rw [IsQuotient, mul_comm, ← Int.emod_def, abs_of_nonneg nonneg]
  exact ⟨Int.emod_lt_abs a nonzero, fun _ _ => nonneg⟩

/-- The remainder of the quotient rounded down has the divisor's sign. -/
theorem fmod_bounds (a : Int) {b : Int} (nonzero : b ≠ 0) : (0 ≤ a.fmod b ∧ a.fmod b < b) ∨ (b < a.fmod b ∧ a.fmod b ≤ 0) := by
  rcases lt_or_gt_of_ne nonzero with negative | positive
  · right
    have := Int.emod_nonneg a nonzero
    have := Int.emod_lt_abs a nonzero
    rw [abs_of_neg negative] at this
    rw [Int.fmod_eq_emod]
    split
    · next h =>
      have := Int.emod_eq_zero_of_dvd (h.resolve_left (by omega))
      omega
    · next h =>
      have : a % b ≠ 0 := fun zero => h (.inr (Int.dvd_of_emod_eq_zero zero))
      omega
  · exact .inl ⟨Int.fmod_nonneg_of_pos a positive, Int.fmod_lt_of_pos a positive⟩

theorem isQuotient_fdiv (a : Int) {b : Int} (nonzero : b ≠ 0) : IsQuotient a b (a.fdiv b) := by
  rw [IsQuotient, mul_comm, ← Int.fmod_def, Int.abs_eq_natAbs, Int.abs_eq_natAbs]
  have := fmod_bounds a nonzero
  omega

/-- An inexact quotient rounded up leaves less than the divisor too. -/
theorem isQuotient_fdiv_add_one {a b : Int} (nonzero : b ≠ 0) (inexact : a.fdiv b * b ≠ a) (mixed : ¬ (0 ≤ a ∧ 0 < b)) :
    IsQuotient a b (a.fdiv b + 1) := by
  have left : a - (a.fdiv b + 1) * b = a.fmod b - b := by rw [Int.fmod_def]; ring
  have notZero : a.fmod b ≠ 0 := fun zero => inexact (by rw [Int.fmod_def] at zero; linarith [mul_comm b (a.fdiv b)])
  rw [IsQuotient, left, Int.abs_eq_natAbs, Int.abs_eq_natAbs]
  have := fmod_bounds a nonzero
  omega

theorem isQuotient_chosenQuotient (a : Word) {b : Word} (nonzero : b.toInt ≠ 0) : IsQuotient a.toInt b.toInt (chosenQuotient a b) := by
  simp only [chosenQuotient]
  split
  · exact isQuotient_fdiv _ nonzero
  · next h =>
    split
    · exact isQuotient_fdiv_add_one nonzero (fun exact => h (.inr exact)) fun same => h (.inl same)
    · exact isQuotient_fdiv _ nonzero

theorem isQuotient_signedQuotient (r : Rounding) (a : Word) {b : Word} (nonzero : b ≠ 0) :
    IsQuotient a.toInt b.toInt (signedQuotient r a b) := by
  have nonzero := toInt_ne_zero nonzero
  cases r with
  | truncate => exact isQuotient_tdiv _ nonzero
  | floor => exact isQuotient_fdiv _ nonzero
  | euclid => exact isQuotient_ediv _ nonzero
  | other => exact isQuotient_chosenQuotient a nonzero

theorem smodWord_truncate (a b : Word) : smodWord .truncate a b = BitVec.ofInt 32 (a.toInt.tmod b.toInt) := by
  rw [smodWord_eq, signedQuotient, Int.tmod_def, mul_comm]

theorem smodWord_floor (a b : Word) : smodWord .floor a b = BitVec.ofInt 32 (a.toInt.fmod b.toInt) := by
  rw [smodWord_eq, signedQuotient, Int.fmod_def, mul_comm]

theorem smodWord_euclid (a b : Word) : smodWord .euclid a b = BitVec.ofInt 32 (a.toInt % b.toInt) := by
  rw [smodWord_eq, signedQuotient, Int.emod_def, mul_comm]

/-- What two instructions that write SDIV and SMOD of the same words do, for every rounding: DIV and MOD, RDIV and RMOD. -/
theorem quotient_and_remainder {i j : Instr} {s : State} {m : Reg} {a b : Word}
    (div : exec i s = .next (s.writeReg m (sdivWord s.cfg.rounding a b)))
    (mod : exec j s = .next (s.writeReg m (smodWord s.cfg.rounding a b))) (nonzero : b ≠ 0) :
    (∃ q : Int, |a.toInt - q * b.toInt| < |b.toInt| ∧ (0 ≤ a.toInt → 0 < b.toInt → 0 ≤ a.toInt - q * b.toInt) ∧
      exec i s = .next (s.writeReg m (BitVec.ofInt 32 q)) ∧
      exec j s = .next (s.writeReg m (BitVec.ofInt 32 (a.toInt - q * b.toInt)))) ∧
    (s.cfg.rounding = .truncate →
      exec i s = .next (s.writeReg m (BitVec.ofInt 32 (a.toInt.tdiv b.toInt))) ∧
      exec j s = .next (s.writeReg m (BitVec.ofInt 32 (a.toInt.tmod b.toInt)))) ∧
    (s.cfg.rounding = .floor →
      exec i s = .next (s.writeReg m (BitVec.ofInt 32 (a.toInt.fdiv b.toInt))) ∧
      exec j s = .next (s.writeReg m (BitVec.ofInt 32 (a.toInt.fmod b.toInt)))) ∧
    (s.cfg.rounding = .euclid →
      exec i s = .next (s.writeReg m (BitVec.ofInt 32 (a.toInt / b.toInt))) ∧
      exec j s = .next (s.writeReg m (BitVec.ofInt 32 (a.toInt % b.toInt)))) := by
  rw [div, mod]
  obtain ⟨small, down⟩ := isQuotient_signedQuotient s.cfg.rounding a nonzero
  refine ⟨⟨signedQuotient s.cfg.rounding a b, small, down, by rw [sdivWord_eq], by rw [smodWord_eq]⟩,
    fun rounding => ?truncate, fun rounding => ?floor, fun rounding => ?euclid⟩
  case truncate => rw [rounding, smodWord_truncate]; exact ⟨rfl, rfl⟩
  case floor => rw [rounding, smodWord_floor]; exact ⟨rfl, rfl⟩
  case euclid => rw [rounding, smodWord_euclid]; exact ⟨rfl, rfl⟩

theorem udiv_eq_ofNat (a b : Word) : a.udiv b = BitVec.ofNat 32 (a.toNat / b.toNat) := by
  rw [← BitVec.toNat_udiv, BitVec.ofNat_toNat, BitVec.setWidth_eq, BitVec.udiv_eq]

theorem umod_eq_ofNat (a b : Word) : a.umod b = BitVec.ofNat 32 (a.toNat % b.toNat) := by
  rw [← BitVec.toNat_umod, BitVec.ofNat_toNat, BitVec.setWidth_eq, BitVec.umod_eq]

/-- Settles O28: DIV and MOD divide the register by the value, RDIV and RMOD the value by the register. -/
theorem divisionResults : Obligations.DivisionResults := by
  intro s m o v read
  refine ⟨fun nonzero noOverflow => ?div, fun nonzero noOverflow => ?rdiv, fun nonzero => ?unsigned⟩
  case div =>
    have fits := Bool.eq_false_iff.2 (mt (divisionOverflows_iff _ _).1 noOverflow)
    exact quotient_and_remainder ((exec_div m o s).trans (divideOp_ok read rfl nonzero fits))
      ((exec_mod m o s).trans (divideOp_ok read rfl nonzero fits)) nonzero
  case rdiv =>
    have fits := Bool.eq_false_iff.2 (mt (divisionOverflows_iff _ _).1 noOverflow)
    exact quotient_and_remainder ((exec_rdiv m o s).trans (divideOp_ok read rfl nonzero fits))
      ((exec_rmod m o s).trans (divideOp_ok read rfl nonzero fits)) nonzero
  case unsigned =>
    rw [exec_udiv, exec_umod, ← udiv_eq_ofNat, ← umod_eq_ofNat]
    exact ⟨divideOp_ok read rfl nonzero rfl, divideOp_ok read rfl nonzero rfl⟩

end Sys2Proof.Machine
end

section
/-! PROOFS. The family 41_control_flags_stack.md: jumps and the stack (R200 to R205, R220 to R223). -/

namespace Sys2Proof.Machine

/-! ### Jumps (R200 to R205) -/

theorem jumpIf_read {s : State} {o : Operand} {v : Word} (read : operandValue s o = .ok v) (c : Bool) :
    jumpIf c o s = .next (if c = true then { s with pc := v } else s) := by
  rw [jumpIf, read, Res.ok_bind, conclude]

theorem jumpIf_unreadable {s : State} {o : Operand} {e : Stop} (unreadable : operandValue s o = .error e) (c : Bool) :
    jumpIf c o s = stopOutcome s s.faultPc e :=
  conclude_unreadable unreadable _

theorem exec_jcond {s : State} {c : Fin 16} {b : Bool} (o : Operand) (test : jumpCondition s c = some b) :
    exec (.jcond c o) s = jumpIf b o s := by
  show execJcond c o s = _
  rw [execJcond, test]

theorem exec_jcond_undefined {s : State} {c : Fin 16} (o : Operand) (none : jumpCondition s c = none) :
    exec (.jcond c o) s = .refused .undefinedCondition := by
  show execJcond c o s = _
  rw [execJcond, none]

/-- A code that is none of the six printed ones has the ERR test or no test. -/
theorem jumpCondition_unprinted (s : State) {c : Fin 16} (unprinted : 6 ≤ c.val) :
    jumpCondition s c = if c = s.cfg.jcondErr then some s.flags.err else none := by
  unfold jumpCondition
  split
  case h_7 => rfl
  all_goals omega

/-- The printed codes and the ERR code have a test. -/
theorem jumpCondition_defined (s : State) {c : Fin 16} (defined : c.val < 6 ∨ c = s.cfg.jcondErr) :
    ∃ b, jumpCondition s c = some b := by
  rcases lt_or_ge c.val 6 with printed | unprinted
  · obtain ⟨n, bound⟩ := c
    interval_cases n
    all_goals exact ⟨_, rfl⟩
  · have err : c = s.cfg.jcondErr := defined.resolve_left (by omega)
    exact ⟨s.flags.err, by rw [jumpCondition_unprinted s unprinted, if_pos err]⟩

theorem exec_jcond_read {s : State} {c : Fin 16} {o : Operand} {v : Word} {b : Bool} {p : Prop} [Decidable p]
    (read : operandValue s o = .ok v) (test : jumpCondition s c = some b) (means : b = true ↔ p) :
    exec (.jcond c o) s = .next (if p then { s with pc := v } else s) := by
  rw [exec_jcond o test, jumpIf_read read]
  simp only [means]

/-- Settles O38: every jump is `jumpIf` of its test, which reads the operand whether or not the test holds. -/
theorem jumps : Obligations.Jumps := by
  intro s m c o
  refine ⟨fun e unreadable => ⟨?_, fun defined => ?_⟩, fun v read => ?_⟩
  · simp only [List.forall_mem_cons, List.not_mem_nil, false_implies, implies_true, and_true]
    exact ⟨jumpIf_unreadable unreadable _, jumpIf_unreadable unreadable _, jumpIf_unreadable unreadable _,
      jumpIf_unreadable unreadable _⟩
  · obtain ⟨b, test⟩ := jumpCondition_defined s defined
    rw [exec_jcond o test, jumpIf_unreadable unreadable]
  · refine ⟨jumpIf_read read true, ?jzer, ?jpos, ?jneg, ?zero, ?one, ?two, ?three, ?four, ?five, fun unprinted isErr => ?err,
      fun unprinted notErr => exec_jcond_undefined o (by rw [jumpCondition_unprinted s unprinted, if_neg notErr])⟩
    case jzer => exact (jumpIf_read read _).trans (by simp only [beq_iff_eq])
    case jpos => exact (jumpIf_read read _).trans (by simp [BitVec.msb_eq_toInt])
    case jneg => exact (jumpIf_read read _).trans (by simp [BitVec.msb_eq_toInt])
    case err => exact exec_jcond_read read (by rw [jumpCondition_unprinted s unprinted, if_pos isErr]) Iff.rfl
    all_goals
      rintro rfl
      exact exec_jcond_read read rfl (by simp)

/-! ### The stack (R220 to R223) -/

theorem pushWords_single (s : State) (top v : Word) : pushWords s top [v] = memWrite s (top - 1) v := by
  rw [pushWords]
  cases memWrite s (top - 1) v <;> rfl

section
variable {s : State} {o : Operand}

theorem exec_push_read {v : Word} (read : operandValue s o = .ok v) :
    exec (.push o) s = conclude s (memWrite s (s.readReg 13 - 1) v >>= fun t => .ok (t.writeReg 13 (s.readReg 13 - 1))) := by
  show execPush o s = _
  rw [execPush, read, Res.ok_bind, pushWords_single]
  rfl

theorem exec_call_read {v : Word} (read : operandValue s o = .ok v) :
    exec (.call o) s =
      conclude s (memWrite s (s.readReg 13 - 1) s.pc >>= fun t => .ok { t.writeReg 13 (s.readReg 13 - 1) with pc := v }) := by
  show execCall o s = _
  rw [execCall, read, Res.ok_bind, pushWords_single]
  rfl

theorem exec_ret_eq (s : State) :
    exec .ret s = conclude s (memRead s (s.readReg 13) >>= fun w => .ok { s.writeReg 13 (s.readReg 13 + 1) with pc := w }) := rfl

/-- POP with a destination other than SP: the word is written, then SP moves. -/
theorem exec_pop_notSp (writable : o.isWritable = true) (notSp : o.indirect = true ∨ o.index ≠ 13) :
    exec (.pop o) s = conclude s (memRead s (s.readReg 13) >>= fun w =>
      writeDest s o w >>= fun t => .ok (t.writeReg 13 (s.readReg 13 + 1))) := by
  have other : (o.isRegister && o.index == 13) = false := by
    rcases notSp with memory | ne
    · simp [Operand.isRegister, memory]
    · simp [ne]
  show execPop o s = _
  simp only [execPop, checkWritable_writable writable, Res.ok_bind, other, Bool.false_eq_true, if_false]
  rfl

/-- POP SP: SP is left free, and the word read goes nowhere (U7). -/
theorem exec_pop_sp {w : Word} (here : memRead s (s.readReg 13) = .ok w) (direct : o.indirect = false) (number : o.number = 0)
    (sp : o.index = 13) :
    exec (.pop o) s = .next { s.writeReg 13 s.free with draws := s.draws + 1 } := by
  have index : o.index ≠ 0 := by simp [sp]
  have isSp : (o.isRegister && o.index == 13) = true := by simp [Operand.isRegister_bare direct index number, sp]
  have here : memRead s s.readSp = .ok w := here
  show execPop o s = _
  simp only [execPop, checkWritable_writable (Operand.isWritable_bare direct index number), Res.ok_bind, here,
    writeDest_bare direct index number, isSp, if_true, conclude]
  rw [← State.drawn_writeReg]
  rfl

/-- POP of a stack that cannot be read. -/
theorem exec_pop_unreadable {e : Stop} (failed : memRead s (s.readReg 13) = .error e) (writable : o.isWritable = true) :
    exec (.pop o) s = stopOutcome s s.faultPc e := by
  have failed : memRead s s.readSp = .error e := failed
  show execPop o s = _
  rw [execPop, checkWritable_writable writable, Res.ok_bind, failed, Res.error_bind, conclude]

end

/-- Settles O41: PUSH and CALL are one store below SP, RET and POP one read at SP, each before SP moves. -/
theorem stackInstructions : Obligations.StackInstructions := by
  intro s o v w p q
  refine ⟨fun read target => ⟨?push, ?call⟩, fun here => ⟨?ret, fun direct number index notSp => ?popRegister,
      fun direct number sp => ⟨_, exec_pop_sp here direct number sp⟩, fun memory target => ?popMemory⟩,
    fun e failed read => ⟨?pushFault, ?callFault⟩, fun e failed => ⟨?retFault, fun form => ?popFault⟩,
    fun e here memory failed => ?popStoreFault⟩
  case push => rw [exec_push_read read, memWrite_of_target target, Res.ok_bind, conclude]
  case call => rw [exec_call_read read, memWrite_of_target target, Res.ok_bind, conclude]
  case ret => rw [exec_ret_eq, here, Res.ok_bind, conclude]
  case popRegister =>
    rw [exec_pop_notSp (Operand.isWritable_bare direct index number) (.inr notSp), here, Res.ok_bind,
      writeDest_bare direct index number, Res.ok_bind, conclude]
  case popMemory =>
    rw [exec_pop_notSp (Operand.isWritable_memory memory) (.inl memory), here, Res.ok_bind, writeDest_memory memory,
      memWrite_of_target target, Res.ok_bind, conclude]
  case pushFault => rw [exec_push_read read, memWrite_error failed, Res.error_bind, conclude]
  case callFault => rw [exec_call_read read, memWrite_error failed, Res.error_bind, conclude]
  case retFault => rw [exec_ret_eq, failed, Res.error_bind, conclude]
  case popFault =>
    refine exec_pop_unreadable failed ?_
    rcases form with memory | ⟨index, number⟩
    · exact Operand.isWritable_memory memory
    · cases direct : o.indirect with
      | true => exact Operand.isWritable_memory direct
      | false => exact Operand.isWritable_bare direct index number
  case popStoreFault =>
    rw [exec_pop_notSp (Operand.isWritable_memory memory) (.inl memory), here, Res.ok_bind, writeDest_unstorable memory failed,
      Res.error_bind, conclude]

end Sys2Proof.Machine
end

section
/-! PROOFS. The family 41_control_flags_stack.md: FLAGSJ, IRET, and IRET after an interrupt (R231, R232, R460, R463, R469). -/

namespace Sys2Proof.Machine

/-! ### FLAGSJ (R231) -/

theorem State.writeFlagsWord_eq (s : State) (w : Word) :
    s.writeFlagsWord w = { s with
      flags := flagsOfWord s.cfg.flagNum w, ipl := w.extractLsb' 0 5
      status := if (flagsOfWord s.cfg.flagNum w).r = true then s.status else .halted } := by
  rw [State.writeFlagsWord, State.noteHalt_eq]

theorem exec_flagsj_read {s : State} {m : Reg} {o : Operand} {v : Word} (sys : s.flags.sys = true)
    (read : operandValue s o = .ok v) : exec (.flagsj m o) s = .next { s.writeFlagsWord (s.readReg m) with pc := v } := by
  show execFlagsj m o s = _
  rw [execFlagsj, privileged_system sys, read, Res.ok_bind, conclude]

/-! ### The frame IRET reads (R232) -/

theorem exec_iret_system {s : State} (sys : s.flags.sys = true) :
    exec .iret s = conclude s (readSavedContext s s.sysSp >>= fun c => .ok (restoreContext s c)) := by
  show execIret s = _
  rw [execIret, privileged_system sys]

/-- Where in the frame IRET reads, in its order: PC, FLAGS, FP, SP, then R0 to R12. -/
def savedOffsets : List Nat := [0, 2, 6, 7, 20, 19, 18, 17, 16, 15, 14, 13, 12, 11, 10, 9, 8]

/-- The context that the words of a frame make. -/
def SavedContext.ofFrame (w : Nat → Word) : SavedContext := ⟨w 0, w 2, w 6, w 7, Vector.ofFn fun k => w (20 - k.val)⟩

theorem mem_savedOffsets {k : Nat} : k ∈ savedOffsets ↔ k < 21 ∧ (k = 0 ∨ k = 2 ∨ 6 ≤ k) := by
  simp only [savedOffsets, List.mem_cons, List.not_mem_nil, or_false]
  omega

/-- The words at offsets `ks` of `b`, read one after another. -/
def readAt (s : State) (b : Word) : List Nat → Res (List Word)
  | [] => .ok []
  | k :: ks => do
    let v ← memRead s (b + BitVec.ofNat 32 k)
    let vs ← readAt s b ks
    .ok (v :: vs)

theorem readAt_ok {s : State} {b : Word} {ks : List Nat} {w : Nat → Word}
    (h : ∀ k ∈ ks, memRead s (b + BitVec.ofNat 32 k) = .ok (w k)) : readAt s b ks = .ok (ks.map w) := by
  induction ks with
  | nil => rfl
  | cons k ks ih =>
    rw [readAt, h k (by simp), Res.ok_bind, ih fun j hj => h j (by simp [hj]), Res.ok_bind, List.map_cons]

/-- Where one offset alone cannot be read, reading stops with what it raises. -/
theorem readAt_error {s : State} {b : Word} {ks : List Nat} {k : Nat} {e : Stop} (listed : k ∈ ks)
    (failed : memRead s (b + BitVec.ofNat 32 k) = .error e)
    (others : ∀ j ∈ ks, j ≠ k → ∃ w, memRead s (b + BitVec.ofNat 32 j) = .ok w) : readAt s b ks = .error e := by
  induction ks with
  | nil => simp at listed
  | cons j ks ih =>
    rw [readAt]
    by_cases here : j = k
    · rw [here, failed, Res.error_bind]
    · obtain ⟨w, read⟩ := others j (by simp) here
      have later : k ∈ ks := (List.mem_cons.1 listed).resolve_left (Ne.symm here)
      rw [read, Res.ok_bind, ih later fun i hi => others i (by simp [hi]), Res.error_bind]

/-- IRET's reads are those at `savedOffsets`. -/
theorem readSavedContext_eq (s : State) (b : Word) :
    readSavedContext s b = readAt s b savedOffsets >>= fun vs => .ok ⟨vs.getD 0 0, vs.getD 1 0, vs.getD 2 0, vs.getD 3 0,
      #v[vs.getD 4 0, vs.getD 5 0, vs.getD 6 0, vs.getD 7 0, vs.getD 8 0, vs.getD 9 0, vs.getD 10 0, vs.getD 11 0, vs.getD 12 0,
        vs.getD 13 0, vs.getD 14 0, vs.getD 15 0, vs.getD 16 0]⟩ := by
  have first : memRead s b = memRead s (b + BitVec.ofNat 32 0) := by simp
  simp only [readSavedContext, readSavedRegs, readAt, savedOffsets, bind_assoc, Res.ok_bind, first]
  rfl

theorem readSavedContext_ok {s : State} {b : Word} {w : Nat → Word}
    (h : ∀ k < 21, k = 0 ∨ k = 2 ∨ 6 ≤ k → memRead s (b + BitVec.ofNat 32 k) = .ok (w k)) :
    readSavedContext s b = .ok (SavedContext.ofFrame w) := by
  have read := readAt_ok (ks := savedOffsets) fun k hk => h k (mem_savedOffsets.1 hk).1 (mem_savedOffsets.1 hk).2
  rw [readSavedContext_eq, read, Res.ok_bind]
  rfl

theorem readSavedContext_error {s : State} {b : Word} {k : Nat} {e : Stop} (inside : k < 21) (listed : k = 0 ∨ k = 2 ∨ 6 ≤ k)
    (failed : memRead s (b + BitVec.ofNat 32 k) = .error e)
    (others : ∀ j < 21, j ≠ k → ∃ w, memRead s (b + BitVec.ofNat 32 j) = .ok w) : readSavedContext s b = .error e := by
  rw [readSavedContext_eq, readAt_error (mem_savedOffsets.2 ⟨inside, listed⟩) failed fun j hj => others j (mem_savedOffsets.1 hj).1,
    Res.error_bind]

theorem exec_iret_frame {s : State} {w : Nat → Word} (sys : s.flags.sys = true)
    (frame : ∀ k < 21, k = 0 ∨ k = 2 ∨ 6 ≤ k → memRead s (s.sysSp + BitVec.ofNat 32 k) = .ok (w k)) :
    exec .iret s = .next (restoreContext s (.ofFrame w)) := by
  rw [exec_iret_system sys, readSavedContext_ok frame, Res.ok_bind, conclude]

/-! ### The context put back (R232, U8) -/

/-- A saved context put back, but for its SP: the frame is off the system stack and FP is in the bank of the restored mode. -/
def State.resumed (s : State) (c : SavedContext) : State :=
  State.writeFp { s with
    pc := c.pc, flags := flagsOfWord s.cfg.flagNum c.flags, ipl := c.flags.extractLsb' 0 5, regs := c.regs, sysSp := s.sysSp + 21
    status := if (flagsOfWord s.cfg.flagNum c.flags).r = true then s.status else .halted } c.fp

theorem State.resumed_flags (s : State) (c : SavedContext) : (s.resumed c).flags = flagsOfWord s.cfg.flagNum c.flags :=
  State.writeFp_flags _ _

theorem restoreContext_eq (s : State) (c : SavedContext) :
    restoreContext s c =
      if ((s.resumed c).flags.sys && c.sp != s.sysSp + 21) = true then
        if (s.resumed c).freeBit = true then ((s.resumed c).writeSp c.sp).drawn else (s.resumed c).drawn
      else (s.resumed c).writeSp c.sp := by
  simp only [restoreContext, State.writeFlagsWord_eq]
  rfl

/-- Back in user mode SP is the user stack pointer; so is the frame's SP where it is the stack above the frame. -/
theorem restoreContext_same {s : State} {c : SavedContext}
    (same : (flagsOfWord s.cfg.flagNum c.flags).sys = true → c.sp = s.sysSp + 21) :
    restoreContext s c = (s.resumed c).writeSp c.sp := by
  rw [restoreContext_eq, if_neg]
  simpa [State.resumed_flags] using same

/-- What IRET leaves: only PC, FLAGS, IPL, R0 to R12, the stack and frame pointers and the run status change, the pointers in the bank
of the restored mode; back in system mode SYSSP is the stack above the frame or the frame's SP (U8). -/
structure Restored (s t : State) (c : SavedContext) : Prop where
  regs : t.regs = c.regs
  user : t.flags.sys = false → t.usrSp = c.sp ∧ t.sysSp = s.sysSp + 21
  system : t.flags.sys = true → t.usrSp = s.usrSp ∧ (t.sysSp = s.sysSp + 21 ∨ t.sysSp = c.sp)
  banked : s.cfg.fpBanked = true → t.plainFp = s.plainFp ∧ (t.flags.sys = false → t.usrFp = c.fp ∧ t.sysFp = s.sysFp) ∧
    (t.flags.sys = true → t.sysFp = c.fp ∧ t.usrFp = s.usrFp)
  plain : s.cfg.fpBanked = false → t.plainFp = c.fp ∧ t.sysFp = s.sysFp ∧ t.usrFp = s.usrFp
  frame : t = { s with
    pc := c.pc, flags := flagsOfWord s.cfg.flagNum c.flags, ipl := c.flags.extractLsb' 0 5, regs := t.regs, sysSp := t.sysSp
    usrSp := t.usrSp, sysFp := t.sysFp, usrFp := t.usrFp, plainFp := t.plainFp, draws := t.draws
    status := if (flagsOfWord s.cfg.flagNum c.flags).r = true then s.status else .halted }

/-- Whichever SP is put in the bank of the restored mode, and however many values were drawn, the rest is `State.resumed`. -/
theorem restored_writeSp {s : State} {c : SavedContext} {sp : Word} (n : Nat)
    (same : sp = c.sp ∨ (s.resumed c).flags.sys = true ∧ sp = s.sysSp + 21) :
    Restored s (((s.resumed c).writeSp sp).drawn n) c := by
  rw [State.resumed_flags] at same
  -- The mode and FP_BANKED choose the bank of SP and FP.
  cases sys : (flagsOfWord s.cfg.flagNum c.flags).sys <;> cases banked : s.cfg.fpBanked <;>
  · constructor <;> simp_all [State.resumed, State.writeSp, State.writeFp, State.drawn, or_comm]

/-- SYSSP is already the stack above the frame when the restored context's own SP is looked at. -/
theorem State.resumed_writeSp_above {s : State} {c : SavedContext} (sys : (s.resumed c).flags.sys = true) :
    (s.resumed c).writeSp (s.sysSp + 21) = s.resumed c := by
  have above : (s.resumed c).readReg 13 = s.sysSp + 21 := by
    show (s.resumed c).readSp = _
    rw [State.readSp, if_pos sys, State.resumed, State.writeFp_sysSp]
  rw [← above]
  exact State.writeReg_readReg _ 13

theorem restoreContext_restored (s : State) (c : SavedContext) : Restored s (restoreContext s c) c := by
  rw [restoreContext_eq]
  split
  · next free =>
    have sys : (s.resumed c).flags.sys = true := (Bool.and_eq_true_iff.1 free).1
    split
    · exact restored_writeSp 1 (.inl rfl)
    · rw [← State.resumed_writeSp_above sys]
      exact restored_writeSp 1 (.inr ⟨sys, rfl⟩)
  · exact restored_writeSp 0 (.inl rfl)

/-- What IRET does with a frame of which its words can be read. -/
theorem exec_iret_restored {s : State} {w : Nat → Word} (sys : s.flags.sys = true)
    (frame : ∀ k < 21, k = 0 ∨ k = 2 ∨ 6 ≤ k → memRead s (s.sysSp + BitVec.ofNat 32 k) = .ok (w k)) :
    ∃ t, exec .iret s = .next t ∧ Restored s t (.ofFrame w) :=
  ⟨_, exec_iret_frame sys frame, restoreContext_restored s _⟩

theorem SavedContext.ofFrame_regs (w : Nat → Word) (k : Fin 13) : (SavedContext.ofFrame w).regs[k] = w (20 - k.val) := by
  simp [SavedContext.ofFrame]

/-- Settles O44: FLAGSJ is a FLAGS write and a jump; IRET leaves what `Restored` says, with VM = 0 of the words in memory. -/
theorem flagsjAndIret : Obligations.FlagsjAndIret := by
  refine ⟨fun s m o v sys read => ?flagsj, fun s f sys off present named banked => ?plain, fun s w sys frame => ?read,
    fun s k e sys inside listed failed others => ?unreadable⟩
  case flagsj => rw [exec_flagsj_read sys read, State.writeFlagsWord_eq]
  case plain =>
    obtain ⟨t, next, restored⟩ := exec_iret_restored (w := fun k => s.mem.readWord (s.sysSp + BitVec.ofNat 32 k)) sys
      fun k hk listed => memRead_off off (present k hk listed)
    have lowest : s.sysSp + BitVec.ofNat 32 0 = s.sysSp := BitVec.add_zero _
    obtain ⟨-, user, system⟩ := restored.banked banked
    refine ⟨t, next, ?pc, ?flags, ?ipl, fun k => ?regs, fun usr => ?user, fun sys => ?system, ?mem, ?pdbr, ?intVec, ?cgBr, ?cgLen,
      ?debug, ?timer, ?watch, ?exitCode, ?emgRet⟩
    case pc => rw [restored.frame]; exact congrArg s.mem.readWord lowest
    case flags | ipl => rw [restored.frame, named]; rfl
    case regs => rw [restored.regs, SavedContext.ofFrame_regs]
    case user => exact ⟨(restored.user usr).1, (user usr).1, (restored.user usr).2, (user usr).2⟩
    case system => exact ⟨(system sys).1, (restored.system sys).1, (system sys).2, (restored.system sys).2⟩
    all_goals rw [restored.frame]
  case read =>
    obtain ⟨t, next, restored⟩ := exec_iret_restored sys frame
    exact ⟨t, next, fun k => by rw [restored.regs, SavedContext.ofFrame_regs], restored.user, restored.system, restored.banked,
      restored.plain, restored.frame⟩
  case unreadable =>
    rw [exec_iret_system sys, readSavedContext_error inside listed failed others, Res.error_bind, conclude]

/-! ### IRET after an interrupt (R460, R463, R469) -/

/-- An interrupt that is not ignored, processed, and has a vector entry enters its handler. -/
theorem deliver_vectored {s : State} {e : Raised} {retpc h : Word} (heard : s.ignores (deliveredCode s e.code) = false)
    (int : s.flags.int = true) (vector : s.intVec ≠ 0) (entry : vectorEntry s (deliveredCode s e.code) = some h) :
    deliver s e retpc = enterHandler s (deliveredCode s e.code) e.address e.info retpc h := by
  have processed : s.processesInterrupts = true := by simpa [State.processesInterrupts, int] using vector
  simp [deliver, heard, processed, entry]

/-- Entering a handler where the frame's 21 words can be stored, at different addresses: each word lies at its own. -/
theorem enterHandler_stored {s : State} {q : Nat → Word} (code : Interrupt) (address info : Option Word) (retpc h : Word)
    (targets : ∀ k < 21, storeTarget s.asSystem (s.sysSp - BitVec.ofNat 32 (k + 1)) = .ok (q k))
    (distinct : ∀ j < 21, ∀ k < 21, q j = q k → j = k) :
    ∃ mem, enterHandler s code address info retpc h = .taken { s.asSystem with
        ipl := BitVec.ofNat 5 code.code, sysSp := s.sysSp - 21, pc := h, mem := mem, draws := s.draws + 2 } ∧
      ∀ k < 21, mem.readWord (q k) =
        (frameWords s (info.getD (s.free 1)) (address.getD (s.free 0)) (BitVec.ofNat 32 code.code) retpc).getD k 0 := by
  have length := frameWords_length s (info.getD (s.free 1)) (address.getD (s.free 0)) (BitVec.ofNat 32 code.code) retpc
  generalize named : frameWords s (info.getD (s.free 1)) (address.getD (s.free 0)) (BitVec.ofNat 32 code.code) retpc = frame
  rw [named] at length
  obtain ⟨ps, pushed, words, -⟩ := pokeAll_targets (s := (s.drawn 2).asSystem) (top := s.sysSp) (vs := frame) (p := q)
    (by rw [length]; exact targets) (by rw [length]; exact distinct)
  rw [length] at pushed
  refine ⟨(pokeAll (s.drawn 2).asSystem (ps.zip frame)).mem, ?_, fun k hk => ?_⟩
  · simp only [enterHandler, named, State.drawn_sysSp, pushed]
    rw [pokeAll_eq]
    rfl
  · rw [words k (by omega), List.getD_eq_getElem _ _ (by omega)]

/-- The words IRET reads of a frame, from its lowest address upward, are the context the frame was made of. -/
theorem ofFrame_frameWords (s : State) (info address code retpc : Word) :
    SavedContext.ofFrame (fun k => (frameWords s info address code retpc).getD (20 - k) 0) =
      ⟨retpc, s.flagsWord, s.readFp, s.readSp, s.regs⟩ := by
  have length := frameWords_length s info address code retpc
  have tail (k : Nat) (hk : k < 8) : (frameWords s info address code retpc).getD (13 + k) 0 =
      [s.readSp, s.readFp, info, address, code, s.flagsWord, 38, retpc][k] := by
    rw [List.getD_eq_getElem _ _ (by omega), frameWords_tail s info address code retpc k hk]
  have regs : Vector.ofFn (fun k : Fin 13 => (frameWords s info address code retpc).getD (20 - (20 - k.val)) 0) = s.regs := by
    refine Vector.ext fun k hk => ?_
    rw [Vector.getElem_ofFn, show 20 - (20 - k) = k by omega, List.getD_eq_getElem _ _ (by omega)]
    exact frameWords_regs s info address code retpc ⟨k, hk⟩
  unfold SavedContext.ofFrame
  rw [regs]
  congr 1
  exacts [tail 7 (by omega), tail 5 (by omega), tail 1 (by omega), tail 0 (by omega)]

/-- The context of a running processor put back, in a state that differs from it only where a handler's may on entry. -/
theorem restoreContext_interrupted {s u : State} (retpc : Word) (wf : s.cfg.flagNum.wf = true) (running : s.flags.r = true)
    (handler : u = { s with
      flags := u.flags, ipl := u.ipl, pc := u.pc, sysSp := s.sysSp - 21, mem := u.mem, draws := u.draws }) :
    restoreContext u ⟨retpc, s.flagsWord, s.readFp, s.readSp, s.regs⟩ = { s with pc := retpc, mem := u.mem, draws := u.draws } := by
  have cfg : u.cfg = s.cfg := by rw [handler]
  have flags : flagsOfWord u.cfg.flagNum s.flagsWord = s.flags := by rw [cfg, flagsOfWord_flagsWord wf]
  have above : u.sysSp + 21 = s.sysSp := by rw [handler, BitVec.sub_add_cancel]
  have same : s.flags.sys = true → s.readSp = u.sysSp + 21 := fun sys => by rw [above, State.readSp, if_pos sys]
  rw [restoreContext_same (by rw [flags]; exact same), State.resumed, flags, ipl_flagsWord wf, if_pos running, above, handler]
  cases sys : s.flags.sys <;> cases banked : s.cfg.fpBanked <;>
  · simp [State.writeSp, State.writeFp, State.readSp, State.readFp, sys, banked]

/-- A handler entered on a frame that it still can read where it was stored: IRET goes back. -/
theorem exec_iret_delivered {s t : State} {e : Raised} {retpc h : Word} (p : Word) {q : Nat → Word}
    (wf : s.cfg.flagNum.wf = true) (running : s.flags.r = true) (heard : s.ignores (deliveredCode s e.code) = false)
    (int : s.flags.int = true) (vector : s.intVec ≠ 0) (entry : vectorEntry s (deliveredCode s e.code) = some h)
    (targets : ∀ k < 21, storeTarget s.asSystem (s.sysSp - BitVec.ofNat 32 (k + 1)) = .ok (q k))
    (distinct : ∀ j < 21, ∀ k < 21, q j = q k → j = k) (delivered : deliver s e retpc = .taken t)
    (alike : ∀ k < 21, translateAddress t (s.sysSp - BitVec.ofNat 32 (k + 1)) = .ok (q k)) :
    exec .iret { t with pc := p } = .next { s with pc := retpc, mem := t.mem, draws := t.draws } := by
  obtain ⟨mem, entered, words⟩ := enterHandler_stored (deliveredCode s e.code) e.address e.info retpc h targets distinct
  rw [deliver_vectored heard int vector entry, entered] at delivered
  obtain rfl := Delivery.taken.inj delivered
  rw [exec_iret_frame (w := fun k => (frameWords s (e.info.getD (s.free 1)) (e.address.getD (s.free 0))
    (BitVec.ofNat 32 (deliveredCode s e.code).code) retpc).getD (20 - k) 0) rfl fun k hk _ => ?read, ofFrame_frameWords,
    restoreContext_interrupted retpc wf running rfl]
  case read =>
    have present : memExists s.cfg (q (20 - k)) = true := storeTarget_exists (s := s.asSystem) (targets (20 - k) (by omega))
    rw [← words (20 - k) (by omega)]
    refine memRead_translated ?_ present
    rw [← alike (20 - k) (by omega), ← frame_place s.sysSp hk]
    rfl

/-- Settles O17: with VM = 0 the frame's addresses are their own translations, before delivery and after. -/
theorem iretUndoesTheInterrupt : Obligations.IretUndoesTheInterrupt := by
  refine ⟨fun s e retpc h p wf running off heard int vector entry stack => ?_,
    fun s t e retpc h p q => exec_iret_delivered p⟩
  have targets (k : Nat) (hk : k < 21) := storeTarget_plain (s := s.asSystem) off (stack k hk).1 (stack k hk).2
  have distinct (j : Nat) (hj : j < 21) (k : Nat) (hk : k < 21)
      (same : s.sysSp - BitVec.ofNat 32 (j + 1) = s.sysSp - BitVec.ofNat 32 (k + 1)) : j = k := by
    by_contra ne
    exact top_sub_ne s.sysSp (by omega) (by omega) (by omega) same
  obtain ⟨mem, entered, -⟩ := enterHandler_stored (deliveredCode s e.code) e.address e.info retpc h targets distinct
  have delivered := (deliver_vectored (retpc := retpc) heard int vector entry).trans entered
  exact ⟨_, delivered, exec_iret_delivered p wf running heard int vector entry targets distinct delivered
    fun k _ => translate_off (by exact off) _⟩

end Sys2Proof.Machine
end

section
/-! PROOFS. The family 42_system.md: CLRPP, PMEMR, INTR (R256, R257, R259, R461, R462, R466, R471, R473). -/

namespace Sys2Proof.Machine

/-! ### The words of a page (R256) -/

theorem page_toNat (a : Word) : (a &&& 0xFFFFF800#32).toNat = a.toNat / 2048 * 2048 := by
  have shifted : a &&& 0xFFFFF800#32 = a >>> 11 <<< 11 := by
    refine BitVec.eq_of_getLsbD_eq fun i hi => ?_
    have ones : (0xFFFFF800#32).getLsbD i = decide (11 ≤ i) := by
      revert i
      decide
    rw [BitVec.getLsbD_and, ones, BitVec.getLsbD_shiftLeft, BitVec.getLsbD_ushiftRight]
    by_cases low : i < 11
    · simp [low]
    · simp [hi, low, show 11 ≤ i by omega, show 11 + (i - 11) = i by omega]
  have := a.isLt
  rw [shifted, BitVec.toNat_shiftLeft, BitVec.toNat_ushiftRight, Nat.shiftLeft_eq, Nat.shiftRight_eq_div_pow]
  omega

/-- A page is 2048 words from its address upward. -/
theorem page_eq_iff (a v : Word) :
    a &&& 0xFFFFF800#32 = v &&& 0xFFFFF800#32 ↔ ∃ k < 2048, a = (v &&& 0xFFFFF800#32) + BitVec.ofNat 32 k := by
  have small := v.isLt
  have place (k : Nat) (hk : k < 2048) : ((v &&& 0xFFFFF800#32) + BitVec.ofNat 32 k).toNat = v.toNat / 2048 * 2048 + k := by
    rw [BitVec.toNat_add, page_toNat, BitVec.toNat_ofNat]
    omega
  constructor
  · intro same
    have same := congrArg BitVec.toNat same
    rw [page_toNat, page_toNat] at same
    refine ⟨a.toNat % 2048, by omega, BitVec.eq_of_toNat_eq ?_⟩
    rw [place _ (by omega)]
    omega
  · rintro ⟨k, hk, rfl⟩
    refine BitVec.eq_of_toNat_eq ?_
    rw [page_toNat, page_toNat, place k hk]
    omega

/-- An address is one of its page's words, so it exists if they all do. -/
theorem exists_of_page {c : Config} {v : Word}
    (present : ∀ k < 2048, memExists c ((v &&& 0xFFFFF800#32) + BitVec.ofNat 32 k) = true) : memExists c v = true := by
  obtain ⟨k, hk, here⟩ := (page_eq_iff v v).1 rfl
  rw [here]
  exact present k hk

/-- Only one address is watched. -/
theorem watchHit_add_ne {s : State} {p : Word} {j k : Nat} (hj : j < k) (hk : k < 2 ^ 32)
    (hit : watchHit s (p + BitVec.ofNat 32 k) = true) : watchHit s (p + BitVec.ofNat 32 j) = false := by
  rw [Bool.eq_false_iff, ne_eq, watchHit_iff]
  rintro ⟨here, -⟩
  have same := congrArg BitVec.toNat (here.symm.trans ((watchHit_iff s _).1 hit).1)
  rw [BitVec.toNat_add, BitVec.toNat_add, BitVec.toNat_ofNat, BitVec.toNat_ofNat] at same
  have := p.isLt
  omega

/-! ### CLRPP (R256, R471, U29; entry 37) -/

/-- Zeroing words that nothing hinders is loading as many zeros. -/
theorem clearWords_plain {s : State} {p : Word} {n : Nat}
    (plain : ∀ k < n, memExists s.cfg (p + BitVec.ofNat 32 k) = true ∧ watchHit s (p + BitVec.ofNat 32 k) = false) :
    clearWords s p n = ({ s with mem := s.mem.load p (List.replicate n 0) }, none) := by
  induction n generalizing s p with
  | zero => rfl
  | succ n ih =>
    obtain ⟨present, noHit⟩ : memExists s.cfg p = true ∧ watchHit s p = false := by simpa using plain 0 (by omega)
    have rest := ih (s := s.poke p 0) (p := p + 1) fun k hk => by
      rw [next_add]
      exact plain (k + 1) (by omega)
    simp only [clearWords, physWrite_plain present noHit, rest]
    rfl

/-- A page that is there and not watched: its words become 0, and every other word is as before. -/
theorem clearWords_page {s : State} {v : Word}
    (plain : ∀ k < 2048, memExists s.cfg ((v &&& 0xFFFFF800#32) + BitVec.ofNat 32 k) = true ∧
      watchHit s ((v &&& 0xFFFFF800#32) + BitVec.ofNat 32 k) = false) :
    ∃ mem, clearWords s (v &&& 0xFFFFF800#32) 2048 = ({ s with mem := mem }, none) ∧
      ∀ a, mem.readWord a = if a &&& 0xFFFFF800#32 = v &&& 0xFFFFF800#32 then 0 else s.mem.readWord a := by
  refine ⟨_, clearWords_plain plain, fun a => ?_⟩
  have length : (List.replicate 2048 (0 : Word)).length = 2048 := List.length_replicate
  split
  · next inside =>
    obtain ⟨k, hk, rfl⟩ := (page_eq_iff a v).1 inside
    rw [load_readWord _ _ _ (by omega) k (by omega), List.getD_replicate 0 hk]
  · next outside =>
    exact load_readWord_ne _ _ _ _ fun k hk here => outside ((page_eq_iff a v).2 ⟨k, by omega, here⟩)

section
variable {s : State} {o : Operand} {v : Word} (sys : s.flags.sys = true) (read : operandValue s o = .ok v)
include sys read

theorem exec_clrpp_missing (missing : memExists s.cfg v = false) :
    exec (.clrpp o) s = stopOutcome s s.faultPc (.raised ⟨.memory, some v, none⟩) := by
  show execClrpp o s = _
  simp only [execClrpp, sys, read, missing, Bool.not_true, Bool.not_false, Bool.false_eq_true, if_false, if_true, conclude_raise]

variable (exist : memExists s.cfg v = true)
include exist

theorem exec_clrpp_partly {k : Nat} (hk : k < 2048) (run : existingRun s.cfg (v &&& 0xFFFFF800#32) 2048 = k) :
    exec (.clrpp o) s = stopOutcome (clearSomeWords s (v &&& 0xFFFFF800#32) k) s.faultPc
      (.raised ⟨.memory, some ((v &&& 0xFFFFF800#32) + BitVec.ofNat 32 k), none⟩) := by
  show execClrpp o s = _
  simp only [execClrpp, sys, read, exist, Bool.not_true, Bool.false_eq_true, if_false, run, hk, if_true]

end

section
variable {s : State} {o : Operand} {v : Word} (sys : s.flags.sys = true) (read : operandValue s o = .ok v)
  (present : ∀ k < 2048, memExists s.cfg ((v &&& 0xFFFFF800#32) + BitVec.ofNat 32 k) = true)
include sys read present

theorem exec_clrpp_cleared {t : State} (cleared : clearWords s (v &&& 0xFFFFF800#32) 2048 = (t, none)) :
    exec (.clrpp o) s = .next t := by
  show execClrpp o s = _
  simp only [execClrpp, sys, read, exists_of_page present, existingRun_all present, cleared, Bool.not_true, Bool.false_eq_true,
    if_false, lt_irrefl]

theorem exec_clrpp_stopped {t : State} {e : Stop} (stopped : clearWords s (v &&& 0xFFFFF800#32) 2048 = (t, some e)) :
    exec (.clrpp o) s = stopOutcome t s.faultPc e := by
  show execClrpp o s = _
  simp only [execClrpp, sys, read, exists_of_page present, existingRun_all present, stopped, Bool.not_true, Bool.false_eq_true,
    if_false, lt_irrefl]

end

/-- Settles O47: a page that is there is zeroed word by word up to a watched one, and in one that is not, only the words before the
missing one can be. -/
theorem clrppClearsOnePage : Obligations.ClrppClearsOnePage := by
  intro s o v sys read
  refine ⟨fun plain => ?plain, fun k hk => ⟨fun present hit => ?watched, fun exist before missing => ?partly⟩,
    exec_clrpp_missing sys read⟩
  case plain =>
    obtain ⟨mem, cleared, words⟩ := clearWords_page plain
    exact ⟨_, exec_clrpp_cleared sys read (fun k hk => (plain k hk).1) cleared, rfl, words⟩
  case watched =>
    obtain ⟨t, stopped, frame, zeroed, others⟩ := clearWords_stopped (s := s) (p := v &&& 0xFFFFF800#32) (n := 2048) hk (by decide)
      (fun j hj => ⟨present j (hj.trans hk), watchHit_add_ne hj (by omega) hit⟩)
      (fun m => physWrite_watched (s := { s with mem := m }) (present k hk) hit 0)
    exact ⟨t, frame, zeroed, others, exec_clrpp_stopped sys read present stopped⟩
  case partly =>
    obtain ⟨frame, each, others⟩ := clearSomeWords_spec s (v &&& 0xFFFFF800#32) k
    exact ⟨_, frame, fun j _ => each _, others, exec_clrpp_partly sys read exist hk (existingRun_eq hk before missing)⟩

/-! ### Words stored upward (R98, R257) -/

theorem storeWords_chain {s : State} {a : Word} {vs : List Word} {x : Nat → State} (start : x 0 = s)
    (chain : ∀ k < vs.length, memWrite (x k) (a + BitVec.ofNat 32 k) (vs.getD k 0) = .ok (x (k + 1))) :
    storeWords s a vs = .ok (x vs.length) := by
  induction vs generalizing s a x with
  | nil => rw [← start]; rfl
  | cons v vs ih =>
    have first : memWrite s a v = .ok (x 1) := by simpa [start] using chain 0 (by simp)
    rw [storeWords, first, Res.ok_bind]
    refine ih (x := fun k => x (k + 1)) rfl fun k hk => ?_
    rw [next_add]
    exact chain (k + 1) (by simpa using hk)

/-- The first word that cannot be stored ends it with what that write raised. -/
theorem storeWords_chain_error {s : State} {a : Word} {vs : List Word} {x : Nat → State} {j : Nat} {e : Stop} (start : x 0 = s)
    (hj : j < vs.length) (chain : ∀ k < j, memWrite (x k) (a + BitVec.ofNat 32 k) (vs.getD k 0) = .ok (x (k + 1)))
    (failed : memWrite (x j) (a + BitVec.ofNat 32 j) (vs.getD j 0) = .error e) : storeWords s a vs = .error e := by
  induction vs generalizing s a x j with
  | nil => simp at hj
  | cons v vs ih =>
    rw [storeWords]
    cases j with
    | zero => rw [show memWrite s a v = .error e by simpa [start] using failed, Res.error_bind]
    | succ j =>
      have first : memWrite s a v = .ok (x 1) := by simpa [start] using chain 0 (by omega)
      rw [first, Res.ok_bind]
      refine ih (x := fun k => x (k + 1)) (j := j) rfl (by simpa using hj) (fun k hk => ?_) ?_
      · rw [next_add]
        exact chain (k + 1) (by omega)
      · rw [next_add]
        exact failed

/-- Storing words where nothing hinders it is loading them. -/
theorem storeWords_plain {s : State} {a : Word} {vs : List Word} (off : s.flags.vm = false)
    (plain : ∀ k < vs.length, memExists s.cfg (a + BitVec.ofNat 32 k) = true ∧ watchHit s (a + BitVec.ofNat 32 k) = false) :
    storeWords s a vs = .ok { s with mem := s.mem.load a vs } := by
  induction vs generalizing s a with
  | nil => rfl
  | cons v vs ih =>
    obtain ⟨present, noHit⟩ : memExists s.cfg a = true ∧ watchHit s a = false := by simpa using plain 0 (by simp)
    rw [storeWords, memWrite_of_target (storeTarget_plain off present noHit), Res.ok_bind, ih (s := s.poke a v) off fun k hk => by
      rw [next_add]
      exact plain (k + 1) (by simpa using hk)]
    rfl

theorem getD_take {l : List Word} {n k : Nat} (hk : k < n) : (l.take n).getD k 0 = l.getD k 0 := by
  rw [List.getD_eq_getElem?_getD, List.getD_eq_getElem?_getD, List.getElem?_take_of_lt hk]

/-- The first words of a list loaded: each lies at its place, and every other word is as before. -/
theorem load_take_readWord (m : Memory) (a : Word) {l : List Word} {n : Nat} (short : n ≤ 2 ^ 32) (inside : n ≤ l.length) :
    (∀ k < n, (m.load a (l.take n)).readWord (a + BitVec.ofNat 32 k) = l.getD k 0) ∧
    ∀ b, (∀ k < n, b ≠ a + BitVec.ofNat 32 k) → (m.load a (l.take n)).readWord b = m.readWord b := by
  have length : (l.take n).length = n := List.length_take_of_le inside
  refine ⟨fun k hk => ?_, fun b away => load_readWord_ne _ _ _ _ (by rwa [length])⟩
  rw [load_readWord _ _ _ (by rwa [length]) k (by rwa [length]), getD_take hk]

/-! ### PMEMR (R257, U21; entry 38) -/

theorem memoryReport_length (c : Config) : (memoryReport c).length = 2 + 2 * c.memAreas.length := by
  simp [memoryReport, List.length_flatMap]
  omega

theorem State.freeUpTo_le (s : State) (n k : Nat) : s.freeUpTo n k ≤ n :=
  Nat.le_of_lt_succ (Nat.mod_lt _ n.succ_pos)

theorem exec_pmemr_bare {s : State} {m : Reg} {o : Operand} (bare : o.isRegister = true) :
    exec (.pmemr m o) s = .refused .pmemrRegisterOperand := by
  show execPmemr m o s = _
  rw [execPmemr, if_pos bare]

section
variable {s : State} {m : Reg} {o : Operand} (memory : o.indirect = true)
include memory

/-- PMEMR of a memory operand, with the number of words that the count asks for. -/
theorem exec_pmemr_even (even : (s.readReg m).toNat % 2 = 0) (nonneg : 0 ≤ (s.readReg m).toInt) :
    exec (.pmemr m o) s = conclude s
      (storeWords s (operandTotal s o) ((memoryReport s.cfg).take (min (s.readReg m).toNat (memoryReport s.cfg).length)) >>=
        fun t => .ok (t.writeReg m (BitVec.ofNat 32 (2 + 2 * s.cfg.memAreas.length)))) := by
  have noRegister : o.isRegister = false := by simp [Operand.isRegister, memory]
  have clear : (s.readReg m).msb = false := by simpa [BitVec.msb_eq_toInt] using nonneg
  show execPmemr m o s = _
  rw [execPmemr, if_neg (by simp [noRegister]), checkWritable_writable (Operand.isWritable_memory memory), Res.ok_bind]
  simp only [even, clear, Bool.not_false, and_self, if_true, memoryReport_length]
  rw [List.take_eq_take_min, memoryReport_length]

/-- With an odd or negative count a free number of pairs is stored, and the register gets a free word. -/
theorem exec_pmemr_odd (odd : (s.readReg m).toNat % 2 = 1 ∨ (s.readReg m).toInt < 0) :
    ∃ pairs, 2 * pairs ≤ (memoryReport s.cfg).length ∧ exec (.pmemr m o) s = conclude s
      (storeWords s (operandTotal s o) ((memoryReport s.cfg).take (2 * pairs)) >>= fun t =>
        .ok (t.writeReg m (s.free 1)).drawn.drawn) := by
  have noRegister : o.isRegister = false := by simp [Operand.isRegister, memory]
  have free : ¬ ((s.readReg m).toNat % 2 = 0 ∧ (!(s.readReg m).msb) = true) := by
    rw [BitVec.msb_eq_toInt, Bool.not_eq_true', decide_eq_false_iff_not]
    omega
  refine ⟨s.freeUpTo (min (((s.readReg m).toNat + 1) / 2) ((memoryReport s.cfg).length / 2)), ?_, ?_⟩
  · have := s.freeUpTo_le (min (((s.readReg m).toNat + 1) / 2) ((memoryReport s.cfg).length / 2)) 0
    omega
  · show execPmemr m o s = _
    rw [execPmemr, if_neg (by simp [noRegister]), checkWritable_writable (Operand.isWritable_memory memory), Res.ok_bind]
    simp only [if_neg free]

end

/-- Settles O48: PMEMR is the first words of its report stored one after another. -/
theorem pmemrReportsMemory : Obligations.PmemrReportsMemory := by
  intro s m o report named
  obtain rfl : report = memoryReport s.cfg := named
  refine ⟨fun memory even nonneg n count => ?even, fun memory odd off short plain => ?odd, fun direct index number => ?bare⟩
  case even =>
    subst count
    have inside := Nat.min_le_right (s.readReg m).toNat (memoryReport s.cfg).length
    rw [exec_pmemr_even memory even nonneg]
    generalize min (s.readReg m).toNat (memoryReport s.cfg).length = n at inside ⊢
    have length : ((memoryReport s.cfg).take n).length = n := List.length_take_of_le inside
    refine ⟨fun x start chain => ?stored, fun x j e start hj chain failed => ?stopped, fun off short plain => ?plain⟩
    case stored =>
      rw [storeWords_chain start fun k hk => by rw [length] at hk; rw [getD_take hk]; exact chain k hk, length, Res.ok_bind, conclude]
    case stopped =>
      rw [storeWords_chain_error start (by rwa [length]) (fun k hk => by rw [getD_take (hk.trans hj)]; exact chain k hk)
        (by rw [getD_take hj]; exact failed), Res.error_bind, conclude]
    case plain =>
      rw [storeWords_plain off (by rwa [length]), Res.ok_bind, conclude, State.writeReg_withMem]
      exact ⟨_, rfl, rfl, load_take_readWord s.mem (operandTotal s o) short.le inside⟩
  case odd =>
    obtain ⟨pairs, inside, next⟩ := exec_pmemr_odd memory odd
    have length : ((memoryReport s.cfg).take (2 * pairs)).length = 2 * pairs := List.length_take_of_le inside
    rw [next, storeWords_plain off (fun k hk => plain k (by omega)), Res.ok_bind, conclude, State.writeReg_withMem]
    refine ⟨_, s.free 1, pairs, inside, rfl, ?_, load_take_readWord s.mem (operandTotal s o) (by omega) inside⟩
    simp [State.drawn]
  case bare => exact exec_pmemr_bare (Operand.isRegister_bare direct index number)

/-! ### Interrupt codes (R455) -/

theorem interruptOfCode_code (c : Interrupt) : interruptOfCode c.code = some c := by cases c <;> rfl

theorem Interrupt.code_lt (c : Interrupt) : c.code < 23 := by cases c <;> decide

theorem interruptOfCode_none {n : Nat} (outside : n = 0 ∨ 22 < n) : interruptOfCode n = none := by
  cases n with
  | zero => rfl
  | succ n =>
    have past : interruptList.length ≤ n := Nat.le_of_lt_succ (outside.resolve_left n.succ_ne_zero)
    exact List.getElem?_eq_none past

/-! ### Interrupts not delivered (R461, R462, R466) -/

theorem deliver_ignored {s : State} {e : Raised} (low : (deliveredCode s e.code).code ≤ s.ipl.toNat) (retpc : Word) :
    deliver s e retpc = .ignored := by
  have ignored : s.ignores (deliveredCode s e.code) = true := decide_eq_true low
  simp only [deliver, ignored, if_true]

/-- Delivery turns no other interrupt into TIMER or KEYBD (R465). -/
theorem deliveredCode_timer_or_keybd (s : State) (c : Interrupt) :
    deliveredCode s c = .timer ∨ deliveredCode s c = .keybd ↔ c = .timer ∨ c = .keybd := by
  unfold deliveredCode
  split
  · next pagefault => simp [pagefault.1]
  · rfl

/-- While interrupts are not processed TIMER and KEYBD are dropped, and any other interrupt stops the program. -/
theorem deliver_unprocessed {s : State} {e : Raised} (high : s.ipl.toNat < (deliveredCode s e.code).code)
    (off : s.flags.int = false ∨ s.intVec = 0) (retpc : Word) :
    deliver s e retpc =
      if e.code = .timer ∨ e.code = .keybd then .dropped else .taken (s.stopProgram (deliveredCode s e.code)) := by
  have heard : s.ignores (deliveredCode s e.code) = false := decide_eq_false (not_le.2 high)
  have unprocessed : s.processesInterrupts = false := by
    rcases off with int | vector
    · simp [State.processesInterrupts, int]
    · simp [State.processesInterrupts, vector]
  simp only [deliver, heard, unprocessed, Bool.false_eq_true, if_false, Bool.not_false, if_true, deliveredCode_timer_or_keybd]

/-! ### INTR (R259, R473; entries 53, 55) -/

section
variable {s : State} {o : Operand} {v : Word} (read : operandValue s o = .ok v)
include read

theorem exec_intr_undefined (m : Reg) (none : interruptOfCode v.toNat = none) :
    exec (.intr m o) s = .refused .undefinedInterruptCode := by
  show execIntr m o s = _
  simp only [execIntr, read, none]

variable {c : Interrupt} {m : Reg} (names : interruptOfCode v.toNat = some c)
include names

theorem exec_intr_taken {t : State} (taken : deliver s ⟨c, some (s.readReg m), none⟩ s.pc = .taken t) :
    exec (.intr m o) s = .next t := by
  show execIntr m o s = _
  simp only [execIntr, read, names, taken]

/-- An interrupt that is ignored or dropped makes INTR a NOP. -/
theorem exec_intr_nop (nothing : deliver s ⟨c, some (s.readReg m), none⟩ s.pc = .ignored ∨
    deliver s ⟨c, some (s.readReg m), none⟩ s.pc = .dropped) : exec (.intr m o) s = .next s := by
  show execIntr m o s = _
  rcases nothing with ignored | dropped
  · simp only [execIntr, read, names, ignored]
  · simp only [execIntr, read, names, dropped]

end

/-- Settles O49: the outcome is the delivery's, taken, ignored, dropped or the program stopped. -/
theorem intrRaisesItsInterrupt : Obligations.IntrRaisesItsInterrupt := by
  intro s t m o c v
  refine ⟨fun read => ?named, fun read outside => ?unnamed⟩
  case unnamed => exact exec_intr_undefined read m (interruptOfCode_none (outside.imp_left (congrArg BitVec.toNat)))
  case named =>
    have names : interruptOfCode (BitVec.ofNat 32 c.code).toNat = some c := by
      have := c.code_lt
      rw [BitVec.toNat_ofNat, Nat.mod_eq_of_lt (by omega), interruptOfCode_code]
    refine ⟨exec_intr_taken read names, fun low => exec_intr_nop read names (.inl (deliver_ignored low _)), fun high off => ?_⟩
    have delivered := deliver_unprocessed (e := ⟨c, some (s.readReg m), none⟩) high off s.pc
    split
    · next quiet => exact exec_intr_nop read names (.inr (delivered.trans (if_pos quiet)))
    · next loud => exact exec_intr_taken read names (delivered.trans (if_neg loud))
end Sys2Proof.Machine
end

section
/-! PROOFS. The family 43_strings_blocks_bits.md: bit arrays (R280 b, R285 to R288, U2, U9). -/

namespace Sys2Proof.Machine

/-! ### LBITF and SBITF (R285, R287) -/

section
variable {s : State} {m : Reg} {o : Operand} {v : Word} (read : operandValue s o = .ok v)
include read

theorem exec_lbitf (small : (s.readReg m).toNat < 2 ^ 31) :
    exec (.lbitf m o) s = conclude s (memRead s (v + BitVec.ofNat 32 ((s.readReg m).toNat / 32)) >>= fun w =>
      .ok (s.writeReg m (bitWord (w.getLsbD ((s.readReg m).toNat % 32))))) := by
  show execLbitf m o s = _
  rw [execLbitf, read, Res.ok_bind, elementIndex_nonneg small, Res.ok_bind]

theorem exec_sbitf (small : (s.readReg m).toNat < 2 ^ 31) :
    exec (.sbitf m o) s = conclude s (memRead s (v + BitVec.ofNat 32 ((s.readReg m).toNat / 32)) >>= fun w =>
      memWrite s (v + BitVec.ofNat 32 ((s.readReg m).toNat / 32))
        (withBit w ((s.readReg m).toNat % 32) ((s.readReg 0).getLsbD 0))) := by
  show execSbitf m o s = _
  rw [execSbitf, read, Res.ok_bind, elementIndex_nonneg small, Res.ok_bind]

theorem exec_lbitf_negative (large : 2 ^ 31 ≤ (s.readReg m).toNat) : exec (.lbitf m o) s = .fault .negativeIndex := by
  show execLbitf m o s = _
  rw [execLbitf, read, Res.ok_bind, elementIndex_negative large, Res.error_bind, conclude, stopOutcome]

theorem exec_sbitf_negative (large : 2 ^ 31 ≤ (s.readReg m).toNat) : exec (.sbitf m o) s = .fault .negativeIndex := by
  show execSbitf m o s = _
  rw [execSbitf, read, Res.ok_bind, elementIndex_negative large, Res.error_bind, conclude, stopOutcome]

/-! ### LBITO and SBITO (R286, R288, U2) -/

theorem exec_lbito_inside (inside : (s.readReg m).toNat < 32) :
    exec (.lbito m o) s = .next (s.writeReg m (bitWord (v.getLsbD (s.readReg m).toNat))) := by
  show execLbito m o s = _
  rw [execLbito, regOpOpen_eq read, bitNumber_inside inside, Option.map_some, State.put]

theorem exec_lbito_outside (outside : 32 ≤ (s.readReg m).toNat) :
    exec (.lbito m o) s = .next { s.writeReg m s.free with draws := s.draws + 1 } := by
  show execLbito m o s = _
  rw [execLbito, regOpOpen_eq read, bitNumber_outside outside, Option.map_none, State.put, State.drawn_writeReg]

variable (writable : o.isWritable = true)
include writable

theorem exec_sbito_inside (inside : (s.readReg m).toNat < 32) :
    exec (.sbito m o) s = conclude s (writeDest s o (withBit v (s.readReg m).toNat ((s.readReg 0).getLsbD 0))) := by
  show execSbito m o s = _
  rw [execSbito, checkWritable_writable writable, Res.ok_bind, read, Res.ok_bind, bitNumber_inside inside, Option.map_some, writeDestOpen]

theorem exec_sbito_outside (outside : 32 ≤ (s.readReg m).toNat) :
    exec (.sbito m o) s = conclude s (writeDest s o s.free >>= fun t => .ok t.drawn) := by
  show execSbito m o s = _
  rw [execSbito, checkWritable_writable writable, Res.ok_bind, read, Res.ok_bind, bitNumber_outside outside, Option.map_none, writeDestOpen]

end

/-- Settles O51: LBITF and SBITF read the bit's word first and SBITF writes it back with that bit replaced; LBITO and SBITO do so with the
operand itself, or with a free word for a bit number it does not have. -/
theorem bitArrayInstructions : Obligations.BitArrayInstructions := by
  rintro s m o v _ read rfl
  refine ⟨fun w p small here => ?made, fun e small failed => ?unread, fun w e small here failed => ?unstored,
    fun large => ⟨exec_lbitf_negative read large, exec_sbitf_negative read large⟩, fun inside => ?inside, fun outside => ?outside⟩
  case made =>
    refine ⟨?_, fun target => ⟨_, ?_, fun j hj => withBit_getLsbD w ((s.readReg m).toNat % 32) ((s.readReg 0).getLsbD 0) hj⟩⟩
    · rw [exec_lbitf read small, here, Res.ok_bind, bitWord, conclude]
    · rw [exec_sbitf read small, here, Res.ok_bind, memWrite_of_target target, conclude]
  case unread =>
    exact ⟨by rw [exec_lbitf read small, failed, Res.error_bind, conclude],
      by rw [exec_sbitf read small, failed, Res.error_bind, conclude]⟩
  case unstored => rw [exec_sbitf read small, here, Res.ok_bind, memWrite_error failed, conclude]
  case inside =>
    refine ⟨exec_lbito_inside read inside, _, fun j hj => withBit_getLsbD v (s.readReg m).toNat ((s.readReg 0).getLsbD 0) hj,
      fun direct index number => ?_, fun p memory target => ?_⟩
    · rw [exec_sbito_inside read (Operand.isWritable_bare direct index number) inside, writeDest_bare direct index number, conclude]
    · rw [exec_sbito_inside read (Operand.isWritable_memory memory) inside, writeDest_memory memory, memWrite_of_target target,
        conclude]
  case outside =>
    refine ⟨⟨_, exec_lbito_outside read outside⟩, s.free, fun direct index number => ?_, fun p memory target => ?_⟩
    · rw [exec_sbito_outside read (Operand.isWritable_bare direct index number) outside, writeDest_bare direct index number,
        Res.ok_bind, State.drawn_writeReg, conclude]
    · rw [exec_sbito_outside read (Operand.isWritable_memory memory) outside, writeDest_memory memory, memWrite_of_target target,
        Res.ok_bind, conclude]
      rfl

end Sys2Proof.Machine
end

section
/-! PROOFS. The family 43_strings_blocks_bits.md: what the loops of MOVE and ZERO share (R280 c, R283, R284, U19; entry 42). -/

namespace Sys2Proof.Machine

/-! ### Loops as a body repeated (R280 c) -/

/-- A body run at most n times, each run from the state the one before left: the state reached, and what stopped it. -/
def repeatBody (body : State → Res State) (s : State) : Nat → State × Option Stop
  | 0 => (s, none)
  | n + 1 =>
    match body s with
    | .error e => (s, some e)
    | .ok t => repeatBody body t n

section
variable {body : State → Res State}

theorem repeatBody_ok {s t : State} (ran : body s = .ok t) (n : Nat) : repeatBody body s (n + 1) = repeatBody body t n := by
  simp only [repeatBody, ran]

theorem repeatBody_error {s : State} {e : Stop} (failed : body s = .error e) (n : Nat) :
    repeatBody body s (n + 1) = (s, some e) := by
  simp only [repeatBody, failed]

/-- What holds before the first run, and after each run if before it, holds when j runs are done. -/
theorem repeatBody_reaches {after : Nat → State → Prop} {s : State} {n j : Nat} (start : after 0 s) (inside : j ≤ n)
    (each : ∀ k < j, ∀ t, after k t → ∃ u, body t = .ok u ∧ after (k + 1) u) :
    ∃ t, after j t ∧ repeatBody body s n = repeatBody body t (n - j) := by
  induction j with
  | zero => exact ⟨s, start, rfl⟩
  | succ j ih =>
    obtain ⟨t, reached, rest⟩ := ih (by omega) fun k hk => each k (by omega)
    obtain ⟨u, ran, next⟩ := each j (by omega) t reached
    refine ⟨u, next, ?_⟩
    rw [rest, show n - j = n - (j + 1) + 1 by omega, repeatBody_ok ran]

/-- The states of a chain are the ones the runs leave: the last of them is the loop's result, or the state in which a run is stopped. -/
theorem concludeLoop_chain (s : State) {x : Nat → State} {n j : Nat} (inside : j ≤ n)
    (chain : ∀ k < j, body (x k) = .ok (x (k + 1))) :
    (j = n → concludeLoop s (repeatBody body (x 0) n) = .next (x n)) ∧
    (∀ e, j < n → body (x j) = .error e → concludeLoop s (repeatBody body (x 0) n) = stopOutcome (x j) (s.pc - 1) e) := by
  obtain ⟨_, rfl, reached⟩ := repeatBody_reaches (after := fun k t => t = x k) rfl inside
    (by rintro k hk _ rfl; exact ⟨_, chain k hk, rfl⟩)
  rw [reached]
  refine ⟨?_, fun e early failed => ?_⟩
  · rintro rfl
    rw [Nat.sub_self, repeatBody, concludeLoop]
  · rw [show n - j = n - (j + 1) + 1 by omega, repeatBody_error failed, concludeLoop, State.this]

end

/-- One word of MOVE (R283). -/
def moveBody (main index : Reg) (s : State) : Res State := do
  let w ← memRead s (s.readReg main)
  let t ← memWrite s (s.readReg index) w
  let t := t.writeReg index (t.readReg index + 1)
  let t := t.writeReg main (t.readReg main + 1)
  .ok (t.writeReg 0 (t.readReg 0 - 1))

theorem moveLoop_eq_repeatBody (main index : Reg) (s : State) (n : Nat) :
    moveLoop main index s n = repeatBody (moveBody main index) s n := by
  induction n generalizing s with
  | zero => rfl
  | succ n ih =>
    rw [moveLoop, repeatBody, moveBody]
    cases memRead s (s.readReg main) with
    | error e => rfl
    | ok w =>
      simp only [Res.ok_bind]
      cases memWrite s (s.readReg index) w with
      | error e => rfl
      | ok t => exact ih _

/-- One word of ZERO (R284). -/
def zeroBody (main index : Reg) (s : State) : Res State := do
  let t ← memWrite s (s.readReg index) 0
  let t := t.writeReg index (t.readReg index + 1)
  .ok (t.writeReg main (t.readReg main - 1))

theorem zeroLoop_eq_repeatBody (main index : Reg) (s : State) (n : Nat) :
    zeroLoop main index s n = repeatBody (zeroBody main index) s n := by
  induction n generalizing s with
  | zero => rfl
  | succ n ih =>
    rw [zeroLoop, repeatBody, zeroBody]
    cases memWrite s (s.readReg index) 0 with
    | error e => rfl
    | ok t => exact ih _

/-! ### Words stored upward, each of which may depend on the ones before it -/

/-- k words stored from an address upward, word j being what `word` makes of the memory before it. -/
def Memory.fill (m : Memory) (dst : Word) (word : Memory → Nat → Word) : Nat → Memory
  | 0 => m
  | k + 1 => (m.fill dst word k).writeWord (dst + BitVec.ofNat 32 k) (word (m.fill dst word k) k)

theorem add_ofNat_ne (a : Word) {j k : Nat} (hj : j < k) (hk : k < 2 ^ 32) : a + BitVec.ofNat 32 j ≠ a + BitVec.ofNat 32 k := by
  intro same
  have same := congrArg BitVec.toNat (BitVec.add_right_inj a |>.1 same)
  rw [BitVec.toNat_ofNat, BitVec.toNat_ofNat] at same
  omega

theorem add_ofNat_succ (a : Word) (k : Nat) : a + BitVec.ofNat 32 k + 1 = a + BitVec.ofNat 32 (k + 1) := by
  rw [BitVec.ofNat_add, ← BitVec.add_assoc]
  rfl

theorem ofNat_sub_succ {n k : Nat} (hk : k < n) : BitVec.ofNat 32 (n - k) - 1 = BitVec.ofNat 32 (n - (k + 1)) := by
  rw [show n - k = n - (k + 1) + 1 by omega, BitVec.ofNat_add]
  exact BitVec.add_sub_cancel _ _

theorem fill_readWord_ne (m : Memory) (dst : Word) (word : Memory → Nat → Word) {a : Word} {k : Nat}
    (outside : ∀ j < k, a ≠ dst + BitVec.ofNat 32 j) : (m.fill dst word k).readWord a = m.readWord a := by
  induction k with
  | zero => rfl
  | succ k ih =>
    rw [Memory.fill, Memory.readWord_writeWord, if_neg (outside k (by omega)), ih fun j hj => outside j (by omega)]

theorem fill_readWord (m : Memory) (dst : Word) (word : Memory → Nat → Word) {j k : Nat} (hj : j < k) (short : k ≤ 2 ^ 32) :
    (m.fill dst word k).readWord (dst + BitVec.ofNat 32 j) = word (m.fill dst word j) j := by
  induction k with
  | zero => omega
  | succ k ih =>
    rw [Memory.fill, Memory.readWord_writeWord]
    rcases Nat.lt_succ_iff_lt_or_eq.1 hj with before | rfl
    · rw [if_neg (add_ofNat_ne dst before (by omega)), ih before (by omega)]
    · rw [if_pos rfl]

/-! ### The state a loop has reached -/

/-- Registers hold the words that a list gives them. -/
def State.Holds (s : State) (l : List (Reg × Word)) : Prop := ∀ x ∈ l, s.readReg x.1 = x.2

theorem holds_writeRegs (s : State) {l : List (Reg × Word)} (distinct : (l.map (·.1)).Nodup) : (writeRegs s l).Holds l := by
  intro x hx
  obtain ⟨k, hk, rfl⟩ := List.getElem_of_mem hx
  exact writeRegs_readReg s l distinct k hk

/-- Writing registers below 13 changes nothing else. -/
theorem writeRegs_frame (s : State) {l : List (Reg × Word)} (general : ∀ x ∈ l, x.1.val < 13) :
    writeRegs s l = { s with regs := (writeRegs s l).regs } := by
  induction l generalizing s with
  | nil => rfl
  | cons x l ih =>
    rw [writeRegs, ih _ fun y hy => general y (by simp [hy])]
    simp [State.writeReg, general x (by simp)]

theorem memWrite_readReg {s t : State} {a v : Word} (h : memWrite s a v = .ok t) (r : Reg) : t.readReg r = s.readReg r := by
  obtain ⟨p, -, rfl⟩ := memWrite_ok h
  rfl

/-- A loop that started in `s` has so far only stored words, memory now being `mem`, and set the registers of `l`. -/
structure Progress (s : State) (mem : Memory) (l : List (Reg × Word)) (t : State) : Prop where
  frame : t = { s with regs := t.regs, mem := t.mem }
  stored : t.mem = mem
  holds : t.Holds l
  kept : ∀ q, q ∉ l.map (·.1) → t.readReg q = s.readReg q

theorem Progress.start {s : State} {l : List (Reg × Word)} (holds : s.Holds l) : Progress s s.mem l s :=
  ⟨rfl, rfl, holds, fun _ _ => rfl⟩

/-- One more word stored and the same registers set again. -/
theorem Progress.step {s t : State} {mem : Memory} {l l' : List (Reg × Word)} (h : Progress s mem l t) (p v : Word)
    (same : l'.map (·.1) = l.map (·.1)) (distinct : (l'.map (·.1)).Nodup) (general : ∀ x ∈ l', x.1.val < 13) :
    Progress s (mem.writeWord p v) l' (writeRegs (t.poke p v) l') := by
  refine ⟨?_, ?_, holds_writeRegs _ distinct, fun q hq => ?_⟩
  · rw [writeRegs_frame _ general, h.frame]
    rfl
  · rw [writeRegs_frame _ general, ← h.stored]
    rfl
  · rw [writeRegs_readReg_ne _ _ hq]
    exact h.kept q (same ▸ hq)

section
variable {s t : State} {mem : Memory} {l : List (Reg × Word)} (h : Progress s mem l t) (off : s.flags.vm = false)
include h off

theorem Progress.memRead {a : Word} (present : memExists s.cfg a = true) : memRead t a = .ok (mem.readWord a) := by
  rw [← h.stored, h.frame]
  exact memRead_off (s := { s with regs := t.regs, mem := t.mem }) off present

theorem Progress.memWrite {a : Word} (present : memExists s.cfg a = true) (noHit : watchHit s a = false) (v : Word) :
    memWrite t a v = .ok (t.poke a v) := by
  refine memWrite_of_target ?_ v
  rw [h.frame]
  exact storeTarget_plain (s := { s with regs := t.regs, mem := t.mem }) off present noHit

end

/-- A loop whose k-th run stores word k and sets the registers to `l (k + 1)` ends with n words stored and the registers at `l n`. -/
theorem repeatBody_stores {body : State → Res State} {s : State} {dst : Word} {word : Memory → Nat → Word}
    {l : Nat → List (Reg × Word)} {n : Nat} (start : s.Holds (l 0)) (same : ∀ k, (l (k + 1)).map (·.1) = (l k).map (·.1))
    (distinct : ∀ k, ((l k).map (·.1)).Nodup) (general : ∀ k, ∀ x ∈ l k, x.1.val < 13)
    (each : ∀ k < n, ∀ t, Progress s (s.mem.fill dst word k) (l k) t →
      body t = .ok (writeRegs (t.poke (dst + BitVec.ofNat 32 k) (word (s.mem.fill dst word k) k)) (l (k + 1)))) :
    ∃ t, repeatBody body s n = (t, none) ∧ Progress s (s.mem.fill dst word n) (l n) t := by
  obtain ⟨t, done, reached⟩ := repeatBody_reaches (after := fun k => Progress s (s.mem.fill dst word k) (l k)) (.start start) le_rfl
    fun k hk t before => ⟨_, each k hk t before, before.step _ _ (same k) (distinct _) (general _)⟩
  rw [Nat.sub_self] at reached
  exact ⟨t, reached, done⟩

/-- Along a chain of states that each set the registers of `l`, the registers hold what `l` says. -/
theorem holds_chain {x : Nat → State} {l : Nat → List (Reg × Word)} {j k : Nat} (start : (x 0).Holds (l 0))
    (distinct : ∀ k, ((l k).map (·.1)).Nodup) (sets : ∀ k < j, ∃ y, x (k + 1) = writeRegs y (l (k + 1))) (hk : k ≤ j) :
    (x k).Holds (l k) := by
  cases k with
  | zero => exact start
  | succ k =>
    obtain ⟨y, next⟩ := sets k hk
    rw [next]
    exact holds_writeRegs y (distinct _)

/-! ### The operand and the count of MOVE and ZERO (R280 c, U19) -/

theorem Operand.isRegister_iff (o : Operand) : o.isRegister = true ↔ o.indirect = false ∧ o.index ≠ 0 ∧ o.number = 0 := by
  simp [Operand.isRegister, and_assoc]

theorem moveRegistersBad_iff (m i : Reg) : moveRegistersBad m i = true ↔ m = 0 ∨ m = i ∨ 13 ≤ m.val ∨ 13 ≤ i.val := by
  simp only [moveRegistersBad, Reg.isSpecialPurpose, Bool.or_eq_true, beq_iff_eq, decide_eq_true_eq]
  tauto

theorem moveRegistersBad_eq_false (m i : Reg) :
    moveRegistersBad m i = false ↔ m ≠ 0 ∧ m ≠ i ∧ m.val < 13 ∧ i.val < 13 := by
  rw [← Bool.not_eq_true, moveRegistersBad_iff]
  push Not
  rfl

theorem zeroRegistersBad_iff (m i : Reg) : zeroRegistersBad m i = true ↔ m = i ∨ 13 ≤ m.val ∨ 13 ≤ i.val := by
  simp only [zeroRegistersBad, Reg.isSpecialPurpose, Bool.or_eq_true, beq_iff_eq, decide_eq_true_eq, or_assoc]

theorem zeroRegistersBad_eq_false (m i : Reg) :
    zeroRegistersBad m i = false ↔ m ≠ i ∧ m.val < 13 ∧ i.val < 13 := by
  rw [← Bool.not_eq_true, zeroRegistersBad_iff]
  push Not
  rfl

theorem loopCount_nonpos {v : Word} (h : v.toInt ≤ 0) : loopCount v = 0 := by
  rw [loopCount]
  split
  · rfl
  · next clear =>
    rw [BitVec.toInt_eq_toNat_of_msb (by simpa using clear)] at h
    omega

theorem loopCount_nat {v : Word} {n : Nat} (h : v.toInt = n) : loopCount v = n ∧ v = BitVec.ofNat 32 n ∧ n < 2 ^ 31 := by
  have clear : v.msb = false := by
    rw [BitVec.msb_eq_toInt]
    simp [h]
  have value : v.toNat = n := by
    rw [BitVec.toInt_eq_toNat_of_msb clear] at h
    exact_mod_cast h
  rw [BitVec.msb_eq_decide] at clear
  refine ⟨?_, ?_, ?_⟩
  · rw [loopCount, if_neg (by rw [BitVec.msb_eq_decide]; simpa using clear), value]
  · rw [← value, BitVec.ofNat_toNat, BitVec.setWidth_eq]
  · rw [← value]
    simpa using clear

end Sys2Proof.Machine
end

section
/-! PROOFS. The family 43_strings_blocks_bits.md: MOVE and ZERO (R280 c, R283, R284, U19; entries 41, 42). -/

namespace Sys2Proof.Machine

/-! ### MOVE (R283; entries 41, 42) -/

section
variable (s : State) (m : Reg) (o : Operand)

theorem exec_move_badop (noRegister : o.isRegister = false) :
    exec (.move m o) s = stopOutcome s s.faultPc (.raised ⟨.badop, some (s.pc - 1), none⟩) := by
  show execMove m o s = _
  rw [execMove, noRegister, Bool.not_false, if_pos rfl, conclude_raise, State.this]

variable (register : o.isRegister = true)
include register

theorem exec_move_refused (bad : moveRegistersBad m o.index = true) : exec (.move m o) s = .refused .degenerateLoopRegisters := by
  show execMove m o s = _
  rw [execMove, register, Bool.not_true, if_neg Bool.false_ne_true, if_pos bad]

theorem exec_move_loop (good : moveRegistersBad m o.index = false) :
    exec (.move m o) s = concludeLoop s (repeatBody (moveBody m o.index) s (loopCount (s.readReg 0))) := by
  show execMove m o s = _
  rw [execMove, register, Bool.not_true, if_neg Bool.false_ne_true, good, if_neg Bool.false_ne_true, moveLoop_eq_repeatBody]

end

/-- What MOVE of n words has in its three registers after k of them. -/
def moveCounters (main index : Reg) (src dst : Word) (n k : Nat) : List (Reg × Word) :=
  [(index, dst + BitVec.ofNat 32 k), (main, src + BitVec.ofNat 32 k), (0, BitVec.ofNat 32 (n - k))]

theorem holds_moveCounters {t : State} {m i : Reg} {src dst : Word} {n k : Nat} :
    t.Holds (moveCounters m i src dst n k) ↔
      t.readReg i = dst + BitVec.ofNat 32 k ∧ t.readReg m = src + BitVec.ofNat 32 k ∧ t.readReg 0 = BitVec.ofNat 32 (n - k) := by
  simp [State.Holds, moveCounters]

/-- One word of MOVE that cannot be read or written. -/
theorem moveBody_error {t : State} {m i : Reg} {src dst : Word} {n k : Nat} {e : Stop}
    (holds : t.Holds (moveCounters m i src dst n k))
    (failed : memRead t (src + BitVec.ofNat 32 k) = .error e ∨
      ∃ w, memRead t (src + BitVec.ofNat 32 k) = .ok w ∧ memWrite t (dst + BitVec.ofNat 32 k) w = .error e) :
    moveBody m i t = .error e := by
  obtain ⟨target, source, -⟩ := holds_moveCounters.1 holds
  rw [moveBody, source, target]
  rcases failed with unread | ⟨w, here, unstored⟩
  · rw [unread, Res.error_bind]
  · rw [here, Res.ok_bind, unstored, Res.error_bind]

section
variable {m i : Reg} (good : moveRegistersBad m i = false) (notR0 : i ≠ 0)
include good notR0

theorem moveCounters_distinct (src dst : Word) (n k : Nat) : ((moveCounters m i src dst n k).map (·.1)).Nodup := by
  obtain ⟨mainNotR0, apart, -⟩ := (moveRegistersBad_eq_false m i).1 good
  simp [moveCounters, mainNotR0, apart.symm, notR0]

/-- One word of MOVE that can be read and written. -/
theorem moveBody_ok {t u : State} {src dst w : Word} {n k : Nat} (hk : k < n) (holds : t.Holds (moveCounters m i src dst n k))
    (here : memRead t (src + BitVec.ofNat 32 k) = .ok w) (made : memWrite t (dst + BitVec.ofNat 32 k) w = .ok u) :
    moveBody m i t = .ok (writeRegs u (moveCounters m i src dst n (k + 1))) := by
  obtain ⟨mainNotR0, apart, -⟩ := (moveRegistersBad_eq_false m i).1 good
  obtain ⟨target, source, left⟩ := holds_moveCounters.1 holds
  rw [moveBody, source, here, Res.ok_bind, target, made, Res.ok_bind]
  simp only [State.readReg_writeReg_ne _ _ mainNotR0.symm, State.readReg_writeReg_ne _ _ apart,
    State.readReg_writeReg_ne _ _ notR0.symm, memWrite_readReg made, target, source, left, add_ofNat_succ, ofNat_sub_succ hk]
  rfl

/-- MOVE with VM = 0 where nothing hinders it: the words are stored one after another, each as it is read then. -/
theorem repeatBody_move_plain {s : State} {src dst : Word} {n : Nat} (off : s.flags.vm = false)
    (start : s.Holds (moveCounters m i src dst n 0))
    (plain : ∀ k < n, memExists s.cfg (src + BitVec.ofNat 32 k) = true ∧ memExists s.cfg (dst + BitVec.ofNat 32 k) = true ∧
      watchHit s (dst + BitVec.ofNat 32 k) = false) :
    ∃ t, repeatBody (moveBody m i) s n = (t, none) ∧
      Progress s (s.mem.fill dst (fun mem k => mem.readWord (src + BitVec.ofNat 32 k)) n) (moveCounters m i src dst n n) t := by
  obtain ⟨-, -, mainLow, indexLow⟩ := (moveRegistersBad_eq_false m i).1 good
  refine repeatBody_stores start (fun _ => rfl) (moveCounters_distinct good notR0 src dst n)
    (by simp [moveCounters, mainLow, indexLow]) fun k hk t before => ?_
  obtain ⟨readable, present, noHit⟩ := plain k hk
  exact moveBody_ok good notR0 hk before.holds (before.memRead off readable) (before.memWrite off present noHit _)

section
variable {x : Nat → State} {src dst : Word} {n j : Nat} (start : (x 0).Holds (moveCounters m i src dst n 0))
  (chain : ∀ k < j, ∃ w y, memRead (x k) (src + BitVec.ofNat 32 k) = .ok w ∧ memWrite (x k) (dst + BitVec.ofNat 32 k) w = .ok y ∧
    x (k + 1) = writeRegs y (moveCounters m i src dst n (k + 1)))
include start chain

theorem move_chain_holds {k : Nat} (hk : k ≤ j) : (x k).Holds (moveCounters m i src dst n k) :=
  holds_chain start (moveCounters_distinct good notR0 src dst n) (fun k hk => let ⟨_, y, _, _, next⟩ := chain k hk; ⟨y, next⟩) hk

theorem move_chain_runs (inside : j ≤ n) {k : Nat} (hk : k < j) : moveBody m i (x k) = .ok (x (k + 1)) := by
  obtain ⟨w, y, here, made, next⟩ := chain k hk
  rw [next]
  exact moveBody_ok good notR0 (by omega) (move_chain_holds good notR0 start chain hk.le) here made

end

end

/-- Settles O52: MOVE is its loop body repeated, whose k-th run reads and writes word k and sets the three registers. -/
theorem moveCopiesWords : Obligations.MoveCopiesWords := by
  intro s m o src dst n
  refine ⟨fun direct number index mainNotR0 apart mainLow indexLow source target => ?moves, fun direct number index bad => ?refused,
    fun notRegister => ?badop⟩
  case refused => exact exec_move_refused s m o (Operand.isRegister_bare direct index number) ((moveRegistersBad_iff _ _).2 bad)
  case badop => exact exec_move_badop s m o (Bool.eq_false_iff.2 (mt (Operand.isRegister_iff o).1 notRegister))
  case moves =>
    have good : moveRegistersBad m o.index = false :=
      (moveRegistersBad_eq_false _ _).2 ⟨mainNotR0, apart, mainLow, indexLow⟩
    have run := exec_move_loop s m o (Operand.isRegister_bare direct index number) good
    have start (count : (s.readReg 0).toInt = n) : s.Holds (moveCounters m o.index src dst n 0) :=
      holds_moveCounters.2 (by simp [source, target, (loopCount_nat count).2.1])
    refine ⟨fun none => ?none, fun _ count off plain => ?plain, fun x j count first inside chain => ?chain⟩
    case none => rw [run, loopCount_nonpos none, repeatBody, concludeLoop]
    case plain =>
      obtain ⟨loops, -, short⟩ := loopCount_nat count
      obtain ⟨t, moved, progress⟩ := repeatBody_move_plain good index off (start count) plain
      obtain ⟨atTarget, atSource, left⟩ := holds_moveCounters.1 progress.holds
      rw [run, loops, moved]
      refine ⟨t, rfl, by simpa using left, atSource, atTarget, progress.frame, fun q notR0 notMain notIndex => ?_,
        fun a outside => ?_, fun unread k hk => ?_⟩
      · exact progress.kept q (by simp [moveCounters, notR0, notMain, notIndex])
      · rw [progress.stored, fill_readWord_ne _ _ _ outside]
      · rw [progress.stored, fill_readWord _ _ _ hk (by omega), fill_readWord_ne _ _ _ fun j hj => unread j k hj hk]
    case chain =>
      subst first
      rw [run, (loopCount_nat count).1]
      obtain ⟨completes, stops⟩ :=
        concludeLoop_chain (x 0) (x := x) inside fun k hk => move_chain_runs good index (start count) chain inside hk
      exact ⟨completes, fun e early failed => stops e early
        (moveBody_error (move_chain_holds good index (start count) chain le_rfl) failed)⟩

/-! ### ZERO (R284; entries 41, 42) -/

section
variable (s : State) (m : Reg) (o : Operand)

theorem exec_zero_badop (noRegister : o.isRegister = false) :
    exec (.zero m o) s = stopOutcome s s.faultPc (.raised ⟨.badop, some (s.pc - 1), none⟩) := by
  show execZero m o s = _
  rw [execZero, noRegister, Bool.not_false, if_pos rfl, conclude_raise, State.this]

variable (register : o.isRegister = true)
include register

theorem exec_zero_refused (bad : zeroRegistersBad m o.index = true) : exec (.zero m o) s = .refused .degenerateLoopRegisters := by
  show execZero m o s = _
  rw [execZero, register, Bool.not_true, if_neg Bool.false_ne_true, if_pos bad]

theorem exec_zero_loop (good : zeroRegistersBad m o.index = false) :
    exec (.zero m o) s = concludeLoop s (repeatBody (zeroBody m o.index) s (loopCount (s.readReg m))) := by
  show execZero m o s = _
  rw [execZero, register, Bool.not_true, if_neg Bool.false_ne_true, good, if_neg Bool.false_ne_true, zeroLoop_eq_repeatBody]

end

/-- What ZERO of n words has in its two registers after k of them. -/
def zeroCounters (main index : Reg) (dst : Word) (n k : Nat) : List (Reg × Word) :=
  [(index, dst + BitVec.ofNat 32 k), (main, BitVec.ofNat 32 (n - k))]

theorem holds_zeroCounters {t : State} {m i : Reg} {dst : Word} {n k : Nat} :
    t.Holds (zeroCounters m i dst n k) ↔ t.readReg i = dst + BitVec.ofNat 32 k ∧ t.readReg m = BitVec.ofNat 32 (n - k) := by
  simp [State.Holds, zeroCounters]

/-- One word of ZERO that cannot be written. -/
theorem zeroBody_error {t : State} {m i : Reg} {dst : Word} {n k : Nat} {e : Stop} (holds : t.Holds (zeroCounters m i dst n k))
    (failed : memWrite t (dst + BitVec.ofNat 32 k) 0 = .error e) : zeroBody m i t = .error e := by
  rw [zeroBody, (holds_zeroCounters.1 holds).1, failed, Res.error_bind]

section
variable {m i : Reg} (good : zeroRegistersBad m i = false)
include good

theorem zeroCounters_distinct (dst : Word) (n k : Nat) : ((zeroCounters m i dst n k).map (·.1)).Nodup := by
  obtain ⟨apart, -⟩ := (zeroRegistersBad_eq_false m i).1 good
  simp [zeroCounters, apart.symm]

/-- One word of ZERO that can be written. -/
theorem zeroBody_ok {t u : State} {dst : Word} {n k : Nat} (hk : k < n) (holds : t.Holds (zeroCounters m i dst n k))
    (made : memWrite t (dst + BitVec.ofNat 32 k) 0 = .ok u) :
    zeroBody m i t = .ok (writeRegs u (zeroCounters m i dst n (k + 1))) := by
  obtain ⟨apart, -⟩ := (zeroRegistersBad_eq_false m i).1 good
  obtain ⟨target, left⟩ := holds_zeroCounters.1 holds
  rw [zeroBody, target, made, Res.ok_bind]
  simp only [State.readReg_writeReg_ne _ _ apart, memWrite_readReg made, target, left, add_ofNat_succ, ofNat_sub_succ hk]
  rfl

/-- ZERO with VM = 0 where nothing hinders it. -/
theorem repeatBody_zero_plain {s : State} {dst : Word} {n : Nat} (off : s.flags.vm = false)
    (start : s.Holds (zeroCounters m i dst n 0))
    (plain : ∀ k < n, memExists s.cfg (dst + BitVec.ofNat 32 k) = true ∧ watchHit s (dst + BitVec.ofNat 32 k) = false) :
    ∃ t, repeatBody (zeroBody m i) s n = (t, none) ∧
      Progress s (s.mem.fill dst (fun _ _ => 0) n) (zeroCounters m i dst n n) t := by
  obtain ⟨-, mainLow, indexLow⟩ := (zeroRegistersBad_eq_false m i).1 good
  refine repeatBody_stores start (fun _ => rfl) (zeroCounters_distinct good dst n) (by simp [zeroCounters, mainLow, indexLow])
    fun k hk t before => ?_
  obtain ⟨present, noHit⟩ := plain k hk
  exact zeroBody_ok good hk before.holds (before.memWrite off present noHit _)

section
variable {x : Nat → State} {dst : Word} {n j : Nat} (start : (x 0).Holds (zeroCounters m i dst n 0))
  (chain : ∀ k < j, ∃ y, memWrite (x k) (dst + BitVec.ofNat 32 k) 0 = .ok y ∧
    x (k + 1) = writeRegs y (zeroCounters m i dst n (k + 1)))
include start chain

theorem zero_chain_holds {k : Nat} (hk : k ≤ j) : (x k).Holds (zeroCounters m i dst n k) :=
  holds_chain start (zeroCounters_distinct good dst n) (fun k hk => let ⟨y, _, next⟩ := chain k hk; ⟨y, next⟩) hk

theorem zero_chain_runs (inside : j ≤ n) {k : Nat} (hk : k < j) : zeroBody m i (x k) = .ok (x (k + 1)) := by
  obtain ⟨y, made, next⟩ := chain k hk
  rw [next]
  exact zeroBody_ok good (by omega) (zero_chain_holds good start chain hk.le) made

end

end

/-- Settles O53: ZERO is its loop body repeated, whose k-th run writes word k and sets the two registers. -/
theorem zeroClearsWords : Obligations.ZeroClearsWords := by
  intro s m o dst n
  refine ⟨fun direct number index apart mainLow indexLow target => ?clears, fun direct number index bad => ?refused,
    fun notRegister => ?badop⟩
  case refused => exact exec_zero_refused s m o (Operand.isRegister_bare direct index number) ((zeroRegistersBad_iff _ _).2 bad)
  case badop => exact exec_zero_badop s m o (Bool.eq_false_iff.2 (mt (Operand.isRegister_iff o).1 notRegister))
  case clears =>
    have good : zeroRegistersBad m o.index = false :=
      (zeroRegistersBad_eq_false _ _).2 ⟨apart, mainLow, indexLow⟩
    have run := exec_zero_loop s m o (Operand.isRegister_bare direct index number) good
    have start (count : (s.readReg m).toInt = n) : s.Holds (zeroCounters m o.index dst n 0) :=
      holds_zeroCounters.2 (by simp [target, (loopCount_nat count).2.1])
    refine ⟨fun none => ?none, fun _ count off plain => ?plain, fun x j count first inside chain => ?chain⟩
    case none => rw [run, loopCount_nonpos none, repeatBody, concludeLoop]
    case plain =>
      obtain ⟨loops, -, short⟩ := loopCount_nat count
      obtain ⟨t, cleared, progress⟩ := repeatBody_zero_plain good off (start count) plain
      obtain ⟨atTarget, left⟩ := holds_zeroCounters.1 progress.holds
      rw [run, loops, cleared]
      refine ⟨t, rfl, by simpa using left, atTarget, progress.frame, fun q notMain notIndex => ?_, fun k hk => ?_,
        fun a outside => ?_⟩
      · exact progress.kept q (by simp [zeroCounters, notMain, notIndex])
      · rw [progress.stored, fill_readWord _ _ _ hk (by omega)]
      · rw [progress.stored, fill_readWord_ne _ _ _ outside]
    case chain =>
      subst first
      rw [run, (loopCount_nat count).1]
      obtain ⟨completes, stops⟩ :=
        concludeLoop_chain (x 0) (x := x) inside fun k hk => zero_chain_runs good (start count) chain inside hk
      exact ⟨completes, fun e early failed => stops e early (zeroBody_error (zero_chain_holds good (start count) chain le_rfl) failed)⟩

end Sys2Proof.Machine
end

section
/-! PROOFS. The family 43_strings_blocks_bits.md: FFNZ (R280 c, R289, U36; entries 42, 52). -/

namespace Sys2Proof.Machine

/-! ### Reads do not depend on registers (R10, R90) -/

theorem memRead_writeReg (s : State) (r : Reg) (v a : Word) : memRead (s.writeReg r v) a = memRead s a := by
  simp [memRead, translateAddress, pageWalk, physRead]

/-! ### The search (R289) -/

/-- A range with no word left gives -1. -/
theorem findNonZeroLoop_empty (m : Reg) (s : State) : findNonZeroLoop m s 0 = (s.writeReg m 0xFFFFFFFF#32, none) := rfl

/-- A search through words that are zero goes on behind them. -/
theorem findNonZeroLoop_zeros {s : State} {m : Reg} {a k : Nat} (n : Nat) (first : s.readReg m = BitVec.ofNat 32 a)
    (zeros : ∀ j < k, memRead s (BitVec.ofNat 32 (a + j)) = .ok 0) :
    findNonZeroLoop m s (k + n) = findNonZeroLoop m (s.writeReg m (BitVec.ofNat 32 (a + k))) n := by
  induction k generalizing n with
  | zero => rw [Nat.zero_add, Nat.add_zero, ← first, State.writeReg_readReg]
  | succ k ih =>
    have zero : memRead (s.writeReg m (BitVec.ofNat 32 (a + k))) (BitVec.ofNat 32 (a + k)) = .ok 0 := by
      rw [memRead_writeReg, zeros k (by omega)]
    rw [show k + 1 + n = k + (n + 1) by omega, ih (n + 1) fun j hj => zeros j (by omega)]
    simp only [findNonZeroLoop, State.readReg_writeReg_same, zero, State.writeReg_writeReg]
    rw [← add_assoc, BitVec.ofNat_add (a + k) 1]
    rfl

/-- The first word that is not zero ends the search, with the register at its address. -/
theorem findNonZeroLoop_found {s : State} {m : Reg} {w : Word} (n : Nat) (here : memRead s (s.readReg m) = .ok w) (nonzero : w ≠ 0) :
    findNonZeroLoop m s (n + 1) = (s, none) := by
  simp only [findNonZeroLoop, here, bne_iff_ne, ne_eq, nonzero, not_false_eq_true, if_true]

theorem findNonZeroLoop_unreadable {s : State} {m : Reg} {e : Stop} (n : Nat) (failed : memRead s (s.readReg m) = .error e) :
    findNonZeroLoop m s (n + 1) = (s, some e) := by
  simp only [findNonZeroLoop, failed]

/-! ### FFNZ -/

section
variable {s : State} {m : Reg} {o : Operand} {v : Word} (read : operandValue s o = .ok v)
include read

theorem exec_ffnz_ambiguous (high : 2 ^ 31 ≤ v.toNat ∨ 2 ^ 31 ≤ (s.readReg m).toNat) :
    exec (.ffnz m o) s = .fault .ambiguousComparison := by
  have above : ((s.readReg m).msb || v.msb) = true := by
    simp only [BitVec.msb_eq_decide, Bool.or_eq_true, decide_eq_true_eq]
    exact high.symm
  show execFfnz m o s = _
  simp only [execFfnz, read, above, if_true]

variable (below : v.toNat < 2 ^ 31)
include below

theorem exec_ffnz_loop (firstBelow : (s.readReg m).toNat < 2 ^ 31) :
    exec (.ffnz m o) s = concludeLoop s (findNonZeroLoop m s (v.toNat + 1 - (s.readReg m).toNat)) := by
  have plain : ((s.readReg m).msb || v.msb) = false := by
    simp only [BitVec.msb_eq_decide, Bool.or_eq_false_iff, decide_eq_false_iff_not, not_le]
    exact ⟨firstBelow, below⟩
  show execFfnz m o s = _
  simp only [execFfnz, read, plain, Bool.false_eq_true, if_false]

/-- Past words that are zero FFNZ is the search from the address it has reached. -/
theorem exec_ffnz_zeros {a : Nat} (low : (s.readReg m).toNat ≤ a) (high : a ≤ v.toNat + 1) (firstBelow : (s.readReg m).toNat < 2 ^ 31)
    (zeros : ∀ k < a, (s.readReg m).toNat ≤ k → memRead s (BitVec.ofNat 32 k) = .ok 0) :
    exec (.ffnz m o) s = concludeLoop s (findNonZeroLoop m (s.writeReg m (BitVec.ofNat 32 a)) (v.toNat + 1 - a)) := by
  have past := findNonZeroLoop_zeros (s := s) (m := m) (a := (s.readReg m).toNat) (k := a - (s.readReg m).toNat) (v.toNat + 1 - a)
    (by simp) fun j hj => zeros _ (by omega) (by omega)
  rw [show a - (s.readReg m).toNat + (v.toNat + 1 - a) = v.toNat + 1 - (s.readReg m).toNat by omega,
    show (s.readReg m).toNat + (a - (s.readReg m).toNat) = a by omega] at past
  rw [exec_ffnz_loop read below firstBelow, past]

theorem exec_ffnz_none (firstBelow : (s.readReg m).toNat < 2 ^ 31)
    (zeros : ∀ k ≤ v.toNat, (s.readReg m).toNat ≤ k → memRead s (BitVec.ofNat 32 k) = .ok 0) :
    exec (.ffnz m o) s = .next (s.writeReg m 0xFFFFFFFF#32) := by
  rcases le_or_gt (s.readReg m).toNat (v.toNat + 1) with inOrder | empty
  · rw [exec_ffnz_zeros read below inOrder le_rfl firstBelow fun k hk => zeros k (by omega), Nat.sub_self, findNonZeroLoop_empty,
      State.writeReg_writeReg, concludeLoop]
  · rw [exec_ffnz_loop read below firstBelow, Nat.sub_eq_zero_of_le empty.le, findNonZeroLoop_empty, concludeLoop]

section
variable {a : Nat} (low : (s.readReg m).toNat ≤ a) (high : a ≤ v.toNat)
  (zeros : ∀ k < a, (s.readReg m).toNat ≤ k → memRead s (BitVec.ofNat 32 k) = .ok 0)
include low high zeros

theorem exec_ffnz_found {w : Word} (here : memRead s (BitVec.ofNat 32 a) = .ok w) (nonzero : w ≠ 0) :
    exec (.ffnz m o) s = .next (s.writeReg m (BitVec.ofNat 32 a)) := by
  rw [exec_ffnz_zeros read below low (by omega) (by omega) zeros, Nat.succ_sub high,
    findNonZeroLoop_found _ (by rw [State.readReg_writeReg_same, memRead_writeReg, here]) nonzero, concludeLoop]

theorem exec_ffnz_unreadable {e : Stop} (failed : memRead s (BitVec.ofNat 32 a) = .error e) :
    exec (.ffnz m o) s = stopOutcome (s.writeReg m (BitVec.ofNat 32 a)) (s.pc - 1) e := by
  rw [exec_ffnz_zeros read below low (by omega) (by omega) zeros, Nat.succ_sub high,
    findNonZeroLoop_unreadable _ (by rw [State.readReg_writeReg_same, memRead_writeReg, failed]), concludeLoop, State.this]

end

end

/-- Settles O54: the search passes over zeros, and the word behind them, the end of the range or a failed read ends it. -/
theorem ffnzFindsFirstNonZero : Obligations.FfnzFindsFirstNonZero := by
  refine ⟨fun s m o v a read _ off below firstBelow => ⟨fun high low present zeros nonzero => ?found, fun zeros => ?none⟩,
    fun s m o v w e a read => ⟨exec_ffnz_ambiguous read, exec_ffnz_none read, fun below low high zeros =>
      ⟨exec_ffnz_found read below low high zeros, exec_ffnz_unreadable read below low high zeros⟩⟩⟩
  case found =>
    refine exec_ffnz_found read below low high (fun k hk first => ?_) (memRead_off off (present a le_rfl low)) nonzero
    rw [memRead_off off (present k hk.le first), zeros k hk first]
  case none =>
    refine exec_ffnz_none read below firstBelow fun k hk first => ?_
    obtain ⟨present, zero⟩ := zeros k hk first
    rw [memRead_off off present, zero]

end Sys2Proof.Machine
end

section
/-! PROOFS. The family 44_integer_ext.md: finding a bit, and bit ranges and their selectors (R311, R312, R330 to R337, U10, U24, U26;
entry 26). -/

namespace Sys2Proof.Machine

/-! ### FFO and FLZ (R311, R312, U26) -/

/-- What a search downward from n - 1 finds is the greatest number below n that passes. -/
theorem find?_range_reverse_some {p : Nat → Bool} {n k : Nat} (found : (List.range n).reverse.find? p = some k) :
    k < n ∧ p k = true ∧ ∀ j < n, k < j → p j = false := by
  induction n with
  | zero => simp at found
  | succ n ih =>
    rw [List.range_succ, List.reverse_append, List.reverse_singleton, List.singleton_append, List.find?_cons] at found
    split at found
    · next top =>
      obtain rfl := Option.some.inj found
      exact ⟨by omega, top, fun j hj above => by omega⟩
    · next top =>
      obtain ⟨below, here, others⟩ := ih found
      refine ⟨by omega, here, fun j hj above => ?_⟩
      rcases Nat.lt_succ_iff_lt_or_eq.1 hj with lower | rfl
      · exact others j lower above
      · exact top

theorem leftmostOne_zero : leftmostOne 0 = none := by decide

theorem leftmostOne_ne_zero {v : Word} (ones : v ≠ 0) :
    ∃ k < 32, leftmostOne v = some k ∧ v.getLsbD k = true ∧ ∀ j < 32, k < j → v.getLsbD j = false := by
  cases found : leftmostOne v with
  | none =>
    refine absurd (BitVec.eq_of_getLsbD_eq fun i hi => ?_) ones
    have zero := List.find?_eq_none.1 found i (by simpa using hi)
    simpa using zero
  | some k =>
    obtain ⟨inside, one, zeros⟩ := find?_range_reverse_some found
    exact ⟨k, inside, rfl, one, zeros⟩

theorem rightmostZero_allOnes : rightmostZero 0xFFFFFFFF#32 = none := by decide

theorem rightmostZero_ne_allOnes {v : Word} (zeros : v ≠ 0xFFFFFFFF#32) :
    ∃ k < 32, rightmostZero v = some k ∧ v.getLsbD k = false ∧ ∀ j < k, v.getLsbD j = true := by
  cases found : rightmostZero v with
  | none =>
    refine absurd (BitVec.eq_of_getLsbD_eq fun i hi => ?_) zeros
    have one := List.find?_eq_none.1 found i (by simpa using hi)
    rw [show (0xFFFFFFFF#32).getLsbD i = decide (i < 32) from BitVec.getLsbD_allOnes, decide_eq_true hi]
    simpa using one
  | some k =>
    obtain ⟨zero, inside, ones⟩ := List.find?_range_eq_some.1 found
    exact ⟨k, List.mem_range.1 inside, rfl, by simpa using zero, fun j hj => by simpa using ones j hj⟩

section
variable {s : State} {o : Operand} {v : Word} (read : operandValue s o = .ok v) {find : Word → Option Nat} (m : Reg)
include read

theorem findBitOp_none (absent : find v = none) :
    findBitOp find m o s = .next (((s.setZ true).setN true).writeReg m 0xFFFFFFFF#32) := by
  simp only [findBitOp, read, Res.ok_bind, absent, conclude]
  rfl

theorem findBitOp_some {k : Nat} (found : find v = some k) :
    findBitOp find m o s =
      .next { ((s.setZ s.freeBit).setN (s.freeBit 1)).writeReg m (BitVec.ofNat 32 k) with draws := s.draws + 2 } := by
  simp only [findBitOp, read, Res.ok_bind, found, State.drawn_writeReg, conclude]
  rfl

end

/-- Settles O33: the two instructions are one search, downward for a 1 and upward for a 0. -/
theorem findBit : Obligations.FindBit := by
  intro s m o v read
  refine ⟨?noOne, fun ones => ?one, ?noZero, fun zeros => ?zero⟩
  case noOne =>
    rintro rfl
    exact findBitOp_none read m leftmostOne_zero
  case one =>
    obtain ⟨k, inside, found, one, above⟩ := leftmostOne_ne_zero ones
    exact ⟨k, _, _, inside, one, above, findBitOp_some read m found⟩
  case noZero =>
    rintro rfl
    exact findBitOp_none read m rightmostZero_allOnes
  case zero =>
    obtain ⟨k, inside, found, zero, below⟩ := rightmostZero_ne_allOnes zeros
    exact ⟨k, _, _, inside, zero, below, findBitOp_some read m found⟩

/-! ### Selectors and the ranges they name (R330) -/

/-- A selector's fields: the count in bits 4:0, where 0 stands for 32, the bits below the range, the words to skip. -/
theorem bitRange_fields {sel : Word} {n lo : Nat} (count : n = if sel.toNat % 32 = 0 then 32 else sel.toNat % 32)
    (low : lo = sel.toNat / 32 % 32) :
    n = (bitRange sel).count ∧ lo = (bitRange sel).low ∧ BitVec.ofNat 32 (sel.toNat / 1024) = (bitRange sel).skip := by
  refine ⟨?_, ?_, (ushiftRight_eq_ofNat sel 10).symm⟩
  · rw [count, bitRange, BitVec.extractLsb'_toNat, Nat.shiftRight_zero]
  · show lo = (sel.extractLsb' 5 5).toNat
    rw [low, BitVec.extractLsb'_toNat, Nat.shiftRight_eq_div_pow]

namespace BitRange

theorem count_pos (sel : Word) : 0 < (bitRange sel).count := by
  obtain ⟨count, -⟩ := bitRange_fields (sel := sel) rfl rfl
  rw [← count]
  split <;> omega

section
variable {r : BitRange} (fits : r.low + r.count ≤ 32) (w x : Word)
include fits

theorem unsigned_inside :
    ∃ y, r.unsigned w = some y ∧ ∀ i < 32, y.getLsbD i = if i < r.count then w.getLsbD (r.low + i) else false := by
  refine ⟨_, if_pos (decide_eq_true fits), fun i hi => ?_⟩
  simp [BitVec.getLsbD_extractLsb', hi]

theorem signed_inside (pos : 0 < r.count) :
    ∃ y, r.signed w = some y ∧
      ∀ i < 32, y.getLsbD i = if i < r.count then w.getLsbD (r.low + i) else w.getLsbD (r.low + r.count - 1) := by
  have top : (w.extractLsb' r.low r.count).msb = w.getLsbD (r.low + r.count - 1) := by
    rw [BitVec.msb_eq_getLsbD_last, BitVec.getLsbD_extractLsb', decide_eq_true (by omega), Bool.true_and, Nat.add_sub_assoc pos]
  refine ⟨_, if_pos (decide_eq_true fits), fun i hi => ?_⟩
  rw [BitVec.getLsbD_signExtend, decide_eq_true hi, Bool.true_and, top, BitVec.getLsbD_extractLsb']
  split <;> simp [*]

/-- The ones of a range: r.count of them above r.low zeros. -/
theorem mask_getLsbD {i : Nat} (hi : i < 32) :
    ((BitVec.allOnes r.count).setWidth 32 <<< r.low).getLsbD i = decide (r.low ≤ i ∧ i < r.low + r.count) := by
  rw [BitVec.getLsbD_shiftLeft, BitVec.getLsbD_setWidth, BitVec.getLsbD_allOnes, Bool.eq_iff_iff]
  simp only [Bool.and_eq_true, Bool.not_eq_true', decide_eq_true_eq, decide_eq_false_iff_not]
  omega

theorem deposit_inside :
    ∃ y, r.deposit w x = some y ∧
      ∀ i < 32, y.getLsbD i = if r.low ≤ i ∧ i < r.low + r.count then x.getLsbD (i - r.low) else w.getLsbD i := by
  refine ⟨_, if_pos (decide_eq_true fits), fun i hi => ?_⟩
  simp only [BitVec.getLsbD_or, BitVec.getLsbD_and, BitVec.getLsbD_not, mask_getLsbD fits hi, BitVec.getLsbD_shiftLeft, hi]
  split
  · next inside => simp [inside.1, Nat.not_lt.2 inside.1, inside.2]
  · next outside => simp [outside]

end

section
variable {r : BitRange} (beyond : 32 < r.low + r.count)
include beyond

theorem fits_outside : r.fits = false := decide_eq_false (by omega)

theorem unsigned_outside (w : Word) : r.unsigned w = none := by simp [BitRange.unsigned, fits_outside beyond]

theorem signed_outside (w : Word) : r.signed w = none := by simp [BitRange.signed, fits_outside beyond]

theorem deposit_outside (w x : Word) : r.deposit w x = none := by simp [BitRange.deposit, fits_outside beyond]

end

end BitRange

/-! ### EXBR, UEXBR and their V forms (R331, R332, R336, R337, U10) -/

/-- What an instruction does that extracts a range of `w`, with `above` above it: R0 receives the range, or some word where there is
none. -/
structure Extracts (s : State) (r : BitRange) (w : Word) (above : Bool) (out : Host.Outcome State Fault Refusal) : Prop where
  inside : r.low + r.count ≤ 32 → ∃ x, out = .next (s.writeReg 0 x) ∧
    ∀ i < 32, x.getLsbD i = if i < r.count then w.getLsbD (r.low + i) else above
  beyond : 32 < r.low + r.count → ∃ x, out = .next { s.writeReg 0 x with draws := s.draws + 1 }

theorem extracts_put {s : State} {r : BitRange} {w : Word} {above : Bool} {f : Option Word}
    (inside : r.low + r.count ≤ 32 → ∃ y, f = some y ∧
      ∀ i < 32, y.getLsbD i = if i < r.count then w.getLsbD (r.low + i) else above)
    (outside : 32 < r.low + r.count → f = none) : Extracts s r w above (.next (s.put 0 f)) := by
  refine ⟨fun fits => ?_, fun beyond => ⟨s.free, ?_⟩⟩
  · obtain ⟨y, rfl, bits⟩ := inside fits
    exact ⟨y, rfl, bits⟩
  · rw [outside beyond, State.put, State.drawn_writeReg]

theorem extracts_unsigned (s : State) (r : BitRange) (w : Word) : Extracts s r w false (.next (s.put 0 (r.unsigned w))) :=
  extracts_put (fun fits => BitRange.unsigned_inside fits w) fun beyond => BitRange.unsigned_outside beyond w

theorem extracts_signed (s : State) {r : BitRange} (pos : 0 < r.count) (w : Word) :
    Extracts s r w (w.getLsbD (r.low + r.count - 1)) (.next (s.put 0 (r.signed w))) :=
  extracts_put (fun fits => BitRange.signed_inside fits w pos) fun beyond => BitRange.signed_outside beyond w

section
variable {s : State} {m : Reg} {o : Operand} {v : Word} (read : operandValue s o = .ok v)
include read

theorem exec_exbr : exec (.exbr m o) s = .next (s.put 0 ((bitRange (s.readReg m)).signed v)) := by
  show execExbr m o s = _
  rw [execExbr, read, Res.ok_bind, conclude]

theorem exec_uexbr : exec (.uexbr m o) s = .next (s.put 0 ((bitRange (s.readReg m)).unsigned v)) := by
  show execUexbr m o s = _
  rw [execUexbr, read, Res.ok_bind, conclude]

theorem exec_exbrv : exec (.exbrv m o) s = conclude s (memRead s (v + (bitRange (s.readReg m)).skip) >>= fun w =>
    .ok (s.put 0 ((bitRange (s.readReg m)).signed w))) := by
  show execExbrv m o s = _
  rw [execExbrv, read, Res.ok_bind]

theorem exec_uexbrv : exec (.uexbrv m o) s = conclude s (memRead s (v + (bitRange (s.readReg m)).skip) >>= fun w =>
    .ok (s.put 0 ((bitRange (s.readReg m)).unsigned w))) := by
  show execUexbrv m o s = _
  rw [execUexbrv, read, Res.ok_bind]

end

/-- Settles O34: each form puts the signed or the unsigned range of one word in R0, and the V forms read that word first. -/
theorem bitRangesExtract : Obligations.BitRangesExtract := by
  intro s m o v w n lo read count low
  obtain ⟨rfl, rfl, skip⟩ := bitRange_fields count low
  have pos := BitRange.count_pos (s.readReg m)
  simp only [List.forall_mem_cons, List.not_mem_nil, false_implies, implies_true, and_true]
  rw [skip, exec_exbr read, exec_uexbr read, exec_exbrv read, exec_uexbrv read]
  have signed (x : Word) := extracts_signed s pos x
  have unsigned (x : Word) := extracts_unsigned s (bitRange (s.readReg m)) x
  refine ⟨fun fits => ⟨(signed v).inside fits, (unsigned v).inside fits⟩, fun e failed => ?unread,
    fun beyond => ⟨(signed v).beyond beyond, (unsigned v).beyond beyond⟩, fun here => ?found⟩
  case unread =>
    rw [failed, Res.error_bind, Res.error_bind, conclude]
    exact ⟨rfl, rfl⟩
  case found =>
    rw [here, Res.ok_bind, Res.ok_bind, conclude, conclude]
    exact ⟨fun fits => ⟨(signed w).inside fits, (unsigned w).inside fits⟩,
      fun beyond => ⟨(signed w).beyond beyond, (unsigned w).beyond beyond⟩⟩

/-! ### DPBR and DPBRV (R333, R334, U10) -/

theorem exec_dpbr {s : State} {m : Reg} {o : Operand} {v : Word} (read : operandValue s o = .ok v) (writable : o.isWritable = true) :
    exec (.dpbr m o) s = conclude s (writeDestOpen s o ((bitRange (s.readReg m)).deposit v (s.readReg 0))) := by
  show execDpbr m o s = _
  rw [execDpbr, checkWritable_writable writable, Res.ok_bind, read, Res.ok_bind]

section
variable {s : State} {m : Reg} {o : Operand} {v : Word} (read : operandValue s o = .ok v)
include read

theorem exec_dpbrv_unread {e : Stop} (failed : memRead s (v + (bitRange (s.readReg m)).skip) = .error e) :
    exec (.dpbrv m o) s = stopOutcome s s.faultPc e := by
  show execDpbrv m o s = _
  simp only [execDpbrv, read, Res.ok_bind, failed, Res.error_bind, conclude]

variable {w : Word} (here : memRead s (v + (bitRange (s.readReg m)).skip) = .ok w)
include here

theorem exec_dpbrv_some {d : Word} (deposit : (bitRange (s.readReg m)).deposit w (s.readReg 0) = some d) :
    exec (.dpbrv m o) s = conclude s (memWrite s (v + (bitRange (s.readReg m)).skip) d) := by
  show execDpbrv m o s = _
  simp only [execDpbrv, read, Res.ok_bind, here, deposit]

theorem exec_dpbrv_none (deposit : (bitRange (s.readReg m)).deposit w (s.readReg 0) = none) :
    exec (.dpbrv m o) s = conclude s (memWrite s (v + (bitRange (s.readReg m)).skip) s.free >>= fun t => .ok t.drawn) := by
  show execDpbrv m o s = _
  simp only [execDpbrv, read, Res.ok_bind, here, deposit]

theorem exec_dpbrv_unstored {e : Stop} (failed : storeTarget s (v + (bitRange (s.readReg m)).skip) = .error e) :
    exec (.dpbrv m o) s = stopOutcome s s.faultPc e := by
  cases deposit : (bitRange (s.readReg m)).deposit w (s.readReg 0) with
  | some d => rw [exec_dpbrv_some read here deposit, memWrite_error failed, conclude]
  | none => rw [exec_dpbrv_none read here deposit, memWrite_error failed, Res.error_bind, conclude]

end

/-! ### ADJS (R335, U24; entry 26) -/

/-- A selector put together from its fields. -/
theorem packSelector_toNat (sel : Word) {low skip : Nat} (hlow : low < 32) (hskip : skip < 2 ^ 22) :
    ((sel &&& 31#32) ||| BitVec.ofNat 32 low <<< 5 ||| BitVec.ofNat 32 skip <<< 10).toNat =
      skip * 1024 + low * 32 + sel.toNat % 32 := by
  have count : (sel &&& 31#32).toNat = sel.toNat % 2 ^ 5 := Nat.and_two_pow_sub_one_eq_mod sel.toNat 5
  have lowField : (BitVec.ofNat 32 low <<< 5).toNat = 2 ^ 5 * low := by
    rw [BitVec.toNat_shiftLeft, BitVec.toNat_ofNat, Nat.shiftLeft_eq]
    omega
  have skipField : (BitVec.ofNat 32 skip <<< 10).toNat = 2 ^ 10 * skip := by
    rw [BitVec.toNat_shiftLeft, BitVec.toNat_ofNat, Nat.shiftLeft_eq]
    omega
  rw [BitVec.toNat_or, BitVec.toNat_or, count, lowField, skipField, Nat.or_comm (sel.toNat % 2 ^ 5),
    ← Nat.two_pow_add_eq_or_of_lt (by omega), Nat.or_comm, ← Nat.two_pow_add_eq_or_of_lt (by omega)]
  omega

section
variable {sel v : Word} {e : Nat} {p : Int} (low : (bitRange sel).low = e * (bitRange sel).count)
  (element : e < 32 / (bitRange sel).count)
  (position : p = ((bitRange sel).skip.toNat * (32 / (bitRange sel).count) + e : Nat) + v.toInt)
include low element position

/-- The selector of element e moves to the element `v` on, which is number p of the array, if 2^22 words hold it. -/
theorem adjustSelector_element : adjustSelector sel v =
    if 0 ≤ p ∧ p.toNat / (32 / (bitRange sel).count) < 2 ^ 22 then
      some ((sel &&& 31#32) ||| BitVec.ofNat 32 (p.toNat % (32 / (bitRange sel).count) * (bitRange sel).count) <<< 5 |||
        BitVec.ofNat 32 (p.toNat / (32 / (bitRange sel).count)) <<< 10)
    else none := by
  have pos := BitRange.count_pos sel
  have names : (bitRange sel).low % (bitRange sel).count = 0 ∧
      (bitRange sel).low / (bitRange sel).count < 32 / (bitRange sel).count := by
    rw [low, Nat.mul_mod_left, Nat.mul_div_cancel _ pos]
    exact ⟨rfl, element⟩
  rw [adjustSelector]
  dsimp only
  rw [if_pos names, low, Nat.mul_div_cancel _ pos, position]

theorem adjustSelector_inside (nonneg : 0 ≤ p) (inside : p.toNat / (32 / (bitRange sel).count) < 2 ^ 22) :
    ∃ x, adjustSelector sel v = some x ∧ x.toNat % 32 = sel.toNat % 32 ∧
      x.toNat / 32 % 32 = p.toNat % (32 / (bitRange sel).count) * (bitRange sel).count ∧
      x.toNat / 1024 = p.toNat / (32 / (bitRange sel).count) := by
  have lowFits : p.toNat % (32 / (bitRange sel).count) * (bitRange sel).count < 32 :=
    (Nat.mul_lt_mul_of_pos_right (Nat.mod_lt _ (by omega)) (BitRange.count_pos sel)).trans_le (Nat.div_mul_le_self 32 _)
  have fields := packSelector_toNat sel lowFits inside
  refine ⟨_, (adjustSelector_element low element position).trans (if_pos ⟨nonneg, inside⟩), ?_, ?_, ?_⟩ <;>
    rw [fields] <;> omega

theorem adjustSelector_outside (outside : p < 0 ∨ 2 ^ 22 ≤ p.toNat / (32 / (bitRange sel).count)) : adjustSelector sel v = none := by
  rw [adjustSelector_element low element position, if_neg (by omega)]

end

theorem adjustSelector_noElement {sel : Word} (v : Word)
    (noElement : ∀ e < 32 / (bitRange sel).count, (bitRange sel).low ≠ e * (bitRange sel).count) : adjustSelector sel v = none := by
  refine if_neg fun ⟨divides, element⟩ => noElement _ element ?_
  exact (Nat.div_mul_cancel (Nat.dvd_of_mod_eq_zero divides)).symm

section
variable {s : State} {m : Reg} {o : Operand} {v : Word} (read : operandValue s o = .ok v)
include read

theorem exec_adjs : exec (.adjs m o) s = .next (s.put m (adjsFunction s.cfg.adjs (s.readReg m) v)) := regOpOpen_eq read

variable (packed : s.cfg.adjs = .packedArray)
include packed

theorem exec_adjs_some {x : Word} (moved : adjustSelector (s.readReg m) v = some x) :
    exec (.adjs m o) s = .next (s.writeReg m x) := by
  rw [exec_adjs read, packed, adjsFunction, moved, State.put]

theorem exec_adjs_none (unmoved : adjustSelector (s.readReg m) v = none) :
    exec (.adjs m o) s = .next { s.writeReg m s.free with draws := s.draws + 1 } := by
  rw [exec_adjs read, packed, adjsFunction, unmoved, State.put, State.drawn_writeReg]

end

/-- A register put, whatever there is to put, is written; only the count of draws may change besides. -/
theorem put_eq_writeReg (s : State) (r : Reg) (f : Option Word) : ∃ x d, s.put r f = { s.writeReg r x with draws := d } := by
  cases f with
  | some x => exact ⟨x, s.draws, by rw [State.put, ← State.writeReg_draws s r x]⟩
  | none => exact ⟨s.free, s.draws + 1, by rw [State.put, State.drawn_writeReg]⟩

/-- Settles O35: DPBR and DPBRV store the deposit, or a free word where the range overruns its word; ADJS puts the moved selector. -/
theorem bitRangesDepositAndAdjust : Obligations.BitRangesDepositAndAdjust := by
  intro s m o v n lo read count low
  obtain ⟨rfl, rfl, skip⟩ := bitRange_fields count low
  have skipped : (bitRange (s.readReg m)).skip.toNat = (s.readReg m).toNat / 1024 := by
    rw [← skip, BitVec.toNat_ofNat]
    omega
  rw [skip, ← skipped]
  refine ⟨fun fits direct index number => ?register, fun p fits memory target => ?memory, fun w p fits here target => ?skipping,
    fun e failed => ?faults, fun beyond => ⟨s.free, ?beyond⟩,
    fun packed => ⟨fun e p low element position => ?element, fun noElement => ?noElement⟩, ?anyFunction⟩
  case register =>
    obtain ⟨x, deposit, bits⟩ := BitRange.deposit_inside fits v (s.readReg 0)
    refine ⟨x, ?_, bits⟩
    rw [exec_dpbr read (Operand.isWritable_bare direct index number), deposit, writeDestOpen,
      writeDest_bare direct index number, conclude]
  case memory =>
    obtain ⟨x, deposit, bits⟩ := BitRange.deposit_inside fits v (s.readReg 0)
    refine ⟨x, ?_, bits⟩
    rw [exec_dpbr read (Operand.isWritable_memory memory), deposit, writeDestOpen, writeDest_memory memory, memWrite_of_target target,
      conclude]
  case skipping =>
    obtain ⟨x, deposit, bits⟩ := BitRange.deposit_inside fits w (s.readReg 0)
    refine ⟨x, ?_, bits⟩
    rw [exec_dpbrv_some read here deposit, memWrite_of_target target, conclude]
  case faults =>
    rcases failed with unread | ⟨⟨w, here⟩, unstored⟩
    · exact exec_dpbrv_unread read unread
    · exact exec_dpbrv_unstored read here unstored
  case beyond =>
    refine ⟨fun direct index number => ?_, fun p memory target => ?_, fun w p here target => ?_⟩
    · rw [exec_dpbr read (Operand.isWritable_bare direct index number), BitRange.deposit_outside beyond, writeDestOpen,
        writeDest_bare direct index number, Res.ok_bind, State.drawn_writeReg, conclude]
    · rw [exec_dpbr read (Operand.isWritable_memory memory), BitRange.deposit_outside beyond, writeDestOpen, writeDest_memory memory,
        memWrite_of_target target, Res.ok_bind, conclude]
      rfl
    · rw [exec_dpbrv_none read here (BitRange.deposit_outside beyond _ _), memWrite_of_target target, Res.ok_bind, conclude]
      rfl
  case element =>
    refine ⟨fun nonneg inside => ?_, fun outside => ?_⟩
    · obtain ⟨x, moved, fields⟩ := adjustSelector_inside low element position nonneg inside
      exact ⟨x, exec_adjs_some read packed moved, fields⟩
    · exact ⟨_, exec_adjs_none read packed (adjustSelector_outside low element position outside)⟩
  case noElement => exact ⟨_, exec_adjs_none read packed (adjustSelector_noElement v noElement)⟩
  case anyFunction =>
    obtain ⟨x, d, put⟩ := put_eq_writeReg s m (adjsFunction s.cfg.adjs (s.readReg m) v)
    exact ⟨x, d, by rw [exec_adjs read, put]⟩

end Sys2Proof.Machine
end

section
/-! PROOFS. The family 45_float.md: what the floating-point instructions do under every FP32, in terms of its functions, and what words
mean (R340, R342, R344, R345, R355, R369, U20). -/

namespace Sys2Proof.Machine

/-! ### A register put, free where there is no result (U20) -/

section
variable {i : Instr} {s : State} {m : Reg} {result : Option Word} (puts : exec i s = .next (s.put m result))
include puts

theorem exec_completes_of_put : ∃ w d, exec i s = .next { s.writeReg m w with draws := d } := by
  obtain ⟨w, d, written⟩ := put_eq_writeReg s m result
  exact ⟨w, d, by rw [puts, written]⟩

theorem exec_eq_of_put {w : Word} (found : result = some w) : exec i s = .next (s.writeReg m w) := by
  rw [puts, found, State.put]

theorem writesFree_of_put (absent : result = none) : WritesFree i s m :=
  ⟨s.free, by rw [puts, absent, State.put, State.drawn_writeReg]⟩

/-- A result that is the rounding of x, or that is absent because x overflows. -/
theorem writesRounded_of_put {x : ℝ} {sign : Bool} {negative : Prop}
    (rounds : (|x| < roundingBound → ∃ w, result = some w ∧ RoundsTo x w ∧ w.msb = sign) ∧ (roundingBound ≤ |x| → result = none))
    (agrees : sign = true ↔ negative) : WritesRounded i s m x negative := by
  obtain ⟨inRange, overflow⟩ := rounds
  refine ⟨fun small => ?_, fun large => writesFree_of_put puts (overflow large)⟩
  obtain ⟨w, found, nearest, msb⟩ := inRange small
  exact ⟨w, exec_eq_of_put puts found, nearest, by rw [msb, agrees]⟩

end

/-! ### The instructions in terms of the functions of FP32 -/

theorem State.fp32_eq_binary32 {s : State} (default : s.cfg.fp32 = .binary32) : s.fp32 = binary32 := by
  rw [State.fp32, default]
  rfl

section
variable {s : State} {o : Operand} {v : Word} (read : operandValue s o = .ok v) (m : Reg)
include read

theorem exec_fabs : exec (.fabs m o) s = .next (s.put m (fabs v)) := regOpOpen_eq (f := fun _ v => fabs v) read
theorem exec_fsign : exec (.fsign m o) s = .next (s.put m (fsign v)) := regOpOpen_eq (f := fun _ v => fsign v) read
theorem exec_fneg : exec (.fneg m o) s = .next (s.put m (fneg v)) := regOpOpen_eq (f := fun _ v => fneg v) read

theorem exec_fcomp : exec (.fcomp m o) s = .next (s.setFloatCompare (s.readReg m) v) := by
  show execFcomp m o s = _
  rw [execFcomp, read, Res.ok_bind, conclude]

omit m in
theorem exec_fcompz : exec (.fcompz o) s = .next (s.setFloatCompare v 0) := by
  show execFcompz o s = _
  rw [execFcompz, read, Res.ok_bind, conclude]

variable {f : Fp32} (functions : s.fp32 = f)
include functions

omit m in
theorem exec_fgood : exec (.fgood o) s = .next { s with flags := { s.flags with z := f.good v } } := by
  show execFgood o s = _
  rw [execFgood, read, Res.ok_bind, functions, conclude, State.setZ]

theorem exec_fadd : exec (.fadd m o) s = .next (s.put m (f.add (s.readReg m) v)) := functions ▸ regOpOpen_eq read
theorem exec_fsub : exec (.fsub m o) s = .next (s.put m (f.sub (s.readReg m) v)) := functions ▸ regOpOpen_eq read
theorem exec_fmul : exec (.fmul m o) s = .next (s.put m (f.mul (s.readReg m) v)) := functions ▸ regOpOpen_eq read
theorem exec_fix : exec (.fix m o) s = .next (s.put m (f.fix v)) :=
  functions ▸ regOpOpen_eq (f := fun _ v => s.fp32.fix v) read
theorem exec_float : exec (.float m o) s = .next (s.put m (f.float v)) :=
  functions ▸ regOpOpen_eq (f := fun _ v => s.fp32.float v) read
theorem exec_floor : exec (.floor m o) s = .next (s.put m (f.floor v)) :=
  functions ▸ regOpOpen_eq (f := fun _ v => s.fp32.floor v) read
theorem exec_fsin : exec (.fsin m o) s = .next (s.put m (f.sin v)) :=
  functions ▸ regOpOpen_eq (f := fun _ v => s.fp32.sin v) read
theorem exec_fcos : exec (.fcos m o) s = .next (s.put m (f.cos v)) :=
  functions ▸ regOpOpen_eq (f := fun _ v => s.fp32.cos v) read
theorem exec_fatan : exec (.fatan m o) s = .next (s.put m (f.atan v)) :=
  functions ▸ regOpOpen_eq (f := fun _ v => s.fp32.atan v) read

theorem exec_fexp :
    exec (.fexp m o) s = .next (s.put m (if isZero f v then f.exp (s.readReg m) else f.pow v (s.readReg m))) := by
  subst functions
  exact regOpOpen_eq (f := fun r v => if isZero s.fp32 v then s.fp32.exp r else s.fp32.pow v r) read

theorem exec_fdiv (nonzero : isZero f v = false) : exec (.fdiv m o) s = .next (s.put m (f.div (s.readReg m) v)) := by
  subst functions
  show execFdiv m o s = _
  simp only [execFdiv, read, Res.ok_bind, nonzero, Bool.false_eq_true, if_false, conclude]

/-- By a zero: DIVZERO or a word, which of them is open (R345, U37; entry 24). -/
theorem exec_fdiv_zero (zero : isZero f v = true) : exec (.fdiv m o) s =
    if Config.fdivZeroTraps (s.readReg m) v = true then stopOutcome s s.faultPc (.raised ⟨.divzero, some (s.pc - 1), none⟩)
    else .next (s.writeReg m (Config.fdivByZero (s.readReg m) v)) := by
  subst functions
  show execFdiv m o s = _
  simp only [execFdiv, read, Res.ok_bind, zero, if_true]
  split <;> rfl

theorem exec_fsqrt (nonneg : isNegative f v = false) : exec (.fsqrt m o) s = .next (s.put m (f.sqrt v)) := by
  subst functions
  show execFsqrt m o s = _
  simp only [execFsqrt, read, Res.ok_bind, nonneg, Bool.false_eq_true, if_false, conclude]

/-- FLTNEG (R344). -/
theorem exec_fsqrt_negative (negative : isNegative f v = true) :
    exec (.fsqrt m o) s = stopOutcome s s.faultPc (.raised ⟨.fltneg, none, none⟩) := by
  subst functions
  show execFsqrt m o s = _
  simp only [execFsqrt, read, Res.ok_bind, negative, if_true]
  rfl

theorem exec_flog (argument : isNegative f (s.readReg m) = false) (base : isNegative f v = false) :
    exec (.flog m o) s = .next (s.put m (if isZero f v then f.ln (s.readReg m) else f.logb v (s.readReg m))) := by
  subst functions
  show execFlog m o s = _
  simp only [execFlog, read, Res.ok_bind, argument, base, Bool.or_self, Bool.false_eq_true, if_false, conclude]

/-- FLTNEG (R344). -/
theorem exec_flog_negative (negative : isNegative f (s.readReg m) = true ∨ isNegative f v = true) :
    exec (.flog m o) s = stopOutcome s s.faultPc (.raised ⟨.fltneg, none, none⟩) := by
  subst functions
  show execFlog m o s = _
  simp only [execFlog, read, Res.ok_bind, Bool.or_eq_true, if_pos negative]
  rfl

theorem exec_frnd_none (absent : f.round v = none) : exec (.frnd m o) s = .next (s.put m none) := by
  subst functions
  show execFrnd m o s = _
  simp only [execFrnd, read, Res.ok_bind, absent, conclude]

theorem exec_frnd {w : Word} (found : f.round v = some w) (signed : zeroSignOpen v w = false) :
    exec (.frnd m o) s = .next (s.writeReg m w) := by
  subst functions
  show execFrnd m o s = _
  simp only [execFrnd, read, Res.ok_bind, found, signed, Bool.false_eq_true, if_false, conclude]

/-- Either zero, of a negative number (entry 23). -/
theorem exec_frnd_zero {w : Word} (found : f.round v = some w) (unsigned : zeroSignOpen v w = true) :
    exec (.frnd m o) s = .next { s.writeReg m (if s.freeBit then 0x80000000#32 else 0) with draws := s.draws + 1 } := by
  subst functions
  show execFrnd m o s = _
  simp only [execFrnd, read, Res.ok_bind, found, unsigned, if_true, conclude, State.drawn_writeReg]
  rfl

theorem exec_frnd_completes : ∃ w d, exec (.frnd m o) s = .next { s.writeReg m w with draws := d } := by
  cases result : f.round v with
  | none => exact exec_completes_of_put (exec_frnd_none read m functions result)
  | some w =>
    cases unsigned : zeroSignOpen v w with
    | false => exact ⟨w, s.draws, by rw [exec_frnd read m functions result unsigned, ← State.writeReg_draws s m w]⟩
    | true => exact ⟨_, _, exec_frnd_zero read m functions result unsigned⟩

end

/-! ### What a word means (R340, R344, R355, R369) -/

theorem floatProper_iff (w : Word) : floatProper w = true ↔ w.toNat % 2 ^ 31 < 0x7F800000 := by
  rw [floatProper, floatExponent_toNat, bne_iff_ne]
  omega

theorem floatProper_eq_false {w : Word} : floatProper w = false ↔ 0x7F800000 ≤ w.toNat % 2 ^ 31 := by
  rw [← Bool.not_eq_true, floatProper_iff, not_lt]

theorem floatNegative_iff (w : Word) :
    floatNegative w = true ↔ w.msb = true ∧ 0 < w.toNat % 2 ^ 31 ∧ w.toNat % 2 ^ 31 ≤ 0x7F800000 := by
  unfold floatNegative
  rcases Nat.lt_or_ge 0x7F800000 (w.toNat % 2 ^ 31) with nan | number
  · simp only [floatRank_nan nan, Bool.false_eq_true, false_iff]
    omega
  · simp only [floatRank_eq number, decide_eq_true_iff]
    generalize w.toNat % 2 ^ 31 = magnitude at number
    cases w.msb <;> simp [number]

theorem isZero_eq_floatZero (w : Word) : isZero binary32 w = floatZero w := by
  rw [Bool.eq_iff_iff, isZero_binary32, floatZero_iff]

theorem isNegative_eq_floatNegative (w : Word) : isNegative binary32 w = floatNegative w := by
  rw [Bool.eq_iff_iff, isNegative_binary32, floatNegative_iff]

end Sys2Proof.Machine
end

section
/-! PROOFS. The family 45_float.md: signs and comparisons (R354, R355, R365, R367 to R369, U20; entry 22). -/

namespace Sys2Proof.Machine

/-! ### FNEG, FABS and FSIGN (R365, R367, R368) -/

section
variable {v : Word}

theorem fneg_nan (nan : 0x7F800000 < v.toNat % 2 ^ 31) : fneg v = none := by
  rw [fneg, if_pos ((floatValue_nan_iff v).2 nan)]

theorem fabs_nan (nan : 0x7F800000 < v.toNat % 2 ^ 31) : fabs v = none := by
  rw [fabs, if_pos (.inl ((floatValue_nan_iff v).2 nan))]

theorem fsign_nan (nan : 0x7F800000 < v.toNat % 2 ^ 31) : fsign v = none := by
  rw [fsign, floatRank_nan nan, Option.map_none]

/-- -0.0 (U20). -/
theorem fabs_negativeZero : fabs 0x80000000#32 = none := by
  rw [fabs, if_pos (.inr rfl)]

variable (number : v.toNat % 2 ^ 31 ≤ 0x7F800000)
include number

theorem floatValue_ne_nan : floatValue v ≠ .nan := by
  rw [ne_eq, floatValue_nan_iff]
  omega

theorem fneg_number : fneg v = some (v ^^^ 0x80000000#32) := by
  rw [fneg, if_neg (floatValue_ne_nan number)]

theorem fabs_number (notNegativeZero : v ≠ 0x80000000#32) : fabs v = some (v &&& 0x7FFFFFFF#32) := by
  rw [fabs, if_neg (not_or.2 ⟨floatValue_ne_nan number, notNegativeZero⟩)]

theorem fsign_number :
    fsign v = some (if v.toNat % 2 ^ 31 = 0 then 0 else if v.msb = true then 0xFFFFFFFF#32 else 1) := by
  rw [fsign, floatRank_eq number, Option.map_some]
  generalize v.toNat % 2 ^ 31 = magnitude
  rcases Nat.eq_zero_or_pos magnitude with rfl | positive
  · simp
  · cases v.msb <;> simp [positive, positive.ne']

end

/-! ### FCOMP and FCOMPZ (R354, R355) -/

theorem setFloatCompare_completes (s : State) (a b : Word) :
    ∃ z n d, s.setFloatCompare a b = { s with flags := { s.flags with z := z, n := n }, draws := d } := by
  unfold State.setFloatCompare
  split
  · exact ⟨_, _, s.draws, rfl⟩
  · exact ⟨_, _, s.draws + 1 + 1, rfl⟩

/-- Words in the order of the numbers compare as their ranks do. -/
theorem setFloatCompare_ranks {s : State} (default : s.cfg.fp32 = .binary32) {a b : Word} {x y : Int} (left : floatRank a = some x)
    (right : floatRank b = some y) :
    s.setFloatCompare a b = { s with flags := { s.flags with z := decide (x = y), n := decide (x < y) } } := by
  have order : s.fp32.order a b = some (compare x y) := by
    rw [State.fp32_eq_binary32 default]
    show forder a b = _
    simp only [forder, left, right]
  have equal : (compare x y == .eq) = decide (x = y) := by rw [Bool.eq_iff_iff, beq_iff_eq, compare_eq_iff_eq, decide_eq_true_iff]
  have less : (compare x y == .lt) = decide (x < y) := by rw [Bool.eq_iff_iff, beq_iff_eq, compare_lt_iff_lt, decide_eq_true_iff]
  simp only [State.setFloatCompare, order, equal, less]
  rfl

theorem floatRank_zero : floatRank 0 = some 0 := by decide

/-- Settles O56: the three sign instructions put a word function; a comparison compares ranks, which sign and magnitude give. -/
theorem floatSignsAndComparisons : Obligations.FloatSignsAndComparisons := by
  intro s m o v r read register
  refine ⟨fun number => ⟨exec_eq_of_put (exec_fneg read m) (fneg_number number),
      fun notNegativeZero => exec_eq_of_put (exec_fabs read m) (fabs_number number notNegativeZero),
      exec_eq_of_put (exec_fsign read m) (fsign_number number)⟩,
    fun nan => ?nans, ?negativeZero, ?compzCompletes, ?compCompletes, ⟨_, exec_fgood read rfl⟩,
    fun default => ⟨?good, fun number => ⟨?compz, fun registerNumber => ?comp⟩⟩⟩
  case nans =>
    simp only [List.forall_mem_cons, List.not_mem_nil, false_implies, implies_true, and_true]
    exact ⟨writesFree_of_put (exec_fneg read m) (fneg_nan nan), writesFree_of_put (exec_fabs read m) (fabs_nan nan),
      writesFree_of_put (exec_fsign read m) (fsign_nan nan)⟩
  case negativeZero =>
    rintro rfl
    exact writesFree_of_put (exec_fabs read m) fabs_negativeZero
  case compzCompletes =>
    rw [exec_fcompz read]
    obtain ⟨z, n, d, compared⟩ := setFloatCompare_completes s v 0
    exact ⟨z, n, d, by rw [compared]⟩
  case compCompletes =>
    rw [exec_fcomp read m]
    obtain ⟨z, n, d, compared⟩ := setFloatCompare_completes s (s.readReg m) v
    exact ⟨z, n, d, by rw [compared]⟩
  case good =>
    have good : floatProper v = decide (v.toNat / 2 ^ 23 % 256 ≠ 255) := by
      rw [Bool.eq_iff_iff, floatProper_iff, decide_eq_true_iff]
      omega
    rw [exec_fgood read (State.fp32_eq_binary32 default), ← good]
    rfl
  case compz =>
    rw [exec_fcompz read, setFloatCompare_ranks default (floatRank_eq number) floatRank_zero]
    generalize v.toNat % 2 ^ 31 = magnitude
    cases v.msb <;> simp [Nat.pos_iff_ne_zero]
  case comp =>
    subst register
    rw [exec_fcomp read m, setFloatCompare_ranks default (floatRank_eq registerNumber) (floatRank_eq number)]

end Sys2Proof.Machine
end

section
/-! PROOFS. The family 45_float.md: the elementary functions (R344, R359, R360, R362 to R364, U20; entries 22, 25). -/

namespace Sys2Proof.Machine

/-! ### The functions of proper words (R359, R360, R362 to R364) -/

section
variable {r v : Word}

theorem fln_proper (proper : floatProper r = true) (nonzero : floatZero r = false) :
    fln r = some (if r = floatOne then 0 else Config.fln r) := by
  simp [fln, proper, nonzero]

theorem fln_none (undefined : floatProper r = false ∨ floatZero r = true) : fln r = none := by
  rcases undefined with h | h <;> simp [fln, h]

theorem flogb_proper (properBase : floatProper v = true) (proper : floatProper r = true) (nonzero : floatZero r = false)
    (notOne : v ≠ floatOne) : flogb v r = some (Config.flogb v r) := by
  simp [flogb, properBase, proper, nonzero, notOne]

theorem flogb_none (undefined : floatProper r = false ∨ floatProper v = false ∨ floatZero r = true ∨ v = floatOne) :
    flogb v r = none := by
  rcases undefined with h | h | h | h <;> simp [flogb, h]

theorem fexp_proper (proper : floatProper r = true) : fexp r = some (if r = 0 then floatOne else Config.fexp r) := by
  simp [fexp, proper]

theorem fexp_none (improper : floatProper r = false) : fexp r = none := by simp [fexp, improper]

theorem fpow_proper (properBase : floatProper v = true) (proper : floatProper r = true) (nonneg : floatNegative v = false) :
    fpow v r = some (Config.fpow v r) := by
  simp [fpow, properBase, proper, nonneg]

theorem fpow_none (undefined : floatProper r = false ∨ floatProper v = false ∨ floatNegative v = true) : fpow v r = none := by
  rcases undefined with h | h | h <;> simp [fpow, h]

section
variable (proper : floatProper v = true)
include proper

theorem fsin_proper : fsin v = some (if v = 0 then 0 else Config.fsin v) := by simp [fsin, proper]
theorem fcos_proper : fcos v = some (if v = 0 then floatOne else Config.fcos v) := by simp [fcos, proper]
theorem fatan_proper : fatan v = some (if v = 0 then 0 else Config.fatan v) := by simp [fatan, proper]

end

section
variable (improper : floatProper v = false)
include improper

theorem fsin_none : fsin v = none := by simp [fsin, improper]
theorem fcos_none : fcos v = none := by simp [fcos, improper]
theorem fatan_none : fatan v = none := by simp [fatan, improper]

end

/-- A zero is a proper word and not negative. -/
theorem floatZero_proper (zero : floatZero v = true) : floatProper v = true ∧ floatNegative v = false := by
  rw [floatZero_iff] at zero
  rw [floatProper_iff, ← Bool.not_eq_true, floatNegative_iff]
  omega

theorem floatOne_sign : floatNegative floatOne = false ∧ floatZero floatOne = false ∧ floatProper floatOne = true := by decide

end

/-! ### FLOG, FEXP and the trigonometric functions with the default FP32 -/

section
variable {s : State} {m : Reg} {o : Operand} {v : Word} (read : operandValue s o = .ok v) (default : s.cfg.fp32 = .binary32)
include read default

theorem exec_flog_binary32 (argument : floatNegative (s.readReg m) = false) (base : floatNegative v = false) :
    exec (.flog m o) s = .next (s.put m (if floatZero v then fln (s.readReg m) else flogb v (s.readReg m))) := by
  rw [← isNegative_eq_floatNegative] at argument base
  rw [← isZero_eq_floatZero]
  exact exec_flog read m (State.fp32_eq_binary32 default) argument base

theorem exec_fexp_binary32 :
    exec (.fexp m o) s = .next (s.put m (if floatZero v then fexp (s.readReg m) else fpow v (s.readReg m))) := by
  rw [← isZero_eq_floatZero]
  exact exec_fexp read m (State.fp32_eq_binary32 default)

theorem exec_fsin_binary32 : exec (.fsin m o) s = .next (s.put m (fsin v)) := exec_fsin read m (State.fp32_eq_binary32 default)
theorem exec_fcos_binary32 : exec (.fcos m o) s = .next (s.put m (fcos v)) := exec_fcos read m (State.fp32_eq_binary32 default)
theorem exec_fatan_binary32 : exec (.fatan m o) s = .next (s.put m (fatan v)) := exec_fatan read m (State.fp32_eq_binary32 default)

/-- No result is stated of a zero, to base 1.0, or for an improper operand. -/
theorem writesFree_flog (argument : floatNegative (s.readReg m) = false) (base : floatNegative v = false)
    (undefined : floatProper (s.readReg m) = false ∨ floatProper v = false ∨ floatZero (s.readReg m) = true ∨ v = floatOne) :
    WritesFree (.flog m o) s m := by
  refine writesFree_of_put (exec_flog_binary32 read default argument base) ?_
  split
  · next zero =>
    have nonzero : v ≠ floatOne := by
      rintro rfl
      exact absurd zero (by decide)
    exact fln_none (by simpa [(floatZero_proper zero).1, nonzero] using undefined)
  · exact flogb_none undefined

theorem writesFree_fexp (undefined : floatProper (s.readReg m) = false ∨ floatProper v = false ∨ floatNegative v = true) :
    WritesFree (.fexp m o) s m := by
  refine writesFree_of_put (exec_fexp_binary32 read default) ?_
  split
  · next zero =>
    obtain ⟨proper, nonneg⟩ := floatZero_proper zero
    exact fexp_none (by simpa [proper, nonneg] using undefined)
  · exact fpow_none undefined

end

/-- Settles O57: FLOG and FEXP choose a function by the zero test, and each function is a case split on its arguments. -/
theorem elementaryFunctions : Obligations.ElementaryFunctions := by
  rintro s m o v _ read rfl
  simp only [List.forall_mem_cons, List.not_mem_nil, false_implies, implies_true, and_true]
  refine ⟨⟨exec_completes_of_put (exec_fexp read m rfl), exec_completes_of_put (exec_fsin read m rfl),
      exec_completes_of_put (exec_fcos read m rfl), exec_completes_of_put (exec_fatan read m rfl)⟩,
    fun argument base => exec_completes_of_put (exec_flog read m rfl argument base), exec_flog_negative read m rfl,
    fun default => ⟨fun proper properBase => ⟨fun argument nonzero zero notOne => ?ln, fun one zero => ?lnOne,
        fun argument nonzero base baseNonzero notOne => ?logb, fun zero notZero => ?exp, fun zero argument => ?expZero,
        fun nonneg baseNonzero => ?pow⟩,
      fun negative => ?fltneg, writesFree_flog read default, writesFree_fexp read default, fun improper => ?improper,
      fun proper notZero => ?trig, fun zero => ?trigZero⟩⟩
  case ln =>
    refine exec_eq_of_put (exec_flog_binary32 read default argument (floatZero_proper zero).2) ?_
    rw [if_pos zero, fln_proper proper nonzero, if_neg (show s.readReg m ≠ floatOne from notOne)]
  case lnOne =>
    obtain ⟨nonneg, nonzero, -⟩ := floatOne_sign
    refine exec_eq_of_put (exec_flog_binary32 read default (by rw [one]; exact nonneg) (floatZero_proper zero).2) ?_
    rw [if_pos zero, fln_proper proper (by rw [one]; exact nonzero), if_pos (show s.readReg m = floatOne from one)]
  case logb =>
    refine exec_eq_of_put (exec_flog_binary32 read default argument base) ?_
    rw [if_neg (Bool.eq_false_iff.1 baseNonzero), flogb_proper properBase proper nonzero notOne]
  case exp =>
    refine exec_eq_of_put (exec_fexp_binary32 read default) ?_
    rw [if_pos zero, fexp_proper proper, if_neg notZero]
  case expZero =>
    refine exec_eq_of_put (exec_fexp_binary32 read default) ?_
    rw [if_pos zero, fexp_proper proper, if_pos argument, floatOne]
    rfl
  case pow =>
    refine exec_eq_of_put (exec_fexp_binary32 read default) ?_
    rw [if_neg (Bool.eq_false_iff.1 baseNonzero), fpow_proper properBase proper nonneg]
  case fltneg =>
    rw [← isNegative_eq_floatNegative, ← isNegative_eq_floatNegative] at negative
    exact exec_flog_negative read m (State.fp32_eq_binary32 default) negative
  case improper =>
    exact ⟨writesFree_of_put (exec_fsin_binary32 read default) (fsin_none improper),
      writesFree_of_put (exec_fcos_binary32 read default) (fcos_none improper),
      writesFree_of_put (exec_fatan_binary32 read default) (fatan_none improper)⟩
  case trig =>
    exact ⟨exec_eq_of_put (exec_fsin_binary32 read default) (by rw [fsin_proper proper, if_neg notZero]),
      exec_eq_of_put (exec_fcos_binary32 read default) (by rw [fcos_proper proper, if_neg notZero]),
      exec_eq_of_put (exec_fatan_binary32 read default) (by rw [fatan_proper proper, if_neg notZero])⟩
  case trigZero =>
    subst zero
    exact ⟨exec_eq_of_put (exec_fsin_binary32 read default) (by decide),
      exec_eq_of_put (exec_fcos_binary32 read default) (by decide),
      exec_eq_of_put (exec_fatan_binary32 read default) (by decide)⟩

end Sys2Proof.Machine
end

section
/-! PROOFS. The family 45_float.md: arithmetic, conversion and rounding (R342 to R345, R350 to R353, R356 to R358, R361, R366, U20, U32,
U37; entries 22 to 24). -/

namespace Sys2Proof.Machine

/-! ### Improper operands have no result (U20) -/

theorem not_finite_of_improper {a b : Word} (improper : floatProper a = false ∨ floatProper b = false) {s t : Bool} {m n : ℕ} {e f : ℤ}
    (left : floatValue a = .finite s m e) (right : floatValue b = .finite t n f) : False :=
  improper.elim (floatValue_improper · _ _ _ left) (floatValue_improper · _ _ _ right)

theorem fadd_improper {a b : Word} (improper : floatProper a = false ∨ floatProper b = false) : fadd a b = none := by
  unfold fadd
  split
  · next left right => exact (not_finite_of_improper improper left right).elim
  · rfl

theorem fsub_improper {a b : Word} (improper : floatProper a = false ∨ floatProper b = false) : fsub a b = none :=
  fadd_improper (by rwa [floatProper_flip])

theorem fmul_improper {a b : Word} (improper : floatProper a = false ∨ floatProper b = false) : fmul a b = none := by
  unfold fmul
  split
  · next left right => exact (not_finite_of_improper improper left right).elim
  · rfl

theorem fdiv_improper {a b : Word} (improper : floatProper a = false ∨ floatProper b = false) : fdiv a b = none := by
  unfold fdiv
  split
  · next left right => exact (not_finite_of_improper improper left right).elim
  · rfl

section
variable {v : Word} (improper : floatProper v = false)
include improper

theorem floatValue_of_improper : floatValue v = .nan ∨ ∃ sign, floatValue v = .infinity sign := by
  cases value : floatValue v with
  | nan => exact .inl rfl
  | infinity sign => exact .inr ⟨sign, rfl⟩
  | finite s m e => exact absurd value (floatValue_improper improper s m e)

theorem fsqrt_improper : fsqrt v = none := by
  rcases floatValue_of_improper improper with value | ⟨sign, value⟩ <;> rw [fsqrt, value]

theorem ffix_improper : ffix v = none := by
  rcases floatValue_of_improper improper with value | ⟨sign, value⟩ <;> rw [ffix, value]

theorem frnd_improper : frnd v = none := by
  rcases floatValue_of_improper improper with value | ⟨sign, value⟩ <;> rw [frnd, value]

theorem ffloor_improper : ffloor v = none := by
  rcases floatValue_of_improper improper with value | ⟨sign, value⟩ <;> rw [ffloor, value]

/-- The only improper word below zero is the negative infinity (R344; entry 22). -/
theorem floatNegative_improper (finite : v ≠ 0xFF800000#32) : floatNegative v = false := by
  rw [← Bool.not_eq_true, floatNegative_iff]
  rintro ⟨sign, -, number⟩
  refine finite (BitVec.eq_of_toNat_eq ?_)
  rw [floatProper_eq_false] at improper
  rw [BitVec.msb_eq_decide, decide_eq_true_iff] at sign
  have := v.isLt
  simp only [BitVec.toNat_ofNat]
  omega

end

/-! ### Numbers and the tests of FP32 (R344, R345) -/

theorem floatZero_eq_false {w : Word} : floatZero w = false ↔ floatNumber w ≠ 0 := by
  rw [← Bool.not_eq_true, floatZero_iff, ne_eq, floatNumber_eq_zero]

theorem floatNegative_of_nonneg {w : Word} (nonneg : 0 ≤ floatNumber w) : floatNegative w = false := by
  rw [← Bool.not_eq_true, floatNegative_iff]
  rintro ⟨sign, nonzero, -⟩
  exact absurd (floatNumber_neg.2 ⟨sign, nonzero⟩) (not_lt.2 nonneg)

/-- The sign of a zero is open exactly where FRND makes one of a negative number (entry 23). -/
theorem zeroSignOpen_iff (v w : Word) : zeroSignOpen v w = true ↔ floatNumber v < 0 ∧ floatNumber w = 0 := by
  rw [zeroSignOpen, Bool.and_eq_true, Bool.and_eq_true, Bool.not_eq_true', floatZero_eq_false, floatZero_iff, floatNumber_eq_zero,
    floatNumber_neg, Nat.pos_iff_ne_zero, ne_eq, floatNumber_eq_zero]

/-! ### Bounds (R342) -/

theorem floatNumber_abs_lt {w : Word} (proper : floatProper w = true) : |floatNumber w| < 2 ^ 128 := by
  obtain ⟨n, e, -, number, small, -, exponent⟩ := floatValue_proper proper
  have magnitude : |floatNumber w| = n * 2 ^ e := by
    rw [number, abs_mul, abs_of_nonneg (by positivity : (0 : ℚ) ≤ n * 2 ^ e)]
    split <;> simp
  have power : (2 : ℚ) ^ e ≤ 2 ^ 104 := by exact_mod_cast zpow_le_zpow_right₀ (by norm_num : (1 : ℚ) ≤ 2) exponent
  have digits : (n : ℚ) < 2 ^ 24 := by exact_mod_cast small
  calc |floatNumber w| = n * 2 ^ e := magnitude
    _ < 2 ^ 24 * 2 ^ e := mul_lt_mul_of_pos_right digits (by positivity)
    _ ≤ 2 ^ 24 * 2 ^ 104 := mul_le_mul_of_nonneg_left power (by norm_num)
    _ = 2 ^ 128 := by norm_num

/-- No square root overflows. -/
theorem sqrt_lt_roundingBound {w : Word} (proper : floatProper w = true) : |Real.sqrt (floatNumber w)| < roundingBound := by
  have below : (floatNumber w : ℝ) < 2 ^ 128 := by exact_mod_cast (le_abs_self _).trans_lt (floatNumber_abs_lt proper)
  have root : Real.sqrt (floatNumber w) < 2 ^ 64 := by
    rw [Real.sqrt_lt' (by norm_num)]
    linarith
  rw [abs_of_nonneg (Real.sqrt_nonneg _), roundingBound]
  push_cast
  linarith

/-- No signed word overflows. -/
theorem toInt_lt_roundingBound (v : Word) : |(v.toInt : ℝ)| < roundingBound := by
  have upper := BitVec.toInt_lt (x := v)
  have lower := BitVec.le_toInt (x := v)
  have bound : |v.toInt| ≤ 2 ^ 31 := abs_le.2 ⟨lower, upper.le⟩
  have real : |(v.toInt : ℝ)| ≤ 2 ^ 31 := by exact_mod_cast bound
  rw [roundingBound]
  push_cast
  linarith

/-! ### The sign of a result (R343) -/

/-- A sum or difference has its own sign; a zero has the one that `zeroSign` says. -/
theorem signOfSum_iff (x : ℚ) (zeroSign : Bool) :
    (if (x : ℝ) = 0 then zeroSign else decide ((x : ℝ) < 0)) = true ↔ x < 0 ∨ x = 0 ∧ zeroSign = true := by
  by_cases zero : x = 0
  · simp [zero]
  · simp [zero]

/-! ### Commutation, and whole numbers there and back -/

theorem fadd_comm (a b : Word) : fadd a b = fadd b a := by
  unfold fadd
  cases floatValue a <;> cases floatValue b <;> try rfl
  case finite.finite s m e t n f => simp only [min_comm e f, Bool.and_comm s t, Int.add_comm]

theorem fmul_comm (a b : Word) : fmul a b = fmul b a := by
  unfold fmul
  cases floatValue a <;> cases floatValue b <;> try rfl
  case finite.finite s m e t n f => simp only [Bool.xor_comm s t, Nat.mul_comm m n, Int.add_comm e f]

/-- Whole numbers of up to 24 bits are floating-point numbers, so FLOAT is exact and FIX undoes it. -/
theorem ffix_ffloat {v : Word} (small : v.toInt.natAbs ≤ 2 ^ 24) : ∃ x, ffloat v = some x ∧ ffix x = some v := by
  obtain ⟨x, converted, ⟨proper, nearest⟩, -⟩ := ffloat_rounds v
  obtain ⟨u, properU, numberU⟩ : ∃ u, floatProper u = true ∧ floatNumber u = v.toInt := by
    obtain ⟨u, properU, numberU⟩ := exists_floatNumber small
    rcases Int.natAbs_eq v.toInt with nonneg | negative
    · exact ⟨u, properU, by rw [numberU, nonneg]; simp⟩
    · refine ⟨u ^^^ 0x80000000#32, by rw [floatProper_flip, properU], ?_⟩
      rw [floatNumber_flip, numberU, negative]
      simp
  have exact : floatNumber x = v.toInt := by
    have rounds : RoundsTo (floatNumber u) x := by
      rw [numberU, Rat.cast_intCast]
      exact ⟨proper, nearest⟩
    rw [rounds.exact properU, numberU]
  obtain ⟨w, fixed, value⟩ := (ffix_truncates proper (n := v.toInt) (by rw [exact, Int.ceil_intCast, Int.floor_intCast, ite_self])).1
    (BitVec.le_toInt v) BitVec.toInt_lt
  exact ⟨x, converted, by rw [fixed, BitVec.eq_of_toInt_eq value]⟩

/-! ### The instructions with the default FP32 -/

section
variable {s : State} {m : Reg} {o : Operand} {v : Word} (read : operandValue s o = .ok v) (default : s.cfg.fp32 = .binary32)
include read default

theorem exec_fadd_binary32 : exec (.fadd m o) s = .next (s.put m (fadd (s.readReg m) v)) :=
  exec_fadd read m (State.fp32_eq_binary32 default)
theorem exec_fsub_binary32 : exec (.fsub m o) s = .next (s.put m (fsub (s.readReg m) v)) :=
  exec_fsub read m (State.fp32_eq_binary32 default)
theorem exec_fmul_binary32 : exec (.fmul m o) s = .next (s.put m (fmul (s.readReg m) v)) :=
  exec_fmul read m (State.fp32_eq_binary32 default)
theorem exec_fix_binary32 : exec (.fix m o) s = .next (s.put m (ffix v)) := exec_fix read m (State.fp32_eq_binary32 default)
theorem exec_float_binary32 : exec (.float m o) s = .next (s.put m (ffloat v)) := exec_float read m (State.fp32_eq_binary32 default)
theorem exec_floor_binary32 : exec (.floor m o) s = .next (s.put m (ffloor v)) := exec_floor read m (State.fp32_eq_binary32 default)

theorem exec_fdiv_binary32 (nonzero : floatZero v = false) : exec (.fdiv m o) s = .next (s.put m (fdiv (s.readReg m) v)) :=
  exec_fdiv read m (State.fp32_eq_binary32 default) (by rw [isZero_eq_floatZero, nonzero])

theorem exec_fsqrt_binary32 (nonneg : floatNegative v = false) : exec (.fsqrt m o) s = .next (s.put m (fsqrt v)) :=
  exec_fsqrt read m (State.fp32_eq_binary32 default) (by rw [isNegative_eq_floatNegative, nonneg])

theorem writesFree_frnd (absent : frnd v = none) : WritesFree (.frnd m o) s m :=
  writesFree_of_put (exec_frnd_none read m (State.fp32_eq_binary32 default) absent) rfl

/-! #### The four operations (R343, R350 to R353) -/

theorem writesRounded_fadd (left : floatProper (s.readReg m) = true) (right : floatProper v = true) :
    WritesRounded (.fadd m o) s m (floatNumber (s.readReg m) + floatNumber v)
      (floatNumber (s.readReg m) + floatNumber v < 0 ∨
        floatNumber (s.readReg m) + floatNumber v = 0 ∧ (s.readReg m).msb = true ∧ v.msb = true) := by
  refine writesRounded_of_put (exec_fadd_binary32 read default) (fadd_rounds left right rfl) ?_
  rw [← Rat.cast_add, signOfSum_iff, Bool.and_eq_true]

theorem writesRounded_fsub (left : floatProper (s.readReg m) = true) (right : floatProper v = true) :
    WritesRounded (.fsub m o) s m (floatNumber (s.readReg m) - floatNumber v)
      (floatNumber (s.readReg m) - floatNumber v < 0 ∨
        floatNumber (s.readReg m) - floatNumber v = 0 ∧ (s.readReg m).msb = true ∧ v.msb = false) := by
  refine writesRounded_of_put (exec_fsub_binary32 read default) (fsub_rounds left right rfl) ?_
  rw [← Rat.cast_sub, signOfSum_iff, Bool.and_eq_true, Bool.not_eq_true']

theorem writesRounded_fmul (left : floatProper (s.readReg m) = true) (right : floatProper v = true) :
    WritesRounded (.fmul m o) s m (floatNumber (s.readReg m) * floatNumber v) ((s.readReg m).msb ≠ v.msb) :=
  writesRounded_of_put (exec_fmul_binary32 read default) (fmul_rounds left right rfl) Bool.xor_iff_ne

theorem writesRounded_fdiv (left : floatProper (s.readReg m) = true) (right : floatProper v = true) (nonzero : floatNumber v ≠ 0) :
    WritesRounded (.fdiv m o) s m (floatNumber (s.readReg m) / floatNumber v) ((s.readReg m).msb ≠ v.msb) :=
  writesRounded_of_put (exec_fdiv_binary32 read default (floatZero_eq_false.2 nonzero)) (fdiv_rounds left right nonzero rfl)
    Bool.xor_iff_ne

/-! #### FLOAT and FSQRT (R358, R361) -/

theorem writesRounded_float : WritesRounded (.float m o) s m v.toInt (v.msb = true) :=
  writesRounded_of_put (exec_float_binary32 read default)
    ⟨fun _ => ffloat_rounds v, fun overflow => absurd (toInt_lt_roundingBound v) (not_lt.2 overflow)⟩ Iff.rfl

theorem writesRounded_fsqrt (proper : floatProper v = true) (nonneg : 0 ≤ floatNumber v) :
    WritesRounded (.fsqrt m o) s m (Real.sqrt (floatNumber v)) (v.msb = true) :=
  writesRounded_of_put (exec_fsqrt_binary32 read default (floatNegative_of_nonneg nonneg))
    ⟨fun _ => fsqrt_rounds proper nonneg, fun overflow => absurd (sqrt_lt_roundingBound proper) (not_lt.2 overflow)⟩ Iff.rfl

/-! #### FIX, FRND and FLOOR (R356, R357, R366) -/

theorem exec_floor_proper (proper : floatProper v = true) :
    ∃ w, exec (.floor m o) s = .next (s.writeReg m w) ∧ floatProper w = true ∧ floatNumber w = ⌊floatNumber v⌋ ∧ w.msb = v.msb := by
  obtain ⟨w, floored, properties⟩ := ffloor_floors proper
  exact ⟨w, exec_eq_of_put (exec_floor_binary32 read default) floored, properties⟩

section
variable (proper : floatProper v = true) {n : Int}
include proper

theorem exec_fix_inside (truncated : n = if floatNumber v < 0 then ⌈floatNumber v⌉ else ⌊floatNumber v⌋)
    (inside : -2 ^ 31 ≤ n ∧ n < 2 ^ 31) : exec (.fix m o) s = .next (s.writeReg m (BitVec.ofInt 32 n)) := by
  obtain ⟨w, fixed, value⟩ := (ffix_truncates proper truncated).1 inside.1 inside.2
  rw [← value, BitVec.ofInt_toInt]
  exact exec_eq_of_put (exec_fix_binary32 read default) fixed

theorem writesFree_fix_outside (truncated : n = if floatNumber v < 0 then ⌈floatNumber v⌉ else ⌊floatNumber v⌋)
    (outside : ¬ (-2 ^ 31 ≤ n ∧ n < 2 ^ 31)) : WritesFree (.fix m o) s m :=
  writesFree_of_put (exec_fix_binary32 read default) ((ffix_truncates proper truncated).2 outside)

variable (nearest : |floatNumber v - n| < 1 / 2) (lower : -2 ^ 31 ≤ n) (upper : n < 2 ^ 31)
include nearest lower upper

theorem exec_frnd_signed (signed : n ≠ 0 ∨ v.msb = false ∨ floatNumber v = 0) :
    ∃ w, exec (.frnd m o) s = .next (s.writeReg m w) ∧ floatProper w = true ∧ floatNumber w = n ∧ w.msb = v.msb := by
  obtain ⟨w, rounded, properW, number, sign⟩ := (frnd_nearest proper).1 n nearest lower upper
  refine ⟨w, exec_frnd read m (State.fp32_eq_binary32 default) rounded ?_, properW, number, sign⟩
  rw [← Bool.not_eq_true, zeroSignOpen_iff, number, Int.cast_eq_zero]
  rintro ⟨negative, zero⟩
  rcases signed with nonzero | positive | zeroOperand
  · exact nonzero zero
  · exact absurd (floatNumber_neg.1 negative).1 (by rw [positive]; decide)
  · exact negative.ne zeroOperand

theorem exec_frnd_negative (zero : n = 0) (negative : floatNumber v < 0) :
    ∃ w, (w = 0 ∨ w = 0x80000000#32) ∧ exec (.frnd m o) s = .next { s.writeReg m w with draws := s.draws + 1 } := by
  obtain ⟨w, rounded, -, number, -⟩ := (frnd_nearest proper).1 n nearest lower upper
  have unsigned : zeroSignOpen v w = true := (zeroSignOpen_iff v w).2 ⟨negative, by rw [number, zero, Int.cast_zero]⟩
  refine ⟨_, ?_, exec_frnd_zero read m (State.fp32_eq_binary32 default) rounded unsigned⟩
  cases s.freeBit
  · exact .inl rfl
  · exact .inr rfl

end

end

/-! ### The statement -/

/-- Settles O55: every instruction puts a function of FP32 into its register; the laws of binary32 say that the function rounds, and that
it has no result where U20 or U32 leaves it open. -/
theorem floatArithmetic : Obligations.FloatArithmetic := by
  simp only [Obligations.FloatArithmetic, List.forall_mem_cons, List.not_mem_nil, false_implies, implies_true, and_true]
  refine ⟨fun s m o v read => ⟨?complete, fun nonzero => ?div, exec_fdiv_zero read m rfl, fun nonneg => ?sqrt,
      exec_fsqrt_negative read m rfl⟩, ?defaults, fun a b => ⟨fadd_comm a b, fmul_comm a b⟩, fun v => ffix_ffloat⟩
  case complete =>
    exact ⟨exec_completes_of_put (exec_fadd read m rfl), exec_completes_of_put (exec_fsub read m rfl),
      exec_completes_of_put (exec_fmul read m rfl), exec_completes_of_put (exec_fix read m rfl), exec_frnd_completes read m rfl,
      exec_completes_of_put (exec_float read m rfl), exec_completes_of_put (exec_floor read m rfl)⟩
  case div => exact exec_completes_of_put (exec_fdiv read m rfl nonzero)
  case sqrt => exact exec_completes_of_put (exec_fsqrt read m rfl nonneg)
  case defaults =>
    rintro s m o v _ default read rfl
    rw [State.fp32_eq_binary32 default]
    refine ⟨isZero_binary32 v, isNegative_binary32 v, fun left right => ?operations, fun improper => ?improperPair,
      writesRounded_float read default, fun improper => ?improper, fun proper => ?proper⟩
    case operations =>
      exact ⟨writesRounded_fadd read default left right, writesRounded_fsub read default left right,
        writesRounded_fmul read default left right, writesRounded_fdiv read default left right⟩
    case improperPair =>
      refine ⟨⟨writesFree_of_put (exec_fadd_binary32 read default) (fadd_improper improper),
        writesFree_of_put (exec_fsub_binary32 read default) (fsub_improper improper),
        writesFree_of_put (exec_fmul_binary32 read default) (fmul_improper improper)⟩, fun nonzero => ?_⟩
      have divisor : floatZero v = false := by rwa [← Bool.not_eq_true, floatZero_iff]
      exact writesFree_of_put (exec_fdiv_binary32 read default divisor) (fdiv_improper improper)
    case improper =>
      exact ⟨⟨writesFree_of_put (exec_fix_binary32 read default) (ffix_improper improper),
        writesFree_frnd read default (frnd_improper improper),
        writesFree_of_put (exec_floor_binary32 read default) (ffloor_improper improper)⟩,
        fun notInfinity => writesFree_of_put (exec_fsqrt_binary32 read default (floatNegative_improper improper notInfinity))
          (fsqrt_improper improper)⟩
    case proper =>
      exact ⟨writesRounded_fsqrt read default proper, exec_floor_proper read default proper,
        fun n truncated => ⟨exec_fix_inside read default proper truncated, writesFree_fix_outside read default proper truncated⟩,
        fun n nearest lower upper => ⟨exec_frnd_signed read default proper nearest lower upper,
          exec_frnd_negative read default proper nearest lower upper⟩,
        fun outside => writesFree_frnd read default ((frnd_nearest proper).2 outside)⟩

end Sys2Proof.Machine
end

section
/-! PROOFS. The family 46_peri_io.md: running the parts of a device operation (R391 to R394). -/

namespace Sys2Proof.Machine

/-! ### One operation after another -/

theorem ioRun_bind_ok {α : Type} {m : Io α} {f : α → Io Word} {s s' : State} {a : α} (h : m.run.run s = (.ok a, s')) :
    ioRun (m >>= f) s = ioRun (f a) s' := by
  rw [ioRun, io_run_bind, h]
  rfl

theorem ioRun_bind_error {α : Type} {m : Io α} {f : α → Io Word} {s s' : State} {e : Word} (h : m.run.run s = (.error e, s')) :
    ioRun (m >>= f) s = (e, s') := by
  rw [ioRun, io_run_bind, h]

theorem ioRun_pure (r : Word) (s : State) : ioRun (pure r) s = (r, s) := rfl
theorem ioRun_throw (e : Word) (s : State) : ioRun (throw e) s = (e, s) := rfl

section
variable {α : Type} (s : State)

theorem ioRun_throw_bind (e : Word) (f : α → Io Word) : ioRun ((throw e : Io α) >>= f) s = (e, s) := ioRun_bind_error rfl
theorem ioRun_get_bind (f : State → Io Word) : ioRun (get >>= f) s = ioRun (f s) s := ioRun_bind_ok rfl
theorem ioRun_modify_bind (g : State → State) (f : Unit → Io Word) : ioRun (modify g >>= f) s = ioRun (f ()) (g s) :=
  ioRun_bind_ok rfl

/-! ### Draws (entry 8) -/

theorem ioRun_drawWord_bind (f : Word → Io Word) : ioRun (drawWord >>= f) s = ioRun (f s.free) s.drawn := ioRun_bind_ok rfl
theorem ioRun_drawBit_bind (f : Bool → Io Word) : ioRun (drawBit >>= f) s = ioRun (f s.freeBit) s.drawn := ioRun_bind_ok rfl
theorem ioRun_drawUpTo_bind (n : Nat) (f : Nat → Io Word) :
    ioRun (drawUpTo n >>= f) s = ioRun (f (s.freeUpTo n)) s.drawn := ioRun_bind_ok rfl
theorem ioRun_drawBytes_bind (f : List Byte → Io Word) :
    ioRun (drawBytes >>= f) s = ioRun (f (Config.freeBytes s.draws)) s.drawn := ioRun_bind_ok rfl
theorem ioRun_drawNonNegative : ioRun drawNonNegative s = (s.free &&& 0x7FFFFFFF#32, s.drawn) := rfl

theorem drawn_drawn (j k : Nat) : (s.drawn j).drawn k = s.drawn (j + k) := by rw [State.drawn, State.drawn, State.drawn, Nat.add_assoc]

/-- The host lets an operation fail, or go on. -/
theorem ioRun_mayFail_bind (e : Word) (f : Unit → Io Word) :
    ioRun (mayFail e >>= f) s = if s.freeBit = true then (e, s.drawn) else ioRun (f ()) s.drawn := by
  rw [mayFail, bind_assoc, ioRun_drawBit_bind]
  cases s.freeBit <;> rfl

/-- So many words are drawn, each a free one of its own. -/
theorem drawWords_run_eq (n : Nat) : (drawWords n).run.run s = (.ok ((List.range n).map fun k => s.free k), s.drawn n) := by
  induction n generalizing s with
  | zero => rfl
  | succ n ih =>
    have first : drawWord.run.run s = (.ok s.free, s.drawn) := rfl
    have later (k : Nat) : s.drawn.free k = s.free (k + 1) := by
      rw [State.free, State.free, State.drawn_draws, Nat.add_assoc, Nat.add_comm 1]
    rw [drawWords, io_run_bind, first]
    simp only
    rw [io_run_bind, ih, List.range_succ_eq_map, List.map_cons, List.map_map, drawn_drawn, Nat.add_comm 1]
    simp only [later]
    rfl

end

theorem nonNegative_toInt (w : Word) : 0 ≤ (w &&& 0x7FFFFFFF#32).toInt := by
  have high : (w &&& 0x7FFFFFFF#32).msb = false := by rw [BitVec.msb_and]; exact Bool.and_false _
  rw [BitVec.msb_eq_toInt] at high
  simpa using high

theorem ofNat_toInt_nonneg {n : Nat} (small : n < 2 ^ 31) : 0 ≤ (BitVec.ofNat 32 n).toInt := by
  rw [BitVec.toInt_eq_toNat_of_lt] <;> rw [BitVec.toNat_ofNat] <;> omega

theorem ioRun_count (s : State) {n : Nat} (small : n < 2 ^ 31) : ioRun (ioCount n) s = (BitVec.ofNat 32 n, s) := by
  rw [ioCount, if_pos small, ioRun_pure]

theorem ioRun_count_large (s : State) {n : Nat} (large : 2 ^ 31 ≤ n) :
    ioRun (ioCount n) s = (s.free &&& 0x7FFFFFFF#32, s.drawn) := by
  rw [ioCount, if_neg (by omega), ioRun_drawNonNegative]

/-- A count is never negative, and is exact where it fits (R393; entry 54). -/
theorem ioRun_count_cases (s : State) (n : Nat) :
    ∃ r d, ioRun (ioCount n) s = (r, { s with draws := d }) ∧ 0 ≤ r.toInt ∧
      (n < 2 ^ 31 → r = BitVec.ofNat 32 n ∧ d = s.draws) := by
  rcases lt_or_ge n (2 ^ 31) with small | large
  · exact ⟨_, s.draws, ioRun_count s small, ofNat_toInt_nonneg small, fun _ => ⟨rfl, rfl⟩⟩
  · exact ⟨_, s.draws + 1, ioRun_count_large s large, nonNegative_toInt _, fun small => by omega⟩

/-! ### Parameters and units (R392, R394) -/

theorem msb_of_small {w : Word} (small : w.toNat < 2 ^ 31) : w.msb = false := by
  rw [BitVec.msb_eq_decide]
  simpa using small

/-- With VM = 0 a word of the control structure that exists is the parameter. -/
theorem ioRun_param_bind {s : State} {c k : Word} (off : s.flags.vm = false) (present : memExists s.cfg (c + k) = true)
    (f : Word → Io Word) : ioRun (param c k >>= f) s = ioRun (f (s.mem.readWord (c + k))) s :=
  ioRun_bind_ok (param_direct_run s off c k present)

/-- The parameters of a control structure of four words, as the operations name them. -/
theorem params_present {f : Config} {c : Word} (present : ∀ k < 4, memExists f (c + BitVec.ofNat 32 k) = true) :
    memExists f (c + 1) = true ∧ memExists f (c + 2) = true ∧ memExists f (c + 3) = true :=
  ⟨present 1 (by decide), present 2 (by decide), present 3 (by decide)⟩

theorem two_present {f : Config} {a : Word} (present : memExists f a = true) (present' : memExists f (a + 1) = true) :
    ∀ k < 2, memExists f (a + BitVec.ofNat 32 k) = true
  | 0, _ => by rwa [show a + BitVec.ofNat 32 0 = a by simp]
  | 1, _ => present'

theorem unitIndex_succ {n : Nat} (i : Fin n) : unitIndex n (i.val + 1) = some i := by
  rw [unitIndex, dif_pos (by omega)]
  rfl

/-- The unit that a word names. -/
theorem ioRun_unit_bind {n : Nat} {u : Word} {i : Fin n} (named : u.toNat = i.val + 1) (s : State) (f : Fin n → Io Word) :
    ioRun (ioUnit n u >>= f) s = ioRun (f i) s := by
  rw [ioUnit, named, unitIndex_succ, pure_bind]

theorem ioRun_unit_bind_outside {n : Nat} {u : Word} (outside : u.toNat = 0 ∨ n < u.toNat) (s : State) (f : Fin n → Io Word) :
    ioRun (ioUnit n u >>= f) s = (errDevNumber, s) := by
  have index : unitIndex n u.toNat = none := by rw [unitIndex, dif_neg (by omega)]
  rw [ioUnit, index, ioRun_throw_bind]

theorem ioRun_present_bind {α : Type} (e : Word) (x : α) (s : State) (f : α → Io Word) :
    ioRun (ioPresent e (some x) >>= f) s = ioRun (f x) s := rfl
theorem ioRun_absent_bind {α : Type} (e : Word) (s : State) (f : α → Io Word) :
    ioRun (ioPresent e none >>= f) s = (e, s) := ioRun_throw_bind s e f

end Sys2Proof.Machine
end

section
/-! PROOFS. The family 46_peri_io.md: buffers and packed strings on the device side, with VM = 0 (R391, R395, R406, R413). -/

namespace Sys2Proof.Machine

/-! ### Bytes packed in words (R395) -/

/-- Character k of the packed string at an address, four to a word. -/
def Memory.packedChar (m : Memory) (a : Word) (k : Nat) : Byte := charOf (m.readWord (a + BitVec.ofNat 32 (k / 4))) (k % 4)

theorem packedChar_add_four (m : Memory) (a : Word) (k : Nat) : m.packedChar a (4 + k) = m.packedChar (a + 1) k := by
  rw [Memory.packedChar, Memory.packedChar, next_add, show (4 + k) / 4 = k / 4 + 1 by omega, show (4 + k) % 4 = k % 4 by omega]

/-- The characters of a word are the first four of the string that starts there. -/
theorem charsOf_eq (m : Memory) (a : Word) : charsOf (m.readWord a) = (List.range 4).map (m.packedChar a) := by
  simp [charsOf, Memory.packedChar, List.range_succ]

/-- The four characters of a word and the string after it are one string. -/
theorem packedChars_append (m : Memory) (a : Word) (n : Nat) :
    charsOf (m.readWord a) ++ (List.range n).map (m.packedChar (a + 1)) = (List.range (4 + n)).map (m.packedChar a) := by
  rw [charsOf_eq, List.range_add, List.map_append, List.map_map]
  simp only [Function.comp_def, packedChar_add_four]

/-- So many bytes of a buffer, which is read in whole words. -/
theorem take_packedChars (f : Nat → Byte) (n : Nat) : ((List.range (4 * ((n + 3) / 4))).map f).take n = (List.range n).map f := by
  rw [← List.map_take, List.take_range, Nat.min_eq_left (by omega)]

theorem packBytes_length (pad : Word) (bs : List Byte) : (packBytes pad bs).length = (bs.length + 3) / 4 := by
  induction bs using packBytes.induct with
  | case5 a b c d rest ih => simp only [packBytes, List.length_cons, ih]; omega
  | _ => simp [packBytes]

theorem charOf_append (a b c d : Byte) {j : Nat} (hj : j < 4) : charOf (d ++ c ++ b ++ a) j = [a, b, c, d].getD j 0 := by
  apply BitVec.eq_of_getLsbD_eq
  intro i hi
  rw [charOf, BitVec.getLsbD_extractLsb']
  simp only [BitVec.getLsbD_append, hi, decide_true, Bool.true_and]
  match j, hj with
  | 0, _ => simp [hi]
  | 1, _ => simp [hi, show ¬ 8 + i < 8 by omega, show 8 + i - 8 = i by omega]
  | 2, _ => simp [hi, show ¬ 16 + i < 8 by omega, show ¬ 16 + i - 8 < 8 by omega, show 16 + i - 8 - 8 = i by omega]
  | 3, _ =>
    simp [show ¬ 24 + i < 8 by omega, show ¬ 24 + i - 8 < 8 by omega, show ¬ 24 + i - 8 - 8 < 8 by omega,
      show 24 + i - 8 - 8 - 8 = i by omega]

theorem charOf_withChar (w : Word) (c : Byte) {j k : Nat} (hj : j < 4) :
    charOf (withChar w k c) j = if j = k then c else charOf w j := extractLsb'_withChar w c hj

/-- What is read back of packed bytes: the bytes, and after them those of the padding. -/
theorem charOf_packBytes (pad : Word) (bs : List Byte) {k : Nat} (hk : k < 4 * ((bs.length + 3) / 4)) :
    charOf ((packBytes pad bs).getD (k / 4) 0) (k % 4) = bs.getD k (charOf pad (k % 4)) := by
  induction bs using packBytes.induct generalizing k with
  | case1 => simp at hk
  | case2 a =>
    have small : k < 4 := by simpa using hk
    match k, small with
    | 0, _ | 1, _ | 2, _ | 3, _ => simp [packBytes, charOf_withChar]
  | case3 a b =>
    have small : k < 4 := by simpa using hk
    match k, small with
    | 0, _ | 1, _ | 2, _ | 3, _ => simp [packBytes, charOf_withChar]
  | case4 a b c =>
    have small : k < 4 := by simpa using hk
    match k, small with
    | 0, _ | 1, _ | 2, _ | 3, _ => simp [packBytes, charOf_withChar]
  | case5 a b c d rest ih =>
    match k with
    | 0 | 1 | 2 | 3 => simp [packBytes, charOf_append]
    | k + 4 =>
      rw [packBytes, show (k + 4) / 4 = k / 4 + 1 by omega, Nat.add_mod_right, List.getD_cons_succ,
        ih (by simp only [List.length_cons] at hk; omega)]
      rfl

/-- Packed bytes in memory: the string there is the bytes, and after them the padding to the end of its last word. -/
theorem packedChar_load (m : Memory) (a pad : Word) {bs : List Byte} (short : bs.length ≤ 2 ^ 34) {k : Nat}
    (hk : k < 4 * ((bs.length + 3) / 4)) :
    (m.load a (packBytes pad bs)).packedChar a k = bs.getD k (charOf pad (k % 4)) := by
  rw [Memory.packedChar, load_readWord _ _ _ (by rw [packBytes_length]; omega) _ (by rw [packBytes_length]; omega),
    charOf_packBytes pad bs hk]

/-! ### Buffers read -/

section
variable {s : State} (off : s.flags.vm = false)
include off

theorem ioTarget_present {a : Word} (present : memExists s.cfg a = true) : ioTarget s a = some a := by
  rw [ioTarget_direct s off, if_pos present]

theorem ioTarget_missing {a : Word} (missing : memExists s.cfg a = false) : ioTarget s a = none := by
  rw [ioTarget_direct s off, if_neg (by simp [missing])]

theorem ioTarget_eq_self {a p : Word} (target : ioTarget s a = some p) : p = a := by
  rw [ioTarget_direct s off] at target
  split at target
  · exact (Option.some.inj target).symm
  · cases target

theorem ioRun_read_bind {e a : Word} (present : memExists s.cfg a = true) (f : Word → Io Word) :
    ioRun (ioRead e a >>= f) s = ioRun (f (s.mem.readWord a)) s :=
  ioRun_bind_ok (by rw [ioRead_direct_run s off, if_pos present])

theorem ioRun_read_bind_missing {e a : Word} (missing : memExists s.cfg a = false) (f : Word → Io Word) :
    ioRun (ioRead e a >>= f) s = (e, s) :=
  ioRun_bind_error (by rw [ioRead_direct_run s off, if_neg (by simp [missing])])

theorem ioRun_readTwo_bind {e a : Word} (present : memExists s.cfg a = true) (present' : memExists s.cfg (a + 1) = true)
    (f : List Word → Io Word) :
    ioRun (ioReadWords e a 2 >>= f) s = ioRun (f [s.mem.readWord a, s.mem.readWord (a + 1)]) s :=
  ioRun_bind_ok (by rw [ioReadWords_two_direct_run s off, if_pos ⟨present, present'⟩])

theorem ioRun_readTwo_bind_missing {e a : Word} (missing : memExists s.cfg a = false ∨ memExists s.cfg (a + 1) = false)
    (f : List Word → Io Word) : ioRun (ioReadWords e a 2 >>= f) s = (e, s) := by
  have notBoth : ¬ (memExists s.cfg a = true ∧ memExists s.cfg (a + 1) = true) := fun ⟨here, there⟩ =>
    missing.elim (fun h => Bool.false_ne_true (h.symm.trans here)) fun h => Bool.false_ne_true (h.symm.trans there)
  exact ioRun_bind_error (by rw [ioReadWords_two_direct_run s off, if_neg notBoth])

theorem ioWordsAt_present {a : Word} {n : Nat} (present : ∀ k < n, memExists s.cfg (a + BitVec.ofNat 32 k) = true) :
    ioWordsAt s a n = some ((List.range n).map fun k => s.mem.readWord (a + BitVec.ofNat 32 k)) := by
  induction n generalizing a with
  | zero => rfl
  | succ n ih =>
    have first : ioTarget s a = some a := ioTarget_present off (by simpa using present 0 (by omega))
    have rest := ih (a := a + 1) fun k hk => by rw [next_add]; exact present (k + 1) (by omega)
    rw [ioWordsAt, first, rest, List.range_succ_eq_map, List.map_cons, List.map_map]
    simp only [next_add]
    simp [Function.comp_def]

theorem ioWordsAt_missing {a : Word} {n k : Nat} (hk : k < n) (missing : memExists s.cfg (a + BitVec.ofNat 32 k) = false) :
    ioWordsAt s a n = none := by
  induction n generalizing a k with
  | zero => omega
  | succ n ih =>
    rw [ioWordsAt]
    cases k with
    | zero => rw [ioTarget_missing off (by simpa using missing)]
    | succ k =>
      rw [ih (a := a + 1) (k := k) (by omega) (by rwa [next_add])]
      cases ioTarget s a <;> rfl

theorem ioBytes_present {a : Word} {n : Nat} (present : ∀ k < n, memExists s.cfg (a + BitVec.ofNat 32 k) = true) :
    ioBytes s a n = ((List.range (4 * n)).map (s.mem.packedChar a), true) := by
  induction n generalizing a with
  | zero => rfl
  | succ n ih =>
    have first : ioTarget s a = some a := ioTarget_present off (by simpa using present 0 (by omega))
    have rest := ih (a := a + 1) fun k hk => by rw [next_add]; exact present (k + 1) (by omega)
    rw [ioBytes, first, rest, Nat.mul_succ, Nat.add_comm, ← packedChars_append]

theorem ioBytes_missing {a : Word} {n k : Nat} (hk : k < n) (missing : memExists s.cfg (a + BitVec.ofNat 32 k) = false) :
    (ioBytes s a n).2 = false := by
  induction n generalizing a k with
  | zero => omega
  | succ n ih =>
    rw [ioBytes]
    cases k with
    | zero => rw [ioTarget_missing off (by simpa using missing)]
    | succ k =>
      have rest := ih (a := a + 1) (k := k) (by omega) (by rwa [next_add])
      cases ioTarget s a with
      | none => rfl
      | some p => exact rest

theorem ioRun_readBytes_bind {a : Word} {n : Nat} (present : ∀ k < (n + 3) / 4, memExists s.cfg (a + BitVec.ofNat 32 k) = true)
    (f : List Byte → Io Word) :
    ioRun (ioReadBytes a n >>= f) s = ioRun (f ((List.range n).map (s.mem.packedChar a))) s := by
  refine ioRun_bind_ok ?_
  rw [ioReadBytes, io_run_get, ioBytes_present off present, ← take_packedChars _ n]
  rfl

/-! ### Packed strings read (R406, R413) -/

/-- A word of a string that holds none of its end. -/
theorem ioString_next {a : Word} (present : memExists s.cfg a = true) (noEnd : ∀ k < 4, s.mem.packedChar a k ≠ 0) (n : Nat) :
    ioString s a (n + 1) = (charsOf (s.mem.readWord a) ++ (ioString s (a + 1) n).1, (ioString s (a + 1) n).2) := by
  have inside : (charsOf (s.mem.readWord a)).contains 0 = false := by
    rw [charsOf_eq, List.contains_eq_any_beq, List.any_eq_false]
    simp only [List.mem_map, List.mem_range, beq_iff_eq]
    rintro _ ⟨k, hk, rfl⟩
    exact (noEnd k hk).symm
  rw [ioString, ioTarget_present off present]
  simp only [inside, Bool.false_eq_true, if_false]

/-- A string is the characters before the first that is zero. -/
theorem ioString_present {a : Word} {n fuel : Nat} (present : ∀ k ≤ n / 4, memExists s.cfg (a + BitVec.ofNat 32 k) = true)
    (before : ∀ k < n, s.mem.packedChar a k ≠ 0) (last : s.mem.packedChar a n = 0) (enough : n / 4 < fuel) :
    ioString s a fuel = ((List.range n).map (s.mem.packedChar a), true) := by
  induction fuel generalizing a n with
  | zero => omega
  | succ fuel ih =>
    have here : memExists s.cfg a = true := by simpa using present 0 (by omega)
    by_cases short : n < 4
    · have inside : (charsOf (s.mem.readWord a)).contains 0 = true := by
        rw [charsOf_eq, List.contains_iff_mem, List.mem_map]
        exact ⟨n, List.mem_range.2 short, last⟩
      have whole : (charsOf (s.mem.readWord a)).takeWhile (· != 0) = (List.range n).map (s.mem.packedChar a) := by
        rw [charsOf_eq, show 4 = n + (3 - n + 1) by omega, List.range_add, List.map_append, List.takeWhile_append_of_pos,
          List.range_succ_eq_map]
        · simp [last]
        · simpa using before
      rw [ioString, ioTarget_present off here]
      simp only [inside, if_true, whole]
    · obtain ⟨n, rfl⟩ : ∃ m, n = 4 + m := ⟨n - 4, by omega⟩
      rw [ioString_next off here fun k hk => before k (by omega), ih (a := a + 1) (n := n), packedChars_append]
      · intro k hk
        rw [next_add]
        exact present (k + 1) (by omega)
      · intro k hk
        rw [← packedChar_add_four]
        exact before (4 + k) (by omega)
      · rw [← packedChar_add_four]
        exact last
      · omega

/-- A string that runs into a word that is missing. -/
theorem ioString_missing {a : Word} {n fuel : Nat} (present : ∀ k < n, memExists s.cfg (a + BitVec.ofNat 32 k) = true)
    (before : ∀ k < 4 * n, s.mem.packedChar a k ≠ 0) (missing : memExists s.cfg (a + BitVec.ofNat 32 n) = false)
    (enough : n < fuel) : ioString s a fuel = ((List.range (4 * n)).map (s.mem.packedChar a), false) := by
  induction n generalizing a fuel with
  | zero =>
    obtain ⟨fuel, rfl⟩ : ∃ m, fuel = m + 1 := ⟨fuel - 1, by omega⟩
    rw [ioString, ioTarget_missing off (by simpa using missing)]
    rfl
  | succ n ih =>
    obtain ⟨fuel, rfl⟩ : ∃ m, fuel = m + 1 := ⟨fuel - 1, by omega⟩
    have here : memExists s.cfg a = true := by simpa using present 0 (by omega)
    rw [ioString_next off here fun k hk => before k (by omega), ih (a := a + 1), packedChars_append, Nat.mul_succ, Nat.add_comm]
    · intro k hk
      rw [next_add]
      exact present (k + 1) (by omega)
    · intro k hk
      rw [← packedChar_add_four]
      exact before (4 + k) (by omega)
    · rwa [next_add]
    · omega

/-- A string whose words exist as far as one that holds a zero has an end. -/
theorem ioReadString_run {a : Word} {n j : Nat} (hn : n < 2 ^ 32) (present : ∀ k ≤ n, memExists s.cfg (a + BitVec.ofNat 32 k) = true)
    (hj : j < 4) (zero : (s.mem.readWord (a + BitVec.ofNat 32 n)).extractLsb' (8 * j) 8 = 0) :
    ∃ cs, (ioReadString a).run.run s = (.ok cs, s) := by
  have inside : s.mem.packedChar a (4 * n + j) = 0 := by
    rwa [Memory.packedChar, show (4 * n + j) / 4 = n by omega, show (4 * n + j) % 4 = j by omega]
  have ends : ∃ k, s.mem.packedChar a k = 0 := ⟨_, inside⟩
  have first : Nat.find ends ≤ 4 * n + j := Nat.find_min' ends inside
  have whole := ioString_present off (fuel := addressSpaceWords) (fun k hk => present k (by omega)) (fun k hk => Nat.find_min ends hk)
    (Nat.find_spec ends) (by rw [addressSpaceWords]; omega)
  refine ⟨(List.range (Nat.find ends)).map (s.mem.packedChar a), ?_⟩
  rw [ioReadString, io_run_get, whole]
  rfl

/-! ### Buffers written -/

/-- A buffer that exists takes its words. -/
theorem ioPutWords_present {a : Word} {vs : List Word} (present : ∀ k < vs.length, memExists s.cfg (a + BitVec.ofNat 32 k) = true) :
    ioPutWords s a vs = some { s with mem := s.mem.load a vs } := by
  induction vs generalizing s a with
  | nil => rfl
  | cons v vs ih =>
    rw [ioPutWords, ioTarget_present off (by simpa using present 0 (by simp))]
    exact ih (s := s.poke a v) off fun k hk => by rw [next_add]; exact present (k + 1) (by simpa using hk)

theorem ioPutWords_missing {a : Word} {vs : List Word} {k : Nat} (hk : k < vs.length)
    (missing : memExists s.cfg (a + BitVec.ofNat 32 k) = false) : ioPutWords s a vs = none := by
  induction vs generalizing s a k with
  | nil => simp at hk
  | cons v vs ih =>
    rw [ioPutWords]
    cases k with
    | zero => rw [ioTarget_missing off (by simpa using missing)]
    | succ k =>
      cases target : ioTarget s a with
      | none => rfl
      | some p => exact ih (s := s.poke p v) off (k := k) (by simpa using hk) (by rwa [next_add])


theorem ioRun_writeWords_bind {a : Word} {vs : List Word} (present : ∀ k < vs.length, memExists s.cfg (a + BitVec.ofNat 32 k) = true)
    (e : Word) (f : Unit → Io Word) : ioRun (ioWriteWords e a vs >>= f) s = ioRun (f ()) { s with mem := s.mem.load a vs } := by
  refine ioRun_bind_ok ?_
  rw [ioWriteWords, io_run_get, ioPutWords_present off present]
  rfl

theorem ioRun_writeWords_bind_missing {a : Word} {vs : List Word} {k : Nat} (hk : k < vs.length)
    (missing : memExists s.cfg (a + BitVec.ofNat 32 k) = false) (e : Word) (f : Unit → Io Word) :
    ioRun (ioWriteWords e a vs >>= f) s = (e, ioKeepSome s s a vs) := by
  refine ioRun_bind_error ?_
  rw [ioWriteWords, io_run_get, ioPutWords_missing off hk missing]
  rfl

/-- Words kept in part: only words of the buffer may change (R391, U22; entry 28). -/
theorem ioKeepSome_frame (kept : State) (a : Word) (vs : List Word) :
    ∃ m d, ioKeepSome kept s a vs = { kept with mem := m, draws := d } ∧
      ∀ x, (∀ k < vs.length, x ≠ a + BitVec.ofNat 32 k) → m.readWord x = kept.mem.readWord x := by
  induction vs generalizing kept s a with
  | nil => exact ⟨kept.mem, kept.draws, rfl, fun _ _ => rfl⟩
  | cons v vs ih =>
    rw [ioKeepSome]
    cases target : ioTarget s a with
    | none => exact ⟨kept.mem, kept.draws, rfl, fun _ _ => rfl⟩
    | some p =>
      obtain rfl := ioTarget_eq_self off target
      obtain ⟨m, d, result, frame⟩ :=
        ih (s := s.poke p v) off (if kept.freeBit then (kept.poke p v).drawn else kept.drawn) (p + 1)
      refine ⟨m, d, by simp only [result]; split <;> rfl, fun x outside => ?_⟩
      have first : x ≠ p := by simpa using outside 0 (by simp)
      rw [frame x fun k hk => by rw [next_add]; exact outside (k + 1) (by simpa using hk)]
      split
      · rw [State.drawn_mem, readWord_poke, if_neg first]
      · rfl

theorem ioKeepSomeOfTwo_frame (a b : Word) (vs ws : List Word) :
    ∃ m d, ioKeepSomeOfTwo s a b vs ws = { s with mem := m, draws := d } ∧
      ∀ x, (∀ k < vs.length, x ≠ a + BitVec.ofNat 32 k) → (∀ k < ws.length, x ≠ b + BitVec.ofNat 32 k) →
        m.readWord x = s.mem.readWord x := by
  obtain ⟨m, d, first, frame⟩ := ioKeepSome_frame off s a vs
  rw [ioKeepSomeOfTwo, first]
  split
  · next full put =>
    have fullOff : full.flags.vm = false := by rw [(deviceStep_ioPutWords put).frame]; exact off
    obtain ⟨m', d', second, frame'⟩ := ioKeepSome_frame fullOff { s with mem := m, draws := d } b ws
    exact ⟨m', d', second, fun x outside outside' => (frame' x outside').trans (frame x outside)⟩
  · exact ⟨m, d, rfl, fun x outside _ => frame x outside⟩

section
variable {a b : Word} {vs ws : List Word}

theorem ioRun_writeTwo_bind (present : ∀ k < vs.length, memExists s.cfg (a + BitVec.ofNat 32 k) = true)
    (present' : ∀ k < ws.length, memExists s.cfg (b + BitVec.ofNat 32 k) = true) (failed : Bool) (f : Unit → Io Word) :
    ioRun (ioWriteTwo failed a b vs ws >>= f) s = if failed = true then (errDevFailed, ioKeepSomeOfTwo s a b vs ws)
      else ioRun (f ()) { s with mem := (s.mem.load a vs).load b ws } := by
  have put : (ioPutWords s a vs).bind (fun s' => ioPutWords s' b ws) = some { s with mem := (s.mem.load a vs).load b ws } := by
    rw [ioPutWords_present off present]
    exact ioPutWords_present (s := { s with mem := s.mem.load a vs }) off present'
  cases failed with
  | true =>
    refine ioRun_bind_error ?_
    rw [ioWriteTwo, io_run_get, put]
    rfl
  | false =>
    refine ioRun_bind_ok ?_
    rw [ioWriteTwo, io_run_get, put]
    rfl

theorem ioRun_writeTwo_bind_missing {k : Nat} (hk : k < vs.length) (missing : memExists s.cfg (a + BitVec.ofNat 32 k) = false)
    (failed : Bool) (f : Unit → Io Word) :
    ioRun (ioWriteTwo failed a b vs ws >>= f) s = (errMemory, ioKeepSomeOfTwo s a b vs ws) := by
  refine ioRun_bind_error ?_
  rw [ioWriteTwo, io_run_get, ioPutWords_missing off hk missing]
  rfl

end

end

end Sys2Proof.Machine
end

section
/-! PROOFS. The family 46_peri_io.md: PERI and its control structure, the clock and text operations (R390 to R392, R417 to R421;
entry 36). -/

namespace Sys2Proof.Machine

/-! ### The instruction (R390, R392, R421) -/

theorem errOfResult_eq (r : Word) : errOfResult r = decide (r.toInt < 0) := BitVec.msb_eq_toInt

theorem errOfResult_readParams : errOfResult errReadParams = true := by decide
theorem errOfResult_badCode : errOfResult errBadCode = true := by decide

theorem exec_peri {s : State} {o : Operand} {c : Word} (sys : s.flags.sys = true) (read : operandValue s o = .ok c)
    (aligned : s.flags.vm = false ∨ s.pdbr &&& 0x3FF#32 = 0) (m : Reg) :
    exec (.peri m o) s = .next (((periRun c s).2.writeReg m (periRun c s).1).setErr (errOfResult (periRun c s).1)) := by
  have walks : (s.flags.vm && s.pdbr &&& 0x3FF#32 != 0) = false := by
    rcases aligned with off | aligned
    · rw [off, Bool.false_and]
    · rw [aligned, bne_self_eq_false, Bool.and_false]
  show execPeri m o s = _
  rw [execPeri, privileged, if_pos sys, read, Res.ok_bind, walks]
  rfl

theorem operationOfCode_unknown {c : Config} {w : Word} (unknown : ∀ q ∈ c.periCodes, q.2 ≠ w) : operationOfCode c w = none := by
  rw [operationOfCode, List.find?_eq_none.2 fun q hq => by simpa using unknown q hq]
  rfl

theorem Config.periCodes_nodup {c : Config} (h : c.wf = true) : (c.periCodes.map (·.2)).Nodup := by
  simp only [Config.wf, Bool.and_eq_true, decide_eq_true_eq] at h
  exact h.2

/-- The 21 codes are different, so a code selects the operation it stands beside (R392). -/
theorem operationOfCode_known {c : Config} (wf : c.wf = true) {op : PeriOp} {w : Word} (known : (op, w) ∈ c.periCodes) :
    operationOfCode c w = some op := by
  rw [operationOfCode]
  cases found : c.periCodes.find? fun p => p.2 == w with
  | none => exact absurd (List.find?_eq_none.1 found _ known) (by simp)
  | some p =>
    have code : p.2 = w := by simpa using List.find?_some found
    have same := List.inj_on_of_nodup_map (Config.periCodes_nodup wf) (List.mem_of_find?_eq_some found) known code
    rw [same]
    rfl

theorem periRun_unreadable {c : Word} {s : State} (missing : ioTarget s c = none) : periRun c s = (errReadParams, s) := by
  rw [periRun, missing]

section
variable {c p : Word} {s : State} (target : ioTarget s c = some p)
include target

theorem periRun_unknown (unknown : ∀ q ∈ s.cfg.periCodes, q.2 ≠ s.mem.readWord p) : periRun c s = (errBadCode, s) := by
  rw [periRun, target]
  simp only [operationOfCode_unknown unknown]

theorem periRun_known {op : PeriOp} (wf : s.cfg.wf = true) (known : (op, s.mem.readWord p) ∈ s.cfg.periCodes) :
    periRun c s = ((ioRun (periOperation c op) s).1,
      (ioRun (periOperation c op) s).2.emit (.deviceOperation op (ioRun (periOperation c op) s).1)) := by
  rw [periRun, target]
  simp only [operationOfCode_known wf known]

end

/-! ### The clock (R417, R418; entry 36) -/

/-- A reading of the clock is not below the one before, and the clock keeps it. -/
theorem readClock_run (s : State) :
    ∃ k, s.clock ≤ k ∧ readClock.run.run s = (.ok (k.setWidth 32), { s with clock := k, draws := s.draws + 1 }) := by
  refine ⟨s.clock + BitVec.ofNat 31 (s.freeUpTo (2 ^ 31 - 1 - s.clock.toNat)), ?_, rfl⟩
  have bound : s.freeUpTo (2 ^ 31 - 1 - s.clock.toNat) ≤ 2 ^ 31 - 1 - s.clock.toNat := Nat.lt_succ_iff.1 (Nat.mod_lt _ (Nat.succ_pos _))
  have small := s.clock.isLt
  rw [BitVec.le_def, BitVec.toNat_add, BitVec.toNat_ofNat]
  omega

section
variable {s : State} (off : s.flags.vm = false) {c : Word}
include off

/-- The seconds and a number of microseconds are stored (R418). -/
theorem ioRun_useconds (present : memExists s.cfg (c + 1) = true) (buffer : memExists s.cfg (s.mem.readWord (c + 1)) = true)
    (buffer' : memExists s.cfg (s.mem.readWord (c + 1) + 1) = true) :
    ∃ (k : BitVec 31) (micro r : Word), s.clock ≤ k ∧ micro.toNat < 1000000 ∧ 0 ≤ r.toInt ∧
      ioRun (periOperation c .useconds) s = (r, { s with
        clock := k, draws := s.draws + 3
        mem := (s.mem.writeWord (s.mem.readWord (c + 1)) (k.setWidth 32)).writeWord (s.mem.readWord (c + 1) + 1) micro }) := by
  obtain ⟨k, later, clock⟩ := readClock_run s
  have bound (t : State) : (BitVec.ofNat 32 (t.freeUpTo 999999)).toNat < 1000000 := by
    have : t.freeUpTo 999999 < 1000000 := Nat.mod_lt _ (Nat.succ_pos _)
    rw [BitVec.toNat_ofNat]
    omega
  have run := calc ioRun (periOperation c .useconds) s
    _ = ioRun (readClock >>= fun sec => drawUpTo 999999 >>= fun micro =>
          ioWriteWords errMemory (s.mem.readWord (c + 1)) [sec, BitVec.ofNat 32 micro] >>= fun _ => drawNonNegative) s := by
      rw [periOperation, useconds, ioRun_param_bind off present]
    _ = _ := by
      rw [ioRun_bind_ok clock, ioRun_drawUpTo_bind, ioRun_writeWords_bind (by exact off) (by exact two_present buffer buffer'),
        ioRun_drawNonNegative]
  exact ⟨k, _, _, later, bound _, nonNegative_toInt _, run⟩

/-- Seven free words are stored (R419). -/
theorem ioRun_dateTime (present : memExists s.cfg (c + 1) = true) (present' : memExists s.cfg (c + 2) = true)
    (buffer : ∀ k < 7, memExists s.cfg (s.mem.readWord (c + 2) + BitVec.ofNat 32 k) = true) :
    ∃ r t, ioRun (periOperation c .dateTime) s = (r, t) ∧ 0 ≤ r.toInt ∧ t = { s with mem := t.mem, draws := s.draws + 8 } ∧
      ∀ x, (∀ k < 7, x ≠ s.mem.readWord (c + 2) + BitVec.ofNat 32 k) → t.mem.readWord x = s.mem.readWord x := by
  have seven : ((List.range 7).map fun k => s.free k).length = 7 := rfl
  have run := calc ioRun (periOperation c .dateTime) s
    _ = ioRun (drawWords 7 >>= fun ws => ioWriteWords errMemory (s.mem.readWord (c + 2)) ws >>= fun _ => drawNonNegative) s := by
      rw [periOperation, dateTime, ioRun_param_bind off present, ioRun_param_bind off present']
    _ = _ := by
      rw [ioRun_bind_ok (drawWords_run_eq s 7), ioRun_writeWords_bind (by exact off) (by exact buffer), ioRun_drawNonNegative]
  exact ⟨_, _, run, nonNegative_toInt _, rfl, fun x outside => load_readWord_ne _ s.mem _ x outside⟩

/-! ### Text (R420) -/

/-- FLOATFORMAT is a text stored with a zero after it: the format is read, and nothing of it is kept. -/
theorem ioRun_floatFormat {f : Word} {n j : Nat} (present : ∀ k < 4, memExists s.cfg (c + BitVec.ofNat 32 k) = true)
    (format : s.mem.readWord (c + 2) = f) (hn : n < 2 ^ 32) (there : ∀ k ≤ n, memExists s.cfg (f + BitVec.ofNat 32 k) = true)
    (hj : j < 4) (zero : (s.mem.readWord (f + BitVec.ofNat 32 n)).extractLsb' (8 * j) 8 = 0) :
    ∃ text : List Byte, (∀ b ∈ text, b ≠ 0) ∧ ioRun (periOperation c .floatFormat) s =
      ioRun (ioWriteWords errMemory (s.mem.readWord (c + 3)) (packBytes (s.free 1) (text ++ [0])) >>= fun _ => drawNonNegative)
        (s.drawn 2) := by
  obtain ⟨cs, string⟩ := ioReadString_run off hn there hj zero
  refine ⟨(Config.freeBytes s.draws).filter (· != 0), fun b hb => by simpa using (List.mem_filter.1 hb).2, ?_⟩
  obtain ⟨one, two, three⟩ := params_present present
  rw [periOperation, floatFormat, ioRun_param_bind off one, ioRun_param_bind off two, ioRun_param_bind off three, format,
    ioRun_bind_ok string, ioRun_drawBytes_bind, ioRun_drawWord_bind]
  rfl

/-- A text and a zero stored, or in part where memory is missing. -/
theorem ioRun_storeText {a pad : Word} (text : List Byte) :
    ∃ r t, ioRun (ioWriteWords errMemory a (packBytes pad (text ++ [0])) >>= fun _ => drawNonNegative) s = (r, t) ∧
      t = { s with mem := t.mem, draws := t.draws } ∧
      (∀ x, (∀ k ≤ text.length / 4, x ≠ a + BitVec.ofNat 32 k) → t.mem.readWord x = s.mem.readWord x) ∧
      ((∀ k ≤ text.length / 4, memExists s.cfg (a + BitVec.ofNat 32 k) = true) → 0 ≤ r.toInt ∧
        (text.length < 2 ^ 34 → ∀ k ≤ text.length, t.mem.packedChar a k = (text ++ [0]).getD k 0)) ∧
      (∀ k ≤ text.length / 4, memExists s.cfg (a + BitVec.ofNat 32 k) = false → r = 0xFFFFFFFB#32) := by
  have words : (packBytes pad (text ++ [0])).length = text.length / 4 + 1 := by
    rw [packBytes_length, List.length_append, List.length_singleton]
    omega
  by_cases present : ∀ k ≤ text.length / 4, memExists s.cfg (a + BitVec.ofNat 32 k) = true
  · have run := ioRun_writeWords_bind off (vs := packBytes pad (text ++ [0])) (fun k hk => present k (by omega)) errMemory
      fun _ => drawNonNegative
    refine ⟨_, _, run, rfl, fun x outside => load_readWord_ne _ s.mem _ _ fun k hk => outside k (by omega),
      fun _ => ⟨nonNegative_toInt _, fun short k hk => ?_⟩, fun k hk missing => ?_⟩
    · have char := packedChar_load s.mem a pad (bs := text ++ [0]) (k := k) (by simp; omega) (by simp; omega)
      refine char.trans ?_
      rw [List.getD_eq_getElem _ _ (by simp; omega), List.getD_eq_getElem _ _ (by simp; omega)]
    · rw [present k hk] at missing
      cases missing
  · obtain ⟨k, hk, missing⟩ : ∃ k ≤ text.length / 4, memExists s.cfg (a + BitVec.ofNat 32 k) = false := by simpa using present
    obtain ⟨m, d, kept, frame⟩ := ioKeepSome_frame off s a (packBytes pad (text ++ [0]))
    have run := ioRun_writeWords_bind_missing off (vs := packBytes pad (text ++ [0])) (k := k) (by omega) missing errMemory
      fun _ => drawNonNegative
    rw [kept] at run
    exact ⟨_, _, run, rfl, fun x outside => frame x fun k hk => outside k (by omega), fun present' => absurd present' present,
      fun _ _ _ => rfl⟩

end

/-! ### The statement -/

/-- Settles O58: the instruction is `periRun`, a device step, and the clock and text operations are run in their order. -/
theorem periCompletes : Obligations.PeriCompletes := by
  refine ⟨fun s m o c sys read aligned => ?instruction, fun s c off => ?operations⟩
  case instruction =>
    have device := deviceStep_periRun c s
    refine ⟨⟨(periRun c s).1, (periRun c s).2, rfl, ?_, device.frame, fun a missing => device.stored.readWord missing⟩,
      fun missing => ?_, fun p target unknown => ?_, fun p op r t target wf known run => ?_⟩
    · rw [exec_peri sys read aligned, errOfResult_eq]
    · rw [exec_peri sys read aligned, periRun_unreadable missing, errOfResult_readParams]
      rfl
    · rw [exec_peri sys read aligned, periRun_unknown target unknown, errOfResult_badCode]
      rfl
    · rw [periRun_known target wf known, run]
      rfl
  case operations =>
    refine ⟨?seconds, ?useconds, ?dateTime, ?floatFormat⟩
    case seconds =>
      obtain ⟨k, later, clock⟩ := readClock_run s
      exact ⟨k, later, by rw [periOperation, seconds, ioRun, clock]⟩
    case useconds =>
      rintro _ present rfl buffer buffer'
      exact ioRun_useconds off present buffer buffer'
    case dateTime =>
      rintro _ present present' rfl buffer
      exact ioRun_dateTime off present present' buffer
    case floatFormat =>
      rintro f _ n j present format rfl hn there hj zero
      obtain ⟨text, nonzero, run⟩ := ioRun_floatFormat off present format hn there hj zero
      obtain ⟨r, t, stored, rest⟩ := ioRun_storeText (s := s.drawn 2) off (a := s.mem.readWord (c + 3)) (pad := s.free 1) text
      exact ⟨r, t, text, run.trans stored, rest.1, nonzero, rest.2⟩

end Sys2Proof.Machine
end

section
/-! PROOFS. The family 46_peri_io.md: the disc operations, with VM = 0 (R400 to R403; entries 34, 54). -/

namespace Sys2Proof.Machine

/-! ### Drives, blocks and numbers -/

theorem setDisc_getElem (s : State) (i j : Fin 8) (d : Option Disc) : (s.setDisc i d).discs[j] = if j = i then d else s.discs[j] := by
  simp [Vector.getElem_set, Fin.ext_iff, eq_comm]

theorem blockOf_getElem (ws : List Word) (k : Fin 128) : (blockOf ws)[k] = ws.getD k.val 0 := by simp [blockOf]

theorem drawBlock_run (s : State) : drawBlock.run.run s = (.ok (blockOf ((List.range 128).map fun k => s.free k)), s.drawn 128) := by
  rw [drawBlock, io_run_bind, drawWords_run_eq]
  rfl

theorem ioRun_blockNumber_bind {d : Disc} {b : Word} (small : b.toNat < 2 ^ 31) (inside : b.toNat < d.size) (s : State)
    (f : Nat → Io Word) : ioRun (d.blockNumber b >>= f) s = ioRun (f b.toNat) s := by
  have signed : b.toInt = b.toNat := BitVec.toInt_eq_toNat_of_lt (by omega)
  rw [Disc.blockNumber, if_pos (by omega), pure_bind]

theorem ioRun_blockNumber_bind_outside {d : Disc} {b : Word} (outside : 2 ^ 31 ≤ b.toNat ∨ d.size ≤ b.toNat) (s : State)
    (f : Nat → Io Word) : ioRun (d.blockNumber b >>= f) s = (errPosition, s) := by
  have notThere : ¬ (0 ≤ b.toInt ∧ b.toInt < d.size) := by
    have := b.isLt
    rw [BitVec.toInt_eq_toNat_cond]
    split <;> omega
  rw [Disc.blockNumber, if_neg notThere, ioRun_throw_bind]

/-- The words a block is read as: those it holds, zeros after an erasure, else free ones (R394, R403). -/
theorem blockWords_run (d : Disc) (n : Nat) (s : State) :
    ∃ ws k, (d.blockWords n).run.run s = (.ok ws, { s with draws := k }) ∧
      (∀ held, d.blocks.find? (fun x => x.1 == n) = some (n, held) → ws = held ∧ k = s.draws) ∧
      (d.blocks.find? (fun x => x.1 == n) = none → d.erased = true → ws = Vector.replicate 128 0 ∧ k = s.draws) := by
  unfold Disc.blockWords
  split
  · next b found =>
    refine ⟨b.2, s.draws, rfl, fun held same => ⟨?_, rfl⟩, fun unwritten => ?_⟩
    · rw [Option.some.inj (found.symm.trans same)]
    · rw [unwritten] at found
      cases found
  · next unwritten =>
    have notHeld {held : Vector Word 128} : d.blocks.find? (fun x => x.1 == n) ≠ some (n, held) := by
      rw [unwritten]
      exact (Option.some_ne_none _).symm
    split
    · next erased => exact ⟨_, _, rfl, fun held same => absurd same notHeld, fun _ _ => ⟨rfl, rfl⟩⟩
    · next kept => exact ⟨_, _, drawBlock_run s, fun held same => absurd same notHeld, fun _ erased => absurd erased kept⟩

/-! ### The operations -/

section
variable {s : State} (off : s.flags.vm = false) {c : Word} (present : ∀ k < 4, memExists s.cfg (c + BitVec.ofNat 32 k) = true)
include off present

/-- A number that names no drive and no tape unit (R394). -/
theorem ioRun_unit_missing (outside : (s.mem.readWord (c + 1)).toNat = 0 ∨ 8 < (s.mem.readWord (c + 1)).toNat) :
    ∀ op ∈ ([.discCheck, .discRead, .discWrite, .discClear, .tapeCheck, .tapeRewind, .tapeLoad, .tapeLength, .tapeUnload, .tapeRead,
      .tapeWrite] : List PeriOp), ioRun (periOperation c op) s = (errDevNumber, s) := by
  obtain ⟨one, two, three⟩ := params_present present
  simp only [List.forall_mem_cons, List.not_mem_nil, false_implies, implies_true, and_true, periOperation, discCheck, discRead,
    discWrite, discClear, tapeCheck, tapeRewind, tapeLoad, tapeLength, tapeUnload, tapeRead, tapeWrite, ioRun_param_bind off one,
    ioRun_param_bind off two, ioRun_param_bind off three, ioRun_unit_bind_outside outside]

variable {i : Fin 8} (named : (s.mem.readWord (c + 1)).toNat = i.val + 1)
include named

theorem ioRun_discCheck_absent (absent : s.discs[i] = none) : ioRun (periOperation c .discCheck) s = (0, s) := by
  obtain ⟨one, -, -⟩ := params_present present
  simp only [periOperation, discCheck, ioRun_param_bind off one, ioRun_unit_bind named, ioRun_get_bind, absent, ioRun_pure]

theorem ioRun_disc_absent (absent : s.discs[i] = none) :
    ∀ op ∈ ([.discRead, .discWrite, .discClear] : List PeriOp), ioRun (periOperation c op) s = (errDevNumber, s) := by
  obtain ⟨one, two, three⟩ := params_present present
  simp only [List.forall_mem_cons, List.not_mem_nil, false_implies, implies_true, and_true, periOperation, discRead, discWrite,
    discClear, ioRun_param_bind off one, ioRun_param_bind off two, ioRun_param_bind off three, ioRun_unit_bind named, ioRun_get_bind,
    absent, ioRun_absent_bind]

variable {disc : Disc} (loaded : s.discs[i] = some disc)
include loaded

theorem ioRun_disc_position (outside : 2 ^ 31 ≤ (s.mem.readWord (c + 2)).toNat ∨ disc.size ≤ (s.mem.readWord (c + 2)).toNat) :
    ∀ op ∈ ([.discRead, .discWrite] : List PeriOp), ioRun (periOperation c op) s = (errPosition, s) := by
  obtain ⟨one, two, three⟩ := params_present present
  simp only [List.forall_mem_cons, List.not_mem_nil, false_implies, implies_true, and_true, periOperation, discRead, discWrite,
    ioRun_param_bind off one, ioRun_param_bind off two, ioRun_param_bind off three, ioRun_unit_bind named, ioRun_get_bind, loaded,
    ioRun_present_bind, ioRun_blockNumber_bind_outside outside]

theorem ioRun_discCheck : ioRun (periOperation c .discCheck) s = ioRun (ioCount disc.size) s := by
  obtain ⟨one, -, -⟩ := params_present present
  simp only [periOperation, discCheck, ioRun_param_bind off one, ioRun_unit_bind named, ioRun_get_bind, loaded]

/-- DISCCLEAR leaves no block written; whether the device fails is free, and zeros are there unless it does (R403; entry 34). -/
theorem ioRun_discClear :
    ∃ r t b, ioRun (periOperation c .discClear) s = (r, t) ∧
      t = { s with discs := (s.setDisc i (some { size := disc.size, erased := b, blocks := [] })).discs, draws := t.draws } ∧
      (b = true ∧ 0 ≤ r.toInt ∨ b = false ∧ r = 0xFFFFFFFA#32) := by
  obtain ⟨one, -, -⟩ := params_present present
  simp only [periOperation, discClear, ioRun_param_bind off one, ioRun_unit_bind named, ioRun_get_bind, loaded, ioRun_present_bind,
    ioRun_drawBit_bind]
  cases s.freeBit with
  | true => exact ⟨_, _, false, rfl, rfl, .inr ⟨rfl, rfl⟩⟩
  | false => exact ⟨_, _, true, rfl, rfl, .inl ⟨rfl, nonNegative_toInt _⟩⟩

section
variable (small : (s.mem.readWord (c + 2)).toNat < 2 ^ 31) (inside : (s.mem.readWord (c + 2)).toNat < disc.size)
include small inside

/-- DISCREAD of an existing block stores the words it is read as. -/
theorem ioRun_discRead :
    ∃ ws k, ioRun (periOperation c .discRead) s =
        ioRun (ioWriteWords errMemory (s.mem.readWord (c + 3)) ws.toList >>= fun _ => pure 1) { s with draws := k } ∧
      (∀ held : Vector Word 128, disc.blocks.find? (fun x => x.1 == (s.mem.readWord (c + 2)).toNat) =
        some ((s.mem.readWord (c + 2)).toNat, held) → ws = held ∧ k = s.draws) ∧
      (disc.blocks.find? (fun x => x.1 == (s.mem.readWord (c + 2)).toNat) = none → disc.erased = true →
        ws = Vector.replicate 128 0 ∧ k = s.draws) := by
  obtain ⟨one, two, three⟩ := params_present present
  obtain ⟨ws, k, run, held⟩ := blockWords_run disc (s.mem.readWord (c + 2)).toNat s
  refine ⟨ws, k, ?_, held⟩
  simp only [periOperation, discRead, ioRun_param_bind off one, ioRun_param_bind off two, ioRun_param_bind off three,
    ioRun_unit_bind named, ioRun_get_bind, loaded, ioRun_present_bind, ioRun_blockNumber_bind small inside, ioRun_bind_ok run]

/-- DISCWRITE of an existing block from memory that exists; whether the device fails is free (R402; entry 34). -/
theorem ioRun_discWrite (buffer : ∀ k < 128, memExists s.cfg (s.mem.readWord (c + 3) + BitVec.ofNat 32 k) = true) :
    ∃ t ws, ioRun (periOperation c .discWrite) s = ((if s.freeBit = true then 0xFFFFFFFA#32 else 1), t) ∧
      t = { s with discs := (s.setDisc i (some (disc.withBlock (s.mem.readWord (c + 2)).toNat ws))).discs, draws := t.draws } ∧
      (s.freeBit = false → ∀ k : Fin 128, ws[k] = s.mem.readWord (s.mem.readWord (c + 3) + BitVec.ofNat 32 k.val)) := by
  obtain ⟨one, two, three⟩ := params_present present
  simp only [periOperation, discWrite, ioRun_param_bind off one, ioRun_param_bind off two, ioRun_param_bind off three,
    ioRun_unit_bind named, ioRun_get_bind, loaded, ioRun_present_bind, ioRun_blockNumber_bind small inside, ioWordsAt_present off buffer,
    ioRun_drawBit_bind]
  cases s.freeBit with
  | true =>
    simp only [if_true, ioRun_bind_ok (drawBlock_run _), ioRun_modify_bind, ioRun_throw]
    exact ⟨_, _, rfl, rfl, fun works => by cases works⟩
  | false =>
    refine ⟨_, _, rfl, rfl, fun _ k => ?_⟩
    rw [blockOf_getElem, List.getD_eq_getElem _ _ (by simp)]
    simp

theorem ioRun_disc_memory {k : Nat} (hk : k < 128) (missing : memExists s.cfg (s.mem.readWord (c + 3) + BitVec.ofNat 32 k) = false) :
    ∀ op ∈ ([.discRead, .discWrite] : List PeriOp), (ioRun (periOperation c op) s).1 = errMemory := by
  obtain ⟨one, two, three⟩ := params_present present
  simp only [List.forall_mem_cons, List.not_mem_nil, false_implies, implies_true, and_true]
  refine ⟨?_, ?_⟩
  · obtain ⟨ws, d, run, -⟩ := ioRun_discRead off present named loaded small inside
    rw [run, ioRun_writeWords_bind_missing (by exact off) (k := k) (by simpa using hk) (by exact missing)]
  · simp only [periOperation, discWrite, ioRun_param_bind off one, ioRun_param_bind off two, ioRun_param_bind off three,
      ioRun_unit_bind named, ioRun_get_bind, loaded, ioRun_present_bind, ioRun_blockNumber_bind small inside,
      ioWordsAt_missing off hk missing, ioRun_bind_ok (drawBlock_run _), ioRun_modify_bind, ioRun_throw]

/-- DISCREAD into memory that exists: each word at its place, and no other word changes (R401). -/
theorem ioRun_discRead_present (buffer : ∀ k < 128, memExists s.cfg (s.mem.readWord (c + 3) + BitVec.ofNat 32 k) = true) :
    ∃ t ws, ioRun (periOperation c .discRead) s = (1, t) ∧ t = { s with mem := t.mem, draws := t.draws } ∧
      (∀ k : Fin 128, t.mem.readWord (s.mem.readWord (c + 3) + BitVec.ofNat 32 k.val) = ws[k]) ∧
      (∀ x, (∀ k < 128, x ≠ s.mem.readWord (c + 3) + BitVec.ofNat 32 k) → t.mem.readWord x = s.mem.readWord x) ∧
      (∀ held : Vector Word 128, disc.blocks.find? (fun x => x.1 == (s.mem.readWord (c + 2)).toNat) =
        some ((s.mem.readWord (c + 2)).toNat, held) → ws = held ∧ t.draws = s.draws) ∧
      (disc.blocks.find? (fun x => x.1 == (s.mem.readWord (c + 2)).toNat) = none → disc.erased = true →
        ws = Vector.replicate 128 0 ∧ t.draws = s.draws) := by
  obtain ⟨ws, d, run, held⟩ := ioRun_discRead off present named loaded small inside
  have length : ws.toList.length = 128 := by simp
  rw [ioRun_writeWords_bind (by exact off) (by rw [length]; exact buffer), ioRun_pure] at run
  refine ⟨_, ws, run, rfl, fun k => ?_, fun x outside => load_readWord_ne _ s.mem _ _ (by rwa [length]), held⟩
  refine (load_readWord ws.toList s.mem _ (by simp) k.val (by simp)).trans ?_
  rw [List.getD_eq_getElem _ _ (by simp)]
  simp

end

end

end Sys2Proof.Machine
end

section
/-! PROOFS. The family 46_peri_io.md: the tape operations, with VM = 0 (R404 to R411; entries 32, 54, 56). -/

namespace Sys2Proof.Machine

/-! ### Tapes -/

theorem setTape_getElem (s : State) (i j : Fin 8) (t : Option Tape) :
    (s.setTape i t).tapes[j] = (if j = i then t else s.tapes[j]) := by
  simp [Vector.getElem_set, Fin.ext_iff, eq_comm]

theorem setTape_self {s : State} {i : Fin 8} {t : Option Tape} (same : s.tapes[i] = t) : (s.setTape i t).tapes = s.tapes := by
  rw [← same, State.setTape_tapes]
  exact Vector.set_getElem_self _

theorem setTape_setTape (s : State) (i : Fin 8) (t u : Option Tape) : ((s.setTape i t).setTape i u).tapes = (s.setTape i u).tapes := by
  rw [State.setTape_tapes, State.setTape_tapes, State.setTape_tapes, Vector.set_set]

theorem nextBytes_length (t : Tape) : t.nextBytes.length = min 512 (t.contents.length - t.position) := by
  simp [Tape.nextBytes, tapeBlockBytes]

theorem nextBytes_getD (t : Tape) {k : Nat} (hk : k < t.nextBytes.length) (b c : Byte) :
    t.nextBytes.getD k b = t.contents.getD (t.position + k) c := by
  have inside := hk
  rw [nextBytes_length] at inside
  rw [List.getD_eq_getElem _ _ hk, List.getD_eq_getElem _ _ (by omega)]
  simp [Tape.nextBytes]

/-- A disturbed tape keeps its mode. -/
theorem disturbed_run (t : Tape) (s : State) : ∃ other, other.mode = t.mode ∧ t.disturbed.run.run s = (.ok other, s.drawn 2) :=
  ⟨{ t with contents := Config.freeBytes s.draws, position := s.drawn.freeUpTo (Config.freeBytes s.draws).length }, rfl, rfl⟩

/-- A mode word is one of the two codes, or BADPARAM (R406). -/
theorem ioRun_tapeMode_bind (w : Word) (s : State) (f : TapeMode → Io Word) :
    (∃ mode : TapeMode, w = mode.code ∧ ioRun (tapeMode w >>= f) s = ioRun (f mode) s) ∨
    (w ≠ 82 ∧ w ≠ 87 ∧ ioRun (tapeMode w >>= f) s = (errBadParam, s)) := by
  unfold tapeMode
  split
  · next h => exact .inl ⟨.read, h, by rw [pure_bind]⟩
  · next notRead =>
    split
    · next h => exact .inl ⟨.write, h, by rw [pure_bind]⟩
    · next notWrite => exact .inr ⟨notRead, notWrite, ioRun_throw_bind _ _ _⟩

/-- TAPELOAD of a unit found available: the file may be missing, the mode word may be none, else the tape is loaded at its start. -/
theorem ioRun_tapeLoad_available {s : State} (off : s.flags.vm = false) {a : Word} {n j : Nat} (hn : n < 2 ^ 32)
    (there : ∀ k ≤ n, memExists s.cfg (a + BitVec.ofNat 32 k) = true) (hj : j < 4)
    (zero : (s.mem.readWord (a + BitVec.ofNat 32 n)).extractLsb' (8 * j) 8 = 0) (i : Fin 8) (m : Word) :
    ∃ r t, ioRun (do
        let name ← ioReadString a
        mayFail errNotFound
        let mode ← tapeMode m
        let contents ← drawBytes
        modify fun s => s.setTape i (some { mode := mode, name := name, contents := contents, position := 0 })
        pure 1) s = (r, t) ∧ t = { s with tapes := t.tapes, draws := t.draws } ∧
      (r = 0xFFFFFFF9#32 ∧ t.tapes = s.tapes ∨
       r = 0xFFFFFFF8#32 ∧ t.tapes = s.tapes ∧ m ≠ 82 ∧ m ≠ 87 ∨
       r = 1 ∧ ∃ tape, t.tapes = (s.setTape i (some tape)).tapes ∧ tape.position = 0 ∧ m = tape.mode.code) := by
  obtain ⟨name, string⟩ := ioReadString_run off hn there hj zero
  rw [ioRun_bind_ok string, ioRun_mayFail_bind]
  cases s.freeBit with
  | true => exact ⟨_, _, rfl, rfl, .inl ⟨rfl, rfl⟩⟩
  | false =>
    rw [if_neg Bool.false_ne_true]
    rcases ioRun_tapeMode_bind m s.drawn _ with ⟨mode, code, run⟩ | ⟨notRead, notWrite, run⟩
    · exact ⟨_, _, run, rfl, .inr (.inr ⟨rfl, _, rfl, rfl, code⟩)⟩
    · exact ⟨_, _, run, rfl, .inr (.inl ⟨rfl, rfl, notRead, notWrite⟩)⟩

/-! ### The operations -/

section
variable {s : State} (off : s.flags.vm = false) {c : Word} (present : ∀ k < 4, memExists s.cfg (c + BitVec.ofNat 32 k) = true)
  {i : Fin 8} (named : (s.mem.readWord (c + 1)).toNat = i.val + 1)
include off present named

theorem ioRun_tapeCheck :
    ioRun (periOperation c .tapeCheck) s = (s.tapes[i].elim 0 fun t => t.mode.code, s) := by
  obtain ⟨one, -, -⟩ := params_present present
  simp only [periOperation, tapeCheck, ioRun_param_bind off one, ioRun_unit_bind named, ioRun_get_bind]
  cases s.tapes[i] <;> rfl

theorem ioRun_tape_absent (absent : s.tapes[i] = none) :
    (∀ op ∈ ([.tapeRewind, .tapeRead, .tapeWrite] : List PeriOp), ioRun (periOperation c op) s = (errDevNumber, s)) ∧
    (∀ op ∈ ([.tapeLength, .tapeUnload] : List PeriOp), ioRun (periOperation c op) s = (errNotFound, s)) := by
  obtain ⟨one, two, three⟩ := params_present present
  simp only [List.forall_mem_cons, List.not_mem_nil, false_implies, implies_true, and_true, periOperation, tapeRewind, tapeRead,
    tapeWrite, tapeLength, tapeUnload, ioRun_param_bind off one, ioRun_param_bind off two, ioRun_param_bind off three,
    ioRun_unit_bind named, ioRun_get_bind, absent, ioRun_absent_bind]

/-- TAPELOAD: a loaded unit may be found not available; otherwise the unit is loaded or left as it was (R406; entry 32). -/
theorem ioRun_tapeLoad {n j : Nat} (hn : n < 2 ^ 32)
    (there : ∀ k ≤ n, memExists s.cfg (s.mem.readWord (c + 2) + BitVec.ofNat 32 k) = true) (hj : j < 4)
    (zero : (s.mem.readWord (s.mem.readWord (c + 2) + BitVec.ofNat 32 n)).extractLsb' (8 * j) 8 = 0) :
    ∃ r t, ioRun (periOperation c .tapeLoad) s = (r, t) ∧ t = { s with tapes := t.tapes, draws := t.draws } ∧
      (r = 0xFFFFFFFD#32 ∧ t.tapes = s.tapes ∧ s.tapes[i] ≠ none ∨
       r = 0xFFFFFFF9#32 ∧ t.tapes = s.tapes ∨
       r = 0xFFFFFFF8#32 ∧ t.tapes = s.tapes ∧ s.mem.readWord (c + 3) ≠ 82 ∧ s.mem.readWord (c + 3) ≠ 87 ∨
       r = 1 ∧ ∃ tape, t.tapes = (s.setTape i (some tape)).tapes ∧ tape.position = 0 ∧
         s.mem.readWord (c + 3) = tape.mode.code) := by
  obtain ⟨one, two, three⟩ := params_present present
  simp only [periOperation, tapeLoad, ioRun_param_bind off one, ioRun_param_bind off two, ioRun_param_bind off three,
    ioRun_unit_bind named, ioRun_get_bind]
  cases loaded : s.tapes[i] with
  | none =>
    obtain ⟨r, t, run, frame, result⟩ := ioRun_tapeLoad_available off hn there hj zero i (s.mem.readWord (c + 3))
    exact ⟨r, t, run, frame, .inr result⟩
  | some tape =>
    simp only [Option.isSome_some, if_true, ioRun_mayFail_bind (s := s)]
    cases s.freeBit with
    | true => exact ⟨_, _, rfl, rfl, .inl ⟨rfl, rfl, Option.some_ne_none _⟩⟩
    | false =>
      obtain ⟨r, t, run, frame, result⟩ := ioRun_tapeLoad_available (s := s.drawn) off hn there hj zero i (s.mem.readWord (c + 3))
      exact ⟨r, t, run, frame, .inr result⟩

variable {tape : Tape} (loaded : s.tapes[i] = some tape)
include loaded

theorem ioRun_tapeRewind : ioRun (periOperation c .tapeRewind) s = (1, s.setTape i (some { tape with position := 0 })) := by
  obtain ⟨one, -, -⟩ := params_present present
  simp only [periOperation, tapeRewind, ioRun_param_bind off one, ioRun_unit_bind named, ioRun_get_bind, loaded, ioRun_present_bind,
    ioRun_modify_bind, ioRun_pure]

theorem ioRun_tapeUnload : ioRun (periOperation c .tapeUnload) s = (1, s.setTape i none) := by
  obtain ⟨one, -, -⟩ := params_present present
  simp only [periOperation, tapeUnload, ioRun_param_bind off one, ioRun_unit_bind named, ioRun_get_bind, loaded, ioRun_present_bind,
    ioRun_modify_bind, ioRun_pure]

theorem ioRun_tapeLength :
    ∃ r d, ioRun (periOperation c .tapeLength) s = (r, { s with draws := d }) ∧
      (r = 0xFFFFFFF9#32 ∨ 0 ≤ r.toInt ∧ (tape.contents.length < 2 ^ 31 → r = BitVec.ofNat 32 tape.contents.length)) := by
  obtain ⟨one, -, -⟩ := params_present present
  simp only [periOperation, tapeLength, ioRun_param_bind off one, ioRun_unit_bind named, ioRun_get_bind, loaded, ioRun_present_bind,
    ioRun_mayFail_bind]
  cases s.freeBit with
  | true => exact ⟨_, _, rfl, .inl rfl⟩
  | false =>
    obtain ⟨r, d, run, nonneg, counted⟩ := ioRun_count_cases s.drawn tape.contents.length
    exact ⟨r, d, run, .inr ⟨nonneg, fun small => (counted small).1⟩⟩

/-- TAPEREAD of a tape loaded for reading, into memory that exists (R409). -/
theorem ioRun_tapeRead {n : Nat} (mode : tape.mode = .read) (count : n = min 512 (tape.contents.length - tape.position))
    (buffer : ∀ k < (n + 3) / 4, memExists s.cfg (s.mem.readWord (c + 2) + BitVec.ofNat 32 k) = true) :
    ∃ t, ioRun (periOperation c .tapeRead) s = (BitVec.ofNat 32 n, t) ∧
      t = { s with
        mem := t.mem, tapes := (s.setTape i (some { tape with position := tape.position + n })).tapes, draws := s.draws + 2 } ∧
      (∀ k < n, t.mem.packedChar (s.mem.readWord (c + 2)) k = tape.contents.getD (tape.position + k) 0) ∧
      (∀ x, (∀ k < (n + 3) / 4, x ≠ s.mem.readWord (c + 2) + BitVec.ofNat 32 k) → t.mem.readWord x = s.mem.readWord x) := by
  obtain ⟨one, two, -⟩ := params_present present
  rw [← nextBytes_length] at count
  subst count
  have words (pad : Word) : (packBytes pad tape.nextBytes).length = (tape.nextBytes.length + 3) / 4 := packBytes_length _ _
  have short : tape.nextBytes.length ≤ 512 := by rw [nextBytes_length]; omega
  have notWrite : ¬ tape.mode = .write := by rw [mode]; exact nofun
  simp only [periOperation, tapeRead, ioRun_param_bind off one, ioRun_param_bind off two, ioRun_unit_bind named, ioRun_get_bind,
    loaded, ioRun_present_bind, notWrite, if_false, ioRun_drawWord_bind, ioRun_drawUpTo_bind, ioRun_modify_bind]
  rw [ioRun_writeWords_bind (by exact off) (by rw [words]; exact buffer), ioRun_modify_bind, ioRun_pure]
  refine ⟨_, rfl, ?_, fun k hk => ?_, fun x outside => load_readWord_ne _ s.mem _ _ (by rwa [words])⟩
  · rw [← setTape_setTape s i]
    rfl
  · exact (packedChar_load s.mem _ s.free (by omega) (by omega)).trans (nextBytes_getD tape hk _ _)

/-- TAPEWRITE from memory that exists, on a tape loaded for reading: an error, and the tape stays (R410; entry 32). -/
theorem ioRun_tapeWrite_read (mode : tape.mode = .read) (small : (s.mem.readWord (c + 3)).toNat < 2 ^ 31)
    (buffer : ∀ k < ((s.mem.readWord (c + 3)).toNat + 3) / 4, memExists s.cfg (s.mem.readWord (c + 2) + BitVec.ofNat 32 k) = true) :
    ∃ r d, ioRun (periOperation c .tapeWrite) s = (r, { s with draws := d }) ∧ (r = 0xFFFFFFFD#32 ∨ r = 0xFFFFFFFA#32) := by
  obtain ⟨one, two, three⟩ := params_present present
  have bytes := ioBytes_present (s := s.drawn) off buffer
  have same : s.drawn.setTape i (some tape) = s.drawn := by
    rw [State.setTape]
    exact congrArg (fun tapes => { s.drawn with tapes := tapes }) (setTape_self loaded)
  simp only [periOperation, tapeWrite, ioRun_param_bind off one, ioRun_param_bind off two, ioRun_param_bind off three,
    ioRun_unit_bind named, ioRun_get_bind, loaded, ioRun_present_bind, mode, if_true, ioRun_mayFail_bind, pure_bind,
    msb_of_small small, Bool.false_eq_true, if_false, bytes, ioRun_modify_bind, ioRun_throw, same]
  cases s.freeBit with
  | true => exact ⟨_, _, rfl, .inl rfl⟩
  | false => exact ⟨_, _, rfl, .inr rfl⟩

/-- TAPEWRITE from memory that exists, on a tape loaded for writing: the bytes replaced, or free contents where the device fails. -/
theorem ioRun_tapeWrite_write (mode : tape.mode = .write) (small : (s.mem.readWord (c + 3)).toNat < 2 ^ 31)
    (buffer : ∀ k < ((s.mem.readWord (c + 3)).toNat + 3) / 4, memExists s.cfg (s.mem.readWord (c + 2) + BitVec.ofNat 32 k) = true) :
    ∃ r other d, ioRun (periOperation c .tapeWrite) s = (r, { s.setTape i (some other) with draws := d }) ∧ other.mode = .write ∧
      (r = 0xFFFFFFFA#32 ∨ r = s.mem.readWord (c + 3) ∧
        other = tape.overwrite ((List.range (s.mem.readWord (c + 3)).toNat).map (s.mem.packedChar (s.mem.readWord (c + 2))))) := by
  obtain ⟨one, two, three⟩ := params_present present
  obtain ⟨other, otherMode, disturbed⟩ := disturbed_run tape s
  have bytes := ioBytes_present (s := s.drawn 2) off buffer
  have notRead : ¬ tape.mode = .read := by rw [mode]; exact nofun
  simp only [periOperation, tapeWrite, ioRun_param_bind off one, ioRun_param_bind off two, ioRun_param_bind off three,
    ioRun_unit_bind named, ioRun_get_bind, loaded, ioRun_present_bind, notRead, if_false, ioRun_bind_ok disturbed,
    msb_of_small small, Bool.false_eq_true, bytes, ioRun_drawBit_bind, take_packedChars]
  cases (s.drawn 2).freeBit with
  | true => exact ⟨_, other, _, rfl, otherMode.trans mode, .inl rfl⟩
  | false => exact ⟨_, _, _, rfl, mode, .inr ⟨rfl, rfl⟩⟩

end

/-- TAPELOADFILE: the file may be missing; else its bytes are stored where memory for them exists (R411; entry 56). -/
theorem ioRun_tapeLoadFile {s : State} (off : s.flags.vm = false) {c a : Word} (present : memExists s.cfg (c + 1) = true)
    (present' : memExists s.cfg (c + 2) = true) (address : s.mem.readWord (c + 2) = a) {n j : Nat} (hn : n < 2 ^ 32)
    (there : ∀ k ≤ n, memExists s.cfg (s.mem.readWord (c + 1) + BitVec.ofNat 32 k) = true) (hj : j < 4)
    (zero : (s.mem.readWord (s.mem.readWord (c + 1) + BitVec.ofNat 32 n)).extractLsb' (8 * j) 8 = 0) {data : List Byte}
    (file : data = Config.freeBytes (s.draws + 1)) :
    ∃ r t, ioRun (periOperation c .tapeLoadFile) s = (r, t) ∧ t = { s with mem := t.mem, draws := t.draws } ∧
      (∀ x, (∀ k < (data.length + 3) / 4, x ≠ a + BitVec.ofNat 32 k) → t.mem.readWord x = s.mem.readWord x) ∧
      (r = 0xFFFFFFF9#32 ∧ t.mem = s.mem ∨
       r = 0xFFFFFFFB#32 ∧ (∃ k < (data.length + 3) / 4, memExists s.cfg (a + BitVec.ofNat 32 k) = false) ∨
       0 ≤ r.toInt ∧ ((data.length + 3) / 4 < 2 ^ 31 → r = BitVec.ofNat 32 ((data.length + 3) / 4)) ∧ (data.length ≤ 2 ^ 34 →
         ∀ k < data.length, t.mem.packedChar a k = data.getD k 0)) := by
  obtain ⟨name, string⟩ := ioReadString_run off hn there hj zero
  have file' : Config.freeBytes s.drawn.draws = data := file.symm
  have words (pad : Word) : (packBytes pad data).length = (data.length + 3) / 4 := packBytes_length _ _
  simp only [periOperation, tapeLoadFile, ioRun_param_bind off present, ioRun_param_bind off present', address, ioRun_bind_ok string,
    ioRun_mayFail_bind, ioRun_drawBytes_bind, ioRun_drawWord_bind, file', words, drawn_drawn, Nat.reduceAdd]
  cases s.freeBit with
  | true => exact ⟨_, _, rfl, rfl, fun _ _ => rfl, .inl ⟨rfl, rfl⟩⟩
  | false =>
    rw [if_neg Bool.false_ne_true]
    generalize (s.drawn 2).free = pad
    by_cases buffer : ∀ k < (data.length + 3) / 4, memExists s.cfg (a + BitVec.ofNat 32 k) = true
    · rw [ioRun_writeWords_bind (by exact off) (by rw [words]; exact buffer)]
      obtain ⟨r, d, run, nonneg, counted⟩ :=
        ioRun_count_cases { s.drawn 3 with mem := s.mem.load a (packBytes pad data) } ((data.length + 3) / 4)
      refine ⟨_, _, run, rfl, fun x outside => load_readWord_ne _ s.mem _ _ (by rwa [words]),
        .inr (.inr ⟨nonneg, fun small => (counted small).1, fun short k hk => ?_⟩)⟩
      refine (packedChar_load s.mem a pad short (by omega)).trans ?_
      rw [List.getD_eq_getElem _ _ hk, List.getD_eq_getElem _ _ hk]
    · obtain ⟨k, hk, missing⟩ : ∃ k < (data.length + 3) / 4, memExists s.cfg (a + BitVec.ofNat 32 k) = false := by simpa using buffer
      obtain ⟨m, d, kept, frame⟩ := ioKeepSome_frame (s := s.drawn 3) off (s.drawn 3) a (packBytes pad data)
      rw [ioRun_writeWords_bind_missing (by exact off) (by rwa [words]) (by exact missing), kept]
      exact ⟨_, _, rfl, rfl, fun x outside => frame x (by rwa [words]), .inr (.inl ⟨rfl, k, hk, missing⟩)⟩

/-! ### The statement -/

/-- Settles O59: each operation reads its parameters, finds its unit, and then does what its own lemma says. -/
theorem discKeepsItsBlocks : Obligations.DiscKeepsItsBlocks := by
  refine ⟨fun s i j d x => ⟨setDisc_getElem s i j d, rfl, setTape_getElem s i j x, rfl⟩,
    fun d n ws => ⟨rfl, rfl, fun m => d.find_withBlock n m ws⟩, fun s c off present outside => ioRun_unit_missing off present outside,
    fun s c a i off present named => ?units, ?loadFile⟩
  case units =>
    refine ⟨fun d loaded => ?discCheck,
      fun absent => ⟨ioRun_discCheck_absent off present named absent, ioRun_disc_absent off present named absent⟩, ?block,
      fun disc loaded => ioRun_discClear off present named loaded, ?tapeCheck,
      fun absent => ioRun_tape_absent off present named absent, ?tapeLoad, fun tape loaded => ?tape⟩
    case discCheck =>
      have check := ioRun_discCheck off present named loaded
      rcases lt_or_ge d.size (2 ^ 31) with small | large
      · exact ⟨_, _, check.trans (ioRun_count s small), fun _ => ⟨rfl, rfl⟩, fun large => by omega⟩
      · exact ⟨_, _, check.trans (ioRun_count_large s large), fun small => by omega, fun _ => ⟨nonNegative_toInt _, rfl⟩⟩
    case block =>
      rintro _ disc rfl rfl loaded
      refine ⟨fun outside => ioRun_disc_position off present named loaded outside, fun small inside => ⟨fun k hk missing => ?_,
        fun buffer => ⟨?_, ?_⟩⟩⟩
      · exact ioRun_disc_memory off present named loaded small inside hk missing
      · exact ioRun_discWrite off present named loaded small inside buffer
      · exact ioRun_discRead_present off present named loaded small inside buffer
    case tapeCheck =>
      rw [ioRun_tapeCheck off present named]
      cases s.tapes[i] <;> rfl
    case tapeLoad =>
      rintro n j rfl hn there hj zero
      exact ioRun_tapeLoad off present named hn there hj zero
    case tape =>
      refine ⟨ioRun_tapeRewind off present named loaded, ioRun_tapeUnload off present named loaded,
        ioRun_tapeLength off present named loaded, ?read, ?write⟩
      case read =>
        rintro n mode count rfl buffer
        exact ioRun_tapeRead off present named loaded mode count buffer
      case write =>
        rintro _ rfl small rfl buffer
        cases mode : tape.mode with
        | read =>
          obtain ⟨r, d, run, result⟩ := ioRun_tapeWrite_read off present named loaded mode small buffer
          exact ⟨r, _, run, rfl, fun _ => ⟨rfl, result⟩, nofun⟩
        | write =>
          obtain ⟨r, other, d, run, otherMode, result⟩ := ioRun_tapeWrite_write off present named loaded mode small buffer
          refine ⟨r, _, run, rfl, nofun,
            fun _ => ⟨⟨other, rfl, otherMode⟩, result.imp_right fun ⟨count, written⟩ => ⟨count, ?_⟩⟩⟩
          rw [written, Tape.overwrite, List.length_map, List.length_range, mode]
          rfl
  case loadFile =>
    rintro s c _ _ n j data off present present' rfl rfl hn there hj zero file
    exact ioRun_tapeLoadFile off present present' rfl hn there hj zero file

end Sys2Proof.Machine
end

section
/-! PROOFS. The family 46_peri_io.md: the terminal operations, with VM = 0 (R412, R413; entries 35, 54). -/

namespace Sys2Proof.Machine

theorem charOf_zero (k : Nat) : charOf 0 k = 0 := by simp [charOf]

theorem ioRun_printChars_bind (cs : List Byte) (s : State) (f : Unit → Io Word) :
    ioRun (printChars cs >>= f) s = ioRun (f ()) { s with events := s.events ++ cs.map fun b => .consoleOut (b.setWidth 32) } :=
  ioRun_modify_bind s _ f

theorem ne_zero_of_toNat_pos {w : Word} (positive : 0 < w.toNat) : ¬ w = 0 := by
  rintro rfl
  exact absurd positive (by decide)

/-- The characters TERMOUT prints, and whether all of them can be read. -/
def termOutChars (s : State) (n a : Word) : List Byte × Bool :=
  if n = 0 then ioString s a addressSpaceWords
  else ((ioBytes s a ((n.toNat + 3) / 4)).1.take n.toNat, (ioBytes s a ((n.toNat + 3) / 4)).2)

section
variable {s : State} (off : s.flags.vm = false) {c : Word} (one : memExists s.cfg (c + 1) = true) (two : memExists s.cfg (c + 2) = true)
include off one two

/-- TERMIN into memory that exists: the characters, and zeros after them to the end of the last word (R412). -/
theorem ioRun_termIn {n : Nat} (small : (s.mem.readWord (c + 1)).toNat < 2 ^ 31)
    (count : n = min (s.mem.readWord (c + 1)).toNat s.keyboard.length)
    (buffer : ∀ k ≤ n / 4, memExists s.cfg (s.mem.readWord (c + 2) + BitVec.ofNat 32 k) = true) :
    ∃ t, ioRun (periOperation c .termIn) s = (BitVec.ofNat 32 n, t) ∧ t = { s with keyboard := s.keyboard.drop n, mem := t.mem } ∧
      (∀ k < n, t.mem.packedChar (s.mem.readWord (c + 2)) k = s.keyboard.getD k 0) ∧
      (∀ k ≤ n / 4 * 4 + 3, n ≤ k → t.mem.packedChar (s.mem.readWord (c + 2)) k = 0) ∧
      (∀ x, (∀ k ≤ n / 4, x ≠ s.mem.readWord (c + 2) + BitVec.ofNat 32 k) → t.mem.readWord x = s.mem.readWord x) := by
  have length : (s.keyboard.take n ++ [0]).length = n + 1 := by simp; omega
  have words : (packBytes 0 (s.keyboard.take n ++ [0])).length = n / 4 + 1 := by
    rw [packBytes_length, length]
    omega
  have taken : (s.keyboard.take n).length = n := by simp; omega
  simp only [periOperation, termIn, ioRun_param_bind off one, ioRun_param_bind off two, ioRun_get_bind, msb_of_small small,
    Bool.false_eq_true, if_false, pure_bind, ← count, ioRun_modify_bind]
  rw [ioRun_writeWords_bind (by exact off) (by rw [words]; exact fun k hk => buffer k (by omega)), ioRun_pure]
  have char (k : Nat) (hk : k ≤ n / 4 * 4 + 3) := packedChar_load s.mem (s.mem.readWord (c + 2)) 0 (bs := s.keyboard.take n ++ [0])
    (k := k) (by rw [length]; omega) (by rw [length]; omega)
  refine ⟨_, rfl, rfl, fun k hk => ?_, fun k hk after => ?_,
    fun x outside => load_readWord_ne _ s.mem _ _ (by rw [words]; exact fun k hk => outside k (by omega))⟩
  · refine (char k (by omega)).trans ?_
    rw [List.getD_append _ _ _ _ (by omega), List.getD_eq_getElem _ _ (by omega), List.getElem_take,
      List.getD_eq_getElem _ _ (by omega)]
  · refine (char k hk).trans ?_
    rw [charOf_zero, List.getD_append_right _ _ _ _ (by omega)]
    cases k - (s.keyboard.take n).length <;> rfl

/-- TERMOUT prints all its characters, or a free number of them and ends with MEMORY (R413; entry 35). -/
theorem ioRun_termOut (small : (s.mem.readWord (c + 1)).toNat < 2 ^ 31) {cs : List Byte} {complete : Bool}
    (chars : termOutChars s (s.mem.readWord (c + 1)) (s.mem.readWord (c + 2)) = (cs, complete)) :
    ioRun (periOperation c .termOut) s = if complete = true
      then ioRun (ioCount cs.length) { s with events := s.events ++ cs.map fun b => .consoleOut (b.setWidth 32) }
      else (errMemory, { s with
        events := s.events ++ (cs.take (s.freeUpTo cs.length)).map fun b => .consoleOut (b.setWidth 32), draws := s.draws + 1 }) := by
  unfold termOutChars at chars
  simp only [periOperation, termOut, ioRun_param_bind off one, ioRun_param_bind off two, msb_of_small small, Bool.false_eq_true, if_false,
    ioRun_get_bind, chars]
  cases complete with
  | true => rw [if_pos rfl, if_pos rfl, ioRun_printChars_bind]
  | false =>
    rw [if_neg Bool.false_ne_true, if_neg Bool.false_ne_true, ioRun_drawUpTo_bind, ioRun_printChars_bind, ioRun_throw]
    rfl

/-- So many characters, all of which can be read. -/
theorem ioRun_termOut_count {n : Nat} (positive : 0 < (s.mem.readWord (c + 1)).toNat) (small : (s.mem.readWord (c + 1)).toNat < 2 ^ 31)
    (count : n = (s.mem.readWord (c + 1)).toNat)
    (buffer : ∀ k < (n + 3) / 4, memExists s.cfg (s.mem.readWord (c + 2) + BitVec.ofNat 32 k) = true) :
    ioRun (periOperation c .termOut) s = (s.mem.readWord (c + 1), { s with
      events := s.events ++ (List.range n).map fun k => .consoleOut ((s.mem.packedChar (s.mem.readWord (c + 2)) k).setWidth 32) }) := by
  subst count
  have chars : termOutChars s (s.mem.readWord (c + 1)) (s.mem.readWord (c + 2)) =
      ((List.range (s.mem.readWord (c + 1)).toNat).map (s.mem.packedChar (s.mem.readWord (c + 2))), true) := by
    rw [termOutChars, if_neg (ne_zero_of_toNat_pos positive), ioBytes_present off buffer, take_packedChars]
  rw [ioRun_termOut off one two small chars, if_pos rfl, List.map_map, List.length_map, List.length_range, ioRun_count _ small,
    BitVec.ofNat_toNat, BitVec.setWidth_eq]
  rfl

theorem ioRun_termOut_count_missing {n k : Nat} (hk : k < (n + 3) / 4) (positive : 0 < (s.mem.readWord (c + 1)).toNat)
    (small : (s.mem.readWord (c + 1)).toNat < 2 ^ 31) (count : n = (s.mem.readWord (c + 1)).toNat)
    (missing : memExists s.cfg (s.mem.readWord (c + 2) + BitVec.ofNat 32 k) = false) :
    (ioRun (periOperation c .termOut) s).1 = errMemory := by
  subst count
  have chars : termOutChars s (s.mem.readWord (c + 1)) (s.mem.readWord (c + 2)) =
      ((ioBytes s (s.mem.readWord (c + 2)) (((s.mem.readWord (c + 1)).toNat + 3) / 4)).1.take (s.mem.readWord (c + 1)).toNat, false) := by
    rw [termOutChars, if_neg (ne_zero_of_toNat_pos positive), ioBytes_missing off hk missing]
  rw [ioRun_termOut off one two small chars, if_neg Bool.false_ne_true]

section
variable (zero : s.mem.readWord (c + 1) = 0)
include zero

/-- A string that has an end. -/
theorem ioRun_termOut_string {n : Nat} (hn : n < 2 ^ 34)
    (buffer : ∀ k ≤ n / 4, memExists s.cfg (s.mem.readWord (c + 2) + BitVec.ofNat 32 k) = true)
    (before : ∀ k < n, s.mem.packedChar (s.mem.readWord (c + 2)) k ≠ 0) (last : s.mem.packedChar (s.mem.readWord (c + 2)) n = 0) :
    ∃ r d, ioRun (periOperation c .termOut) s = (r, { s with
        events := s.events ++ (List.range n).map fun k => .consoleOut ((s.mem.packedChar (s.mem.readWord (c + 2)) k).setWidth 32)
        draws := d }) ∧
      0 ≤ r.toInt ∧ (n < 2 ^ 31 → r = BitVec.ofNat 32 n ∧ d = s.draws) := by
  have chars : termOutChars s (s.mem.readWord (c + 1)) (s.mem.readWord (c + 2)) =
      ((List.range n).map (s.mem.packedChar (s.mem.readWord (c + 2))), true) := by
    rw [termOutChars, if_pos zero, ioString_present off buffer before last (by rw [addressSpaceWords]; omega)]
  rw [ioRun_termOut off one two (by rw [zero]; decide) chars, if_pos rfl, List.map_map, List.length_map, List.length_range]
  exact ioRun_count_cases _ n

/-- A string that runs into memory that is missing. -/
theorem ioRun_termOut_string_missing {n : Nat} (hn : n < 2 ^ 32)
    (buffer : ∀ k < n, memExists s.cfg (s.mem.readWord (c + 2) + BitVec.ofNat 32 k) = true)
    (before : ∀ k < 4 * n, s.mem.packedChar (s.mem.readWord (c + 2)) k ≠ 0)
    (missing : memExists s.cfg (s.mem.readWord (c + 2) + BitVec.ofNat 32 n) = false) :
    ∃ j ≤ 4 * n, ioRun (periOperation c .termOut) s = (errMemory, { s with
      events := s.events ++ (List.range j).map fun k => .consoleOut ((s.mem.packedChar (s.mem.readWord (c + 2)) k).setWidth 32)
      draws := s.draws + 1 }) := by
  have chars : termOutChars s (s.mem.readWord (c + 1)) (s.mem.readWord (c + 2)) =
      ((List.range (4 * n)).map (s.mem.packedChar (s.mem.readWord (c + 2))), false) := by
    rw [termOutChars, if_pos zero, ioString_missing off buffer before missing (by rwa [addressSpaceWords])]
  have bound : s.freeUpTo (4 * n) ≤ 4 * n := Nat.lt_succ_iff.1 (Nat.mod_lt _ (Nat.succ_pos _))
  refine ⟨s.freeUpTo (4 * n), bound, ?_⟩
  rw [ioRun_termOut off one two (by rw [zero]; decide) chars, if_neg Bool.false_ne_true, List.length_map, List.length_range,
    ← List.map_take, List.take_range, Nat.min_eq_left bound, List.map_map]
  rfl

end

end

end Sys2Proof.Machine
end

section
/-! PROOFS. The family 46_peri_io.md: the network operations, with VM = 0, and packets that arrive (R414 to R416; entries 33, 34). -/

namespace Sys2Proof.Machine

theorem setNet_getElem (s : State) (i j : Fin 2) (u : Option NetUnit) : (s.setNet i u).nets[j] = if j = i then u else s.nets[j] := by
  simp [Vector.getElem_set, Fin.ext_iff, eq_comm]

theorem setNet_setNet (s : State) (i : Fin 2) (u v : Option NetUnit) : ((s.setNet i u).setNet i v).nets = (s.setNet i v).nets := by
  rw [State.setNet_nets, State.setNet_nets, State.setNet_nets, Vector.set_set]

theorem avoids_two {a x : Word} (notFirst : x ≠ a) (notSecond : x ≠ a + 1) : ∀ k < 2, x ≠ a + BitVec.ofNat 32 k
  | 0, _ => by rwa [show a + BitVec.ofNat 32 0 = a by simp]
  | 1, _ => notSecond

/-! ### The operations -/

section
variable {s : State} (off : s.flags.vm = false) {c : Word} (present : ∀ k < 5, memExists s.cfg (c + BitVec.ofNat 32 k) = true)
include off present

/-- A number that names no network unit (R394). -/
theorem ioRun_net_missing (outside : (s.mem.readWord (c + 1)).toNat = 0 ∨ 2 < (s.mem.readWord (c + 1)).toNat) :
    ∀ op ∈ ([.netSS, .netSend, .netRecv] : List PeriOp), ioRun (periOperation c op) s = (errDevNumber, s) := by
  obtain ⟨one, two, three⟩ := params_present fun k hk => present k (by omega)
  have four : memExists s.cfg (c + 4) = true := present 4 (by decide)
  simp only [List.forall_mem_cons, List.not_mem_nil, false_implies, implies_true, and_true, periOperation, netSS, netSend, netRecv,
    ioRun_param_bind off one, ioRun_param_bind off two, ioRun_param_bind off three, ioRun_param_bind off four,
    ioRun_unit_bind_outside outside]

variable {i : Fin 2} (named : (s.mem.readWord (c + 1)).toNat = i.val + 1)
include named

theorem ioRun_net_off (isOff : s.nets[i] = none) :
    ∀ op ∈ ([.netSend, .netRecv] : List PeriOp), ioRun (periOperation c op) s = (errDevNumber, s) := by
  obtain ⟨one, two, three⟩ := params_present fun k hk => present k (by omega)
  have four : memExists s.cfg (c + 4) = true := present 4 (by decide)
  simp only [List.forall_mem_cons, List.not_mem_nil, false_implies, implies_true, and_true, periOperation, netSend, netRecv,
    ioRun_param_bind off one, ioRun_param_bind off two, ioRun_param_bind off three, ioRun_param_bind off four, ioRun_unit_bind named,
    ioRun_get_bind, isOff, ioRun_absent_bind]

/-! #### NETSS (R414) -/

section
variable (there : memExists s.cfg (s.mem.readWord (c + 3)) = true) (there' : memExists s.cfg (s.mem.readWord (c + 3) + 1) = true)

theorem ioRun_netSS_off_already (word : s.mem.readWord (c + 2) = 0) (isOff : s.nets[i] = none) :
    ioRun (periOperation c .netSS) s = (errDevNumber, s) := by
  obtain ⟨one, two, three⟩ := params_present fun k hk => present k (by omega)
  simp only [periOperation, netSS, ioRun_param_bind off one, ioRun_param_bind off two, ioRun_param_bind off three, ioRun_unit_bind named,
    word, if_true, pure_bind, ioRun_get_bind, isOff, Bool.not_false, Option.isNone_none, Bool.and_self, ioRun_throw_bind]

include there there'

theorem ioRun_netSS_on_already (word : s.mem.readWord (c + 2) = 1) {u : NetUnit} (isOn : s.nets[i] = some u) :
    ioRun (periOperation c .netSS) s = (errInUse, s) := by
  obtain ⟨one, two, three⟩ := params_present fun k hk => present k (by omega)
  have notZero : ¬ (1 : Word) = 0 := by decide
  simp only [periOperation, netSS, ioRun_param_bind off one, ioRun_param_bind off two, ioRun_param_bind off three, ioRun_unit_bind named,
    word, notZero, if_true, if_false, pure_bind, ioRun_get_bind, isOn, Bool.not_true, Bool.false_and, Bool.false_eq_true,
    ioRun_readTwo_bind off there there', Option.isSome_some, Bool.and_self, ioRun_throw_bind]

/-- A unit switched on with no packet received, or off: both address words are free ones (entry 33). -/
theorem ioRun_netSS_switched
    (switched : s.mem.readWord (c + 2) = 0 ∧ s.nets[i] ≠ none ∨ s.mem.readWord (c + 2) = 1 ∧ s.nets[i] = none) :
    ∃ x y r, 0 ≤ r.toInt ∧ ioRun (periOperation c .netSS) s = (r, { s with
      mem := (s.mem.writeWord (s.mem.readWord (c + 3)) x).writeWord (s.mem.readWord (c + 3) + 1) y, draws := s.draws + 3
      nets := (s.setNet i (if s.nets[i] = none then some { address := (x, y), received := [] } else none)).nets }) := by
  obtain ⟨one, two, three⟩ := params_present fun k hk => present k (by omega)
  have notZero : ¬ (1 : Word) = 0 := by decide
  refine ⟨s.free, s.free 1, s.free 2 &&& 0x7FFFFFFF#32, nonNegative_toInt _, ?_⟩
  simp only [periOperation, netSS, ioRun_param_bind off one, ioRun_param_bind off two, ioRun_param_bind off three, ioRun_unit_bind named]
  rcases switched with ⟨word, isOn⟩ | ⟨word, isOff⟩
  · obtain ⟨u, isOn⟩ := Option.ne_none_iff_exists'.1 isOn
    simp only [word, if_true, pure_bind, ioRun_get_bind, isOn, Bool.not_false, Bool.true_and, Option.isNone_some, Bool.false_eq_true,
      if_false, ioRun_readTwo_bind off there there', Bool.false_and, ioRun_drawWord_bind, reduceCtorEq]
    rw [ioRun_writeWords_bind (by exact off) (by exact two_present there there'), ioRun_modify_bind, ioRun_drawNonNegative]
    rfl
  · simp only [word, notZero, if_true, if_false, pure_bind, ioRun_get_bind, isOff, Bool.not_true, Bool.false_and, Bool.false_eq_true,
      ioRun_readTwo_bind off there there', Option.isSome_none, Bool.and_false, ioRun_drawWord_bind]
    rw [ioRun_writeWords_bind (by exact off) (by exact two_present there there'), ioRun_modify_bind, ioRun_drawNonNegative]
    rfl

end

variable {u : NetUnit} (isOn : s.nets[i] = some u)
include isOn

/-! #### NETSEND (R415) -/

theorem ioRun_netSend_missing
    (missing : memExists s.cfg (s.mem.readWord (c + 2)) = false ∨ memExists s.cfg (s.mem.readWord (c + 2) + 1) = false) :
    ioRun (periOperation c .netSend) s = (errMemory, s) := by
  obtain ⟨one, two, three⟩ := params_present fun k hk => present k (by omega)
  have four : memExists s.cfg (c + 4) = true := present 4 (by decide)
  simp only [periOperation, netSend, ioRun_param_bind off one, ioRun_param_bind off two, ioRun_param_bind off three,
    ioRun_param_bind off four, ioRun_unit_bind named, ioRun_get_bind, isOn, ioRun_present_bind]
  cases first : memExists s.cfg (s.mem.readWord (c + 2)) with
  | true =>
    rw [first] at missing
    rw [ioRun_read_bind off first, ioRun_read_bind_missing off (missing.resolve_left nofun)]
  | false => rw [ioRun_read_bind_missing off first]

/-- NETSEND from memory that exists: the device fails, the packet being sent or not; or the packet is sent, if it is not too long
(entry 33). -/
theorem ioRun_netSend (there : memExists s.cfg (s.mem.readWord (c + 2)) = true)
    (there' : memExists s.cfg (s.mem.readWord (c + 2) + 1) = true) {n : Nat} (small : n < 2 ^ 31)
    (count : (s.mem.readWord (c + 3)).toNat = n)
    (buffer : ∀ k < (n + 3) / 4, memExists s.cfg (s.mem.readWord (c + 4) + BitVec.ofNat 32 k) = true) {sent : HostEvent}
    (packet : sent = .packetSent (i.val + 1) (s.mem.readWord (s.mem.readWord (c + 2)), s.mem.readWord (s.mem.readWord (c + 2) + 1))
      ((List.range n).map (s.mem.packedChar (s.mem.readWord (c + 4))))) :
    ∃ r t, ioRun (periOperation c .netSend) s = (r, t) ∧ t = { s with draws := t.draws, events := t.events } ∧
      (r = 0xFFFFFFFA#32 ∧ (t.events = s.events ∨ n ≤ 1024 ∧ t.events = s.events ++ [sent]) ∨
       r = 0xFFFFFFF8#32 ∧ 1024 < n ∧ t.events = s.events ∨
       0 ≤ r.toInt ∧ n ≤ 1024 ∧ t.events = s.events ++ [sent]) := by
  obtain ⟨one, two, three⟩ := params_present fun k hk => present k (by omega)
  have four : memExists s.cfg (c + 4) = true := present 4 (by decide)
  simp only [periOperation, netSend, ioRun_param_bind off one, ioRun_param_bind off two, ioRun_param_bind off three,
    ioRun_param_bind off four, ioRun_unit_bind named, ioRun_get_bind, isOn, ioRun_present_bind, ioRun_read_bind off there,
    ioRun_read_bind off there', msb_of_small (count.trans_lt small), count, Bool.false_eq_true, if_false, ioRun_readBytes_bind off buffer,
    ioRun_drawBit_bind, Bool.not_false, Bool.true_and, datagramBytes, ← packet]
  by_cases fits : n ≤ 1024
  · simp only [decide_eq_true fits, Bool.true_and, if_true]
    cases s.freeBit with
    | true =>
      simp only [if_true, ioRun_drawBit_bind]
      cases s.drawn.freeBit with
      | true => exact ⟨_, _, rfl, rfl, .inl ⟨rfl, .inr ⟨fits, rfl⟩⟩⟩
      | false => exact ⟨_, _, rfl, rfl, .inl ⟨rfl, .inl rfl⟩⟩
    | false => exact ⟨_, _, rfl, rfl, .inr (.inr ⟨nonNegative_toInt _, fits, rfl⟩)⟩
  · simp only [decide_eq_false fits, Bool.false_and, Bool.false_eq_true, if_false]
    cases s.freeBit with
    | true => exact ⟨_, _, rfl, rfl, .inl ⟨rfl, .inl rfl⟩⟩
    | false => exact ⟨_, _, rfl, rfl, .inr (.inl ⟨rfl, by omega, rfl⟩)⟩

/-! #### NETRECV (R416) -/

/-- With no packet the two words for the address are looked at, then the device may fail, and then there is no data (entry 34). -/
theorem ioRun_netRecv_empty (empty : u.received = []) :
    ioRun (periOperation c .netRecv) s =
      ioRun (ioReadWords errMemory (s.mem.readWord (c + 2)) 2 >>= fun _ => mayFail errDevFailed >>= fun _ => throw errNoData) s := by
  obtain ⟨one, two, three⟩ := params_present fun k hk => present k (by omega)
  simp only [periOperation, netRecv, ioRun_param_bind off one, ioRun_param_bind off two, ioRun_param_bind off three,
    ioRun_unit_bind named, ioRun_get_bind, isOn, ioRun_present_bind, empty]

/-- With a packet its source and its bytes are stored, and it is taken away unless the device fails (entry 33). -/
theorem ioRun_netRecv_packet {p : Packet} {rest : List Packet} (first : u.received = p :: rest) :
    ioRun (periOperation c .netRecv) s =
      ioRun (ioWriteTwo (s.freeBit 2) (s.mem.readWord (c + 2)) (s.mem.readWord (c + 3)) [p.source.1, p.source.2]
          (packBytes (s.free 1) (p.data.take datagramBytes)) >>= fun _ =>
        (modify fun s => s.setNet i (some { u with received := rest }) : Io Unit) >>= fun _ => drawNonNegative)
      ((s.drawn 3).setNet i (some (if s.freeBit = true then { u with received := rest } else u))) := by
  obtain ⟨one, two, three⟩ := params_present fun k hk => present k (by omega)
  simp only [periOperation, netRecv, ioRun_param_bind off one, ioRun_param_bind off two, ioRun_param_bind off three,
    ioRun_unit_bind named, ioRun_get_bind, isOn, ioRun_present_bind, first, ioRun_drawBit_bind, ioRun_drawWord_bind, ioRun_modify_bind,
    drawn_drawn, Nat.reduceAdd]
  rfl

theorem ioRun_netRecv_missing
    (missing : memExists s.cfg (s.mem.readWord (c + 2)) = false ∨ memExists s.cfg (s.mem.readWord (c + 2) + 1) = false) :
    (ioRun (periOperation c .netRecv) s).1 = errMemory ∧ (u.received = [] → (ioRun (periOperation c .netRecv) s).2 = s) := by
  cases packets : u.received with
  | nil =>
    rw [ioRun_netRecv_empty off present named isOn packets, ioRun_readTwo_bind_missing off missing]
    exact ⟨rfl, fun _ => rfl⟩
  | cons p rest =>
    obtain ⟨k, hk, word⟩ : ∃ k < 2, memExists s.cfg (s.mem.readWord (c + 2) + BitVec.ofNat 32 k) = false := by
      rcases missing with h | h
      · exact ⟨0, by decide, by simpa using h⟩
      · exact ⟨1, by decide, h⟩
    rw [ioRun_netRecv_packet off present named isOn packets, ioRun_writeTwo_bind_missing (by exact off) hk (by exact word)]
    exact ⟨rfl, nofun⟩

section
variable (there : memExists s.cfg (s.mem.readWord (c + 2)) = true) (there' : memExists s.cfg (s.mem.readWord (c + 2) + 1) = true)
include there there'

theorem ioRun_netRecv_noData (empty : u.received = []) :
    ioRun (periOperation c .netRecv) s =
      ((if s.freeBit = true then 0xFFFFFFFA#32 else 0xFFFFFFF5#32), { s with draws := s.draws + 1 }) := by
  rw [ioRun_netRecv_empty off present named isOn empty, ioRun_readTwo_bind off there there', ioRun_mayFail_bind]
  cases s.freeBit <;> rfl

/-- NETRECV of a packet into memory that exists: its words may be stored in part where the device fails, and all of them are where it
does not (entry 33). -/
theorem ioRun_netRecv {p : Packet} {rest : List Packet} {l : Nat} (first : u.received = p :: rest) (length : l = min 1024 p.data.length)
    (buffer : ∀ k < (l + 3) / 4, memExists s.cfg (s.mem.readWord (c + 3) + BitVec.ofNat 32 k) = true ∧
      s.mem.readWord (c + 3) + BitVec.ofNat 32 k ≠ s.mem.readWord (c + 2) ∧
      s.mem.readWord (c + 3) + BitVec.ofNat 32 k ≠ s.mem.readWord (c + 2) + 1) :
    ∃ r t left, ioRun (periOperation c .netRecv) s = (r, t) ∧
      t = { s with mem := t.mem, nets := (s.setNet i (some { u with received := left })).nets, draws := t.draws } ∧
      (∀ x, x ≠ s.mem.readWord (c + 2) → x ≠ s.mem.readWord (c + 2) + 1 →
        (∀ k < (l + 3) / 4, x ≠ s.mem.readWord (c + 3) + BitVec.ofNat 32 k) → t.mem.readWord x = s.mem.readWord x) ∧
      (r = 0xFFFFFFFA#32 ∧ (left = u.received ∨ left = rest) ∨
       0 ≤ r.toInt ∧ left = rest ∧ t.mem.readWord (s.mem.readWord (c + 2)) = p.source.1 ∧
         t.mem.readWord (s.mem.readWord (c + 2) + 1) = p.source.2 ∧
         ∀ k < l, t.mem.packedChar (s.mem.readWord (c + 3)) k = p.data.getD k 0) := by
  have bytes : (p.data.take datagramBytes).length = l := by rw [List.length_take, datagramBytes, length]
  have words (pad : Word) : (packBytes pad (p.data.take datagramBytes)).length = (l + 3) / 4 := by rw [packBytes_length, bytes]
  rw [ioRun_netRecv_packet off present named isOn first, ioRun_writeTwo_bind (by exact off) (by exact two_present there there')
    (by rw [words]; exact fun k hk => (buffer k hk).1)]
  cases s.freeBit 2 with
  | true =>
    obtain ⟨m, d, kept, frame⟩ := ioKeepSomeOfTwo_frame (s := (s.drawn 3).setNet i (some (if s.freeBit = true
      then { u with received := rest } else u))) off (s.mem.readWord (c + 2)) (s.mem.readWord (c + 3)) [p.source.1, p.source.2]
      (packBytes (s.free 1) (p.data.take datagramBytes))
    rw [if_pos rfl, kept]
    refine ⟨_, _, if s.freeBit = true then rest else u.received, rfl, ?_, fun x notFirst notSecond outside =>
      frame x (avoids_two notFirst notSecond) (by rwa [words]), .inl ⟨rfl, ?_⟩⟩
    · cases s.freeBit <;> rfl
    · cases s.freeBit
      · exact .inl rfl
      · exact .inr rfl
  | false =>
    rw [if_neg Bool.false_ne_true, ioRun_modify_bind, ioRun_drawNonNegative]
    have away {x : Word} (outside : ∀ k < (l + 3) / 4, x ≠ s.mem.readWord (c + 3) + BitVec.ofNat 32 k) := load_readWord_ne
      (packBytes (s.free 1) (p.data.take datagramBytes)) (s.mem.load (s.mem.readWord (c + 2)) [p.source.1, p.source.2]) _ x
      (by rwa [words])
    have source (k : Nat) (hk : k < 2) := load_readWord [p.source.1, p.source.2] s.mem (s.mem.readWord (c + 2)) (by simp) k hk
    have source0 := source 0 (by decide)
    rw [show s.mem.readWord (c + 2) + BitVec.ofNat 32 0 = s.mem.readWord (c + 2) by simp] at source0
    refine ⟨_, _, rest, rfl, ?_, fun x notFirst notSecond outside => ?_, .inr ⟨nonNegative_toInt _, rfl, ?_, ?_, fun k hk => ?_⟩⟩
    · rw [← setNet_setNet s i]
      rfl
    · exact (away outside).trans (load_readWord_ne _ s.mem _ x (avoids_two notFirst notSecond))
    · exact (away fun k hk => (buffer k hk).2.1.symm).trans source0
    · exact (away fun k hk => (buffer k hk).2.2.symm).trans (source 1 (by decide))
    · refine (packedChar_load _ _ (s.free 1) (by omega) (by rw [bytes]; omega)).trans ?_
      rw [List.getD_eq_getElem _ _ (by omega), List.getD_eq_getElem _ _ (by omega), List.getElem_take]

end

end

/-! ### Packets that arrive (R416; entry 33) -/

theorem acceptInput_packet {s : State} {number : Nat} {p : Packet} {more : List HostInput} {later : List (List HostInput)}
    (host : s.inputs = (.packet number p :: more) :: later) :
    acceptInput s = applyInputs ({ s with inputs := later }.receive number p) more := by
  rw [acceptInput, host]
  rfl

theorem receive_on {s : State} {i : Fin 2} {u : NetUnit} {p : Packet} (isOn : s.nets[i] = some u) (short : p.data.length ≤ 1024) :
    s.receive (i.val + 1) p = s.setNet i (some { u with received := u.received ++ [p] }) := by
  simp only [State.receive, unitIndex_succ, isOn, datagramBytes, short, if_true]

theorem receive_lost {s : State} {i : Fin 2} {p : Packet} (lost : s.nets[i] = none ∨ 1024 < p.data.length) :
    s.receive (i.val + 1) p = s := by
  simp only [State.receive, unitIndex_succ]
  cases unit : s.nets[i] with
  | none => rfl
  | some u =>
    have long : ¬ p.data.length ≤ datagramBytes := by
      rw [unit] at lost
      exact Nat.not_le.2 (lost.resolve_left nofun)
    simp only [long, if_false]

theorem step_eq_of_acceptInput {s t : State} (running : s.flags.r = true) (running' : t.flags.r = true)
    (same : acceptInput s = acceptInput t) : step s = step t := by
  rw [step, step, cycle, cycle, if_pos running, if_pos running', same]

/-! ### The statement -/

/-- Settles O60: the terminal and the network operations are run in their order, and a packet is received before the step it
precedes. -/
theorem terminalInput : Obligations.TerminalInput := by
  refine ⟨fun s i j u => ⟨setNet_getElem s i j u, rfl⟩, ?terminal,
    fun s c off present outside => ioRun_net_missing off present outside, ?network, ?arrival⟩
  case terminal =>
    rintro s c _ _ n off one two rfl rfl
    refine ⟨fun small count buffer => ioRun_termIn off one two small count buffer, fun char same => ?_⟩
    obtain rfl : char = s.mem.packedChar (s.mem.readWord (c + 2)) := funext same
    exact ⟨fun positive small count buffer => ioRun_termOut_count off one two positive small count buffer,
      fun zero hn buffer before last => ioRun_termOut_string off one two zero hn buffer before last,
      fun zero hn buffer before missing => ioRun_termOut_string_missing off one two zero hn buffer before missing,
      fun k hk positive small count missing => ioRun_termOut_count_missing off one two hk positive small count missing⟩
  case network =>
    intro s c a d n i off present named
    refine ⟨?switch, fun isOff => ioRun_net_off off present named isOff, ?missing, ?traffic⟩
    case switch =>
      rintro rfl there there'
      refine ⟨fun word isOff => ioRun_netSS_off_already off present named word isOff, fun word isOn => ?_,
        fun switched => ioRun_netSS_switched off present named there there' switched⟩
      obtain ⟨u, isOn⟩ := Option.ne_none_iff_exists'.1 isOn
      exact ioRun_netSS_on_already off present named there there' word isOn
    case missing =>
      rintro u isOn rfl missing
      exact ⟨ioRun_netSend_missing off present named isOn missing, ioRun_netRecv_missing off present named isOn missing⟩
    case traffic =>
      rintro u isOn rfl there there'
      refine ⟨?_, fun empty => ioRun_netRecv_noData off present named isOn there there' empty, ?_⟩
      · rintro rfl rfl small buffer
        obtain ⟨r, t, sent⟩ := ioRun_netSend off present named isOn there there' small rfl buffer rfl
        exact ⟨r, t, _, rfl, sent⟩
      · rintro p rest l first rfl length buffer
        exact ioRun_netRecv off present named isOn there there' first length buffer
  case arrival =>
    intro s i p more later running host
    refine ⟨fun u isOn short => step_eq_of_acceptInput running running ?_, fun lost => step_eq_of_acceptInput running running ?_⟩
    · rw [acceptInput_packet host, receive_on (s := { s with inputs := later }) isOn short]
      rfl
    · rw [acceptInput_packet host, receive_lost (s := { s with inputs := later }) lost]
      rfl

end Sys2Proof.Machine
end

section
/-! PROOFS. The family 60_exceptions.md: delivery of an interrupt, the emergency procedure, the timer (R455, R460 to R468, R470 k, R483,
R484). -/

namespace Sys2Proof.Machine

/-! ### Where the words of a frame go (R463, D22; entry 47) -/

theorem targetsBelow_all {s : State} {top : Word} {n : Nat} {p : Nat → Word}
    (targets : ∀ k < n, storeTarget s (top - BitVec.ofNat 32 (k + 1)) = .ok (p k)) :
    targetsBelow s top n = ((List.range n).map p, none) := by
  have length : ((List.range n).map p).length = n := by simp
  have stored := targetsBelow_of (s := s) (top := top) (ps := (List.range n).map p) fun k hk => by
    rw [top_sub]
    simpa using targets k (by simpa using hk)
  rwa [length] at stored

theorem frame_distinct (top : Word) (j : Nat) (hj : j < 21) (k : Nat) (hk : k < 21)
    (same : top - BitVec.ofNat 32 (j + 1) = top - BitVec.ofNat 32 (k + 1)) : j = k := by
  by_contra ne
  exact top_sub_ne top (by omega) (by omega) (by omega) same

theorem emergency_mem (s : State) (code : Interrupt) (retpc : Word) (written : List (Word × Word)) :
    (emergency s code retpc written).mem = (keepSomeWords s written).mem := by
  unfold emergency
  dsimp only
  split
  · rfl
  · split <;> rfl

/-- Entering a handler, or the emergency procedure in its place, stores nothing but at the addresses of frame words. -/
theorem enterHandler_readWord_ne {s t : State} {code : Interrupt} {address info : Option Word} {retpc h a : Word}
    (entered : enterHandler s code address info retpc h = .taken t)
    (outside : ∀ p ∈ (targetsBelow (s.drawn 2).asSystem s.sysSp 21).1, a ≠ p) : t.mem.readWord a = s.mem.readWord a := by
  obtain ⟨ps, x, targets, outcome⟩ := enterHandler_taken entered
  rw [targets] at outside
  have away (vs : List Word) : ∀ y ∈ ps.zip vs, a ≠ y.1 := fun y hy => outside y.1 (List.of_mem_zip (a := y.1) (b := y.2) hy).1
  rcases outcome with ⟨-, rfl⟩ | ⟨-, rfl⟩
  · exact pokeAll_readWord_ne _ _ _ (away _)
  · rw [emergency_mem]
    exact (keepSomeWords_spec _ _).2.1 a (away _)

/-! ### The frame of a delivered interrupt (R463) -/

/-- The frame words of an interrupt; an information or address that is not defined is a free value (U16). -/
def deliveryFrame (s : State) (e : Raised) (retpc : Word) : List Word :=
  frameWords s (e.info.getD (s.free 1)) (e.address.getD (s.free 0)) (BitVec.ofNat 32 (deliveredCode s e.code).code) retpc

theorem deliveryFrame_eq (s : State) (e : Raised) (retpc : Word) :
    deliveryFrame s e retpc = s.regs.toList ++ [s.readReg 13, s.readReg 14, e.info.getD (s.free 1), e.address.getD (s.free 0),
      BitVec.ofNat 32 (deliveredCode s e.code).code, s.flagsWord, 38, retpc] := rfl

theorem deliveryFrame_regs (s : State) (e : Raised) (retpc : Word) (k : Fin 13) :
    (deliveryFrame s e retpc).getD k 0 = s.regs[k] := by
  rw [deliveryFrame, List.getD_eq_getElem _ _ (by rw [frameWords_length]; omega), frameWords_regs]

theorem deliveryFrame_tail (s : State) (e : Raised) (retpc : Word) (k : Nat) (hk : k < 8) :
    (deliveryFrame s e retpc).getD (13 + k) 0 =
      [s.readReg 13, s.readReg 14, e.info.getD (s.free 1), e.address.getD (s.free 0),
        BitVec.ofNat 32 (deliveredCode s e.code).code, s.flagsWord, 38, retpc][k] := by
  rw [deliveryFrame, List.getD_eq_getElem _ _ (by rw [frameWords_length]; omega), frameWords_tail _ _ _ _ _ k hk]
  rfl

section
variable {s : State} {e : Raised} {retpc h : Word} {p : Nat → Word}
  (heard : s.ignores (deliveredCode s e.code) = false) (int : s.flags.int = true) (vector : s.intVec ≠ 0)
  (entry : vectorEntry s (deliveredCode s e.code) = some h)
include heard int vector entry

/-! ### The handler entered (R460 steps 5 and 6, R467) -/

/-- Where the 21 words of the frame can be stored, at different addresses, they are, and the handler is entered. -/
theorem deliver_entered
    (targets : ∀ k < 21, storeTarget s.asSystem (s.sysSp - BitVec.ofNat 32 (k + 1)) = .ok (p k))
    (distinct : ∀ j < 21, ∀ k < 21, p j = p k → j = k) :
    ∃ mem, deliver s e retpc = .taken { s with
        mem := mem, flags := { s.flags with sys := true }, ipl := BitVec.ofNat 5 (deliveredCode s e.code).code
        sysSp := s.sysSp - 21, pc := h, draws := s.draws + 2 } ∧
      (∀ k < 21, mem.readWord (p k) = (deliveryFrame s e retpc).getD k 0) ∧
      ∀ a, (∀ k < 21, a ≠ p k) → mem.readWord a = s.mem.readWord a := by
  obtain ⟨mem, entered, words⟩ := enterHandler_stored (deliveredCode s e.code) e.address e.info retpc h targets distinct
  have others (a : Word) (away : ∀ k < 21, a ≠ p k) := enterHandler_readWord_ne (a := a) entered fun q hq => by
    rw [targetsBelow_all (s := (s.drawn 2).asSystem) targets] at hq
    obtain ⟨k, hk, rfl⟩ := List.mem_map.1 hq
    exact away k (List.mem_range.1 hk)
  exact ⟨mem, (deliver_vectored heard int vector entry).trans entered, words, others⟩

/-! ### The emergency procedure taken (R468) -/

/-- Where word k of the frame cannot be written, the emergency procedure gets the k words before it. -/
theorem deliver_emergency {k : Nat} {x : Raised} (hk : k < 21)
    (targets : ∀ j < k, storeTarget s.asSystem (s.sysSp - BitVec.ofNat 32 (j + 1)) = .ok (p j))
    (failed : storeTarget s.asSystem (s.sysSp - BitVec.ofNat 32 (k + 1)) = .error (.raised x)) :
    deliver s e retpc = .taken
      (emergency (s.drawn 2) (deliveredCode s e.code) retpc (((List.range k).map p).zip (deliveryFrame s e retpc))) := by
  have stopped : targetsBelow (s.drawn 2).asSystem s.sysSp 21 = ((List.range k).map p, some (.raised x)) :=
    targetsBelow_error 21 k hk targets failed
  rw [deliver_vectored heard int vector entry]
  simp only [enterHandler, State.drawn_sysSp, stopped, deliveryFrame]

end

/-- Settles O13: with VM = 0 the frame's addresses are their own translations, so both clauses are `deliver_entered`. -/
theorem handlerEntryBuildsTheFrame : Obligations.HandlerEntryBuildsTheFrame := by
  refine ⟨fun s e retpc h off heard int vector entry stack => ?plain,
    fun s e retpc h p heard int vector entry targets distinct => ?translated⟩
  case plain =>
    have targets (k : Nat) (hk : k < 21) := storeTarget_plain (s := s.asSystem) off (stack k hk).1 (stack k hk).2
    obtain ⟨mem, taken, words, others⟩ :=
      deliver_entered (retpc := retpc) heard int vector entry targets (frame_distinct s.sysSp)
    -- From the new SYSSP upward the words lie in the opposite order.
    have upward (i : Nat) (hi : i < 21) :
        mem.readWord (s.sysSp - 21 + BitVec.ofNat 32 i) = (deliveryFrame s e retpc).getD (20 - i) 0 := by
      rw [frame_place s.sysSp hi]
      exact words (20 - i) (by omega)
    have tail := deliveryFrame_tail s e retpc
    have lowest := (upward 0 (by decide)).trans (tail 7 (by decide))
    rw [BitVec.ofNat_eq_ofNat, BitVec.add_zero] at lowest
    refine ⟨_, taken, rfl, rfl, rfl, rfl, lowest, (upward 1 (by decide)).trans (tail 6 (by decide)),
      (upward 2 (by decide)).trans (tail 5 (by decide)), (upward 3 (by decide)).trans (tail 4 (by decide)),
      fun a given => (upward 4 (by decide)).trans ((tail 3 (by decide)).trans (by simp [given])),
      fun a given => (upward 5 (by decide)).trans ((tail 2 (by decide)).trans (by simp [given])),
      (upward 6 (by decide)).trans (tail 1 (by decide)), (upward 7 (by decide)).trans (tail 0 (by decide)), fun k => ?regs,
      fun a away => others a fun k hk => ?away, rfl, rfl, rfl, rfl, rfl, rfl, rfl, rfl, rfl, rfl, rfl, rfl, rfl, rfl⟩
    case regs =>
      refine (upward (20 - k.val) (by omega)).trans ?_
      rw [show 20 - (20 - k.val) = k.val by omega]
      exact deliveryFrame_regs s e retpc k
    case away =>
      have := away (20 - k) (by omega)
      rw [frame_place s.sysSp (by omega)] at this
      rwa [show 20 - (20 - k) = k by omega] at this
  case translated =>
    obtain ⟨mem, taken, words, others⟩ := deliver_entered (retpc := retpc) heard int vector entry targets distinct
    have tail (k : Nat) (hk : k < 8) := (words (13 + k) (by omega)).trans (deliveryFrame_tail s e retpc k hk)
    exact ⟨_, taken, rfl, fun k => (words k (by omega)).trans (deliveryFrame_regs s e retpc k), tail 0 (by decide),
      tail 1 (by decide), fun a given => (tail 2 (by decide)).trans (by simp [given]),
      fun a given => (tail 3 (by decide)).trans (by simp [given]), tail 4 (by decide), tail 5 (by decide), tail 6 (by decide),
      tail 7 (by decide), others⟩

/-! ### What the emergency procedure leaves (R468, U22; entry 27) -/

theorem zip_targets_length {p : Nat → Word} {vs : List Word} {k : Nat} (hk : k ≤ vs.length) :
    (((List.range k).map p).zip vs).length = k := by
  simp [hk]

theorem zip_targets_place {p : Nat → Word} {vs : List Word} {k : Nat} {y : Word × Word}
    (listed : y ∈ ((List.range k).map p).zip vs) : ∃ j < k, p j = y.1 := by
  simpa using (List.of_mem_zip (a := y.1) (b := y.2) listed).1

/-- Of the words before the failing one each is in memory or not, and no other word changes. -/
theorem keepSomeWords_targets (s : State) {p : Nat → Word} {vs : List Word} {k : Nat} (hk : k ≤ vs.length)
    (distinct : ∀ i < k, ∀ j < k, p i = p j → i = j) {mem : Memory}
    (left : mem = (keepSomeWords s (((List.range k).map p).zip vs)).mem) :
    (∀ a, (∀ j < k, a ≠ p j) → mem.readWord a = s.mem.readWord a) ∧
    ∀ j < k, mem.readWord (p j) = s.mem.readWord (p j) ∨ mem.readWord (p j) = vs.getD j 0 := by
  subst left
  obtain ⟨-, others, each⟩ := keepSomeWords_spec s (((List.range k).map p).zip vs)
  refine ⟨fun a away => others a fun y listed => ?_, fun j hj => each ?_ (p j, vs.getD j 0) ?_⟩
  · obtain ⟨j, hj, here⟩ := zip_targets_place listed
    exact here ▸ away j hj
  · rw [List.map_fst_zip (by simp [hk])]
    exact List.Nodup.map_on (fun i hi j hj => distinct i (List.mem_range.1 hi) j (List.mem_range.1 hj)) List.nodup_range
  · rw [List.getD_eq_getElem _ _ (by omega), List.mem_iff_getElem]
    exact ⟨j, by rwa [zip_targets_length hk], by simp⟩

theorem vectorEntry_congr {s t : State} {c : Interrupt} (cfg : t.cfg = s.cfg) (base : t.intVec = s.intVec)
    (word : t.mem.readWord (s.intVec + BitVec.ofNat 32 c.code) = s.mem.readWord (s.intVec + BitVec.ofNat 32 c.code)) :
    vectorEntry t c = vectorEntry s c := by
  simp only [vectorEntry, cfg, base, word]

/-- A vector entry that no frame word overlaps is as before. -/
theorem vectorEntry_keepSomeWords {s : State} {c : Interrupt} {written : List (Word × Word)}
    (apart : ∀ y ∈ written, y.1 ≠ s.intVec + BitVec.ofNat 32 c.code) :
    vectorEntry (keepSomeWords s written) c = vectorEntry s c := by
  obtain ⟨fields, others, -⟩ := keepSomeWords_spec s written
  exact vectorEntry_congr (by rw [fields]) (by rw [fields]) (others _ fun y hy => (apart y hy).symm)

section
variable {s : State} {written : List (Word × Word)}
  (apart : ∀ y ∈ written, y.1 ≠ s.intVec + 16 ∧ y.1 ≠ s.intVec + 17)
include apart

theorem emergency_jumps {g : Word} (code : Interrupt) (retpc : Word)
    (entry : vectorEntry s .sysstkfl = some g ∨ vectorEntry s .sysstkfl = none ∧ vectorEntry s .intrfault = some g) :
    emergency s code retpc written = { s with
      mem := (keepSomeWords s written).mem, emgRet := retpc, flags := { s.flags with em := true, sys := true }
      ipl := BitVec.ofNat 5 code.code, pc := g, draws := s.draws + written.length } := by
  have stackFault := vectorEntry_keepSomeWords (c := .sysstkfl) fun y hy => (apart y hy).1
  have intrFault := vectorEntry_keepSomeWords (c := .intrfault) fun y hy => (apart y hy).2
  have fields := (keepSomeWords_spec s written).1
  rcases entry with here | ⟨missing, here⟩
  · simp only [emergency, stackFault, here]
    rw [fields]
  · simp only [emergency, stackFault, intrFault, missing, here]
    rw [fields]

theorem emergency_debugger (code : Interrupt) (retpc : Word) (noStackEntry : vectorEntry s .sysstkfl = none)
    (noFaultEntry : vectorEntry s .intrfault = none) :
    emergency s code retpc written = { s with
      mem := (keepSomeWords s written).mem, flags := { s.flags with r := false }, status := .debugger
      draws := s.draws + written.length } := by
  have stackFault := vectorEntry_keepSomeWords (c := .sysstkfl) fun y hy => (apart y hy).1
  have intrFault := vectorEntry_keepSomeWords (c := .intrfault) fun y hy => (apart y hy).2
  have fields := (keepSomeWords_spec s written).1
  simp only [emergency, stackFault, intrFault, noStackEntry, noFaultEntry]
  rw [State.enterDebugger, fields]

end

/-- Settles O16: with no word written before the failing one memory is as it was; with some, `keepSomeWords_targets` says what
is left of them. -/
theorem emergencyProcedure : Obligations.EmergencyProcedure := by
  refine fun s e retpc h x heard int vector entry => ⟨fun failed => ?first, fun k p pos hk targets failed distinct apart => ?later⟩
  case first =>
    have taken := deliver_emergency (retpc := retpc) (p := fun _ => 0) heard int vector entry (by decide : 0 < 21) (by simp) failed
    exact ⟨fun g handler => taken.trans (congrArg Delivery.taken (emergency_jumps (by simp) _ _ handler)),
      fun noStackEntry noFaultEntry => taken.trans (congrArg Delivery.taken (emergency_debugger (by simp) _ _ noStackEntry noFaultEntry))⟩
  case later =>
    have inside : k ≤ (deliveryFrame s e retpc).length := by rw [deliveryFrame, frameWords_length]; omega
    have clear : ∀ y ∈ ((List.range k).map p).zip (deliveryFrame s e retpc), y.1 ≠ s.intVec + 16 ∧ y.1 ≠ s.intVec + 17 :=
      fun y listed => by
        obtain ⟨j, hj, here⟩ := zip_targets_place listed
        exact here ▸ apart j hj
    have left := emergency_mem (s.drawn 2) (deliveredCode s e.code) retpc (((List.range k).map p).zip (deliveryFrame s e retpc))
    obtain ⟨others, each⟩ := keepSomeWords_targets (s.drawn 2) inside distinct left
    refine ⟨_, deliver_emergency heard int vector entry hk targets failed, others,
      ⟨e.info.getD (s.free 1), e.address.getD (s.free 0), fun a given => ?info, fun a given => ?address, each⟩,
      fun g handler => ?jumps, fun noStackEntry noFaultEntry => ?debugger⟩
    case info | address => rw [given, Option.getD_some]
    case jumps =>
      rw [left, emergency_jumps (s := s.drawn 2) clear _ _ handler, zip_targets_length inside]
      rfl
    case debugger =>
      rw [left, emergency_debugger (s := s.drawn 2) clear _ _ noStackEntry noFaultEntry, zip_targets_length inside]
      rfl

/-! ### The timer (R470 k, R483, R484) -/

theorem State.tick_expired {s : State} (zero : s.timer = 0) : s.tick = s := if_pos zero

theorem State.tick_counts {s : State} (counting : s.timer ≠ 0) :
    s.tick = { s with timer := s.timer - 1, timerPending := s.timerPending || s.timer == 1 } := by
  have last : (s.timer - 1 == 0) = (s.timer == 1) := by
    rw [Bool.eq_iff_iff, beq_iff_eq, beq_iff_eq, sub_eq_zero]
  rw [State.tick, if_neg counting, last]

section
variable {s : State} (running : s.flags.r = true) (host : s.inputs = []) (quiet : KeyboardQuiet s)
include running host quiet

/-- While KEYBD cannot be taken, TIMER is what a step tries first. -/
theorem step_timer_taken {t : State} (taken : timerInterrupt s = .taken t) : step s = .next { t with timerPending := false } := by
  rw [step_afterInput running host, afterInput]
  rcases keyboardInterrupt_quiet quiet with k | k <;> rw [k, taken]

theorem step_timer_ignored (ignored : timerInterrupt s = .ignored) : step s = executeOne s := by
  rw [step_afterInput running host, afterInput]
  rcases keyboardInterrupt_quiet quiet with k | k <;> rw [k, ignored]

theorem step_timer_dropped (dropped : timerInterrupt s = .dropped) : step s = executeOne { s with timerPending := false } := by
  rw [step_afterInput running host, afterInput]
  rcases keyboardInterrupt_quiet quiet with k | k <;> rw [k, dropped]

end

theorem timerInterrupt_pending {s : State} (pending : s.timerPending = true) :
    timerInterrupt s = deliver s ⟨.timer, none, none⟩ s.pc := if_pos pending

/-- Settles O19: the countdown is `State.tick`, and a pending TIMER is ignored, dropped or taken as its delivery says. -/
theorem timerCountsInstructions : Obligations.TimerCountsInstructions := by
  refine ⟨fun s u executed => ?countdown, fun s running host quiet => ⟨fun idle => ?idle, fun pending high => ?waits,
    fun pending low off => ?dropped, fun t pending taken => ?taken⟩⟩
  case countdown => exact ⟨u.tick, by rw [executeOne, executed, ticked], State.tick_expired, State.tick_counts⟩
  case idle => exact step_executeOne running host quiet idle
  case waits => exact step_timer_ignored running host quiet ((timerInterrupt_pending pending).trans (deliver_ignored (by exact high) _))
  case dropped =>
    have dropped := (deliver_unprocessed (e := ⟨.timer, none, none⟩) low off s.pc).trans (if_pos (.inl rfl))
    exact step_timer_dropped running host quiet ((timerInterrupt_pending pending).trans dropped)
  case taken => exact step_timer_taken running host quiet ((timerInterrupt_pending pending).trans taken)

/-! ### Interrupts not delivered as themselves (R461, R462, R464 to R466) -/

/-- Settles O14: the two ways in which an interrupt is not delivered. -/
theorem undeliverableInterrupts : Obligations.UndeliverableInterrupts := by
  refine fun s e retpc => ⟨fun low => deliver_ignored low retpc, fun high off => ⟨fun quiet => ?_, fun notTimer notKeybd => ?_⟩⟩
  · rw [deliver_unprocessed high off, if_pos quiet]
  · rw [deliver_unprocessed high off, if_neg (not_or.2 ⟨notTimer, notKeybd⟩), State.stopProgram]

/-- Delivery turns no other interrupt into INTRFAULT (R465). -/
theorem deliveredCode_intrfault (s : State) (c : Interrupt) : deliveredCode s c = .intrfault ↔ c = .intrfault := by
  unfold deliveredCode
  split
  · next pagefault => simp [pagefault.1]
  · rfl

theorem deliver_unvectored {s : State} {e : Raised} {retpc : Word} (heard : s.ignores (deliveredCode s e.code) = false)
    (int : s.flags.int = true) (vector : s.intVec ≠ 0) (missing : vectorEntry s (deliveredCode s e.code) = none)
    (other : e.code ≠ .intrfault) : deliver s e retpc = deliverIntrFault s (deliveredCode s e.code) e.address retpc := by
  have processed : s.processesInterrupts = true := by simpa [State.processesInterrupts, int] using vector
  have code : deliveredCode s e.code ≠ .intrfault := mt (deliveredCode_intrfault s e.code).1 other
  simp only [deliver, heard, processed, missing, code, Bool.not_true, Bool.false_eq_true, if_false]

/-- Settles O15: a missing entry is `deliverIntrFault`, whose outcome is that of delivering INTRFAULT. -/
theorem badVectorGivesIntrfault : Obligations.BadVectorGivesIntrfault := by
  refine ⟨fun s e retpc heard int vector missing other => ?fault, fun s => ⟨fun twelve => ?second, fun away => ?first⟩,
    fun s c a here => ?entry, rfl⟩
  case fault =>
    have delivered := deliver_unvectored (retpc := retpc) heard int vector missing other
    have faultHeard (low : s.ipl.toNat < 17) : s.ignores .intrfault = false := decide_eq_false (not_le.2 low)
    refine ⟨fun low h entry => ?_, fun low noEntry => ?_, fun high => ?_⟩
    · rw [delivered, deliver_vectored (e := ⟨.intrfault, _, _⟩) (faultHeard low) int vector entry]
      simp only [deliverIntrFault, faultHeard low, Bool.false_eq_true, if_false, entry]
      rfl
    · rw [delivered]
      simp only [deliverIntrFault, faultHeard low, Bool.false_eq_true, if_false, noEntry]
    · have faultIgnored : s.ignores .intrfault = true := decide_eq_true high
      rw [delivered, deliverIntrFault, if_pos faultIgnored]
  case second => exact if_pos ⟨rfl, twelve⟩
  case first => exact if_neg fun both => away both.2
  case entry =>
    subst here
    simp only [vectorEntry, Bool.and_eq_true, bne_iff_ne]

end Sys2Proof.Machine
end
